-- ==== Sys2Proof/Word.lean ====
section
/-!
DEFINITION. The word types of the engine (00_scope.md R11, R12, R135: every value is an unsigned bit
vector; 10_state.md R24 gives the widths).
-/

namespace Sys2Proof

/-- One byte, the smallest addressable unit of system memory (20_memory.md R70). -/
abbrev Byte := BitVec 8

/-- A 16-bit value: block counts, ring positions, command identifiers (10_state.md R24). -/
abbrev Half := BitVec 16

/-- A 32-bit value: a dword of a structure, a 32-bit register (00_scope.md R11). -/
abbrev Word := BitVec 32

/-- A 64-bit value: physical addresses and LBAs (00_scope.md R9 `ADDR_BITS`). -/
abbrev Quad := BitVec 64

/-- The size of the physical address space in bytes (20_memory.md R70, R71). -/
def addrSpace : Nat := 18446744073709551616

/-- `lo32` of 00_scope.md R12. -/
def lo32 (v : Quad) : Word := v.extractLsb' 0 32

/-- `hi32` of 00_scope.md R12. -/
def hi32 (v : Quad) : Word := v.extractLsb' 32 32

/-- `ceil_div` of 00_scope.md R12, computed without wrap-around. -/
def ceilDiv (a b : Nat) : Nat := (a + b - 1) / b

end Sys2Proof
end

