-- ==== Sys2Proof/Config.lean ====
section
/-!
DEFINITION. The parameters of 00_scope.md R9, as one record that the State carries and no step changes
(R10), and the free values: constants with no body, for what the spec leaves at "any value".
-/

namespace Sys2Proof

/-- Placement of count and LBA in cdw10 to cdw12 (R9 `NVME_RW_LAYOUT`, 30_encoding.md R124). -/
inductive RwLayout where
  | docLayout
  | stdLayout
  deriving DecidableEq, Repr

/-- A (word, bit) position in the IDENTIFY DEVICE payload (R9 `ID_NCQ`, `ID_TRIM`, `ID_SMART`). -/
structure BitPos where
  word : BitVec 8
  bit : BitVec 4
  deriving DecidableEq, Repr

/-- The parameter record of 00_scope.md R9. The defaults are those of R9 and 92_eei_decisions.md; a
parameter that R9 leaves OPEN without a default takes the value named in log 7 (DESIGN CHOICE). The
values marked [gk] in R9 are PRESUMED (log 37). Budgets are 32 bits wide, as R346 has them. -/
structure Params where
  /-- `PRDT_CAP`, 1..65535; OPEN, "typically 8". The range is not checked: another number is used as it stands (DESIGN
  CHOICE, log 43). -/
  prdtCap : Nat := 8
  /-- `BUSY_BUDGET` (D13). -/
  busyBudget : Word := 1000000#32
  /-- `POLL_BUDGET`; OPEN, default 1000000. -/
  pollBudget : Word := 1000000#32
  /-- `RESET_BUDGET`; OPEN, default 1000000. -/
  resetBudget : Word := 1000000#32
  /-- `NVME_ID_BYTES` [gk]. -/
  nvmeIdBytes : Half := 4096#16
  /-- `ID_NCQ` [gk]. -/
  idNcq : BitPos := { word := 76#8, bit := 8#4 }
  /-- `ID_TRIM` [gk]. -/
  idTrim : BitPos := { word := 169#8, bit := 0#4 }
  /-- `ID_SMART` [gk]. -/
  idSmart : BitPos := { word := 82#8, bit := 0#4 }
  /-- `ATA_CMD_READ` [gk]. -/
  ataCmdRead : Byte := 0x25#8
  /-- `ATA_CMD_WRITE` [gk]. -/
  ataCmdWrite : Byte := 0x35#8
  /-- `ATA_CMD_IDENTIFY` [gk]. -/
  ataCmdIdentify : Byte := 0xEC#8
  /-- `FIS_FLAGS` [gk]. -/
  fisFlags : Byte := 0x80#8
  /-- `NVME_OPC_READ` [gk]. -/
  nvmeOpcRead : Byte := 0x02#8
  /-- `NVME_OPC_WRITE` [gk]. -/
  nvmeOpcWrite : Byte := 0x01#8
  /-- `NVME_OPC_IDENTIFY` [gk]. -/
  nvmeOpcIdentify : Byte := 0x06#8
  /-- `AHCI_BUSY_OFF`, offset in the port block (D10). -/
  ahciBusyOff : Nat := 0x1C
  /-- `AHCI_BUSY_MASK` [gk]. -/
  ahciBusyMask : Word := 0x00000088#32
  /-- `AHCI_ERR_OFF`, offset in the port block (D11). -/
  ahciErrOff : Nat := 0x1C
  /-- `AHCI_ERR_MASK` [gk]. -/
  ahciErrMask : Word := 0x00000001#32
  /-- `CAP_CLAMP` (D28). -/
  capClamp : Quad := 0xFFFFFFFF#64
  /-- `SECSZ_SCALE` (D29). -/
  secszScale : Nat := 1
  /-- `PHASE_INIT` [gk]. -/
  phaseInit : BitVec 1 := 1#1
  /-- `NVME_CHECK_CFS` (D26). -/
  nvmeCheckCfs : Bool := false
  /-- `NVME_RW_LAYOUT` (D20). -/
  nvmeRwLayout : RwLayout := .docLayout
  /-- `CACHE_FLUSH_REQUIRED`; OPEN (D35). -/
  cacheFlushRequired : Bool := false
  /-- `ID_BUF`, the identify buffer of 10_state.md R34; 0 when none is set aside. -/
  idBuf : Quad := 0#64
  /-- The amount of system memory in bytes, a configuration of the system (20_memory.md R85); log 32. -/
  memBytes : Nat := addrSpace
  deriving DecidableEq, Repr

/-- The address behind the last byte of system memory, which starts at 0 (20_memory.md R70, R85; log 32). -/
def Params.memEnd (p : Params) : Nat := min p.memBytes addrSpace

/-! Fixed parameters of R9. -/

/-- `CHUNK_SECTORS`. -/
def chunkSectors : Nat := 16
/-- `SECTOR_BYTES`. -/
def sectorBytes : Nat := 512
/-- `CHUNK_BYTES` = `CHUNK_SECTORS` * `SECTOR_BYTES`. -/
def chunkBytes : Nat := 8192
/-- `PRDT_ABS_MAX`. -/
def prdtAbsMax : Nat := 65535
/-- `PRDT_MAX_SPAN`, 4 MiB. -/
def prdtMaxSpan : Nat := 4194304
/-- `ID_BYTES`. -/
def idBytes : Nat := 512

/-! Free values. None has a body: nothing can be proved of the number each gives. -/

/-- The value of a byte of system memory that nothing has written (10_state.md R64, 70_reset_and_hazards.md R362,
93_implementation_defined.md U11: "any value"). Free value, log 5. -/
opaque Config.freeByte : Nat → Byte

/-- The value the n-th read of a register with no known content answers (40_mmio_access.md R166: "any
value"; 70_reset_and_hazards.md R361). Free value, log 4. -/
opaque Config.freeBus : Nat → Quad

/-- `RAW` of the n-th response when its result is not DeviceError (30_encoding.md R111: unspecified).
Free value, log 17. -/
opaque Config.freeRspRaw : Nat → Word

/-- `VAL` of the n-th response when the operation's rule returns no value (30_encoding.md R111:
unspecified). Free value, log 17. -/
opaque Config.freeRspVal : Nat → Quad

end Sys2Proof
end

