-- ==== Sys2Proof/Syntax.lean ====
section
/-!
DEFINITION. The syntax: a request's operand fields (30_encoding.md R110), the structures the engine emits or
reads (R115 to R125), and `Instr`, one constructor per row of spec/opcode_table.json.
-/

namespace Sys2Proof

/-- The operand fields of a request (30_encoding.md R110); all five are loaded at acceptance whether or
not the operation uses them (10_state.md R25). The two reserved dwords hold zero and no information. -/
structure Request where
  /-- `DEV`, DW0 bits 15:8. -/
  dev : Byte := 0#8
  /-- `CNT`, DW0 bits 31:16. -/
  cnt : Half := 0#16
  /-- `ARG`, DW1. -/
  arg : Word := 0#32
  /-- `LBA`, DW2 and DW3. -/
  lba : Quad := 0#64
  /-- `BUF`, DW4 and DW5. -/
  buf : Quad := 0#64
  deriving DecidableEq, Repr

/-- The variable fields of a Host-to-Device Register FIS (30_encoding.md R120), but for its command byte. -/
structure Fis where
  /-- Byte 1, `FIS_FLAGS`. -/
  flags : Byte
  /-- The "no LBA mode" flag: device byte 0x00 instead of 0x40. -/
  noLba : Bool
  /-- `lba0` to `lba5`. -/
  lba : BitVec 48
  /-- `countl`, `counth`. -/
  cnt : Half
  deriving DecidableEq, Repr

/-- The variable fields of a Submission Queue Entry (30_encoding.md R123), but for its opcode. -/
structure Sqe where
  /-- `command id`. -/
  cid : Half
  /-- `nsid`. -/
  nsid : Word
  /-- `PRP1`. -/
  prp1 : Quad
  cdw10 : Word
  cdw11 : Word
  cdw12 : Word
  deriving DecidableEq, Repr

/-- The variable fields of a Command Header (30_encoding.md R115). -/
structure CmdHdr where
  /-- `WRITE`. -/
  write : BitVec 1
  /-- `PRDTL`. -/
  prdtl : Half
  /-- `CTBA` and `CTBAU`. -/
  ctba : Quad
  deriving DecidableEq, Repr

/-- The variable fields of a PRDT entry (30_encoding.md R118, R119). -/
structure PrdtEntry where
  /-- `DBA` and `DBAU`. -/
  dba : Quad
  /-- `DBC`, the byte count minus one. -/
  dbc : BitVec 22
  /-- `I`, set in the last entry only. -/
  last : BitVec 1
  deriving DecidableEq, Repr

/-- A Completion Queue Entry (30_encoding.md R125, R126). -/
structure Cqe where
  /-- `cdw0`, ignored. -/
  cdw0 : Word
  /-- DW1, reserved, ignored. -/
  rsvd : Word
  /-- `sq_head`. -/
  sqHead : Half
  /-- `sq_id`, ignored. -/
  sqId : Half
  /-- `command_id`. -/
  cid : Half
  /-- The phase bit, `DW3[16]`. -/
  phase : BitVec 1
  /-- The 11-bit status field, `DW3[27:17]`. -/
  status : BitVec 11
  /-- `st[15:12]`, ignored. -/
  high : BitVec 4
  deriving DecidableEq, Repr

/-- The 34 operations of 30_encoding.md R112 and the nine structures of the operation table. -/
inductive Instr where
  | rd32 (r : Request)
  | rd64 (r : Request)
  | wr32 (r : Request)
  | wr64 (r : Request)
  | publish (r : Request)
  | ahciAlloc (r : Request)
  | nvmeAlloc (r : Request)
  | prdtBuild (r : Request)
  | fisBuild (r : Request)
  | hdrBuild (r : Request)
  | ahciBuild (r : Request)
  | prpBuild (r : Request)
  | sqeBuild (r : Request)
  | nvmeBuild (r : Request)
  | ahciIssue (r : Request)
  | ahciPoll (r : Request)
  | ahciCmd (r : Request)
  | nvmeRdychk (r : Request)
  | nvmeIssue (r : Request)
  | nvmePoll (r : Request)
  | nvmeCmd (r : Request)
  | readBlocks (r : Request)
  | writeBlocks (r : Request)
  | identify (r : Request)
  | idStr (r : Request)
  | idCap (r : Request)
  | idSecsz (r : Request)
  | idDecode (r : Request)
  | probe (r : Request)
  | sigClass (r : Request)
  | ahciInit (r : Request)
  | portInit (r : Request)
  | portReset (r : Request)
  | nvmeInit (r : Request)
  | fisReadDmaExt (f : Fis)
  | fisWriteDmaExt (f : Fis)
  | fisIdentifyDevice (f : Fis)
  | sqeRead (e : Sqe)
  | sqeWrite (e : Sqe)
  | sqeIdentify (e : Sqe)
  | cmdHdr (h : CmdHdr)
  | prdtEntry (e : PrdtEntry)
  | cqe (e : Cqe)
  deriving DecidableEq, Repr

/-! The source-level calls as requests (30_encoding.md R134). -/

/-- `read32(b, o)`. -/
def Instr.read32 (b : Quad) (o : Word) : Instr := .rd32 { buf := b, arg := o }
/-- `read64(b, o)`. -/
def Instr.read64 (b : Quad) (o : Word) : Instr := .rd64 { buf := b, arg := o }
/-- `write32(b, o, v)`. -/
def Instr.write32 (b : Quad) (o : Word) (v : Quad) : Instr := .wr32 { buf := b, arg := o, lba := v }
/-- `write64(b, o, v)`. -/
def Instr.write64 (b : Quad) (o : Word) (v : Quad) : Instr := .wr64 { buf := b, arg := o, lba := v }
/-- `read_blocks(d, l, c, a)`. -/
def Instr.readBlocksCall (d : Byte) (l : Quad) (c : Half) (a : Quad) : Instr :=
  .readBlocks { dev := d, lba := l, cnt := c, buf := a }
/-- `write_blocks(d, l, c, a)`. -/
def Instr.writeBlocksCall (d : Byte) (l : Quad) (c : Half) (a : Quad) : Instr :=
  .writeBlocks { dev := d, lba := l, cnt := c, buf := a }
/-- `identify(d)`, with the engine's identify buffer `ID_BUF` and the caller's output record. -/
def Instr.identifyCall (p : Params) (d : Byte) (out : Quad) : Instr :=
  .identify { dev := d, buf := p.idBuf, lba := out }

/-- The operand fields of a request; none for a structure. -/
def Instr.request? : Instr → Option Request
  | .rd32 r | .rd64 r | .wr32 r | .wr64 r | .publish r
  | .ahciAlloc r | .nvmeAlloc r
  | .prdtBuild r | .fisBuild r | .hdrBuild r | .ahciBuild r | .prpBuild r | .sqeBuild r | .nvmeBuild r
  | .ahciIssue r | .ahciPoll r | .ahciCmd r
  | .nvmeRdychk r | .nvmeIssue r | .nvmePoll r | .nvmeCmd r
  | .readBlocks r | .writeBlocks r | .identify r
  | .idStr r | .idCap r | .idSecsz r | .idDecode r
  | .probe r | .sigClass r | .ahciInit r | .portInit r | .portReset r | .nvmeInit r => some r
  | .fisReadDmaExt _ | .fisWriteDmaExt _ | .fisIdentifyDevice _
  | .sqeRead _ | .sqeWrite _ | .sqeIdentify _ | .cmdHdr _ | .prdtEntry _ | .cqe _ => none

/-- Whether an instruction is one of the 34 operations, that is, whether a request can name it (R112). -/
def Instr.isOperation (i : Instr) : Bool := i.request?.isSome

end Sys2Proof
end

