-- ==== Sys2Proof/Decode.lean ====
section
/-!
DEFINITION. Byte order, the fields of a request's `ARG`, the decoder of requests (30_encoding.md R110, R112,
R113), and the encoders of requests and of every structure (R115 to R125), with a decoder for each
structure format.
-/

namespace Sys2Proof

/-! ## Byte order (20_memory.md R73): the byte at the lowest address holds bits 7:0 -/

/-- The low `n` bytes of `v`, lowest address first. -/
def leBytes : Nat → Nat → List Byte
  | 0, _ => []
  | n + 1, v => BitVec.ofNat 8 v :: leBytes n (v / 256)

/-- The unsigned value of a byte list, lowest address first. -/
def leNat : List Byte → Nat
  | [] => 0
  | b :: bs => b.toNat + 256 * leNat bs

/-- `n` bytes of zero. -/
def zeros (n : Nat) : List Byte := List.replicate n 0#8

/-- The little-endian value of the `n` bytes at offset `off`. -/
def field (bs : List Byte) (off n : Nat) : Nat := leNat ((bs.drop off).take n)

/-! ## The fields of `ARG` (30_encoding.md R114) -/

/-- `ARG[7:0]`, the command byte or opcode. -/
def Request.argCmd (r : Request) : Byte := r.arg.extractLsb' 0 8
/-- `ARG[8]`, the write flag. -/
def Request.argWr (r : Request) : BitVec 1 := r.arg.extractLsb' 8 1
/-- `ARG[12:9]`: `NOLBA`, `RAW`, `ADM`, `NS` from bit 0 up. -/
def Request.argFlg (r : Request) : BitVec 4 := r.arg.extractLsb' 9 4
/-- `ARG[10]`, `RAW`. -/
def Request.argRaw (r : Request) : Bool := r.arg.getLsbD 10

/-- `ARG[31:13]` is zero, which R114 demands of every micro-operation, of AHCI.CMD and of NVME.CMD. -/
def Request.microArgOk (r : Request) : Bool := r.arg.toNat < 8192
/-- `ARG[31:24]` is zero, which R300 demands of PROBE. -/
def Request.probeArgOk (r : Request) : Bool := r.arg.toNat < 16777216
/-- The controller base `BUF` is a multiple of 8 and the byte offset `ARG` of the access width `w`, and the access ends
within the address space (20_memory.md R71, R75; log 26). -/
def Request.offAligned (r : Request) (w : Nat) : Bool := r.buf.toNat % 8 == 0 && r.arg.toNat % w == 0
def Request.mmioInRange (r : Request) (w : Nat) : Bool := r.buf.toNat + r.arg.toNat + w ≤ addrSpace
/-- `CNT` is not 0 (30_encoding.md R131). -/
def Request.cntOk (r : Request) : Bool := r.cnt != 0#16
/-- `CNT` is not 0 unless `RAW` makes it a byte count (42_descriptor_builder.md R203). -/
def Request.cntRawOk (r : Request) : Bool := r.argRaw || r.cnt != 0#16
/-- `LBA[63:48]` is zero (30_encoding.md R121, R131). -/
def Request.lba48Ok (r : Request) : Bool := r.lba.toNat < 281474976710656
/-- The payload test of the Identify decoder (46_identify_decoder.md R282): not null, not short. -/
def Request.payloadOk (r : Request) : Bool := r.buf != 0#64 && 512 ≤ r.cnt.toNat
/-- `ID.STR` first word, `ARG[7:0]`. -/
def Request.strFirst (r : Request) : Nat := (r.arg.extractLsb' 0 8).toNat
/-- `ID.STR` word count, `ARG[15:8]`. -/
def Request.strCount (r : Request) : Nat := (r.arg.extractLsb' 8 8).toNat
/-- The bounds of R281: `1 <= n <= 20`, `w0 + n <= 256`. -/
def Request.strBoundsOk (r : Request) : Bool :=
  1 ≤ r.strCount && r.strCount ≤ 20 && r.strFirst + r.strCount ≤ 256

/-! ## The request decoder -/

/-- Why 32 bytes are no request (30_encoding.md R113). All of them are refused: safe. -/
inductive DecodeError where
  /-- Not 32 bytes long (R110). -/
  | badLength
  /-- A reserved dword, DW6 or DW7, is not zero (R113). -/
  | reservedDword
  /-- An `OPC` value that R112 does not list (R113). -/
  | unknownOpc (opc : Byte)
  deriving DecidableEq, Repr

/-- The operation table of 30_encoding.md R112: `OPC` to operation. -/
def opcInstr (opc : Nat) (r : Request) : Option Instr :=
  match opc with
  | 0x01 => some (.rd32 r)
  | 0x02 => some (.rd64 r)
  | 0x03 => some (.wr32 r)
  | 0x04 => some (.wr64 r)
  | 0x05 => some (.publish r)
  | 0x10 => some (.ahciAlloc r)
  | 0x11 => some (.nvmeAlloc r)
  | 0x20 => some (.prdtBuild r)
  | 0x21 => some (.fisBuild r)
  | 0x22 => some (.hdrBuild r)
  | 0x23 => some (.ahciBuild r)
  | 0x24 => some (.prpBuild r)
  | 0x25 => some (.sqeBuild r)
  | 0x26 => some (.nvmeBuild r)
  | 0x30 => some (.ahciIssue r)
  | 0x31 => some (.ahciPoll r)
  | 0x32 => some (.ahciCmd r)
  | 0x40 => some (.nvmeRdychk r)
  | 0x41 => some (.nvmeIssue r)
  | 0x42 => some (.nvmePoll r)
  | 0x43 => some (.nvmeCmd r)
  | 0x50 => some (.readBlocks r)
  | 0x51 => some (.writeBlocks r)
  | 0x52 => some (.identify r)
  | 0x60 => some (.idStr r)
  | 0x61 => some (.idCap r)
  | 0x62 => some (.idSecsz r)
  | 0x63 => some (.idDecode r)
  | 0x70 => some (.probe r)
  | 0x71 => some (.sigClass r)
  | 0x72 => some (.ahciInit r)
  | 0x73 => some (.portInit r)
  | 0x74 => some (.portReset r)
  | 0x75 => some (.nvmeInit r)
  | _ => none

/-- The operand fields of a request record (30_encoding.md R110). -/
def decodeFields (bs : List Byte) : Request :=
  { dev := BitVec.ofNat 8 (field bs 1 1)
    cnt := BitVec.ofNat 16 (field bs 2 2)
    arg := BitVec.ofNat 32 (field bs 4 4)
    lba := BitVec.ofNat 64 (field bs 8 8)
    buf := BitVec.ofNat 64 (field bs 16 8) }

/-- The decoder of requests, total on any bytes (30_encoding.md R110, R113). -/
def decode (bs : List Byte) : Except DecodeError Instr :=
  if bs.length ≠ 32 then .error .badLength
  else if field bs 24 8 ≠ 0 then .error .reservedDword
  else
    match opcInstr (field bs 0 1) (decodeFields bs) with
    | some i => .ok i
    | none => .error (.unknownOpc (BitVec.ofNat 8 (field bs 0 1)))

/-! ## Encoders -/

/-- A request record, 32 bytes (30_encoding.md R110). -/
def Request.bytes (opc : Nat) (r : Request) : List Byte :=
  leBytes 1 opc ++ leBytes 1 r.dev.toNat ++ leBytes 2 r.cnt.toNat ++ leBytes 4 r.arg.toNat
    ++ leBytes 8 r.lba.toNat ++ leBytes 8 r.buf.toNat ++ zeros 8

/-- The device byte of a FIS (30_encoding.md R120, byte 7). -/
def fisDevice (noLba : Bool) : Byte := if noLba then 0x00#8 else 0x40#8

/-- A Host-to-Device Register FIS, 20 bytes (30_encoding.md R120, R121). -/
def Fis.bytes (cmd : Byte) (f : Fis) : List Byte :=
  [0x27#8, f.flags, cmd, 0#8]
    ++ leBytes 3 f.lba.toNat ++ [fisDevice f.noLba]
    ++ leBytes 3 (f.lba.toNat / 16777216) ++ [0#8]
    ++ leBytes 2 f.cnt.toNat ++ zeros 6

/-- A Submission Queue Entry, 64 bytes (30_encoding.md R123). -/
def Sqe.bytes (opc : Byte) (e : Sqe) : List Byte :=
  leBytes 4 (opc.toNat + 65536 * e.cid.toNat) ++ leBytes 4 e.nsid.toNat ++ zeros 16
    ++ leBytes 8 e.prp1.toNat ++ zeros 8
    ++ leBytes 4 e.cdw10.toNat ++ leBytes 4 e.cdw11.toNat ++ leBytes 4 e.cdw12.toNat ++ zeros 12

/-- DW0 of a Command Header (30_encoding.md R116): `5 | (WRITE << 6) | (PRDTL << 16)`. -/
def CmdHdr.dw0 (h : CmdHdr) : Word :=
  5#32 ||| (h.write.setWidth 32 <<< 6) ||| (h.prdtl.setWidth 32 <<< 16)

/-- A Command Header, 32 bytes (30_encoding.md R115). -/
def CmdHdr.bytes (h : CmdHdr) : List Byte :=
  leBytes 4 h.dw0.toNat ++ leBytes 4 0 ++ leBytes 8 h.ctba.toNat ++ zeros 16

/-- DW3 of a PRDT entry (30_encoding.md R119): `(bytes - 1) | (I << 31)`. -/
def PrdtEntry.dw3 (e : PrdtEntry) : Word :=
  e.dbc.setWidth 32 ||| (e.last.setWidth 32 <<< 31)

/-- A PRDT entry, 16 bytes (30_encoding.md R118). -/
def PrdtEntry.bytes (e : PrdtEntry) : List Byte :=
  leBytes 8 e.dba.toNat ++ leBytes 4 0 ++ leBytes 4 e.dw3.toNat

/-- DW2 of a completion entry (30_encoding.md R125). -/
def Cqe.dw2 (e : Cqe) : Word := e.sqHead.setWidth 32 ||| (e.sqId.setWidth 32 <<< 16)

/-- DW3 of a completion entry (30_encoding.md R125, R126). -/
def Cqe.dw3 (e : Cqe) : Word :=
  e.cid.setWidth 32 ||| (e.phase.setWidth 32 <<< 16) ||| (e.status.setWidth 32 <<< 17)
    ||| (e.high.setWidth 32 <<< 28)

/-- A completion entry, 16 bytes (30_encoding.md R125). -/
def Cqe.bytes (e : Cqe) : List Byte :=
  leBytes 4 e.cdw0.toNat ++ leBytes 4 e.rsvd.toNat ++ leBytes 4 e.dw2.toNat ++ leBytes 4 e.dw3.toNat

/-- The command byte of each FIS row of the operation table (30_encoding.md R128). -/
def fisReadCmd : Byte := 0x25#8
def fisWriteCmd : Byte := 0x35#8
def fisIdentifyCmd : Byte := 0xEC#8

/-- The opcode of each SQE row of the operation table (30_encoding.md R128). -/
def sqeReadOpc : Byte := 0x02#8
def sqeWriteOpc : Byte := 0x01#8
def sqeIdentifyOpc : Byte := 0x06#8

/-- The bytes of an instruction: a 32-byte request for an operation, the structure's own bytes for a
structure row. -/
def encode : Instr → List Byte
  | .rd32 r => r.bytes 0x01
  | .rd64 r => r.bytes 0x02
  | .wr32 r => r.bytes 0x03
  | .wr64 r => r.bytes 0x04
  | .publish r => r.bytes 0x05
  | .ahciAlloc r => r.bytes 0x10
  | .nvmeAlloc r => r.bytes 0x11
  | .prdtBuild r => r.bytes 0x20
  | .fisBuild r => r.bytes 0x21
  | .hdrBuild r => r.bytes 0x22
  | .ahciBuild r => r.bytes 0x23
  | .prpBuild r => r.bytes 0x24
  | .sqeBuild r => r.bytes 0x25
  | .nvmeBuild r => r.bytes 0x26
  | .ahciIssue r => r.bytes 0x30
  | .ahciPoll r => r.bytes 0x31
  | .ahciCmd r => r.bytes 0x32
  | .nvmeRdychk r => r.bytes 0x40
  | .nvmeIssue r => r.bytes 0x41
  | .nvmePoll r => r.bytes 0x42
  | .nvmeCmd r => r.bytes 0x43
  | .readBlocks r => r.bytes 0x50
  | .writeBlocks r => r.bytes 0x51
  | .identify r => r.bytes 0x52
  | .idStr r => r.bytes 0x60
  | .idCap r => r.bytes 0x61
  | .idSecsz r => r.bytes 0x62
  | .idDecode r => r.bytes 0x63
  | .probe r => r.bytes 0x70
  | .sigClass r => r.bytes 0x71
  | .ahciInit r => r.bytes 0x72
  | .portInit r => r.bytes 0x73
  | .portReset r => r.bytes 0x74
  | .nvmeInit r => r.bytes 0x75
  | .fisReadDmaExt f => f.bytes fisReadCmd
  | .fisWriteDmaExt f => f.bytes fisWriteCmd
  | .fisIdentifyDevice f => f.bytes fisIdentifyCmd
  | .sqeRead e => e.bytes sqeReadOpc
  | .sqeWrite e => e.bytes sqeWriteOpc
  | .sqeIdentify e => e.bytes sqeIdentifyOpc
  | .cmdHdr h => h.bytes
  | .prdtEntry e => e.bytes
  | .cqe e => e.bytes

/-! ## Decoders of the structures, one per format. The formats overlap, so the format is an argument. -/

/-- The structure formats of the operation table. -/
inductive StructFormat where
  | h2dFis
  | sqe
  | cmdHdr
  | prdt
  | cqe
  deriving DecidableEq, Repr

/-- A FIS (30_encoding.md R120): 20 bytes, every reserved byte zero, device byte 0x40 or 0x00. -/
def decodeFis (bs : List Byte) : Option Instr :=
  let f : Fis :=
    { flags := BitVec.ofNat 8 (field bs 1 1)
      noLba := field bs 7 1 == 0
      lba := BitVec.ofNat 48 (field bs 4 3 + 16777216 * field bs 8 3)
      cnt := BitVec.ofNat 16 (field bs 12 2) }
  if bs.length ≠ 20 ∨ field bs 0 1 ≠ 0x27 ∨ field bs 3 1 ≠ 0 ∨ field bs 11 1 ≠ 0 ∨ field bs 14 6 ≠ 0
      ∨ (field bs 7 1 ≠ 0x40 ∧ field bs 7 1 ≠ 0) then none
  else
    match field bs 2 1 with
    | 0x25 => some (.fisReadDmaExt f)
    | 0x35 => some (.fisWriteDmaExt f)
    | 0xEC => some (.fisIdentifyDevice f)
    | _ => none

/-- A submission entry (30_encoding.md R123): 64 bytes, every unnamed field zero. -/
def decodeSqe (bs : List Byte) : Option Instr :=
  let e : Sqe :=
    { cid := BitVec.ofNat 16 (field bs 2 2)
      nsid := BitVec.ofNat 32 (field bs 4 4)
      prp1 := BitVec.ofNat 64 (field bs 24 8)
      cdw10 := BitVec.ofNat 32 (field bs 40 4)
      cdw11 := BitVec.ofNat 32 (field bs 44 4)
      cdw12 := BitVec.ofNat 32 (field bs 48 4) }
  if bs.length ≠ 64 ∨ field bs 1 1 ≠ 0 ∨ field bs 8 16 ≠ 0 ∨ field bs 32 8 ≠ 0 ∨ field bs 52 12 ≠ 0 then none
  else
    match field bs 0 1 with
    | 0x01 => some (.sqeWrite e)
    | 0x02 => some (.sqeRead e)
    | 0x06 => some (.sqeIdentify e)
    | _ => none

/-- A Command Header (30_encoding.md R115): 32 bytes, `CFL` 5, every unnamed field zero. -/
def decodeCmdHdr (bs : List Byte) : Option Instr :=
  let h : CmdHdr :=
    { write := BitVec.ofNat 1 (field bs 0 1 / 64)
      prdtl := BitVec.ofNat 16 (field bs 2 2)
      ctba := BitVec.ofNat 64 (field bs 8 8) }
  if bs.length ≠ 32 ∨ field bs 0 1 % 64 ≠ 5 ∨ field bs 0 1 / 128 ≠ 0 ∨ field bs 1 1 ≠ 0
      ∨ field bs 4 4 ≠ 0 ∨ field bs 16 16 ≠ 0 then none
  else some (.cmdHdr h)

/-- A PRDT entry (30_encoding.md R118): 16 bytes, reserved fields zero. -/
def decodePrdt (bs : List Byte) : Option Instr :=
  let e : PrdtEntry :=
    { dba := BitVec.ofNat 64 (field bs 0 8)
      dbc := BitVec.ofNat 22 (field bs 12 4)
      last := BitVec.ofNat 1 (field bs 12 4 / 2147483648) }
  if bs.length ≠ 16 ∨ field bs 8 4 ≠ 0 ∨ field bs 12 4 / 4194304 % 512 ≠ 0 then none
  else some (.prdtEntry e)

/-- A completion entry (30_encoding.md R125): any 16 bytes. -/
def decodeCqe (bs : List Byte) : Option Instr :=
  if bs.length ≠ 16 then none
  else some (.cqe
    { cdw0 := BitVec.ofNat 32 (field bs 0 4)
      rsvd := BitVec.ofNat 32 (field bs 4 4)
      sqHead := BitVec.ofNat 16 (field bs 8 2)
      sqId := BitVec.ofNat 16 (field bs 10 2)
      cid := BitVec.ofNat 16 (field bs 12 2)
      phase := BitVec.ofNat 1 (field bs 14 2)
      status := BitVec.ofNat 11 (field bs 14 2 / 2)
      high := BitVec.ofNat 4 (field bs 14 2 / 4096) })

/-- The structure that `bs` encodes in the given format. -/
def decodeStruct : StructFormat → List Byte → Option Instr
  | .h2dFis, bs => decodeFis bs
  | .sqe, bs => decodeSqe bs
  | .cmdHdr, bs => decodeCmdHdr bs
  | .prdt, bs => decodePrdt bs
  | .cqe, bs => decodeCqe bs

/-- The format of a structure row; none for an operation. -/
def Instr.structFormat? : Instr → Option StructFormat
  | .fisReadDmaExt _ | .fisWriteDmaExt _ | .fisIdentifyDevice _ => some .h2dFis
  | .sqeRead _ | .sqeWrite _ | .sqeIdentify _ => some .sqe
  | .cmdHdr _ => some .cmdHdr
  | .prdtEntry _ => some .prdt
  | .cqe _ => some .cqe
  | .rd32 _ | .rd64 _ | .wr32 _ | .wr64 _ | .publish _
  | .ahciAlloc _ | .nvmeAlloc _
  | .prdtBuild _ | .fisBuild _ | .hdrBuild _ | .ahciBuild _ | .prpBuild _ | .sqeBuild _ | .nvmeBuild _
  | .ahciIssue _ | .ahciPoll _ | .ahciCmd _
  | .nvmeRdychk _ | .nvmeIssue _ | .nvmePoll _ | .nvmeCmd _
  | .readBlocks _ | .writeBlocks _ | .identify _
  | .idStr _ | .idCap _ | .idSecsz _ | .idDecode _
  | .probe _ | .sigClass _ | .ahciInit _ | .portInit _ | .portReset _ | .nvmeInit _ => none

/-! ## The host's question: the instruction of a table word -/

/-- The 32 bytes of a request whose low bits are `w`, every bit above zero: eight little-endian dwords
(30_encoding.md R110). -/
def requestBytesOfWord (nbits w : Nat) : List Byte := leBytes 32 (w % 2 ^ nbits)

/-- The request that the decoder reads from a table word. -/
def decodeTableWord (nbits w : Nat) : Option Instr :=
  match decode (requestBytesOfWord nbits w) with
  | .ok i => some i
  | .error _ => none

end Sys2Proof
end

