-- ==== Sys2Proof/WellFormed.lean ====
section
/-!
DEFINITION. The static checks of a request: what 30_encoding.md R113, R114, R121, R131 and the operation
rules refuse whatever the state is. The tests themselves stand in Decode.lean, where the meanings use them
too.
-/

namespace Sys2Proof

/-- What can be wrong with a request whatever the state is. -/
inductive Defect where
  /-- An MMIO base that is not a multiple of 8, or an offset that is not one of the access width (20_memory.md R75). -/
  | misaligned
  /-- An MMIO access past 2^64 (20_memory.md R71). -/
  | addressWrap
  /-- `ARG` bits that must be zero are not (30_encoding.md R114, 47_system_ops.md R300). -/
  | argReserved
  /-- `CNT` is 0 (30_encoding.md R131). -/
  | countZero
  /-- `LBA` has bits above 47 set (30_encoding.md R121, R131). -/
  | lbaTooWide
  /-- `ID.STR` names words outside the payload (46_identify_decoder.md R281). -/
  | strBounds
  deriving DecidableEq, Repr

/-- The first of a list of checks that fails. -/
def firstDefect : List (Bool × Defect) → Option Defect
  | [] => none
  | (ok, d) :: rest => if ok then firstDefect rest else some d

/-- What is wrong with an instruction, if anything. `ARG[31:16]` of ID.STR and `ARG[31:8]` of
IDENTIFY may hold anything (DESIGN CHOICE, log 14). -/
def Instr.defect? : Instr → Option Defect
  | .rd32 r | .wr32 r => firstDefect [(r.offAligned 4, .misaligned), (r.mmioInRange 4, .addressWrap)]
  | .rd64 r | .wr64 r => firstDefect [(r.offAligned 8, .misaligned), (r.mmioInRange 8, .addressWrap)]
  | .publish _ => none
  | .ahciAlloc r | .nvmeAlloc r | .hdrBuild r | .ahciIssue r | .ahciPoll r
  | .nvmeRdychk r | .nvmeIssue r | .nvmePoll r => firstDefect [(r.microArgOk, .argReserved)]
  | .prdtBuild r => firstDefect [(r.microArgOk, .argReserved), (r.cntOk, .countZero)]
  | .fisBuild r | .ahciBuild r | .ahciCmd r =>
    firstDefect [(r.microArgOk, .argReserved), (r.cntOk, .countZero), (r.lba48Ok, .lbaTooWide)]
  | .prpBuild r | .sqeBuild r | .nvmeBuild r | .nvmeCmd r =>
    firstDefect [(r.microArgOk, .argReserved), (r.cntRawOk, .countZero)]
  | .readBlocks r | .writeBlocks r => firstDefect [(r.cntOk, .countZero)]
  | .identify _ => none
  | .idStr r => firstDefect [(!r.payloadOk || r.strBoundsOk, .strBounds)]
  | .idCap _ | .idSecsz _ | .idDecode _ => none
  | .probe r => firstDefect [(r.probeArgOk, .argReserved)]
  | .sigClass _ | .ahciInit _ | .portInit _ | .portReset _ | .nvmeInit _ => none
  | .fisReadDmaExt _ | .fisWriteDmaExt _ | .fisIdentifyDevice _
  | .sqeRead _ | .sqeWrite _ | .sqeIdentify _ | .cmdHdr _ | .prdtEntry _ | .cqe _ => none

/-- An instruction that no static check refuses. -/
abbrev Instr.WellFormed (i : Instr) : Prop := i.defect? = none

end Sys2Proof
end

