-- ==== Sys2Proof/Machine/State.lean ====
section
/-!
DEFINITION. The state of the engine as plain data (10_state.md), its value after reset (R63, R362), and the
reasons a step can stop. INVENTORY.md lists every field with its rule and reset value.
-/

namespace Sys2Proof.Machine

/-- The sequencer state register `pc` (10_state.md R20). -/
inductive Pc where
  | idle
  | slotAllocated
  | descriptorsBuilt
  | issued
  | completed
  | timedOut
  | deviceError
  deriving DecidableEq, Repr

/-- The nine errors of 60_exceptions.md R320. They are results of an operation, not faults. -/
inductive Err where
  | noFreeSlot
  | tooManyDescriptors
  | transferTooLarge
  | portHung
  | commandTimeout
  | deviceError
  | invalidIdentifyPayload
  | outOfRange
  | controllerNotReady
  deriving DecidableEq, Repr

/-- The working registers (10_state.md R24). Reset: `RES` 0 by R63; the spec gives the others no value,
and the model takes zero (DESIGN CHOICE, log 6). -/
structure Regs where
  op : Byte := 0#8
  dev : Byte := 0#8
  cnt : Half := 0#16
  arg : Word := 0#32
  lba : Quad := 0#64
  buf : Quad := 0#64
  wr : BitVec 1 := 0#1
  cmdb : Byte := 0#8
  flg : BitVec 4 := 0#4
  slot : Half := 0#16
  cid : Half := 0#16
  nprd : Half := 0#16
  bytes : Word := 0#32
  iter : Word := 0#32
  res : Byte := 0#8
  raw : Word := 0#32
  val : Quad := 0#64
  deriving DecidableEq, Repr

/-- AHCI controller record `hba[h]` (10_state.md R30). -/
structure Hba where
  /-- `BASE`. -/
  base : Quad := 0#64
  /-- `N_SLOTS`, 1..32. -/
  nSlots : BitVec 6 := 0#6
  /-- `PI`. -/
  pi : Word := 0#32
  /-- AHCI.INIT has succeeded: the precondition of PORT.INIT (47_system_ops.md R304); log 19. -/
  ready : Bool := false
  deriving DecidableEq, Repr

/-- AHCI port record `port[p]` (10_state.md R31). -/
structure Port where
  /-- `HBA`, the index of the owning controller record. -/
  hba : Nat := 0
  /-- `PORT`. -/
  port : BitVec 5 := 0#5
  /-- `CLB`. -/
  clb : Quad := 0#64
  /-- `FB`. -/
  fb : Quad := 0#64
  /-- `CT`: `ctba(p, s)` for `s` = 0, 1, ... -/
  ct : List Quad := []
  deriving DecidableEq, Repr

/-- NVMe controller record `nvme[n]` (10_state.md R32). -/
structure Nvme where
  /-- `BASE`. -/
  base : Quad := 0#64
  /-- `DSTRD`: `STRIDE` is `4 << DSTRD` (10_state.md R51); log 25. -/
  dstrd : BitVec 4 := 0#4
  /-- `MDTS_BYTES`. -/
  mdts : Nat := 0
  /-- `PAGE_BYTES` is `2 ^ (12 + mps)` (47_system_ops.md R308); log 25. -/
  mps : BitVec 4 := 0#4
  /-- `NEXT_CID`, state; reset 0 (R63). -/
  nextCid : Half := 0#16
  deriving DecidableEq, Repr

/-- NVMe queue-pair record `qp[q]` (10_state.md R32). -/
structure Qp where
  /-- `CTRL`, the index of the owning controller record. -/
  ctrl : Nat := 0
  /-- `QID`; 0 is the admin queue pair. -/
  qid : Half := 0#16
  /-- `SQ_BASE`. -/
  sqBase : Quad := 0#64
  /-- `CQ_BASE`. -/
  cqBase : Quad := 0#64
  /-- `Q_SIZE`, 2..65536. -/
  qSize : Nat := 2
  /-- `SQ_TAIL`, state; reset 0 (R63). -/
  sqTail : Half := 0#16
  /-- `SQ_HEAD`, state; reset 0 (R63). -/
  sqHead : Half := 0#16
  /-- `CQ_HEAD`, state; reset 0 (R63). -/
  cqHead : Half := 0#16
  /-- `PHASE`, state; reset `PHASE_INIT` (R63). -/
  phase : BitVec 1 := 1#1
  /-- NVME.INIT or NVME.ISSUE has run on the queue pair since it was loaded: its completion ring is the device's
  (20_memory.md R94); log 16. -/
  started : Bool := false
  deriving DecidableEq, Repr

/-- The protocol of a device (10_state.md R33). -/
inductive Kind where
  | ahci
  | nvme
  deriving DecidableEq, Repr

/-- Device record `dev[d]` (10_state.md R33). -/
structure Dev where
  /-- `KIND`. -/
  kind : Kind := .ahci
  /-- `CH`: port record (AHCI) or I/O queue-pair record (NVMe). -/
  ch : Nat := 0
  /-- `ADMIN`: admin queue-pair record (NVMe only). -/
  admin : Nat := 0
  /-- `NSID` (NVMe only). -/
  nsid : Word := 0#32
  /-- `CAPACITY` in sectors; 0 while the host has not set it (DESIGN CHOICE, log 8). -/
  capacity : Quad := 0#64
  /-- `BLOCK_BYTES` (NVMe only), 0 while it is not set; log 30. -/
  blockBytes : Nat := 512
  deriving DecidableEq, Repr

/-- A channel: an AHCI port or an NVMe queue pair (00_scope.md R19), by record index. -/
inductive Chan where
  | port (p : Nat)
  | qp (q : Nat)
  deriving DecidableEq, Repr

/-- An entry of the in-flight or the leaked set (10_state.md R60, R62): the channel, the slot and command
identifier, and the data buffer its descriptors name. -/
structure Tag where
  chan : Chan
  slot : Half
  cid : Half
  dataAt : Nat
  dataLen : Nat
  deriving DecidableEq, Repr

/-- A store to system memory that no Publish() has ordered yet (20_memory.md R87, R88); log 20. -/
structure PendStore where
  /-- Made by the host (else by the sequencer). -/
  byHost : Bool
  addr : Nat
  len : Nat
  deriving DecidableEq, Repr

/-- The response record (30_encoding.md R111). -/
structure Response where
  /-- `RES`. -/
  res : Byte := 0#8
  /-- `PC`. -/
  pc : BitVec 3 := 0#3
  /-- `RAW`. -/
  raw : Word := 0#32
  /-- `VAL`. -/
  val : Quad := 0#64
  deriving DecidableEq, Repr

/-- The width of an MMIO access (40_mmio_access.md R167). -/
inductive Width where
  | w32
  | w64
  deriving DecidableEq, Repr

/-- One access of the sequencer, or a Publish() (20_memory.md R86, R88). -/
inductive BusEvent where
  | rd (w : Width) (addr : Nat) (v : Quad)
  | wr (w : Width) (addr : Nat) (v : Quad)
  | store (addr len : Nat)
  | load (addr len : Nat)
  | publish
  deriving DecidableEq, Repr

/-- One step of the devices (00_scope.md R7): registers given a value, or made unknown, and bytes of
system memory written by DMA. -/
structure DevAct where
  regs : List (Nat × Option Quad) := []
  mem : List Host.Cell := []
  deriving DecidableEq, Repr

/-- One step of the host (00_scope.md R7): a request (30_encoding.md R110), the loading of a context record
(70_reset_and_hazards.md R366, R367), a store into memory (20_memory.md R100), or leave for the devices to
step while the engine is idle. -/
inductive HostEvent where
  | request (bytes : List Byte)
  | loadHba (h : Nat) (r : Hba)
  | loadPort (p : Nat) (r : Port)
  | loadNvme (n : Nat) (r : Nvme)
  | loadQp (q : Nat) (r : Qp)
  | loadDev (d : Nat) (r : Dev)
  | store (addr : Nat) (bytes : List Byte)
  | devices
  deriving DecidableEq, Repr

/-- System memory: (address, byte) pairs, addresses strictly rising and below 2^64. An unlisted byte has a value that
nothing constrains (`Config.freeByte`; 10_state.md R64; log 5). -/
abbrev Memory := List Host.Cell

/-- Why the machine stops with a fault: it never does. The errors of 60_exceptions.md R320 are results, what the spec
marks `refuse` is a refusal, and every register can be read. -/
inductive Fault where
  deriving DecidableEq, Repr

/-- Why a request has no meaning: the `refuse` of 00_scope.md R15 and 60_exceptions.md R330. Every
constructor is safe: the model stops where the spec gives no behaviour. -/
inductive Refusal where
  /-- Raised by `exec` for an instruction the model does not give a meaning yet. -/
  | notModelled (mnemonic : String)
  /-- Raised by `step` when the bytes are no request (30_encoding.md R113). -/
  | badRequest (e : DecodeError)
  /-- Raised by an operation whose static check fails (WellFormed.lean). -/
  | illFormed (d : Defect)
  /-- Raised when `DEV` selects no device record, or the record no channel or controller (R113). -/
  | noDevice
  /-- Raised when the device record has the other `KIND` (30_encoding.md R113). -/
  | wrongKind
  /-- Raised when the `pc` precondition of an operation fails (10_state.md R23). -/
  | wrongPc
  /-- Raised when the claimed slot belongs to another channel than the request's, or no slot is claimed
  (10_state.md R23; 30_encoding.md R114). -/
  | wrongChannel
  /-- Raised when the port's bit of `PI` is clear (10_state.md R39). -/
  | portNotImplemented
  /-- Raised by PORT.INIT before AHCI.INIT has succeeded, or with a command of the port in flight (R304). -/
  | notInitialised
  /-- Raised when `x[SLOT]` is out of range (30_encoding.md R131). -/
  | slotOutOfRange
  /-- Raised by HDR.BUILD when PRDT.BUILD has not run for this command (42_descriptor_builder.md R198). -/
  | noDescriptors
  /-- Raised when an MMIO access does not have the register's width (40_mmio_access.md R167). -/
  | wrongWidth
  /-- Raised when a range of addresses ends past 2^64 (20_memory.md R71). -/
  | addressWrap
  /-- Raised when an access of the sequencer to system memory, a payload or a data buffer reaches behind the memory that
  is there (20_memory.md R85; log 32). -/
  | absentMemory
  /-- Raised when an alignment premise of 20_memory.md R76 is false (R77). -/
  | misalignedStructure
  /-- Raised when arena regions overlap or leave system memory, or a buffer, a payload or an output overlaps what it must
  not (10_state.md R34, R43; 20_memory.md R71, R91, R95, R100; U8, U24). -/
  | overlap
  /-- Raised when a parameter is outside the range 00_scope.md R9 or 10_state.md R30 to R32 gives it. -/
  | parameterRange
  /-- Raised when a completion entry reports `sq_head >= Q_SIZE` (44_nvme_engine.md R244; U14). -/
  | deviceContract
  /-- Raised by a structure row that the engine does not emit for the current command (log 10, 11). -/
  | notEmitted
  /-- Raised when the host loads a record while a command is under way, changes a value of a loaded record that never
  changes (00_scope.md R10), or stores into what a device owns (20_memory.md R94, R95; U9)
  or alone writes (43_ahci_engine.md R215). -/
  | hostDuty
  deriving DecidableEq, Repr

/-- The whole machine. -/
structure State where
  pc : Pc := .idle
  x : Regs := {}
  /-- `hba[h]`, by rising index; likewise the other records. -/
  hba : List (Nat × Hba) := []
  port : List (Nat × Port) := []
  nvme : List (Nat × Nvme) := []
  qp : List (Nat × Qp) := []
  dev : List (Nat × Dev) := []
  /-- Device registers with a known content, by rising byte address (10_state.md sections 4 and 5). -/
  regs : List (Nat × Quad) := []
  mem : Memory := []
  /-- The sequencer's claim on `x[SLOT]` and `x[CID]`: the channel they were allocated on (R22, R23). -/
  claim : Option Chan := none
  /-- The in-flight entry (R60). -/
  inflight : Option Tag := none
  /-- The leaked set (R62). -/
  leaked : List Tag := []
  /-- The data buffer of the command being built (start, length); none until PRDT.BUILD or PRP.BUILD has
  run for it (R198); log 18. -/
  built : Option (Nat × Nat) := none
  /-- Stores not ordered by Publish() yet (R88); log 20. -/
  pend : List PendStore := []
  /-- The last response (R111). -/
  rsp : Response := {}
  /-- How many responses have been produced; selects their unspecified words; log 17. -/
  nrsp : Nat := 0
  /-- How many free values unknown registers have answered; log 4. -/
  draws : Nat := 0
  /-- The devices' coming steps; log 2. -/
  script : List DevAct := []
  /-- The host's coming events; log 9. -/
  inputs : List HostEvent := []
  /-- The accesses made so far, newest first; log 34. -/
  log : List BusEvent := []
  /-- The parameters of R9; never changed (R10). -/
  cfg : Params := {}
  deriving DecidableEq, Repr

/-- The machine right after reset (10_state.md R63, 70_reset_and_hazards.md R362): `pc` Idle, `RES` 0, no
record loaded, nothing in flight or leaked, memory with nothing listed. -/
def State.reset : State := {}

end Sys2Proof.Machine
end

