-- ==== Sys2Proof/Machine/Ops.lean ====
section
/-!
DEFINITION. The named operations over memory, device registers and working registers: everything the meanings
are built from, with raising an error (60_exceptions.md R340) and returning (00_scope.md R15) beside each
other.
-/

namespace Sys2Proof.Machine

/-! ## Records by index: lists of (key, value) with strictly rising keys -/

/-- The value at a key. -/
def alGet {α : Type} : List (Nat × α) → Nat → Option α
  | [], _ => none
  | (a, v) :: rest, k => if a = k then some v else alGet rest k

/-- The list with `v` at key `k`, in rising order. -/
def alSet {α : Type} (l : List (Nat × α)) (k : Nat) (v : α) : List (Nat × α) :=
  l.filter (fun e => e.1 < k) ++ (k, v) :: l.filter (fun e => k < e.1)

/-- The list with nothing at key `k`. -/
def alErase {α : Type} (l : List (Nat × α)) (k : Nat) : List (Nat × α) :=
  l.filter (fun e => e.1 ≠ k)

/-- Keys strictly rising: the canonical form of records and of device registers. -/
def rising {α : Type} : List (Nat × α) → Bool
  | [] => true
  | [_] => true
  | a :: b :: rest => decide (a.1 < b.1) && rising (b :: rest)

/-! ## System memory (20_memory.md R70; 00_scope.md R14) -/

/-- The canonical form of memory: addresses strictly rising and below 2^64. An unlisted byte reads as a free value, to
which no entry can be compared (log 5). -/
def Memory.wf (m : Memory) : Bool := rising m && m.all (fun c => c.1 < addrSpace)

/-- What is known of one byte: none where nothing has written it. -/
def Memory.byte? (m : Memory) (a : Nat) : Option Byte := alGet m a

/-- One byte: what has been written there, else a free value (10_state.md R64; log 5). -/
def Memory.byteAt (m : Memory) (a : Nat) : Byte := (m.byte? a).getD (Config.freeByte a)

/-- The entries for the bytes `bs` at ascending addresses from `a`. -/
def cells : Nat → List Byte → Memory
  | _, [] => []
  | a, b :: bs => (a, b) :: cells (a + 1) bs

/-- `MemWriteBytes` of R14 as a function on memory. -/
def Memory.write (m : Memory) (a : Nat) (bs : List Byte) : Memory :=
  m.filter (fun c => c.1 < a) ++ cells a bs ++ m.filter (fun c => a + bs.length ≤ c.1)

/-- `MemReadBytes` of R14 as a function on memory. -/
def Memory.read (m : Memory) : Nat → Nat → List Byte
  | _, 0 => []
  | a, n + 1 => m.byteAt a :: m.read (a + 1) n

/-! ## The devices' steps (00_scope.md R7; log 2, 27) -/

/-- One register given a value, or made unknown. -/
def setReg (regs : List (Nat × Quad)) (e : Nat × Option Quad) : List (Nat × Quad) :=
  match e.2 with
  | some v => alSet regs e.1 v
  | none => alErase regs e.1

/-- One byte written by DMA; there is no byte from address `e` on (20_memory.md R70, R85). -/
def dmaByte (e : Nat) (m : Memory) (c : Host.Cell) : Memory :=
  if c.1 < e then m.write c.1 [c.2] else m

/-- The next step of the devices; no effect when the script is at its end. -/
def State.nextAct (s : State) : DevAct := s.script.headD {}

/-- The devices take one step. -/
def tick (s : State) : State :=
  { s with
    script := s.script.tail
    regs := s.nextAct.regs.foldl setReg s.regs
    mem := s.nextAct.mem.foldl (dmaByte s.cfg.memEnd) s.mem }

/-! ## The course of an operation -/

/-- What a part of an operation ends in: it goes on with a value; the operation has ended with an error
(R15, R340); or a refusal. -/
inductive Flow (α : Type) where
  | go (a : α) (s : State)
  | stop (s : State)
  | refuse (r : Refusal)

/-- One part after another: an error or a refusal ends the operation. -/
def Flow.bind {α β : Type} (m : Flow α) (k : α → State → Flow β) : Flow β :=
  match m with
  | .go a s => k a s
  | .stop s => .stop s
  | .refuse r => .refuse r

/-- Go on where the condition holds, else refuse (R15). -/
def need (ok : Bool) (r : Refusal) (s : State) : Flow Unit :=
  if ok then .go () s else .refuse r

/-- Go on with a value that a refusal may stand in for. -/
def needOk {α : Type} (e : Except Refusal α) (s : State) : Flow α :=
  match e with
  | .ok a => .go a s
  | .error r => .refuse r

/-! ## Results (60_exceptions.md R321, R340; 30_encoding.md R111) -/

/-- The result codes of R321. -/
def Err.code : Err → Byte
  | .noFreeSlot => 1#8
  | .tooManyDescriptors => 2#8
  | .transferTooLarge => 3#8
  | .portHung => 4#8
  | .commandTimeout => 5#8
  | .deviceError => 6#8
  | .invalidIdentifyPayload => 7#8
  | .outOfRange => 8#8
  | .controllerNotReady => 9#8

/-- The encoding of `pc` (10_state.md R20). -/
def Pc.code : Pc → BitVec 3
  | .idle => 0#3
  | .slotAllocated => 1#3
  | .descriptorsBuilt => 2#3
  | .issued => 3#3
  | .completed => 4#3
  | .timedOut => 5#3
  | .deviceError => 6#3

/-- Idle or terminal (10_state.md R22). -/
def Pc.free : Pc → Bool
  | .idle | .completed | .timedOut | .deviceError => true
  | .slotAllocated | .descriptorsBuilt | .issued => false

/-- `raise E` without a change of `pc` (60_exceptions.md R321, row 7; R340). -/
def raiseHere {α : Type} (e : Err) (s : State) : Flow α :=
  .stop { s with x := { s.x with res := e.code } }

/-- `pc <- p; raise E` (00_scope.md R15, 60_exceptions.md R340). The claim on slot and identifier is dropped
except by a timeout (10_state.md R22). -/
def raise {α : Type} (e : Err) (p : Pc) (s : State) : Flow α :=
  .stop { s with
    pc := p
    x := { s.x with res := e.code }
    claim := if p = .timedOut then s.claim else none }

/-- `raise DeviceError(raw)` (60_exceptions.md R327, R340). -/
def raiseDevice {α : Type} (raw : Word) (s : State) : Flow α :=
  raise .deviceError .deviceError { s with x := { s.x with raw := raw } }

/-- `x[VAL] <- v`. -/
def State.setVal (s : State) (v : Quad) : State := { s with x := { s.x with val := v } }

/-- The response of an operation that ends in `s` (30_encoding.md R111). `hasVal`: its rule returns a value.
Words the rule leaves unspecified are free values (log 17). -/
def respond (hasVal : Bool) (s : State) : State :=
  { s with
    rsp :=
      { res := s.x.res
        pc := s.pc.code
        raw := if s.x.res = Err.deviceError.code then s.x.raw else Config.freeRspRaw s.nrsp
        val := if hasVal && s.x.res == 0#8 then s.x.val else Config.freeRspVal s.nrsp }
    nrsp := s.nrsp + 1 }

/-- The 16 bytes of a response record (30_encoding.md R111): `RES`, `PC` in bits 10:8, zero in bits 31:11, `RAW`,
`VAL`. -/
def responseBytes (r : Response) : List Byte :=
  leBytes 1 r.res.toNat ++ leBytes 3 r.pc.toNat ++ leBytes 4 r.raw.toNat ++ leBytes 8 r.val.toNat

/-- The end of an operation (00_scope.md R15; 10_state.md R27): `RES` is 0 on success, and a response is
produced on success and on error alike. -/
def endOp (hasVal : Bool) : Flow Unit → Host.Outcome State Fault Refusal
  | .go _ s => .next (respond hasVal { s with x := { s.x with res := 0#8 } })
  | .stop s => .next (respond false s)
  | .refuse r => .refused r

/-! ## MMIO (40_mmio_access.md R160 to R167) -/

/-- Bytes of an access. -/
def Width.bytes : Width → Nat
  | .w32 => 4
  | .w64 => 8

/-- The low bits an access of this width carries. -/
def Width.trunc : Width → Quad → Quad
  | .w32, v => (v.setWidth 32).setWidth 64
  | .w64, v => v

/-- What a read of the register at `a` answers: its content if known, else a free value (R166; log 4). -/
def State.busValue (s : State) (w : Width) (a : Nat) : Quad :=
  match alGet s.regs a with
  | some v => w.trunc v
  | none => w.trunc (Config.freeBus s.draws)

/-- The state after a read at `a`: the access is logged, and an unknown register has used up one free value. -/
def State.afterRead (s : State) (w : Width) (a : Nat) : State :=
  { s with
    draws := if (alGet s.regs a).isSome then s.draws else s.draws + 1
    log := .rd w a (s.busValue w a) :: s.log }

/-- `MmioRead` at byte address `a` (R160, R161): one device step, then one access of exactly this width. A
range past 2^64 is refused (20_memory.md R71). -/
def mmioRead (w : Width) (a : Nat) (s : State) : Flow Quad :=
  if a + w.bytes ≤ addrSpace then .go ((tick s).busValue w a) ((tick s).afterRead w a)
  else .refuse .addressWrap

/-- What a device register does with a write, as far as the model presumes it (log 3). -/
inductive RegKind where
  /-- Keeps what is written. -/
  | stored
  /-- Read-only to the sequencer. -/
  | readOnly
  /-- `PxCMD`: `FR` and `CR` are the device's (10_state.md R44). -/
  | portCmd
  /-- `PxCI`: write-1-to-set (10_state.md R49). -/
  | commandIssue
  /-- Content unknown after a write. -/
  | unknown
  deriving DecidableEq, Repr

/-- The registers of an AHCI HBA by offset (10_state.md R35 to R50; 20_memory.md R81). -/
def ahciRegKind (off : Nat) : RegKind :=
  if off < 0x100 then
    match off with
    | 0x04 => .stored
    | 0x00 | 0x0C | 0x10 => .readOnly
    | _ => .unknown
  else
    match (off - 0x100) % 0x80 with
    | 0x00 | 0x04 | 0x08 | 0x0C => .stored
    | 0x18 => .portCmd
    | 0x1C | 0x24 | 0x28 => .readOnly
    | 0x38 => .commandIssue
    | _ => .unknown

/-- The registers of an NVMe controller by offset (10_state.md R51 to R59; 20_memory.md R82). -/
def nvmeRegKind (off : Nat) : RegKind :=
  match off with
  | 0x14 | 0x24 | 0x28 | 0x30 => .stored
  | 0x00 | 0x08 | 0x1C => .readOnly
  | _ => .unknown

/-- The size of an HBA's register window: 32 port blocks (20_memory.md R81). -/
def ahciWindow : Nat := 0x1100

/-- `STRIDE` (10_state.md R51). -/
def Nvme.stride (n : Nvme) : Nat := 4 * 2 ^ n.dstrd.toNat

/-- The offset of the first byte behind the last doorbell a queue identifier of 16 bits can name. -/
def Nvme.window (n : Nvme) : Nat := 0x1008 + 2 * 65535 * n.stride

/-- A controller that an address belongs to, with the offset in its register window. -/
inductive Ctrl where
  | hba (off : Nat)
  | nvme (n : Nvme) (off : Nat)
  deriving DecidableEq, Repr

/-- The value of the greatest of the keys at or below `a`; of equal keys, the first (log 26). -/
def nearest {α : Type} (a : Nat) : List (Nat × α) → Option (Nat × α)
  | [] => none
  | e :: rest =>
    match nearest a rest with
    | none => if e.1 ≤ a then some e else none
    | some f => if e.1 ≤ a ∧ f.1 ≤ e.1 then some e else some f

/-- The bases of the loaded HBAs whose window reaches behind `a`. -/
def State.hbaBases (s : State) (a : Nat) : List (Nat × Unit) :=
  (s.hba.map fun e => (e.2.base.toNat, ())).filter fun e => decide (a < e.1 + ahciWindow)

/-- The loaded NVMe controllers whose window reaches behind `a`, by base. -/
def State.nvmeBases (s : State) (a : Nat) : List (Nat × Nvme) :=
  (s.nvme.map fun e => (e.2.base.toNat, e.2)).filter fun e => decide (a < e.1 + e.2.window)

/-- The controller that byte address `a` belongs to: of the loaded controllers whose window holds `a`, the one with the
greatest base (log 26). -/
def State.ctrlAt? (s : State) (a : Nat) : Option Ctrl :=
  match nearest a (s.hbaBases a), nearest a (s.nvmeBases a) with
  | none, none => none
  | some h, none => some (.hba (a - h.1))
  | none, some n => some (.nvme n.2 (a - n.1))
  | some h, some n => if n.1 ≤ h.1 then some (.hba (a - h.1)) else some (.nvme n.2 (a - n.1))

/-- The kind of the register at byte address `a`. -/
def State.regKind (s : State) (a : Nat) : RegKind :=
  match s.ctrlAt? a with
  | some (.hba off) => ahciRegKind off
  | some (.nvme _ off) => nvmeRegKind off
  | none => .unknown

/-- `FR` and `CR` of `PxCMD` (10_state.md R44). -/
def cmdRunMask : Quad := 0xC000#64

/-- The known registers after a write of `v` to a register of the given kind that held `old` (log 3). -/
def writeReg (regs : List (Nat × Quad)) (kind : RegKind) (a : Nat) (v old : Quad) : List (Nat × Quad) :=
  match kind with
  | .stored => alSet regs a v
  | .readOnly => regs
  | .portCmd => alSet regs a ((v &&& ~~~cmdRunMask) ||| (old &&& cmdRunMask))
  | .commandIssue => alSet regs a (old ||| v)
  | .unknown => alErase regs a

/-- What the register holds after a write depends on what it held. -/
def RegKind.keepsBits : RegKind → Bool
  | .portCmd | .commandIssue => true
  | .stored | .readOnly | .unknown => false

/-- A write at `a` needs a free value for what the register held (log 4). -/
def State.writeDraws (s : State) (a : Nat) : Bool := (s.regKind a).keepsBits && (alGet s.regs a).isNone

/-- The state after a write at `a`. A register of unknown content that keeps some of its bits keeps those of a free
value (10_state.md R49: the bits written to `PxCI` read 1 whatever it held; log 4). -/
def State.afterWrite (s : State) (w : Width) (a : Nat) (v : Quad) : State :=
  { s with
    regs := writeReg s.regs (s.regKind a) a (w.trunc v) (s.busValue w a)
    draws := if s.writeDraws a then s.draws + 1 else s.draws
    log := .wr w a (w.trunc v) :: s.log }

/-- `MmioWrite` at byte address `a` (R162, R163): one device step, then one access of exactly this width. -/
def mmioWrite (w : Width) (a : Nat) (v : Quad) (s : State) : Flow Unit :=
  if a + w.bytes ≤ addrSpace then .go () ((tick s).afterWrite w a v)
  else .refuse .addressWrap

/-! ## Memory accesses of the sequencer (20_memory.md R79, R95) -/

/-- The state after the block store of `bs` at `a`. -/
def State.afterStore (s : State) (a : Nat) (bs : List Byte) : State :=
  { s with
    mem := s.mem.write a bs
    pend := { byHost := false, addr := a, len := bs.length } :: s.pend
    log := .store a bs.length :: s.log }

/-- Why a range of `n` bytes from `a` is no range of system memory (20_memory.md R71, R85). -/
def pastEnd (a n : Nat) : Refusal := if a + n ≤ addrSpace then .absentMemory else .addressWrap

/-- One device step, then one block store (R95). -/
def memStore (a : Nat) (bs : List Byte) (s : State) : Flow Unit :=
  if a + bs.length ≤ s.cfg.memEnd then .go () ((tick s).afterStore a bs)
  else .refuse (pastEnd a bs.length)

/-- One device step, then one load of `n` bytes (R89: never from a stale copy). -/
def memLoad (a n : Nat) (s : State) : Flow (List Byte) :=
  if a + n ≤ s.cfg.memEnd then .go ((tick s).mem.read a n) { tick s with log := .load a n :: s.log }
  else .refuse (pastEnd a n)

/-- `n` bytes from `a`, each an access of its own with a device step before it (00_scope.md R7), in ascending order. -/
def loadBytes : Nat → Nat → State → Flow (List Byte)
  | _, 0, s => .go [] s
  | a, n + 1, s =>
    (memLoad a 1 s).bind fun b s => (loadBytes (a + 1) n s).bind fun bs s => .go (b ++ bs) s

/-- The bytes `bs` from `a`, each an access of its own with a device step before it (00_scope.md R7), in ascending
order. -/
def storeBytes : Nat → List Byte → State → Flow Unit
  | _, [], s => .go () s
  | a, b :: bs, s => (memStore a [b] s).bind fun _ s => storeBytes (a + 1) bs s

/-! ## Publish() (20_memory.md R88) -/

/-- The parts of a store that lie outside `[a, a + n)`. -/
def PendStore.outside (p : PendStore) (a n : Nat) : List PendStore :=
  if p.addr + p.len ≤ a ∨ a + n ≤ p.addr then [p]
  else
    (if p.addr < a then [{ p with len := a - p.addr }] else []) ++
      (if a + n < p.addr + p.len then [{ p with addr := a + n, len := p.addr + p.len - (a + n) }] else [])

/-- What a `Publish()` inside an operation leaves unordered of one store: nothing of the sequencer's, and of the host's
what lies outside the data buffer `buf` of the request, where it has one (R87, R88; log 20). -/
def PendStore.left (buf : Option (Nat × Nat)) (p : PendStore) : List PendStore :=
  if p.byHost then
    match buf with
    | none => [p]
    | some b => p.outside b.1 b.2
  else []

/-- `Publish()` inside an operation: every store of the sequencer is ordered, and every byte of the data buffer `buf` of
the request (R88; log 20). They count as ordered for every device, not for that of the current channel alone (DESIGN
CHOICE, log 20). -/
def publish (buf : Option (Nat × Nat)) (s : State) : State :=
  { s with pend := s.pend.flatMap (PendStore.left buf), log := .publish :: s.log }

/-- `Publish()` as the operation PUBLISH: every earlier store (40_mmio_access.md R164), for every device (DESIGN CHOICE,
log 20). -/
def publishAll (s : State) : State := { s with pend := [], log := .publish :: s.log }

/-! ## Bounded waits (60_exceptions.md R346) -/

/-- `x[ITER] <- 0`. -/
def State.clearIter (s : State) : State := { s with x := { s.x with iter := 0#32 } }

/-- `x[ITER] <- x[ITER] + 1`. -/
def State.bumpIter (s : State) : State := { s with x := { s.x with iter := s.x.iter + 1#32 } }

/-- The rounds of a wait with `n` looks left: read the 32-bit register at `a` until `done` holds of its value;
with no look left, `pc <- Idle; raise e`. -/
def waitRounds (a : Nat) (done : Quad → Bool) (e : Err) : Nat → State → Flow Unit
  | 0, s => raise e .idle s
  | n + 1, s =>
    (mmioRead .w32 a s).bind fun v s =>
      if done v then .go () s else waitRounds a done e n s.bumpIter

/-- A wait of at most `budget` looks (R346): the test of the budget comes first in each round, so `ITER` and
the looks left always add up to the budget. -/
def waitFor (a : Nat) (done : Quad → Bool) (e : Err) (budget : Word) (s : State) : Flow Unit :=
  waitRounds a done e budget.toNat s.clearIter

/-! ## In-flight and leaked commands (10_state.md R60, R62) -/

/-- The in-flight entry becomes leaked. -/
def leak (s : State) : State :=
  { s with leaked := s.leaked ++ s.inflight.toList, inflight := none }

/-- The issue write has been made (R60; 43_ahci_engine.md R216, 44_nvme_engine.md R242). -/
def markIssued (t : Tag) (s : State) : State := { s with inflight := some t, pc := .issued }

/-- `in_flight <- none; pc <- Completed`: the slot is recycled (10_state.md R22). -/
def complete (s : State) : State := { s with inflight := none, claim := none, pc := .completed }

/-- `in_flight <- none` (R60). -/
def land (s : State) : State := { s with inflight := none }

/-- The budget of a poll is used up (43_ahci_engine.md R220): the entry is leaked, `pc` is TimedOut. -/
def timeOut (s : State) : Flow Unit := raise .commandTimeout .timedOut (leak s)

/-- `pc <- Idle` at the end of an operation that is no command. -/
def settle (s : State) : State := { s with pc := .idle, claim := none }

/-- Forget every in-flight and leaked entry of the channels that `p` picks (R304, R306, R308). -/
def forget (p : Chan → Bool) (s : State) : State :=
  { s with
    leaked := s.leaked.filter (fun t => !p t.chan)
    inflight := s.inflight.filter (fun t => !p t.chan) }

/-! ## Acceptance (10_state.md R25; 30_encoding.md R110, R114) -/

/-- The six registers loaded in one step. -/
def accept (op : Byte) (r : Request) (s : State) : State :=
  { s with x := { s.x with op := op, dev := r.dev, cnt := r.cnt, arg := r.arg, lba := r.lba, buf := r.buf } }

/-- Acceptance of a micro-operation, of AHCI.CMD or of NVME.CMD: `CMDB`, `WR`, `FLG` come from `ARG` (R114). -/
def acceptMicro (op : Byte) (r : Request) (s : State) : State :=
  { accept op r s with
    x := { (accept op r s).x with cmdb := r.argCmd, wr := r.argWr, flg := r.argFlg } }

/-- The frame of an operation: its static checks, its `pc` precondition (10_state.md R23), its body, its end. -/
def operation (i : Instr) (pcOk : Bool) (hasVal : Bool) (body : Flow Unit) : Host.Outcome State Fault Refusal :=
  match i.defect? with
  | some d => .refused (.illFormed d)
  | none => if pcOk then endOp hasVal body else .refused .wrongPc

end Sys2Proof.Machine
end

