-- ==== Sys2Proof/Machine/Flags.lean ====
section
/-!
DEFINITION. The command flags `FLG` (10_state.md R24) and every test of a status bit or status field. The
engine has no condition codes (10_state.md R28).
-/

namespace Sys2Proof.Machine

/-! ## `FLG` -/

/-- `NOLBA`, bit 0. -/
def Regs.noLba (x : Regs) : Bool := x.flg.getLsbD 0
/-- `RAW`, bit 1. -/
def Regs.isRaw (x : Regs) : Bool := x.flg.getLsbD 1
/-- `ADM`, bit 2. -/
def Regs.isAdm (x : Regs) : Bool := x.flg.getLsbD 2
/-- `NS`, bit 3. -/
def Regs.isNs (x : Regs) : Bool := x.flg.getLsbD 3

/-- `FLG` for the IDENTIFY of an AHCI device: `NOLBA` (45_block_api.md R268). -/
def flgNoLba : BitVec 4 := 0b0001#4
/-- `RAW | ADM` (R268). -/
def flgRawAdm : BitVec 4 := 0b0110#4
/-- `RAW | ADM | NS` (R268). -/
def flgRawAdmNs : BitVec 4 := 0b1110#4

/-! ## AHCI status -/

/-- The low 32 bits of an MMIO value. -/
def word (v : Quad) : Word := v.setWidth 32

/-- The device is busy (10_state.md R45, 43_ahci_engine.md R216). -/
def portBusy (p : Params) (tfd : Quad) : Bool := (word tfd &&& p.ahciBusyMask) != 0#32

/-- The Task-File-Error test (10_state.md R45, 43_ahci_engine.md R218). -/
def portError (p : Params) (e : Quad) : Bool := (word e &&& p.ahciErrMask) != 0#32

/-- The bit of slot `s` is clear (41_slot_queue_allocator.md R175; 43_ahci_engine.md R218). -/
def slotClear (bitmap : Quad) (s : Nat) : Bool := !bitmap.getLsbD s

/-- `CR` and `FR` both clear (47_system_ops.md R305). -/
def enginesStopped (cmd : Quad) : Bool := (word cmd &&& 0x0000C000#32) == 0#32

/-- A device is present: `DET` = 3 and `IPM` = 1 (47_system_ops.md R302). -/
def devicePresent (ssts : Quad) : Bool :=
  ssts.extractLsb' 0 4 == 3#4 && ssts.extractLsb' 8 4 == 1#4

/-- Type code of a signature (47_system_ops.md R302). -/
def signatureClass (sig : Word) : Quad :=
  if sig = 0x00000101#32 then 1#64
  else if sig = 0xEB140101#32 then 2#64
  else if sig = 0xC33C0101#32 then 3#64
  else if sig = 0x96690101#32 then 4#64
  else 5#64

/-- Type code of a class triple (47_system_ops.md R300). -/
def classCode (triple : BitVec 24) : Quad :=
  if triple = 0x010601#24 then 1#64
  else if triple = 0x010802#24 then 2#64
  else 0#64

/-! ## NVMe status -/

/-- `CSTS` bit 0, ready (10_state.md R54). -/
def ctrlReady (csts : Quad) : Bool := csts.getLsbD 0

/-- `CSTS` bit 1, fatal (10_state.md R54). -/
def ctrlFatal (csts : Quad) : Bool := csts.getLsbD 1

/-- The status halfword `st` of a completion entry's DW3 (30_encoding.md R126). -/
def cqeStatus (d3 : Word) : Half := d3.extractLsb' 16 16

/-- The command identifier of DW3 (30_encoding.md R125). -/
def cqeCid (d3 : Word) : Half := d3.extractLsb' 0 16

/-- The entry is new, and ours (44_nvme_engine.md R244). -/
def cqeMatches (phase : BitVec 1) (cid : Half) (d3 : Word) : Bool :=
  (cqeStatus d3).extractLsb' 0 1 == phase && cqeCid d3 == cid

/-- The 11-bit status field is not zero (30_encoding.md R126). -/
def cqeFailed (st : Half) : Bool := st.extractLsb' 1 11 != 0#11

/-- The submission head an entry reports: DW2, bits 15:0 (30_encoding.md R125). -/
def cqeSqHead (d2 : Word) : Half := d2.extractLsb' 0 16

end Sys2Proof.Machine
end

