-- ==== Sys2Proof/Machine/Operands.lean ====
section
/-!
DEFINITION. Operand forms: the context records that `DEV` selects (10_state.md section 3), the addresses of
registers and structures (20_memory.md R81 to R84), the structures built from the working registers, and the
launch premises (00_scope.md R19; log 16).
-/

namespace Sys2Proof.Machine

/-! ## Contexts -/

/-- The records an AHCI request works on. -/
structure AhciCtx where
  /-- Index of the port record. -/
  p : Nat
  port : Port
  hba : Hba

/-- The records an NVMe request works on. -/
structure NvmeCtx where
  /-- Index of the queue-pair record. -/
  q : Nat
  qp : Qp
  nv : Nvme
  dev : Dev

/-- `dev[x[DEV]]` (10_state.md R33). -/
def State.device (s : State) : Except Refusal Dev :=
  match alGet s.dev s.x.dev.toNat with
  | some d => .ok d
  | none => .error .noDevice

/-- The AHCI device's port and HBA, whether or not the port is implemented (R113). -/
def State.hbaCtx (s : State) : Except Refusal AhciCtx :=
  match s.device with
  | .error r => .error r
  | .ok d =>
    match d.kind with
    | .nvme => .error .wrongKind
    | .ahci =>
      match alGet s.port d.ch with
      | none => .error .noDevice
      | some p =>
        match alGet s.hba p.hba with
        | none => .error .noDevice
        | some h => .ok { p := d.ch, port := p, hba := h }

/-- The same for an operation that names the port: its bit of `PI` must be set (10_state.md R39). -/
def State.ahciCtx (s : State) : Except Refusal AhciCtx :=
  match s.hbaCtx with
  | .error r => .error r
  | .ok c => if c.hba.pi.getLsbD c.port.port.toNat then .ok c else .error .portNotImplemented

/-- The NVMe device's queue pair, admin or I/O, and its controller (R113). -/
def State.nvmeCtxOf (s : State) (adm : Bool) : Except Refusal NvmeCtx :=
  match s.device with
  | .error r => .error r
  | .ok d =>
    match d.kind with
    | .ahci => .error .wrongKind
    | .nvme =>
      match alGet s.qp (if adm then d.admin else d.ch) with
      | none => .error .noDevice
      | some q =>
        match alGet s.nvme q.ctrl with
        | none => .error .noDevice
        | some n => .ok { q := if adm then d.admin else d.ch, qp := q, nv := n, dev := d }

/-- The queue pair that `DEV` and the flag `ADM` select (30_encoding.md R114). -/
def State.nvmeCtx (s : State) : Except Refusal NvmeCtx := s.nvmeCtxOf s.x.isAdm

/-- The sequencer holds a slot of channel `c` (10_state.md R23). -/
def claims (c : Chan) (s : State) : Flow Unit := need (s.claim == some c) .wrongChannel s

/-! ## Register addresses -/

/-- The port's register block: `BASE + 0x100 + PORT * 0x80` (10_state.md R31, R41). -/
def AhciCtx.block (c : AhciCtx) : Nat := c.hba.base.toNat + 0x100 + c.port.port.toNat * 0x80

/-- Register `off` of the HBA (20_memory.md R81). -/
def AhciCtx.hbaReg (c : AhciCtx) (off : Nat) : Nat := c.hba.base.toNat + off

/-- Register `off` of the port's block (20_memory.md R81). -/
def AhciCtx.portReg (c : AhciCtx) (off : Nat) : Nat := c.block + off

/-- Register `off` of the NVMe controller (20_memory.md R82). -/
def NvmeCtx.reg (c : NvmeCtx) (off : Nat) : Nat := c.nv.base.toNat + off

/-- `sq_db(qid)` (10_state.md R58). -/
def NvmeCtx.sqDoorbell (c : NvmeCtx) : Nat := c.reg (0x1000 + 2 * c.qp.qid.toNat * c.nv.stride)

/-- `cq_db(qid)` (10_state.md R58: the literal formula). -/
def NvmeCtx.cqDoorbell (c : NvmeCtx) : Nat := c.reg (0x1004 + 2 * c.qp.qid.toNat * c.nv.stride)

/-! ## Structure addresses -/

/-- `ctba(p, x[SLOT])`, for a slot in range that the port record gives a table. -/
def AhciCtx.table (c : AhciCtx) (slot : Half) : Except Refusal Quad :=
  if slot.toNat < c.hba.nSlots.toNat then
    match c.port.ct[slot.toNat]? with
    | some t => .ok t
    | none => .error .slotOutOfRange
  else .error .slotOutOfRange

/-- The Command Header of a slot: `CLB + 32 * slot` (20_memory.md R83). -/
def AhciCtx.header (c : AhciCtx) (slot : Half) : Nat := c.port.clb.toNat + 32 * slot.toNat

/-- The PRDT of the table at `t` (20_memory.md R83). -/
def prdtAt (t : Quad) : Nat := t.toNat + 0x80

/-- The submission entry at position `i`: `SQ_BASE + 64 * i` (20_memory.md R84). -/
def NvmeCtx.entry (c : NvmeCtx) (i : Half) : Nat := c.qp.sqBase.toNat + 64 * i.toNat

/-- The completion entry at the head: `CQ_BASE + 16 * CQ_HEAD` (20_memory.md R84). -/
def NvmeCtx.head (c : NvmeCtx) : Nat := c.qp.cqBase.toNat + 16 * c.qp.cqHead.toNat

/-- `PAGE_BYTES` (47_system_ops.md R308 takes its logarithm; log 25). -/
def Nvme.pageBytes (n : Nvme) : Nat := 2 ^ (12 + n.mps.toNat)

/-- Bytes of one command table: `128 + 16 * PRDT_CAP` (10_state.md R34), also where `PRDT_CAP` is out of its range (log
43). -/
def tableBytes (p : Params) : Nat := 128 + 16 * p.prdtCap

/-! ## Structures built from the working registers -/

/-- PRDT entries needed for `cnt` sectors (42_descriptor_builder.md R191). -/
def prdtCount (cnt : Nat) : Nat := ceilDiv cnt chunkSectors

/-- The most entries a table holds: `PRDT_CAP`, never above the hardware's 65535 (R192); log 43. -/
def prdtLimit (p : Params) : Nat := min p.prdtCap prdtAbsMax

/-- Bytes that entry `i` of `n` covers (R191). -/
def prdtSpan (cnt n i : Nat) : Nat :=
  if i + 1 = n then cnt * sectorBytes - chunkBytes * (n - 1) else chunkBytes

/-- PRDT entry `i` of `n` for `cnt` sectors at `buf` (R191). -/
def prdtEntryOf (buf : Quad) (cnt n i : Nat) : PrdtEntry :=
  { dba := buf + BitVec.ofNat 64 (i * chunkBytes)
    dbc := BitVec.ofNat 22 (prdtSpan cnt n i - 1)
    last := if i + 1 = n then 1#1 else 0#1 }

/-- The whole PRDT for `cnt` sectors at `buf` (R191). -/
def prdtOf (buf : Quad) (cnt : Nat) : List PrdtEntry :=
  (List.range (prdtCount cnt)).map (prdtEntryOf buf cnt (prdtCount cnt))

/-- The bytes of a PRDT. -/
def prdtBytes (es : List PrdtEntry) : List Byte := es.flatMap PrdtEntry.bytes

/-- The FIS of the current command but for its command byte (42_descriptor_builder.md R195). -/
def State.fis (s : State) : Fis :=
  { flags := s.cfg.fisFlags
    noLba := s.x.noLba
    lba := s.x.lba.setWidth 48
    cnt := s.x.cnt }

/-- The 128-byte command-table head around a 20-byte FIS: the rest is zero (R195). -/
def tableHead (fis : List Byte) : List Byte := fis ++ zeros 108

/-- The Command Header of the current command (42_descriptor_builder.md R198). -/
def State.cmdHdr (s : State) (t : Quad) : CmdHdr :=
  { write := s.x.wr, prdtl := s.x.nprd, ctba := t }

/-- Length of an NVMe transfer (42_descriptor_builder.md R203). A `BLOCK_BYTES` that the host has not set counts as 0
(DESIGN CHOICE, log 42). -/
def NvmeCtx.transferBytes (c : NvmeCtx) (x : Regs) : Nat :=
  if x.isRaw then x.cnt.toNat else x.cnt.toNat * c.dev.blockBytes

/-- The tests of R203, both causes of TransferTooLarge. -/
def NvmeCtx.tooLarge (c : NvmeCtx) (buf : Quad) (len : Nat) : Bool :=
  decide (c.nv.mdts < len) || decide (c.nv.pageBytes < buf.toNat % c.nv.pageBytes + len)

/-- `cdw10`, `cdw11`, `cdw12` (30_encoding.md R124, 42_descriptor_builder.md R205). -/
def State.cdws (s : State) : Word × Word × Word :=
  if s.x.isRaw then (lo32 s.x.lba, hi32 s.x.lba, 0#32)
  else
    match s.cfg.nvmeRwLayout with
    | .docLayout => (s.x.cnt.setWidth 32 - 1#32, lo32 s.x.lba, hi32 s.x.lba)
    | .stdLayout => (lo32 s.x.lba, hi32 s.x.lba, s.x.cnt.setWidth 32 - 1#32)

/-- The submission entry of the current command but for its opcode (42_descriptor_builder.md R205). -/
def State.sqe (s : State) (c : NvmeCtx) : Sqe :=
  { cid := s.x.cid
    nsid := if !s.x.isRaw || s.x.isNs then c.dev.nsid else 0#32
    prp1 := s.x.buf
    cdw10 := s.cdws.1
    cdw11 := s.cdws.2.1
    cdw12 := s.cdws.2.2 }

/-! ## Ring positions (30_encoding.md R135 (d)) -/

/-- `(i + 1) mod q`. -/
def ringNext (q : Nat) (i : Half) : Half := BitVec.ofNat 16 ((i.toNat + 1) % q)

/-- The queue is full (41_slot_queue_allocator.md R179). -/
def Qp.full (q : Qp) : Bool := ringNext q.qSize q.sqTail == q.sqHead

/-! ## Launch premises (10_state.md R34; 20_memory.md R71, R76, R77; log 16) -/

/-- Two ranges (start, length) share no byte. -/
def disjoint (a b : Nat × Nat) : Bool :=
  decide (a.1 + a.2 ≤ b.1) || decide (b.1 + b.2 ≤ a.1) || a.2 == 0 || b.2 == 0

/-- No two of the ranges share a byte. -/
def allDisjoint : List (Nat × Nat) → Bool
  | [] => true
  | a :: rest => rest.all (disjoint a) && allDisjoint rest

/-- The received-FIS area of a port: written by the device only, never read by the SCE (43_ahci_engine.md R215;
10_state.md R43). -/
def Port.received (p : Port) : Nat × Nat := (p.fb.toNat, 256)

/-- The regions of a port: command list, received-FIS area, command tables (R34). Every table that the record lists is one,
also beyond `N_SLOTS` (DESIGN CHOICE, log 44). -/
def Port.regions (p : Port) (bytes : Nat) : List (Nat × Nat) :=
  (p.clb.toNat, 1024) :: p.received :: p.ct.map (fun t => (t.toNat, bytes))

/-- The regions of a queue pair: its two rings (R34). -/
def Qp.regions (q : Qp) : List (Nat × Nat) :=
  [(q.sqBase.toNat, 64 * q.qSize), (q.cqBase.toNat, 16 * q.qSize)]

/-- The regions of all controllers. -/
def State.arena (s : State) : List (Nat × Nat) :=
  s.port.flatMap (fun e => e.2.regions (tableBytes s.cfg)) ++ s.qp.flatMap (fun e => e.2.regions)

/-- The identify buffer, where one is set aside (R34). An NVMe device counts as attached from the first NVMe controller
record that the host loads on (DESIGN CHOICE, log 16). -/
def State.idRegion (s : State) : List (Nat × Nat) :=
  if s.cfg.idBuf = 0#64 then []
  else [(s.cfg.idBuf.toNat, if s.nvme.isEmpty then idBytes else s.cfg.nvmeIdBytes.toNat)]

/-- No region leaves system memory and no two overlap (R34, R71, R85). The regions are compared with each other alone: one
of a record loaded after a CommandTimeout may lie over the data buffer of the leaked command, and PORT.INIT, NVME.INIT
and the builders then store into it (DESIGN CHOICE, log 40). -/
def State.arenaOk (s : State) : Bool :=
  (s.arena ++ s.idRegion).all (fun r => decide (r.1 + r.2 ≤ s.cfg.memEnd)) && allDisjoint (s.arena ++ s.idRegion)

/-- The structures and the buffer of a command that is in flight or leaked (20_memory.md R94, R95, R100). The structures
lie where the record of its channel, as it is now, has them: a record loaded anew moves them (DESIGN CHOICE, log 40). A
leaked NVMe command keeps its submission entry, also where `SQ_HEAD` has passed it (DESIGN CHOICE, log 36). -/
def State.tagRegions (s : State) (t : Tag) : List (Nat × Nat) :=
  (t.dataAt, t.dataLen) ::
    match t.chan with
    | .port p =>
      match alGet s.port p with
      | none => []
      | some r =>
        [(r.clb.toNat + 32 * t.slot.toNat, 32),
         (((r.ct[t.slot.toNat]?).getD 0#64).toNat, tableBytes s.cfg)]
    | .qp q =>
      match alGet s.qp q with
      | none => []
      | some r => [(r.sqBase.toNat + 64 * t.slot.toNat, 64)]

/-- The submission entries the tail doorbell has passed and the reported `SQ_HEAD` has not (20_memory.md R94). -/
def Qp.submitted (q : Qp) : List (Nat × Nat) :=
  if q.sqHead.toNat ≤ q.sqTail.toNat then
    [(q.sqBase.toNat + 64 * q.sqHead.toNat, 64 * (q.sqTail.toNat - q.sqHead.toNat))]
  else
    [(q.sqBase.toNat + 64 * q.sqHead.toNat, 64 * (q.qSize - q.sqHead.toNat)), (q.sqBase.toNat, 64 * q.sqTail.toNat)]

/-- The completion ring of a queue pair. -/
def Qp.completionRing (q : Qp) : Nat × Nat := (q.cqBase.toNat, 16 * q.qSize)

/-- What the device owns of a queue pair's rings (R94): the submitted entries and, once the queue pair has started, the
completion ring; before that the host may still zero-fill it (70_reset_and_hazards.md R369; log 16). -/
def Qp.deviceOwned (q : Qp) : List (Nat × Nat) := q.submitted ++ if q.started then [q.completionRing] else []

/-- The received-FIS areas. -/
def State.received (s : State) : List (Nat × Nat) := s.port.map fun e => e.2.received

/-- What the devices may still be using (R94, R99), and the areas that only they write (43_ahci_engine.md R215). -/
def State.deviceOwned (s : State) : List (Nat × Nat) :=
  (s.inflight.toList ++ s.leaked).flatMap s.tagRegions ++ (s.qp.flatMap fun e => e.2.deviceOwned) ++ s.received

/-- The data buffer overlaps no region of the arena and nothing that a device owns (R34, R100); `ident`: the request is an
IDENTIFY, which the identify buffer is set aside for (log 16). -/
def State.bufferApart (s : State) (ident : Bool) (a n : Nat) : Bool :=
  (s.arena ++ (if ident then [] else s.idRegion) ++ s.deviceOwned).all (disjoint (a, n))

/-- The output of a decoder operation meets nothing that a device owns (20_memory.md R91, R95), no received-FIS area
(43_ahci_engine.md R215) and no completion ring, which the sequencer never writes (R94). -/
def State.outputApart (s : State) (a n : Nat) : Bool :=
  (s.deviceOwned ++ s.qp.map fun e => e.2.completionRing).all (disjoint (a, n))

/-- The alignments of a port's structures (R76), of every table that the record lists, also beyond `N_SLOTS` (DESIGN CHOICE,
log 44). -/
def Port.aligned (p : Port) : Bool :=
  p.clb.toNat % 1024 == 0 && p.fb.toNat % 256 == 0 && p.ct.all (fun t => t.toNat % 128 == 0)

/-- The alignment of a queue pair's rings (R76). -/
def Qp.aligned (q : Qp) (page : Nat) : Bool := q.sqBase.toNat % page == 0 && q.cqBase.toNat % page == 0

/-- The premises on the structures of a port. -/
def AhciCtx.premises (c : AhciCtx) (s : State) : Flow Unit :=
  (need c.port.aligned .misalignedStructure s).bind fun _ s => need s.arenaOk .overlap s

/-- The premises on the rings of a queue pair. -/
def NvmeCtx.premises (c : NvmeCtx) (s : State) : Flow Unit :=
  (need (c.qp.aligned c.nv.pageBytes) .misalignedStructure s).bind fun _ s => need s.arenaOk .overlap s

/-- The request is an IDENTIFY. -/
def Regs.isIdentify (x : Regs) : Bool := x.op == 0x52#8

/-- The premises on a data buffer: it ends within system memory and overlaps no region (R71, R85, R100). -/
def bufferPremises (a n : Nat) (s : State) : Flow Unit :=
  (need (decide (a + n ≤ s.cfg.memEnd)) (pastEnd a n) s).bind fun _ s =>
  need (s.bufferApart s.x.isIdentify a n) .overlap s

end Sys2Proof.Machine
end

