-- ==== Sys2Proof/Machine/Alloc.lean ====
section
/-!
DEFINITION. Command slot and queue allocator: AHCI.ALLOC, NVME.ALLOC (41_slot_queue_allocator.md).
-/

namespace Sys2Proof.Machine

/-- The first of the `n` slots from `i` on whose bit of the live bitmap is clear (R176). -/
def firstClear (live : Quad) : Nat → Nat → Option Nat
  | 0, _ => none
  | n + 1, i => if slotClear live i then some i else firstClear live n (i + 1)

/-- The state after a successful allocation of slot `slot` on channel `c`. -/
def State.allocated (s : State) (c : Chan) (slot : Half) : State :=
  { s with
    pc := .slotAllocated
    claim := some c
    built := none
    x := { s.x with slot := slot, val := slot.setWidth 64 } }

/-- The allocator of a port (R176): `PxSACT` first, `PxCI` second. A leaked slot whose bit reads 0 is taken like any other
(DESIGN CHOICE, log 36). -/
def ahciAllocStep (s : State) : Flow Unit :=
  (needOk s.ahciCtx s).bind fun c s =>
  (mmioRead .w32 (c.portReg 0x34) s).bind fun sact s =>
  (mmioRead .w32 (c.portReg 0x38) s).bind fun ci s =>
  match firstClear (sact ||| ci) (min c.hba.nSlots.toNat 32) 0 with
  | some k => .go () (s.allocated (.port c.p) (BitVec.ofNat 16 k))
  | none => raise .noFreeSlot .idle s

/-- The command identifier is taken, and the counter advances modulo 2^16 (R180). -/
def takeCid (c : NvmeCtx) (s : State) : State :=
  { s with
    x := { s.x with cid := c.nv.nextCid }
    nvme := alSet s.nvme c.qp.ctrl { c.nv with nextCid := c.nv.nextCid + 1#16 } }

/-- The allocator of a queue pair (R180). -/
def nvmeAllocStep (s : State) : Flow Unit :=
  (needOk s.nvmeCtx s).bind fun c s =>
  if c.qp.full then raise .noFreeSlot .idle s
  else .go () ((takeCid c s).allocated (.qp c.q) c.qp.sqTail)

/-- AHCI.ALLOC (R176). -/
def execAhciAlloc (r : Request) (s : State) : Host.Outcome State Fault Refusal :=
  operation (.ahciAlloc r) s.pc.free true (ahciAllocStep (acceptMicro 0x10#8 r s))

/-- NVME.ALLOC (R180). -/
def execNvmeAlloc (r : Request) (s : State) : Host.Outcome State Fault Refusal :=
  operation (.nvmeAlloc r) s.pc.free true (nvmeAllocStep (acceptMicro 0x11#8 r s))

end Sys2Proof.Machine
end

