-- ==== Sys2Proof/Machine/Build.lean ====
section
/-!
DEFINITION. Descriptor builder: PRDT.BUILD, FIS.BUILD, HDR.BUILD, AHCI.BUILD, PRP.BUILD, SQE.BUILD, NVME.BUILD
(42_descriptor_builder.md).
-/

namespace Sys2Proof.Machine

/-! ## The claimed slot -/

/-- The port of `DEV`, on which the sequencer holds `x[SLOT]`, and the slot's command table. -/
def ahciSlot (s : State) : Flow (AhciCtx × Quad) :=
  (needOk s.ahciCtx s).bind fun c s =>
  (claims (.port c.p) s).bind fun _ s =>
  (needOk (c.table s.x.slot) s).bind fun t s => .go (c, t) s

/-- The queue pair of `DEV`, on which the sequencer holds position `x[SLOT]`. -/
def nvmeSlot (s : State) : Flow NvmeCtx :=
  (needOk s.nvmeCtx s).bind fun c s =>
  (claims (.qp c.q) s).bind fun _ s =>
  (need (decide (s.x.slot.toNat < c.qp.qSize)) .slotOutOfRange s).bind fun _ s => .go c s

/-! ## Stores of one structure -/

/-- The 128-byte table head around `fis` (R195). -/
def storeFis (fis : List Byte) (s : State) : Flow Unit :=
  (ahciSlot s).bind fun c s =>
  (c.1.premises s).bind fun _ s => memStore c.2.toNat (tableHead fis) s

/-- A Command Header at the header of the slot (R198). -/
def storeHeader (h : Quad → CmdHdr) (s : State) : Flow Unit :=
  (ahciSlot s).bind fun c s =>
  (c.1.premises s).bind fun _ s => memStore (c.1.header s.x.slot) (h c.2).bytes s

/-- A submission entry at the allocated ring position (R205); PRP1 is 4-byte aligned (20_memory.md R76), and the data
buffer it names meets the premises on one (R71, R100). -/
def storeEntry (prp1 : Quad) (bytes : NvmeCtx → List Byte) (s : State) : Flow Unit :=
  (nvmeSlot s).bind fun c s =>
  (c.premises s).bind fun _ s =>
  (need (prp1.toNat % 4 == 0) .misalignedStructure s).bind fun _ s =>
  (bufferPremises prp1.toNat (c.transferBytes s.x) s).bind fun _ s =>
  memStore (c.entry s.x.slot) (bytes c) s

/-! ## The builders -/

/-- What PRDT.BUILD leaves in the working registers (R191). -/
def State.prdtBuilt (s : State) : State :=
  { s with
    x := { s.x with
      nprd := BitVec.ofNat 16 (prdtCount s.x.cnt.toNat)
      bytes := BitVec.ofNat 32 (s.x.cnt.toNat * sectorBytes)
      val := BitVec.ofNat 64 (prdtCount s.x.cnt.toNat) }
    built := some (s.x.buf.toNat, s.x.cnt.toNat * sectorBytes) }

/-- The PRDT (R191, R192): the error comes before any store; the table is one block store (log 21). -/
def prdtStep (s : State) : Flow Unit :=
  (ahciSlot s).bind fun c s =>
  if prdtLimit s.cfg < prdtCount s.x.cnt.toNat then raise .tooManyDescriptors .idle s
  else
    (c.1.premises s).bind fun _ s =>
    (need (s.x.buf.toNat % 2 == 0) .misalignedStructure s).bind fun _ s =>
    (bufferPremises s.x.buf.toNat (s.x.cnt.toNat * sectorBytes) s).bind fun _ s =>
    (memStore (prdtAt c.2) (prdtBytes (prdtOf s.x.buf s.x.cnt.toNat)) s).bind fun _ s =>
    .go () s.prdtBuilt

/-- The FIS (R195); an LBA above 48 bits is refused (30_encoding.md R121, R131). -/
def fisStep (s : State) : Flow Unit :=
  (need (decide (s.x.lba.toNat < 281474976710656)) (.illFormed .lbaTooWide) s).bind fun _ s =>
  storeFis (Fis.bytes s.x.cmdb s.fis) s

/-- The Command Header (R198); PRDT.BUILD must have run for this command. -/
def hdrStep (s : State) : Flow Unit :=
  (need s.built.isSome .noDescriptors s).bind fun _ s => storeHeader s.cmdHdr s

/-- The AHCI builders together (R201). -/
def ahciBuildStep (s : State) : Flow Unit :=
  (prdtStep s).bind fun _ s =>
  (fisStep s).bind fun _ s =>
  (hdrStep s).bind fun _ s =>
  .go () ({ s with pc := .descriptorsBuilt }.setVal (s.x.nprd.setWidth 64))

/-- What PRP.BUILD leaves (R203). -/
def State.prpBuilt (s : State) (len : Nat) : State :=
  { s with
    x := { s.x with bytes := BitVec.ofNat 32 len }
    built := some (s.x.buf.toNat, len) }

/-- The transfer length (R203). -/
def prpStep (s : State) : Flow Unit :=
  (nvmeSlot s).bind fun c s =>
  if c.tooLarge s.x.buf (c.transferBytes s.x) then raise .transferTooLarge .idle s
  else
    (bufferPremises s.x.buf.toNat (c.transferBytes s.x) s).bind fun _ s =>
    .go () (s.prpBuilt (c.transferBytes s.x))

/-- The submission entry (R205). -/
def sqeStep (s : State) : Flow Unit :=
  storeEntry s.x.buf (fun c => Sqe.bytes s.x.cmdb (s.sqe c)) s

/-- The NVMe builders together (R207). -/
def nvmeBuildStep (s : State) : Flow Unit :=
  (prpStep s).bind fun _ s =>
  (sqeStep s).bind fun _ s => .go () { s with pc := .descriptorsBuilt }

/-! ## The operations -/

/-- A builder's `pc` precondition. -/
def Pc.isSlotAllocated (p : Pc) : Bool := p == .slotAllocated

/-- PRDT.BUILD (R191). -/
def execPrdtBuild (r : Request) (s : State) : Host.Outcome State Fault Refusal :=
  operation (.prdtBuild r) s.pc.isSlotAllocated true (prdtStep (acceptMicro 0x20#8 r s))

/-- FIS.BUILD (R195). -/
def execFisBuild (r : Request) (s : State) : Host.Outcome State Fault Refusal :=
  operation (.fisBuild r) s.pc.isSlotAllocated false (fisStep (acceptMicro 0x21#8 r s))

/-- HDR.BUILD (R198). -/
def execHdrBuild (r : Request) (s : State) : Host.Outcome State Fault Refusal :=
  operation (.hdrBuild r) s.pc.isSlotAllocated false (hdrStep (acceptMicro 0x22#8 r s))

/-- AHCI.BUILD (R201). -/
def execAhciBuild (r : Request) (s : State) : Host.Outcome State Fault Refusal :=
  operation (.ahciBuild r) s.pc.isSlotAllocated true (ahciBuildStep (acceptMicro 0x23#8 r s))

/-- PRP.BUILD (R203). -/
def execPrpBuild (r : Request) (s : State) : Host.Outcome State Fault Refusal :=
  operation (.prpBuild r) s.pc.isSlotAllocated false (prpStep (acceptMicro 0x24#8 r s))

/-- SQE.BUILD (R205). -/
def execSqeBuild (r : Request) (s : State) : Host.Outcome State Fault Refusal :=
  operation (.sqeBuild r) s.pc.isSlotAllocated false (sqeStep (acceptMicro 0x25#8 r s))

/-- NVME.BUILD (R207). -/
def execNvmeBuild (r : Request) (s : State) : Host.Outcome State Fault Refusal :=
  operation (.nvmeBuild r) s.pc.isSlotAllocated false (nvmeBuildStep (acceptMicro 0x26#8 r s))

end Sys2Proof.Machine
end

