-- ==== Sys2Proof/Machine/Ahci.lean ====
section
/-!
DEFINITION. AHCI port engine: AHCI.ISSUE, AHCI.POLL, AHCI.CMD (43_ahci_engine.md).
-/

namespace Sys2Proof.Machine

/-- The `PxCI` write value: exactly one bit set (30_encoding.md R122). -/
def ciValue (slot : Half) : Quad := (1#32 <<< slot.toNat).setWidth 64

/-- The in-flight entry of the current AHCI command (10_state.md R60). -/
def State.portTag (s : State) (c : AhciCtx) : Tag :=
  { chan := .port c.p
    slot := s.x.slot
    cid := 0#16
    dataAt := (s.built.getD (0, 0)).1
    dataLen := (s.built.getD (0, 0)).2 }

/-- Issue (R216, R217): busy wait, `Publish()`, one write of `PxCI`. -/
def ahciIssueStep (s : State) : Flow Unit :=
  (ahciSlot s).bind fun c s =>
  (waitFor (c.1.portReg s.cfg.ahciBusyOff) (fun t => !portBusy s.cfg t) .portHung s.cfg.busyBudget s).bind fun _ s =>
  (mmioWrite .w32 (c.1.portReg 0x38) (ciValue s.x.slot) (publish s.built s)).bind fun _ s =>
  .go () (markIssued (s.portTag c.1) s)

/-- The rounds of the completion poll with `n` looks left (R218): `PxCI` first, the error register second;
an error has priority over a completion (R219). -/
def ahciPollRounds (c : AhciCtx) : Nat → State → Flow Unit
  | 0, s => timeOut s
  | n + 1, s =>
    (mmioRead .w32 (c.portReg 0x38) s).bind fun ci s =>
    (mmioRead .w32 (c.portReg s.cfg.ahciErrOff) s).bind fun e s =>
    if portError s.cfg e then raiseDevice (word e) (land s)
    else if slotClear ci s.x.slot.toNat then .go () (complete s)
    else ahciPollRounds c n s.bumpIter

/-- Poll (R218). -/
def ahciPollStep (s : State) : Flow Unit :=
  (ahciSlot s).bind fun c s => ahciPollRounds c.1 s.cfg.pollBudget.toNat s.clearIter

/-- One ATA command from allocation to completion (R221). -/
def ahciCmdStep (s : State) : Flow Unit :=
  (ahciAllocStep s).bind fun _ s =>
  (ahciBuildStep s).bind fun _ s =>
  (ahciIssueStep s).bind fun _ s => ahciPollStep s

/-- AHCI.ISSUE (R216). -/
def execAhciIssue (r : Request) (s : State) : Host.Outcome State Fault Refusal :=
  operation (.ahciIssue r) (s.pc == .descriptorsBuilt) false (ahciIssueStep (acceptMicro 0x30#8 r s))

/-- AHCI.POLL (R218). -/
def execAhciPoll (r : Request) (s : State) : Host.Outcome State Fault Refusal :=
  operation (.ahciPoll r) (s.pc == .issued) false (ahciPollStep (acceptMicro 0x31#8 r s))

/-- AHCI.CMD (R221). -/
def execAhciCmd (r : Request) (s : State) : Host.Outcome State Fault Refusal :=
  operation (.ahciCmd r) s.pc.free false (ahciCmdStep (acceptMicro 0x32#8 r s))

end Sys2Proof.Machine
end

