-- ==== Sys2Proof/Machine/Ident.lean ====
section
/-!
DEFINITION. Identify and string decoder: ID.STR, ID.CAP, ID.SECSZ, ID.DECODE (46_identify_decoder.md).
-/

namespace Sys2Proof.Machine

/-! ## Pure decoding -/

/-- Length without trailing bytes 0x20 (R281). -/
def trimLen (s : List Byte) : Nat := (s.reverse.dropWhile (fun b => b == 0x20#8)).length

/-- A string trimmed, and filled with 0x00 to the length it had (R281). -/
def trimmed (s : List Byte) : List Byte := s.take (trimLen s) ++ zeros (s.length - trimLen s)

/-- The clamp of R284. -/
def clampCap (p : Params) (v : Nat) : Quad :=
  if v / 4294967296 ≠ 0 then p.capClamp else BitVec.ofNat 64 v

/-- Bits 15 and 12 of word 106 both set (R285). -/
def customSize (w : Nat) : Bool := w.testBit 15 && w.testBit 12

/-- What the Device Identity record holds (R288). -/
structure Identity where
  /-- `MODEL`, `SERIAL`, `FIRMWARE` un-swapped, not trimmed yet. -/
  model : List Byte
  serial : List Byte
  firmware : List Byte
  /-- `FLAGS`, from bit 0: 48-bit LBA, NCQ, TRIM, SMART. -/
  lba48 : Bool
  ncq : Bool
  trim : Bool
  smart : Bool
  /-- `SECTORS`. -/
  sectors : Quad
  /-- `SECTOR_BYTES`; the record has 32 bits for it (log 38). -/
  sectorSize : Quad
  deriving DecidableEq, Repr

/-- `FLAGS` (R287, R288). -/
def Identity.flags (d : Identity) : Nat :=
  d.lba48.toNat + 2 * d.ncq.toNat + 4 * d.trim.toNat + 8 * d.smart.toNat

/-- The 96-byte Device Identity record (R288). A scaled sector size that does not fit 32 bits keeps its low 4 bytes
(DESIGN CHOICE, log 38). -/
def Identity.record (d : Identity) : List Byte :=
  trimmed d.model ++ trimmed d.serial ++ trimmed d.firmware
    ++ leBytes 1 (trimLen d.model) ++ leBytes 1 (trimLen d.serial) ++ leBytes 1 (trimLen d.firmware)
    ++ leBytes 1 d.flags ++ leBytes 8 d.sectors.toNat ++ leBytes 4 d.sectorSize.toNat ++ zeros 12

/-! ## Loads of the payload at `p`, byte by byte: `byte(k) = MemRead(P + k, 1)` (46_identify_decoder.md, its opening;
log 28) -/

/-- `n` words from word `w`, as a little-endian value (00_scope.md R11). -/
def loadWords (p w n : Nat) (s : State) : Flow Nat :=
  (loadBytes (p + 2 * w) (2 * n) s).bind fun bs s => .go (leNat bs) s

/-- The string in the `n` words from word `w`, un-swapped: of each word the high byte is read first (R281). -/
def loadField (p : Nat) : Nat → Nat → State → Flow (List Byte)
  | _, 0, s => .go [] s
  | w, n + 1, s =>
    (memLoad (p + 2 * w + 1) 1 s).bind fun hi s =>
    (memLoad (p + 2 * w) 1 s).bind fun lo s =>
    (loadField p (w + 1) n s).bind fun bs s => .go (hi ++ lo ++ bs) s

/-- One bit of the payload. -/
def loadBit (p : Nat) (b : BitPos) (s : State) : Flow Bool :=
  (loadWords p b.word.toNat 1 s).bind fun w s => .go (w.testBit b.bit.toNat) s

/-- The test of R282. -/
def payloadValid (p len : Nat) : Bool := decide (p ≠ 0) && decide (512 ≤ len)

/-- The payload ends within system memory and meets no received-FIS area, which the SCE never reads (43_ahci_engine.md
R215; 10_state.md R43). It may lie in memory that a device still owns otherwise (DESIGN CHOICE, log 16). Of a payload
longer than 512 bytes these premises are on the first 512 alone (DESIGN CHOICE, log 16). -/
def payloadPremises (p : Nat) (s : State) : Flow Unit :=
  (need (decide (p + 512 ≤ s.cfg.memEnd)) (pastEnd p 512) s).bind fun _ s =>
  need (s.received.all (disjoint (p, 512))) .overlap s

/-- The premises on the payload, and an output of `n` bytes that ends within system memory (20_memory.md R71, R85) and
meets nothing a device owns (20_memory.md R91, R95); it may lie in an arena region that no device owns (DESIGN CHOICE,
log 16). -/
def idPremises (p out n : Nat) (s : State) : Flow Unit :=
  (payloadPremises p s).bind fun _ s =>
  (need (s.outputApart out n) .overlap s).bind fun _ s =>
  need (decide (out + n ≤ s.cfg.memEnd)) (pastEnd out n) s

/-- The sector count (R283, R284). -/
def capStep (p : Nat) (s : State) : Flow Quad :=
  (loadBit p { word := 83#8, bit := 10#4 } s).bind fun big s =>
  if big then
    (loadWords p 100 4 s).bind fun v s => .go (clampCap s.cfg v) (s.setVal (clampCap s.cfg v))
  else
    (loadWords p 60 2 s).bind fun v s => .go (BitVec.ofNat 64 v) (s.setVal (BitVec.ofNat 64 v))

/-- The logical sector size (R285). A scaled size that does not fit 64 bits keeps its low 64 (DESIGN CHOICE, log 38). -/
def secszStep (p : Nat) (s : State) : Flow Quad :=
  (loadWords p 106 1 s).bind fun w s =>
  if customSize w then
    (loadWords p 117 2 s).bind fun v s =>
      .go (BitVec.ofNat 64 (v * s.cfg.secszScale)) (s.setVal (BitVec.ofNat 64 (v * s.cfg.secszScale)))
  else .go 512#64 (s.setVal 512#64)

/-- ID.STR (R281). The field is read whole before the first store; the output may overlap the payload (DESIGN CHOICE,
log 16). -/
def idStrStep (p len w0 n out : Nat) (s : State) : Flow Unit :=
  if payloadValid p len then
    (idPremises p out (2 * n) s).bind fun _ s =>
    (loadField p w0 n s).bind fun str s =>
    (storeBytes out (trimmed str) s).bind fun _ s => .go () (s.setVal (BitVec.ofNat 64 (trimLen str)))
  else raiseHere .invalidIdentifyPayload s

/-- ID.CAP (R283). -/
def idCapStep (p len : Nat) (s : State) : Flow Unit :=
  if payloadValid p len then
    (payloadPremises p s).bind fun _ s =>
    (capStep p s).bind fun _ s => .go () s
  else raiseHere .invalidIdentifyPayload s

/-- ID.SECSZ (R285). -/
def idSecszStep (p len : Nat) (s : State) : Flow Unit :=
  if payloadValid p len then
    (payloadPremises p s).bind fun _ s =>
    (secszStep p s).bind fun _ s => .go () s
  else raiseHere .invalidIdentifyPayload s

/-- The whole payload, field by field in the order of R287. -/
def loadIdentity (p : Nat) (s : State) : Flow Identity :=
  (loadField p 27 20 s).bind fun model s =>
  (loadField p 10 10 s).bind fun serial s =>
  (loadField p 23 4 s).bind fun firmware s =>
  (capStep p s).bind fun sectors s =>
  (secszStep p s).bind fun sectorSize s =>
  (loadBit p { word := 83#8, bit := 10#4 } s).bind fun lba48 s =>
  (loadBit p s.cfg.idNcq s).bind fun ncq s =>
  (loadBit p s.cfg.idTrim s).bind fun trim s =>
  (loadBit p s.cfg.idSmart s).bind fun smart s =>
  .go { model, serial, firmware, lba48, ncq, trim, smart, sectors, sectorSize } s

/-- ID.DECODE (R287): the output must not overlap the payload, of which the first 512 bytes alone count also where `CNT` is
greater (DESIGN CHOICE, log 16), and nothing is stored before all of it has been read. The
record goes out byte by byte, in ascending order (DESIGN CHOICE, log 28). -/
def idDecodeStep (p len out : Nat) (s : State) : Flow Unit :=
  if payloadValid p len then
    (idPremises p out 96 s).bind fun _ s =>
    (need (disjoint (p, 512) (out, 96)) .overlap s).bind fun _ s =>
    (loadIdentity p s).bind fun d s => storeBytes out d.record s
  else raiseHere .invalidIdentifyPayload s

/-! ## The operations: no `pc` precondition (log 13) -/

/-- ID.STR (R281). -/
def execIdStr (r : Request) (s : State) : Host.Outcome State Fault Refusal :=
  operation (.idStr r) true true
    (idStrStep r.buf.toNat r.cnt.toNat r.strFirst r.strCount r.lba.toNat (accept 0x60#8 r s))

/-- ID.CAP (R283). -/
def execIdCap (r : Request) (s : State) : Host.Outcome State Fault Refusal :=
  operation (.idCap r) true true (idCapStep r.buf.toNat r.cnt.toNat (accept 0x61#8 r s))

/-- ID.SECSZ (R285). -/
def execIdSecsz (r : Request) (s : State) : Host.Outcome State Fault Refusal :=
  operation (.idSecsz r) true true (idSecszStep r.buf.toNat r.cnt.toNat (accept 0x62#8 r s))

/-- ID.DECODE (R287). -/
def execIdDecode (r : Request) (s : State) : Host.Outcome State Fault Refusal :=
  operation (.idDecode r) true false
    (idDecodeStep r.buf.toNat r.cnt.toNat r.lba.toNat (accept 0x63#8 r s))

end Sys2Proof.Machine
end

