-- ==== Sys2Proof/Machine/Nvme.lean ====
section
/-!
DEFINITION. NVMe queue-pair engine: NVME.RDYCHK, NVME.ISSUE, NVME.POLL, NVME.CMD (44_nvme_engine.md).
-/

namespace Sys2Proof.Machine

/-- The ready check (R240): one read of `CSTS`. -/
def rdychkStep (s : State) : Flow Unit :=
  (needOk s.nvmeCtx s).bind fun c s =>
  (mmioRead .w32 (c.reg 0x1C) s).bind fun v s =>
  if ctrlReady v then .go () (settle s) else raise .controllerNotReady .idle s

/-- `qp.SQ_TAIL <- t`, with the queue pair in use by the device (20_memory.md R94). -/
def setTail (c : NvmeCtx) (t : Half) (s : State) : State :=
  { s with qp := alSet s.qp c.q { c.qp with sqTail := t, started := true } }

/-- The in-flight entry of the current NVMe command (10_state.md R60). -/
def State.ringTag (s : State) (c : NvmeCtx) : Tag :=
  { chan := .qp c.q
    slot := s.x.slot
    cid := s.x.cid
    dataAt := (s.built.getD (0, 0)).1
    dataLen := (s.built.getD (0, 0)).2 }

/-- Issue (R242, R243): `Publish()`, then the tail advances and its doorbell is written with the new tail. -/
def nvmeIssueStep (s : State) : Flow Unit :=
  (nvmeSlot s).bind fun c s =>
  (need (s.x.slot == c.qp.sqTail) .slotOutOfRange s).bind fun _ s =>
  (mmioWrite .w32 c.sqDoorbell ((ringNext c.qp.qSize c.qp.sqTail).setWidth 64)
      (setTail c (ringNext c.qp.qSize c.qp.sqTail) (publish s.built s))).bind fun _ s =>
  .go () (markIssued (s.ringTag c) s)

/-- The queue pair after the entry at the head has been consumed (R244): the head advances, and on a wrap the
expected phase flips. -/
def consumed (q : Qp) (sqHead : Half) : Qp :=
  { q with
    sqHead := sqHead
    cqHead := ringNext q.qSize q.cqHead
    phase := if ringNext q.qSize q.cqHead = 0#16 then q.phase ^^^ 1#1 else q.phase }

/-- Consume the matching entry with DW2 `d2` and status `st` (R244): ring update, head doorbell, then the
status. `sq_head >= Q_SIZE` breaks the device contract and is refused (R244; log 29). -/
def consume (c : NvmeCtx) (d2 : Word) (st : Half) (s : State) : Flow Unit :=
  (need (decide ((cqeSqHead d2).toNat < c.qp.qSize)) .deviceContract s).bind fun _ s =>
  (mmioWrite .w32 c.cqDoorbell ((consumed c.qp (cqeSqHead d2)).cqHead.setWidth 64)
      { s with qp := alSet s.qp c.q (consumed c.qp (cqeSqHead d2)) }).bind fun _ s =>
  if cqeFailed st then raiseDevice (st.setWidth 32) (land s)
  else .go () (complete s)

/-- The rest of a round that found no matching entry (R244, R246): the fatal bit where it is watched, then
`ITER`, which counts on from what it holds. NVME.POLL has cleared it; for a look of the row CQE that no NVME.POLL came
before, it is what the last operation left, or the zero of reset (DESIGN CHOICE, log 12). -/
def noMatch (c : NvmeCtx) (s : State) : Flow Unit :=
  if s.cfg.nvmeCheckCfs then
    (mmioRead .w32 (c.reg 0x1C) s).bind fun v s =>
    if ctrlFatal v then raiseDevice (word v) (leak s) else .go () s.bumpIter
  else .go () s.bumpIter

/-- One dword of a completion entry (R244; 20_memory.md R79: one aligned 32-bit load). -/
def loadDword (a : Nat) (s : State) : Flow Word :=
  (memLoad a 4 s).bind fun bs s => .go (BitVec.ofNat 32 (leNat bs)) s

/-- The rounds of the completion poll with `n` looks left (R244). -/
def nvmePollRounds (c : NvmeCtx) : Nat → State → Flow Unit
  | 0, s => timeOut s
  | n + 1, s =>
    (loadDword (c.head + 12) s).bind fun d3 s =>
    if cqeMatches c.qp.phase s.x.cid d3 then
      (loadDword (c.head + 8) s).bind fun d2 s => consume c d2 (cqeStatus d3) s
    else
      (noMatch c s).bind fun _ s => nvmePollRounds c n s

/-- Poll (R244). -/
def nvmePollStep (s : State) : Flow Unit :=
  (nvmeSlot s).bind fun c s => nvmePollRounds c s.cfg.pollBudget.toNat s.clearIter

/-- One NVMe command from ready check to completion (R248). -/
def nvmeCmdStep (s : State) : Flow Unit :=
  (rdychkStep s).bind fun _ s =>
  (nvmeAllocStep s).bind fun _ s =>
  (nvmeBuildStep s).bind fun _ s =>
  (nvmeIssueStep s).bind fun _ s => nvmePollStep s

/-- NVME.RDYCHK (R240). -/
def execNvmeRdychk (r : Request) (s : State) : Host.Outcome State Fault Refusal :=
  operation (.nvmeRdychk r) s.pc.free false (rdychkStep (acceptMicro 0x40#8 r s))

/-- NVME.ISSUE (R242). -/
def execNvmeIssue (r : Request) (s : State) : Host.Outcome State Fault Refusal :=
  operation (.nvmeIssue r) (s.pc == .descriptorsBuilt) false (nvmeIssueStep (acceptMicro 0x41#8 r s))

/-- NVME.POLL (R244). -/
def execNvmePoll (r : Request) (s : State) : Host.Outcome State Fault Refusal :=
  operation (.nvmePoll r) (s.pc == .issued) false (nvmePollStep (acceptMicro 0x42#8 r s))

/-- NVME.CMD (R248). -/
def execNvmeCmd (r : Request) (s : State) : Host.Outcome State Fault Refusal :=
  operation (.nvmeCmd r) s.pc.free false (nvmeCmdStep (acceptMicro 0x43#8 r s))

end Sys2Proof.Machine
end

