-- ==== Sys2Proof/Machine/Block.lean ====
section
/-!
DEFINITION. Block interface: READ_BLOCKS, WRITE_BLOCKS, IDENTIFY (45_block_api.md).
-/

namespace Sys2Proof.Machine

/-- `x[LBA] + x[CNT]` is above the capacity, the sum formed without wrap (R265). A `CAPACITY` that the host has not set
is 0, which every request is above (DESIGN CHOICE, log 8). -/
def outOfRange (capacity : Quad) (x : Regs) : Bool := decide (capacity.toNat < x.lba.toNat + x.cnt.toNat)

/-- The launch premise on an AHCI device's LBA, at acceptance (00_scope.md R19; 30_encoding.md R131). -/
def lba48 (x : Regs) : Bool := decide (x.lba.toNat < 281474976710656)

/-- The command registers a composite sets itself (R266 to R268). -/
def State.setCommand (s : State) (wr : BitVec 1) (flg : BitVec 4) (cmdb : Byte) : State :=
  { s with x := { s.x with wr := wr, flg := flg, cmdb := cmdb } }

/-- A block transfer (R266, R267): range check, then one whole command of the device's engine (R269). -/
def blockStep (wr : BitVec 1) (ata opc : Byte) (s : State) : Flow Unit :=
  (needOk s.device s).bind fun d s =>
  if outOfRange d.capacity s.x then raise .outOfRange .idle s
  else
    match d.kind with
    | .ahci =>
      (need (lba48 s.x) (.illFormed .lbaTooWide) s).bind fun _ s => ahciCmdStep (s.setCommand wr 0#4 ata)
    | .nvme => nvmeCmdStep (s.setCommand wr 0#4 opc)

/-- The count and LBA registers as IDENTIFY sets them (R268). -/
def State.setTransfer (s : State) (cnt : Half) (lba : Quad) : State :=
  { s with x := { s.x with cnt := cnt, lba := lba } }

/-- IDENTIFY of an AHCI device (R268): one sector, then ID.DECODE into the record at `out`. -/
def identifyAhci (out : Quad) (s : State) : Flow Unit :=
  (ahciCmdStep ((s.setCommand 0#1 flgNoLba s.cfg.ataCmdIdentify).setTransfer 1#16 0#64)).bind fun _ s =>
  idDecodeStep s.x.buf.toNat idBytes out.toNat s

/-- The identify buffer premise of an NVMe device: a buffer that fits its page is page aligned
(20_memory.md R76; log 16). -/
def identifyAligned (s : State) : Bool :=
  match s.nvmeCtxOf true with
  | .ok c => c.tooLarge s.x.buf s.cfg.nvmeIdBytes.toNat || s.x.buf.toNat % c.nv.pageBytes == 0
  | .error _ => true

/-- IDENTIFY of an NVMe device (R268): a raw admin command with `cdw10 = CNS`; the payload stays undecoded. -/
def identifyNvme (s : State) : Flow Unit :=
  (need (identifyAligned s) .misalignedStructure s).bind fun _ s =>
  nvmeCmdStep
    ((s.setCommand 0#1 (if s.x.arg.extractLsb' 0 8 = 0#8 then flgRawAdmNs else flgRawAdm)
        s.cfg.nvmeOpcIdentify).setTransfer s.cfg.nvmeIdBytes ((s.x.arg.extractLsb' 0 8).setWidth 64))

/-- IDENTIFY (R268): the null-buffer test comes before everything. -/
def identifyStep (s : State) : Flow Unit :=
  (needOk s.device s).bind fun d s =>
  if s.x.buf = 0#64 then raise .invalidIdentifyPayload .idle s
  else
    match d.kind with
    | .ahci => identifyAhci s.x.lba s
    | .nvme => identifyNvme s

/-- READ_BLOCKS (R266). -/
def execReadBlocks (r : Request) (s : State) : Host.Outcome State Fault Refusal :=
  operation (.readBlocks r) s.pc.free false
    (blockStep 0#1 s.cfg.ataCmdRead s.cfg.nvmeOpcRead (accept 0x50#8 r s))

/-- WRITE_BLOCKS (R267). -/
def execWriteBlocks (r : Request) (s : State) : Host.Outcome State Fault Refusal :=
  operation (.writeBlocks r) s.pc.free false
    (blockStep 1#1 s.cfg.ataCmdWrite s.cfg.nvmeOpcWrite (accept 0x51#8 r s))

/-- IDENTIFY (R268). -/
def execIdentify (r : Request) (s : State) : Host.Outcome State Fault Refusal :=
  operation (.identify r) s.pc.free false (identifyStep (accept 0x52#8 r s))

end Sys2Proof.Machine
end

