-- ==== Sys2Proof/Machine/Mmio.lean ====
section
/-!
DEFINITION. Register I/O layer: RD32, RD64, WR32, WR64, PUBLISH (40_mmio_access.md).
-/

namespace Sys2Proof.Machine

/-- The NVMe registers below the doorbells, with their widths in bytes (40_mmio_access.md R167; 10_state.md R51 to R57). -/
def nvmeRegs : List (Nat × Nat) :=
  [(0x00, 8), (0x08, 4), (0x14, 4), (0x1C, 4), (0x24, 4), (0x28, 8), (0x30, 8)]

/-- An access of `k` bytes at `off` names the doorbell it touches exactly, or touches none (R167; 10_state.md R58, R59). -/
def doorbellOk (n : Nvme) (off k : Nat) : Bool :=
  let m := (off - 0x1000) % (2 * n.stride)
  decide (off + k ≤ 0x1000)
    || (decide (0x1000 ≤ off) &&
        ((k == 4 && (m == 0 || m == 4)) || (decide (8 ≤ m) && decide (m + k ≤ 2 * n.stride))))

/-- An access of `k` bytes at offset `off` of an NVMe controller's window has the width of every register it touches. -/
def nvmeWidthOk (n : Nvme) (off k : Nat) : Bool :=
  nvmeRegs.all (fun r => decide (off + k ≤ r.1) || decide (r.1 + r.2 ≤ off) || (r.1 == off && r.2 == k)) && doorbellOk n off k

/-- A host access has the width of the register it names, as far as the loaded records tell (R167; 20_memory.md R78;
log 26). -/
def State.widthOk (s : State) (w : Width) (a : Nat) : Bool :=
  match s.ctrlAt? a with
  | none => true
  | some (.hba off) => w == .w32 && off % 4 == 0
  | some (.nvme n off) => nvmeWidthOk n off w.bytes

/-- Byte address of a requested access: `BUF + ARG` (R165). -/
def Request.mmioAddr (r : Request) : Nat := r.buf.toNat + r.arg.toNat

/-- A requested read (R160, R161). -/
def readStep (w : Width) (a : Nat) (s : State) : Flow Unit :=
  (need (s.widthOk w a) .wrongWidth s).bind fun _ s =>
  (mmioRead w a s).bind fun v s => .go () (s.setVal v)

/-- A requested write (R162, R163). -/
def writeStep (w : Width) (a : Nat) (v : Quad) (s : State) : Flow Unit :=
  (need (s.widthOk w a) .wrongWidth s).bind fun _ s => mmioWrite w a v s

/-- RD32 (R160). -/
def execRd32 (r : Request) (s : State) : Host.Outcome State Fault Refusal :=
  operation (.rd32 r) s.pc.free true (readStep .w32 (Request.mmioAddr r) (accept 0x01#8 r s))

/-- RD64 (R161). -/
def execRd64 (r : Request) (s : State) : Host.Outcome State Fault Refusal :=
  operation (.rd64 r) s.pc.free true (readStep .w64 (Request.mmioAddr r) (accept 0x02#8 r s))

/-- WR32 (R162): the value is `LBA[31:0]`. -/
def execWr32 (r : Request) (s : State) : Host.Outcome State Fault Refusal :=
  operation (.wr32 r) s.pc.free false
    (writeStep .w32 (Request.mmioAddr r) ((lo32 r.lba).setWidth 64) (accept 0x03#8 r s))

/-- WR64 (R163). -/
def execWr64 (r : Request) (s : State) : Host.Outcome State Fault Refusal :=
  operation (.wr64 r) s.pc.free false
    (writeStep .w64 (Request.mmioAddr r) r.lba (accept 0x04#8 r s))

/-- PUBLISH (R164): no `pc` precondition (log 13). -/
def execPublish (r : Request) (s : State) : Host.Outcome State Fault Refusal :=
  operation (.publish r) true false (.go () (publishAll (accept 0x05#8 r s)))

end Sys2Proof.Machine
end

