-- ==== Sys2Proof/Machine/Structs.lean ====
section
/-!
DEFINITION. The nine structure rows of the operation table: FIS.READ_DMA_EXT, FIS.WRITE_DMA_EXT,
FIS.IDENTIFY_DEVICE, SQE.READ, SQE.WRITE, SQE.IDENTIFY, CMDHDR, PRDT_ENTRY, CQE (30_encoding.md R115 to R126).
Each is one step of the sequencer inside a command: the store of the structure at its place, or for CQE the look
at it. No request names them (30_encoding.md R113; log 10).
-/

namespace Sys2Proof.Machine

/-- The frame of a store: legal while the sequencer owns the structures (20_memory.md R94), with no result and
no response of its own (log 10). -/
def structureStore (s : State) (body : State → Flow Unit) : Host.Outcome State Fault Refusal :=
  if s.pc.isSlotAllocated then
    match body s with
    | .go _ t => .next t
    | .stop t => .next t
    | .refuse r => .refused r
  else .refused .wrongPc

/-- FIS.READ_DMA_EXT (R120, R128). Byte 1, the device byte, `LBA` and the count are stored as the row has them, not held to the
working registers (DESIGN CHOICE, log 10). -/
def execFisReadDmaExt (f : Fis) (s : State) : Host.Outcome State Fault Refusal :=
  structureStore s (storeFis (f.bytes fisReadCmd))

/-- FIS.WRITE_DMA_EXT (R120, R128). Byte 1, the device byte, `LBA` and the count are stored as the row has them, not held to the
working registers (DESIGN CHOICE, log 10). -/
def execFisWriteDmaExt (f : Fis) (s : State) : Host.Outcome State Fault Refusal :=
  structureStore s (storeFis (f.bytes fisWriteCmd))

/-- FIS.IDENTIFY_DEVICE (R120, R128). Byte 1, the device byte, `LBA` and the count are stored as the row has them, not held to the
working registers (DESIGN CHOICE, log 10). -/
def execFisIdentifyDevice (f : Fis) (s : State) : Host.Outcome State Fault Refusal :=
  structureStore s (storeFis (f.bytes fisIdentifyCmd))

/-- SQE.READ (R123, R128). All fields but the opcode are stored as the row has them, not held to the working registers and
the device record (DESIGN CHOICE, log 10). -/
def execSqeRead (e : Sqe) (s : State) : Host.Outcome State Fault Refusal :=
  structureStore s (storeEntry e.prp1 (fun _ => e.bytes sqeReadOpc))

/-- SQE.WRITE (R123, R128). All fields but the opcode are stored as the row has them, not held to the working registers and
the device record (DESIGN CHOICE, log 10). -/
def execSqeWrite (e : Sqe) (s : State) : Host.Outcome State Fault Refusal :=
  structureStore s (storeEntry e.prp1 (fun _ => e.bytes sqeWriteOpc))

/-- The store of an identify entry as a row gives it: the identify buffer of an NVMe device begins a page
(20_memory.md R76, R77). -/
def storeIdentifyRow (e : Sqe) (s : State) : Flow Unit :=
  (nvmeSlot s).bind fun c s =>
  (need (e.prp1.toNat % c.nv.pageBytes == 0) .misalignedStructure s).bind fun _ s =>
  storeEntry e.prp1 (fun _ => e.bytes sqeIdentifyOpc) s

/-- SQE.IDENTIFY (R123, R128). All fields but the opcode are stored as the row has them, not held to the working registers and
the device record (DESIGN CHOICE, log 10). -/
def execSqeIdentify (e : Sqe) (s : State) : Host.Outcome State Fault Refusal :=
  structureStore s (storeIdentifyRow e)

/-- The store of a Command Header as a row gives it: the table it names is aligned (20_memory.md R76, R77) and the one of
the slot, which is the only one the engine emits (R115; log 10). `WRITE` and `PRDTL` are stored as the row has them, not
held to `WR` and `NPRD`, and also where PRDT.BUILD has not run yet (DESIGN CHOICE, log 10). -/
def storeHeaderRow (h : CmdHdr) (s : State) : Flow Unit :=
  (ahciSlot s).bind fun c s =>
  (need (h.ctba.toNat % 128 == 0) .misalignedStructure s).bind fun _ s =>
  (need (h.ctba == c.2) .notEmitted s).bind fun _ s => storeHeader (fun _ => h) s

/-- CMDHDR (R115). -/
def execCmdHdr (h : CmdHdr) (s : State) : Host.Outcome State Fault Refusal :=
  structureStore s (storeHeaderRow h)

/-- The position of an entry in the PRDT of the current command: entry `i` covers the bytes from
`BUF + i * CHUNK_BYTES` on (R191; log 11). -/
def prdtIndex (s : State) (e : PrdtEntry) : Nat := (e.dba - s.x.buf).toNat / chunkBytes

/-- An entry at a place of the current table: it starts a chunk of the current buffer, without wrap, within the table. Its
byte count and its `I` bit are not held to what PRDT.BUILD emits (DESIGN CHOICE, log 11). -/
def prdtEmitted (s : State) (e : PrdtEntry) : Bool :=
  decide (s.x.buf.toNat ≤ e.dba.toNat) && (e.dba - s.x.buf).toNat % chunkBytes == 0 &&
    decide (prdtIndex s e < prdtLimit s.cfg)

/-- Bytes an entry covers (30_encoding.md R119). -/
def prdtBytesOf (e : PrdtEntry) : Nat := e.dbc.toNat + 1

/-- The address and the byte count of an entry are even (20_memory.md R76). -/
def prdtEven (e : PrdtEntry) : Bool := e.dba.toNat % 2 == 0 && prdtBytesOf e % 2 == 0

/-- The store of a PRDT entry at its place in the slot's table (20_memory.md R83), with the premises on what it names
(R71, R76, R77, R100). -/
def storePrdtEntry (e : PrdtEntry) (s : State) : Flow Unit :=
  (ahciSlot s).bind fun c s =>
  (c.1.premises s).bind fun _ s =>
  (need (prdtEmitted s e) .notEmitted s).bind fun _ s =>
  (need (prdtEven e) .misalignedStructure s).bind fun _ s =>
  (bufferPremises e.dba.toNat (prdtBytesOf e) s).bind fun _ s =>
  memStore (prdtAt c.2 + 16 * prdtIndex s e) e.bytes s

/-- PRDT_ENTRY (R118, R119). -/
def execPrdtEntry (e : PrdtEntry) (s : State) : Host.Outcome State Fault Refusal :=
  structureStore s (storePrdtEntry e)

/-- A look at the entry `e` at the head (44_nvme_engine.md R244; log 12): a match is consumed and ends the poll,
else the round ends. The row gives the entry, so nothing is loaded; and `POLL_BUDGET` is not tested, so looks go on past
it with no CommandTimeout (DESIGN CHOICE, log 12). -/
def lookAt (e : Cqe) (s : State) : Flow Bool :=
  (nvmeSlot s).bind fun c s =>
  if cqeMatches c.qp.phase s.x.cid e.dw3 then
    (consume c e.dw2 (cqeStatus e.dw3) s).bind fun _ s => .go true s
  else (noMatch c s).bind fun _ s => .go false s

/-- CQE (R125, R126): the poll's look at an entry that reads `e`. The response is produced where the poll ends. -/
def execCqe (e : Cqe) (s : State) : Host.Outcome State Fault Refusal :=
  if s.pc = .issued then
    match lookAt e s with
    | .go true t => endOp false (.go () t)
    | .go false t => .next t
    | .stop t => endOp false (.stop t)
    | .refuse r => .refused r
  else .refused .wrongPc

end Sys2Proof.Machine
end

