-- ==== Sys2Proof/Machine/System.lean ====
section
/-!
DEFINITION. System operations: PROBE, SIG.CLASS, AHCI.INIT, PORT.INIT, PORT.RESET, NVME.INIT (47_system_ops.md).
-/

namespace Sys2Proof.Machine

/-! ## Recognition -/

/-- SIG.CLASS (R302): `PxSIG` is read only where a device is present. -/
def sigClassStep (s : State) : Flow Unit :=
  (needOk s.ahciCtx s).bind fun c s =>
  (mmioRead .w32 (c.portReg 0x28) s).bind fun ss s =>
  if devicePresent ss then
    (mmioRead .w32 (c.portReg 0x24) s).bind fun sg s => .go () (s.setVal (signatureClass (word sg)))
  else .go () (s.setVal 0#64)

/-! ## AHCI bring-up -/

/-- The record of HBA `h` with a field changed. -/
def setHba (h : Nat) (r : Hba) (s : State) : State := { s with hba := alSet s.hba h r }

/-- A channel is a port of HBA `h`, by the record as it is now (log 40). -/
def State.portOf (s : State) (h : Nat) (c : Chan) : Bool :=
  match c with
  | .port p => (alGet s.port p).any (fun r => r.hba == h)
  | .qp _ => false

/-- The HBA record after its capabilities have been read (R303; 10_state.md R36, R39). -/
def Hba.enabled (h : Hba) (cap pi : Quad) : Hba :=
  { h with nSlots := (cap.extractLsb' 8 5).setWidth 6 + 1#6, pi := word pi, ready := true }

/-- AHCI.INIT (R303). The leaked commands of the HBA are forgotten at its end: a wait that fails forgets none (DESIGN CHOICE,
log 19). -/
def ahciInitStep (s : State) : Flow Unit :=
  (needOk s.hbaCtx s).bind fun c s =>
  (need s.inflight.isNone .notInitialised s).bind fun _ s =>
  (mmioWrite .w32 (c.hbaReg 0x04) 0x80000000#64 (setHba c.port.hba { c.hba with ready := false } s)).bind fun _ s =>
  (mmioWrite .w32 (c.hbaReg 0x04) 0x80000001#64 s).bind fun _ s =>
  (waitFor (c.hbaReg 0x04) (fun g => !g.getLsbD 0) .controllerNotReady s.cfg.resetBudget s).bind fun _ s =>
  (mmioWrite .w32 (c.hbaReg 0x04) 0x80000000#64 s).bind fun _ s =>
  (mmioRead .w32 (c.hbaReg 0x00) s).bind fun cap s =>
  (mmioRead .w32 (c.hbaReg 0x0C) s).bind fun pi s =>
  .go () (settle
    ((forget (s.portOf c.port.hba) (setHba c.port.hba (c.hba.enabled cap pi) s)).setVal ((word pi).setWidth 64)))

/-- `port_stop` (R305). -/
def portStop (c : AhciCtx) (s : State) : Flow Unit :=
  (mmioRead .w32 (c.portReg 0x18) s).bind fun v s =>
  (mmioWrite .w32 (c.portReg 0x18) (v &&& 0xFFFFFFFE#64) s).bind fun _ s =>
  (mmioWrite .w32 (c.portReg 0x18) (v &&& 0xFFFFFFEE#64) s).bind fun _ s =>
  waitFor (c.portReg 0x18) enginesStopped .portHung s.cfg.resetBudget s

/-- `port_start` (R307). -/
def portStart (c : AhciCtx) (s : State) : Flow Unit :=
  (mmioRead .w32 (c.portReg 0x18) s).bind fun v s =>
  (mmioWrite .w32 (c.portReg 0x18) (v ||| 0x00000010#64) s).bind fun _ s =>
  mmioWrite .w32 (c.portReg 0x18) (v ||| 0x00000011#64) s

/-- Zero-fill the command tables, in slot order (R304). -/
def zeroTables (bytes : Nat) : List Quad → State → Flow Unit
  | [], s => .go () s
  | t :: rest, s => (memStore t.toNat (zeros bytes) s).bind fun _ s => zeroTables bytes rest s

/-- The base registers, low half first (R304). -/
def writeBases (c : AhciCtx) (s : State) : Flow Unit :=
  (mmioWrite .w32 (c.portReg 0x00) ((lo32 c.port.clb).setWidth 64) s).bind fun _ s =>
  (mmioWrite .w32 (c.portReg 0x04) ((hi32 c.port.clb).setWidth 64) s).bind fun _ s =>
  (mmioWrite .w32 (c.portReg 0x08) ((lo32 c.port.fb).setWidth 64) s).bind fun _ s =>
  mmioWrite .w32 (c.portReg 0x0C) ((hi32 c.port.fb).setWidth 64) s

/-- The steps of PORT.INIT (R304), which are those of PORT.RESET (R306). -/
def portInitStep (c : AhciCtx) (s : State) : Flow Unit :=
  (c.premises s).bind fun _ s =>
  (need (decide (c.hba.nSlots.toNat ≤ c.port.ct.length)) .slotOutOfRange s).bind fun _ s =>
  (portStop c s).bind fun _ s =>
  (memStore c.port.clb.toNat (zeros 1024) s).bind fun _ s =>
  (memStore c.port.fb.toNat (zeros 256) s).bind fun _ s =>
  (zeroTables (tableBytes s.cfg) (c.port.ct.take c.hba.nSlots.toNat) s).bind fun _ s =>
  (writeBases c s).bind fun _ s =>
  (portStart c (publish none s)).bind fun _ s =>
  .go () (settle (forget (fun ch => ch == .port c.p) s))

/-- A command of channel `ch` is in flight or leaked (10_state.md R60). -/
def State.inUse (s : State) (ch : Chan) : Bool :=
  s.inflight.any (fun t => t.chan == ch) || s.leaked.any (fun t => t.chan == ch)

/-! ## NVMe bring-up -/

/-- The queue pairs of controller `n`, by rising record index: the order in which NVME.INIT zero-fills them (DESIGN CHOICE,
log 39). -/
def State.qpsOf (s : State) (n : Nat) : List (Nat × Qp) := s.qp.filter (fun e => e.2.ctrl == n)

/-- The queue pair at its reset state (R308; 10_state.md R63), its rings from now on shared with the device
(20_memory.md R94). -/
def Qp.fresh (q : Qp) (phase : BitVec 1) : Qp :=
  { q with sqTail := 0#16, sqHead := 0#16, cqHead := 0#16, phase := phase, started := true }

/-- Zero-fill the rings of each queue pair and reset its state (R308), in the order of the list (log 39). -/
def zeroRings : List (Nat × Qp) → State → Flow Unit
  | [], s => .go () s
  | e :: rest, s =>
    (memStore e.2.sqBase.toNat (zeros (64 * e.2.qSize)) s).bind fun _ s =>
    (memStore e.2.cqBase.toNat (zeros (16 * e.2.qSize)) s).bind fun _ s =>
    zeroRings rest { s with qp := alSet s.qp e.1 (e.2.fresh s.cfg.phaseInit) }

/-- `AQA` (10_state.md R56). -/
def aqaValue (q : Qp) : Quad := BitVec.ofNat 64 ((q.qSize - 1) * 65536 + (q.qSize - 1))

/-- `CC` that enables the controller (R308). -/
def ccValue (n : Nvme) : Quad := 0x00460001#64 ||| (n.mps.setWidth 64 <<< 7)

/-- `nv.STRIDE` from `CAP` (10_state.md R51). -/
def setStride (c : NvmeCtx) (cap : Quad) (s : State) : State :=
  { s with nvme := alSet s.nvme c.qp.ctrl { c.nv with dstrd := cap.extractLsb' 32 4 } }

/-- A channel is a queue pair of controller `n`, by the record as it is now (log 40). -/
def State.qpOf (s : State) (n : Nat) (c : Chan) : Bool :=
  match c with
  | .qp q => (alGet s.qp q).any (fun r => r.ctrl == n)
  | .port _ => false

/-- The launch premises of NVME.INIT: `2 <= Qa <= 4096`, aligned rings, no overlap. -/
def nvmeInitPremises (c : NvmeCtx) (s : State) : Flow Unit :=
  (need (decide (2 ≤ c.qp.qSize) && decide (c.qp.qSize ≤ 4096)) .parameterRange s).bind fun _ s =>
  (need ((s.qpsOf c.qp.ctrl).all (fun e => e.2.aligned c.nv.pageBytes)) .misalignedStructure s).bind fun _ s =>
  need s.arenaOk .overlap s

/-- NVME.INIT (R308). It does not compare `Q_SIZE` with `CAP.MQES` or `PAGE_BYTES` with `CAP.MPSMIN`, which 10_state.md R51
says bound them (DESIGN CHOICE, log 41). -/
def nvmeInitStep (s : State) : Flow Unit :=
  (needOk (s.nvmeCtxOf true) s).bind fun c s =>
  (nvmeInitPremises c s).bind fun _ s =>
  (mmioRead .w64 (c.reg 0x00) s).bind fun cap s =>
  (mmioRead .w32 (c.reg 0x14) (setStride c cap s)).bind fun cc s =>
  (mmioWrite .w32 (c.reg 0x14) (cc &&& 0xFFFFFFFE#64) s).bind fun _ s =>
  (waitFor (c.reg 0x1C) (fun v => !ctrlReady v) .controllerNotReady s.cfg.resetBudget s).bind fun _ s =>
  (zeroRings (s.qpsOf c.qp.ctrl) s).bind fun _ s =>
  (mmioWrite .w32 (c.reg 0x24) (aqaValue c.qp) s).bind fun _ s =>
  (mmioWrite .w64 (c.reg 0x28) c.qp.sqBase s).bind fun _ s =>
  (mmioWrite .w64 (c.reg 0x30) c.qp.cqBase s).bind fun _ s =>
  (mmioWrite .w32 (c.reg 0x14) (ccValue c.nv) (publish none s)).bind fun _ s =>
  (waitFor (c.reg 0x1C) ctrlReady .controllerNotReady s.cfg.resetBudget s).bind fun _ s =>
  .go () (settle (forget (s.qpOf c.qp.ctrl) s))

/-! ## The operations -/

/-- PROBE (R300): no `pc` precondition, no device access. -/
def execProbe (r : Request) (s : State) : Host.Outcome State Fault Refusal :=
  operation (.probe r) true true
    (.go () ((accept 0x70#8 r s).setVal (classCode (r.arg.extractLsb' 0 24))))

/-- SIG.CLASS (R302): no `pc` precondition (log 13). -/
def execSigClass (r : Request) (s : State) : Host.Outcome State Fault Refusal :=
  operation (.sigClass r) true true (sigClassStep (accept 0x71#8 r s))

/-- AHCI.INIT (R303): it returns `PI` (log 23). -/
def execAhciInit (r : Request) (s : State) : Host.Outcome State Fault Refusal :=
  operation (.ahciInit r) s.pc.free true (ahciInitStep (accept 0x72#8 r s))

/-- PORT.INIT (R304): after AHCI.INIT, and with no command of the port in flight or leaked (log 19). -/
def execPortInit (r : Request) (s : State) : Host.Outcome State Fault Refusal :=
  operation (.portInit r) s.pc.free false
    ((needOk (accept 0x73#8 r s).ahciCtx (accept 0x73#8 r s)).bind fun c s =>
     (need (c.hba.ready && !s.inUse (.port c.p)) .notInitialised s).bind fun _ s => portInitStep c s)

/-- PORT.RESET (R306): the same steps, legal with leaked commands. -/
def execPortReset (r : Request) (s : State) : Host.Outcome State Fault Refusal :=
  operation (.portReset r) s.pc.free false
    ((needOk (accept 0x74#8 r s).ahciCtx (accept 0x74#8 r s)).bind fun c s => portInitStep c s)

/-- NVME.INIT (R308). -/
def execNvmeInit (r : Request) (s : State) : Host.Outcome State Fault Refusal :=
  operation (.nvmeInit r) s.pc.free false (nvmeInitStep (accept 0x75#8 r s))

end Sys2Proof.Machine
end

