-- ==== Sys2Proof/Machine/Dispatch.lean ====
section
/-!
DEFINITION. The dispatcher: one arm per constructor of `Instr`, each one call of its meaning.
-/

namespace Sys2Proof.Machine

def exec (i : Instr) (s : State) : Host.Outcome State Fault Refusal :=
  match i with
  | .rd32 r => Sys2Proof.Machine.execRd32 r s
  | .rd64 r => Sys2Proof.Machine.execRd64 r s
  | .wr32 r => Sys2Proof.Machine.execWr32 r s
  | .wr64 r => Sys2Proof.Machine.execWr64 r s
  | .publish r => Sys2Proof.Machine.execPublish r s
  | .ahciAlloc r => Sys2Proof.Machine.execAhciAlloc r s
  | .nvmeAlloc r => Sys2Proof.Machine.execNvmeAlloc r s
  | .prdtBuild r => Sys2Proof.Machine.execPrdtBuild r s
  | .fisBuild r => Sys2Proof.Machine.execFisBuild r s
  | .hdrBuild r => Sys2Proof.Machine.execHdrBuild r s
  | .ahciBuild r => Sys2Proof.Machine.execAhciBuild r s
  | .prpBuild r => Sys2Proof.Machine.execPrpBuild r s
  | .sqeBuild r => Sys2Proof.Machine.execSqeBuild r s
  | .nvmeBuild r => Sys2Proof.Machine.execNvmeBuild r s
  | .ahciIssue r => Sys2Proof.Machine.execAhciIssue r s
  | .ahciPoll r => Sys2Proof.Machine.execAhciPoll r s
  | .ahciCmd r => Sys2Proof.Machine.execAhciCmd r s
  | .nvmeRdychk r => Sys2Proof.Machine.execNvmeRdychk r s
  | .nvmeIssue r => Sys2Proof.Machine.execNvmeIssue r s
  | .nvmePoll r => Sys2Proof.Machine.execNvmePoll r s
  | .nvmeCmd r => Sys2Proof.Machine.execNvmeCmd r s
  | .readBlocks r => Sys2Proof.Machine.execReadBlocks r s
  | .writeBlocks r => Sys2Proof.Machine.execWriteBlocks r s
  | .identify r => Sys2Proof.Machine.execIdentify r s
  | .idStr r => Sys2Proof.Machine.execIdStr r s
  | .idCap r => Sys2Proof.Machine.execIdCap r s
  | .idSecsz r => Sys2Proof.Machine.execIdSecsz r s
  | .idDecode r => Sys2Proof.Machine.execIdDecode r s
  | .probe r => Sys2Proof.Machine.execProbe r s
  | .sigClass r => Sys2Proof.Machine.execSigClass r s
  | .ahciInit r => Sys2Proof.Machine.execAhciInit r s
  | .portInit r => Sys2Proof.Machine.execPortInit r s
  | .portReset r => Sys2Proof.Machine.execPortReset r s
  | .nvmeInit r => Sys2Proof.Machine.execNvmeInit r s
  | .fisReadDmaExt f => Sys2Proof.Machine.execFisReadDmaExt f s
  | .fisWriteDmaExt f => Sys2Proof.Machine.execFisWriteDmaExt f s
  | .fisIdentifyDevice f => Sys2Proof.Machine.execFisIdentifyDevice f s
  | .sqeRead e => Sys2Proof.Machine.execSqeRead e s
  | .sqeWrite e => Sys2Proof.Machine.execSqeWrite e s
  | .sqeIdentify e => Sys2Proof.Machine.execSqeIdentify e s
  | .cmdHdr h => Sys2Proof.Machine.execCmdHdr h s
  | .prdtEntry e => Sys2Proof.Machine.execPrdtEntry e s
  | .cqe e => Sys2Proof.Machine.execCqe e s

end Sys2Proof.Machine
end

