-- ==== Sys2Proof/Machine/HostAgent.lean ====
section
/-!
DEFINITION. The host's steps (00_scope.md R7): presenting a request (30_encoding.md R110), loading a context
record (10_state.md R30 to R33; 70_reset_and_hazards.md R366, R367), storing into memory (20_memory.md R100),
and leaving the devices to step.
-/

namespace Sys2Proof.Machine

/-- A request: decoded, then run as one operation. Bytes that are no request are refused (R113). -/
def runRequest (bytes : List Byte) (s : State) : Host.Outcome State Fault Refusal :=
  match decode bytes with
  | .ok i => exec i s
  | .error e => .refused (.badRequest e)

/-- The loading of a record: between commands, with its fields in range (00_scope.md R9), and with every value of a
record loaded before that never changes (R10; log 30). -/
def loadRecord (inRange keeps : Bool) (s t : State) : Host.Outcome State Fault Refusal :=
  if s.pc.free && keeps then
    if inRange then .next t else .refused .parameterRange
  else .refused .hostDuty

/-! What `new` keeps of the loaded record `old` (R10; log 30): a parameter that was known keeps its value. -/

def Hba.keeps (old new : Hba) : Bool := old.nSlots == 0#6 || new.nSlots == old.nSlots
/-- Of a port the command tables alone; its other fields may be loaded anew, also while a command of it is leaked, whose
structures then count as lying where the new record has them (DESIGN CHOICE, log 40). -/
def Port.keeps (old new : Port) : Bool := old.ct.isEmpty || new.ct == old.ct
def Nvme.keeps (old new : Nvme) : Bool :=
  new.dstrd == old.dstrd && new.mps == old.mps && (old.mdts == 0 || new.mdts == old.mdts)
def Qp.keeps (old new : Qp) : Bool := new.qSize == old.qSize
/-- `BLOCK_BYTES` is not set while it is 0. Once set it is kept, in the record of an AHCI device too, although the field is
one of NVMe devices alone (10_state.md R33; DESIGN CHOICE, log 30). -/
def Dev.keeps (old new : Dev) : Bool := old.blockBytes == 0 || new.blockBytes == old.blockBytes

/-- A record that has not been loaded yet has nothing to keep. -/
def keepsAt {α : Type} (keeps : α → α → Bool) (l : List (Nat × α)) (k : Nat) (new : α) : Bool :=
  (alGet l k).all fun old => keeps old new

/-- The controller base is a multiple of 8 (20_memory.md R75). -/
def baseOk (b : Quad) : Bool := b.toNat % 8 == 0

/-- `N_SLOTS` is 1 to 32, or 0 in a record whose `PI` is 0 too: AHCI.INIT has still to read both, and until then
no operation on a port of the HBA is accepted (10_state.md R30, R39; log 25). -/
def Hba.slotsOk (h : Hba) : Bool :=
  decide (h.nSlots.toNat ≤ 32) && (h.nSlots != 0#6 || h.pi == 0#32)

/-- A device with a capacity, one that is not 0, has its `BLOCK_BYTES` set (70_reset_and_hazards.md R371). The record of an AHCI device is held
to it too, although 70_reset_and_hazards.md R370 sets the capacity alone there and the field is one of NVMe devices
alone (10_state.md R33; DESIGN CHOICE, log 30). -/
def Dev.sized (d : Dev) : Bool := d.capacity == 0#64 || d.blockBytes != 0

/-- An NVMe controller record as the host loads it: `NEXT_CID` is state, not config (10_state.md R32, R63). -/
def State.withNvme (s : State) (n : Nat) (r : Nvme) : State :=
  { s with nvme := alSet s.nvme n { r with nextCid := ((alGet s.nvme n).map Nvme.nextCid).getD 0#16 } }

/-- A queue-pair record as the host loads it, at its reset state (10_state.md R63; 70_reset_and_hazards.md R369). -/
def State.withQp (s : State) (q : Nat) (r : Qp) : State :=
  { s with
    qp := alSet s.qp q
      { r with sqTail := 0#16, sqHead := 0#16, cqHead := 0#16, phase := s.cfg.phaseInit, started := false } }

/-- The host's store (R95, R100): refused into what a device owns, and into a received-FIS area (43_ahci_engine.md
R215). On a platform whose stores need flushing it stays unpublished until a `Publish()` orders it (20_memory.md R88;
log 20). -/
def hostStore (a : Nat) (bs : List Byte) (s : State) : Host.Outcome State Fault Refusal :=
  if s.cfg.memEnd < a + bs.length then .refused (pastEnd a bs.length)
  else if s.deviceOwned.all (disjoint (a, bs.length)) then
    .next { s with
      mem := s.mem.write a bs
      pend :=
        if s.cfg.cacheFlushRequired then { byHost := true, addr := a, len := bs.length } :: s.pend else s.pend }
  else .refused .hostDuty

/-- One event of the host. -/
def hostEvent (e : HostEvent) (s : State) : Host.Outcome State Fault Refusal :=
  match e with
  | .request bytes => runRequest bytes s
  | .loadHba h r =>
    loadRecord (baseOk r.base && r.slotsOk) (keepsAt Hba.keeps s.hba h r) s { s with hba := alSet s.hba h r }
  | .loadPort p r => loadRecord true (keepsAt Port.keeps s.port p r) s { s with port := alSet s.port p r }
  | .loadNvme n r => loadRecord (baseOk r.base) (keepsAt Nvme.keeps s.nvme n r) s (s.withNvme n r)
  | .loadQp q r =>
    loadRecord (decide (2 ≤ r.qSize) && decide (r.qSize ≤ 65536)) (keepsAt Qp.keeps s.qp q r) s (s.withQp q r)
  | .loadDev d r => loadRecord r.sized (keepsAt Dev.keeps s.dev d r) s { s with dev := alSet s.dev d r }
  | .store a bs => hostStore a bs s
  | .devices => .next (tick s)

/-- One step of the machine: the next event of the host. With none, the engine is idle and holds its state
(47_system_ops.md R310; 60_exceptions.md R356). -/
def nextEvent (s : State) : Host.Outcome State Fault Refusal :=
  match s.inputs with
  | [] => .next s
  | e :: rest => hostEvent e { s with inputs := rest }

/-- `s` with the request of a table word as the host's next event. -/
def placeRequest (s : State) (nbits w : Nat) : State :=
  { s with inputs := .request (requestBytesOfWord nbits w) :: s.inputs }

end Sys2Proof.Machine
end

