-- ==== Sys2Proof/Machine/Step.lean ====
section
/-!
DEFINITION. One step of the machine, and the placing of a request where the next step takes it.
-/

namespace Sys2Proof.Machine

/-- One step: the host's next event (HostAgent.lean). -/
def step (s : State) : Host.Outcome State Fault Refusal := nextEvent s

/-- `s` with the request of `nbits` bits `w` as the next event, so that the very next step runs it (log 9). -/
def State.withFetchWord (s : State) (nbits w : Nat) : State := placeRequest s nbits w

end Sys2Proof.Machine
end

