-- ==== Sys2Proof/Safety.lean ====
section
/-!
DEFINITION. What claims speak of: the invariant of the machine, reachability, and plain readings of a state.
-/

namespace Sys2Proof.Machine

/-! ## The invariant -/

/-- The ring positions of a queue pair lie in its rings (44_nvme_engine.md R247 (a)), whose size is 2 to 65536
(10_state.md R32). -/
def Qp.ok (q : Qp) : Prop :=
  2 ≤ q.qSize ∧ q.qSize ≤ 65536 ∧ q.sqTail.toNat < q.qSize ∧ q.sqHead.toNat < q.qSize ∧ q.cqHead.toNat < q.qSize

/-- Inside a command, between allocation and the end of the poll (10_state.md R21). -/
def Pc.inCommand (p : Pc) : Prop := p = .slotAllocated ∨ p = .descriptorsBuilt ∨ p = .issued

/-- What holds of the machine between any two steps. -/
structure Inv (s : State) : Prop where
  /-- Memory is in its canonical form. -/
  memory : Memory.wf s.mem = true
  /-- So are the known device registers and every bank of records. -/
  regs : rising s.regs = true
  hba : rising s.hba = true
  port : rising s.port = true
  nvme : rising s.nvme = true
  qp : rising s.qp = true
  dev : rising s.dev = true
  /-- R247 (a). -/
  rings : ∀ e ∈ s.qp, e.2.ok
  /-- A command is in flight exactly while `pc` is Issued (10_state.md R60, 60_exceptions.md R351). -/
  flight : s.inflight.isSome = true ↔ s.pc = .issued
  /-- Inside a command the sequencer holds a slot (10_state.md R22). -/
  claimed : s.pc.inCommand → s.claim.isSome = true
  /-- Result codes 10 to 255 are never produced (60_exceptions.md R321). -/
  result : s.x.res.toNat ≤ 9
  response : s.rsp.res.toNat ≤ 9

/-- States that some number of steps leads to from `s`. -/
inductive Leads (s : State) : State → Prop where
  | here : Leads s s
  | more {t u : State} : Leads s t → step t = .next u → Leads s u

/-! ## Readings of a state -/

/-- Every byte of system memory outside `[a, a + n)` reads the same in both states. -/
def sameOutside (s t : State) (a n : Nat) : Prop :=
  ∀ b : Nat, (b < a ∨ a + n ≤ b) → t.mem.byteAt b = s.mem.byteAt b

/-- Every byte of system memory reads the same in both states. -/
def sameMemory (s t : State) : Prop := ∀ b : Nat, t.mem.byteAt b = s.mem.byteAt b

/-- The bytes `bs` stand in memory from `a` on. -/
def holds (s : State) (a : Nat) (bs : List Byte) : Prop :=
  ∀ i : Nat, i < bs.length → some (s.mem.byteAt (a + i)) = bs[i]?

/-- The devices take no step of their own. -/
def Quiet (s : State) : Prop := s.script = []

/-- The state after `n` steps of the devices. -/
def ticks : Nat → State → State
  | 0, s => s
  | n + 1, s => ticks n (tick s)

/-- All the records and parameters of `t` are those of `s`. -/
structure SameRecords (s t : State) : Prop where
  hba : t.hba = s.hba
  port : t.port = s.port
  nvme : t.nvme = s.nvme
  qp : t.qp = s.qp
  dev : t.dev = s.dev
  cfg : t.cfg = s.cfg

/-- The state that an outcome goes on with. -/
def nextOf (o : Host.Outcome State Fault Refusal) : Option State :=
  match o with
  | .next t => some t
  | .fault _ => none
  | .refused _ => none

/-! ## What the operation rules say of each instruction -/

/-- The 34 operation codes of 30_encoding.md R112. -/
def operationCodes : List Nat :=
  [0x01, 0x02, 0x03, 0x04, 0x05, 0x10, 0x11, 0x20, 0x21, 0x22, 0x23, 0x24, 0x25, 0x26, 0x30, 0x31, 0x32,
    0x40, 0x41, 0x42, 0x43, 0x50, 0x51, 0x52, 0x60, 0x61, 0x62, 0x63, 0x70, 0x71, 0x72, 0x73, 0x74, 0x75]

/-- The `pc` values in which an operation runs (10_state.md R22, R23; the preconditions of the operation rules). -/
def runsIn (i : Instr) (p : Pc) : Bool :=
  match i with
  | .publish _ | .idStr _ | .idCap _ | .idSecsz _ | .idDecode _ | .probe _ | .sigClass _ => true
  | .rd32 _ | .rd64 _ | .wr32 _ | .wr64 _ | .ahciAlloc _ | .nvmeAlloc _ | .ahciCmd _ | .nvmeRdychk _ | .nvmeCmd _
  | .readBlocks _ | .writeBlocks _ | .identify _ | .ahciInit _ | .portInit _ | .portReset _ | .nvmeInit _ => p.free
  | .prdtBuild _ | .fisBuild _ | .hdrBuild _ | .ahciBuild _ | .prpBuild _ | .sqeBuild _ | .nvmeBuild _
  | .fisReadDmaExt _ | .fisWriteDmaExt _ | .fisIdentifyDevice _
  | .sqeRead _ | .sqeWrite _ | .sqeIdentify _ | .cmdHdr _ | .prdtEntry _ => p == .slotAllocated
  | .ahciIssue _ | .nvmeIssue _ => p == .descriptorsBuilt
  | .ahciPoll _ | .nvmePoll _ | .cqe _ => p == .issued

/-- The `pc` values an instruction may leave, from `p` (10_state.md R21; the operation rules). -/
def mayLeave (i : Instr) (p q : Pc) : Bool :=
  match i with
  | .publish _ | .idStr _ | .idCap _ | .idSecsz _ | .idDecode _ | .probe _ | .sigClass _
  | .rd32 _ | .rd64 _ | .wr32 _ | .wr64 _ => q == p
  | .ahciAlloc _ | .nvmeAlloc _ => q == .slotAllocated || q == .idle
  | .prdtBuild _ | .prpBuild _ => q == .slotAllocated || q == .idle
  | .fisBuild _ | .hdrBuild _ | .sqeBuild _
  | .fisReadDmaExt _ | .fisWriteDmaExt _ | .fisIdentifyDevice _
  | .sqeRead _ | .sqeWrite _ | .sqeIdentify _ | .cmdHdr _ | .prdtEntry _ => q == .slotAllocated
  | .ahciBuild _ | .nvmeBuild _ => q == .descriptorsBuilt || q == .idle
  | .ahciIssue _ => q == .issued || q == .idle
  | .nvmeIssue _ => q == .issued
  | .ahciPoll _ | .nvmePoll _ => q == .completed || q == .timedOut || q == .deviceError
  | .cqe _ => q == .issued || q == .completed || q == .deviceError
  | .ahciCmd _ | .nvmeCmd _ | .readBlocks _ | .writeBlocks _ | .identify _ =>
    q == .idle || q == .completed || q == .timedOut || q == .deviceError
  | .nvmeRdychk _ | .ahciInit _ | .portInit _ | .portReset _ | .nvmeInit _ => q == .idle

/-- The kind of device an operation is for; none for an operation of either kind, or of no device (R113). -/
def kindFor (i : Instr) : Option Kind :=
  match i with
  | .ahciAlloc _ | .prdtBuild _ | .fisBuild _ | .hdrBuild _ | .ahciBuild _ | .ahciIssue _ | .ahciPoll _ | .ahciCmd _
  | .sigClass _ | .ahciInit _ | .portInit _ | .portReset _ => some .ahci
  | .nvmeAlloc _ | .prpBuild _ | .sqeBuild _ | .nvmeBuild _ | .nvmeRdychk _ | .nvmeIssue _ | .nvmePoll _ | .nvmeCmd _
  | .nvmeInit _ => some .nvme
  | .rd32 _ | .rd64 _ | .wr32 _ | .wr64 _ | .publish _ | .readBlocks _ | .writeBlocks _ | .identify _
  | .idStr _ | .idCap _ | .idSecsz _ | .idDecode _ | .probe _
  | .fisReadDmaExt _ | .fisWriteDmaExt _ | .fisIdentifyDevice _
  | .sqeRead _ | .sqeWrite _ | .sqeIdentify _ | .cmdHdr _ | .prdtEntry _ | .cqe _ => none

/-- The operations that name a device (30_encoding.md R114). -/
def namesDevice (i : Instr) : Bool :=
  (kindFor i).isSome ||
    (match i with
     | .readBlocks _ | .writeBlocks _ | .identify _ => true
     | _ => false)

/-- The operations whose rule returns a value (30_encoding.md R114; AHCI.INIT by 47_system_ops.md R303, log 23). -/
def returnsValue (i : Instr) : Bool :=
  match i with
  | .rd32 _ | .rd64 _ | .ahciAlloc _ | .nvmeAlloc _ | .prdtBuild _ | .ahciBuild _
  | .idStr _ | .idCap _ | .idSecsz _ | .probe _ | .sigClass _ | .ahciInit _ => true
  | _ => false

/-- The operations that end the use of leaked commands (10_state.md R62; 47_system_ops.md R303 to R308). -/
def bringsUp (i : Instr) : Bool :=
  match i with
  | .ahciInit _ | .portInit _ | .portReset _ | .nvmeInit _ => true
  | _ => false

/-- What the result code says of `pc` (60_exceptions.md R321), but for code 0 and for code 7. -/
def reported (res : Byte) (pc : Pc) : Prop :=
  res.toNat ≤ 9 ∧
    (res = Err.noFreeSlot.code ∨ res = Err.tooManyDescriptors.code ∨ res = Err.transferTooLarge.code ∨
        res = Err.portHung.code ∨ res = Err.outOfRange.code ∨ res = Err.controllerNotReady.code → pc = .idle) ∧
    (res = Err.commandTimeout.code → pc = .timedOut) ∧
    (res = Err.deviceError.code → pc = .deviceError)

/-- Where an error leaves `pc` (60_exceptions.md R321), but for code 7 of a decoder operation. -/
def Err.leaves : Err → Pc
  | .commandTimeout => .timedOut
  | .deviceError => .deviceError
  | .noFreeSlot | .tooManyDescriptors | .transferTooLarge | .portHung | .invalidIdentifyPayload | .outOfRange
  | .controllerNotReady => .idle

/-- The errors of one AHCI command, in the order they can arise (43_ahci_engine.md R221). -/
def ahciErrors : List Err := [.noFreeSlot, .tooManyDescriptors, .portHung, .deviceError, .commandTimeout]

/-- The errors of one NVMe command, in the order they can arise (44_nvme_engine.md R248). -/
def nvmeErrors : List Err := [.controllerNotReady, .noFreeSlot, .transferTooLarge, .deviceError, .commandTimeout]

/-- The errors an instruction can end with (the "Errors" of each operation rule; 60_exceptions.md R322 to R329). -/
def mayReport (i : Instr) : List Err :=
  match i with
  | .rd32 _ | .rd64 _ | .wr32 _ | .wr64 _ | .publish _ | .fisBuild _ | .hdrBuild _ | .sqeBuild _ | .nvmeIssue _
  | .probe _ | .sigClass _
  | .fisReadDmaExt _ | .fisWriteDmaExt _ | .fisIdentifyDevice _
  | .sqeRead _ | .sqeWrite _ | .sqeIdentify _ | .cmdHdr _ | .prdtEntry _ => []
  | .ahciAlloc _ | .nvmeAlloc _ => [.noFreeSlot]
  | .prdtBuild _ | .ahciBuild _ => [.tooManyDescriptors]
  | .prpBuild _ | .nvmeBuild _ => [.transferTooLarge]
  | .ahciIssue _ | .portInit _ | .portReset _ => [.portHung]
  | .ahciPoll _ | .nvmePoll _ => [.deviceError, .commandTimeout]
  | .cqe _ => [.deviceError]
  | .ahciCmd _ => ahciErrors
  | .nvmeCmd _ => nvmeErrors
  | .readBlocks _ | .writeBlocks _ => .outOfRange :: ahciErrors ++ nvmeErrors
  | .identify _ => .invalidIdentifyPayload :: ahciErrors ++ nvmeErrors
  | .idStr _ | .idCap _ | .idSecsz _ | .idDecode _ => [.invalidIdentifyPayload]
  | .nvmeRdychk _ | .ahciInit _ | .nvmeInit _ => [.controllerNotReady]

/-- The operations that are one whole command (43_ahci_engine.md R221, 44_nvme_engine.md R248, 45_block_api.md). -/
def isCommand (i : Instr) : Bool :=
  match i with
  | .ahciPoll _ | .nvmePoll _ | .ahciCmd _ | .nvmeCmd _ | .readBlocks _ | .writeBlocks _ | .identify _ => true
  | _ => false

/-! ## The records a request names (30_encoding.md R113, R114) -/

/-- `dev` names an AHCI device; `c` holds its port and HBA records. -/
def OnHba (s : State) (dev : Byte) (c : AhciCtx) : Prop :=
  ∃ d : Dev, alGet s.dev dev.toNat = some d ∧ d.kind = .ahci ∧ c.p = d.ch ∧
    alGet s.port c.p = some c.port ∧ alGet s.hba c.port.hba = some c.hba

/-- The same, and the port is implemented (10_state.md R39). -/
def OnPort (s : State) (dev : Byte) (c : AhciCtx) : Prop :=
  OnHba s dev c ∧ c.hba.pi.getLsbD c.port.port.toNat = true

/-- `dev` names an NVMe device; `c` holds the queue pair that `adm` selects, and its controller. -/
def OnQueue (s : State) (dev : Byte) (adm : Bool) (c : NvmeCtx) : Prop :=
  alGet s.dev dev.toNat = some c.dev ∧ c.dev.kind = .nvme ∧
    c.q = (if adm then c.dev.admin else c.dev.ch) ∧
    alGet s.qp c.q = some c.qp ∧ alGet s.nvme c.qp.ctrl = some c.nv

/-- The sequencer holds slot `x[SLOT]` of the port, in range, with its command table at `table`. -/
structure SlotOn (s : State) (dev : Byte) (c : AhciCtx) (table : Quad) : Prop where
  port : OnPort s dev c
  claim : s.claim = some (.port c.p)
  inRange : s.x.slot.toNat < c.hba.nSlots.toNat
  table : c.port.ct[s.x.slot.toNat]? = some table

/-- The sequencer holds ring position `x[SLOT]` of the queue pair. -/
structure EntryOn (s : State) (dev : Byte) (adm : Bool) (c : NvmeCtx) : Prop where
  queue : OnQueue s dev adm c
  claim : s.claim = some (.qp c.q)
  inRange : s.x.slot.toNat < c.qp.qSize

/-- The register at `a` holds the 32-bit value `v`. -/
def Reads32 (s : State) (a : Nat) (v : Word) : Prop := alGet s.regs a = some (v.setWidth 64)

/-- The queue pair that an operation on the NVMe device `d` works on: the admin one for IDENTIFY, the I/O one for a block
operation, and for any other operation the one the flag `ADM` selects (30_encoding.md R114; 45_block_api.md). -/
def queueOf (i : Instr) (r : Request) (d : Dev) : Nat :=
  match i with
  | .identify _ => d.admin
  | .readBlocks _ | .writeBlocks _ => d.ch
  | _ => if r.arg.getLsbD 11 then d.admin else d.ch

/-- What a queue-pair record holds that no operation changes (10_state.md R32): its controller, identifier, rings and
`Q_SIZE`. -/
def Qp.sameConfig (o n : Qp) : Prop :=
  n.ctrl = o.ctrl ∧ n.qid = o.qid ∧ n.sqBase = o.sqBase ∧ n.cqBase = o.cqBase ∧ n.qSize = o.qSize

/-- The same of a controller record: its base, `MDTS_BYTES` and `PAGE_BYTES`. -/
def Nvme.sameConfig (o n : Nvme) : Prop := n.base = o.base ∧ n.mdts = o.mdts ∧ n.mps = o.mps

/-- The register at `a` has another width than `w` (40_mmio_access.md R167): a 64-bit access to a register of an HBA, or to
`VS`, `CC`, `CSTS`, `AQA` or a doorbell of an NVMe controller; a 32-bit access to `CAP`, `ASQ` or `ACQ`. -/
def OtherWidth (s : State) (w : Width) (a : Nat) : Prop :=
  (∃ off, s.ctrlAt? a = some (.hba off) ∧ w = .w64) ∨
    ∃ n off, s.ctrlAt? a = some (.nvme n off) ∧
      ((w = .w32 ∧ off ∈ [0x00, 0x28, 0x30]) ∨
        (w = .w64 ∧ (off ∈ [0x08, 0x14, 0x1C, 0x24] ∨
          ∃ q, off = 0x1000 + 2 * q * n.stride ∨ off = 0x1004 + 2 * q * n.stride)))

/-! ## The premises of a launch (10_state.md R34; 20_memory.md R71, R76, R100) -/

/-- The structures of the port are aligned, and no two regions of the arena overlap. -/
def PortArena (s : State) (c : AhciCtx) : Prop := c.port.aligned = true ∧ s.arenaOk = true

/-- The rings of the queue pair are aligned, and no two regions of the arena overlap. -/
def RingArena (s : State) (c : NvmeCtx) : Prop := c.qp.aligned c.nv.pageBytes = true ∧ s.arenaOk = true

/-- The data buffer ends within system memory and overlaps no region of the arena (the identify buffer apart, for an
IDENTIFY) and nothing that a device owns. -/
def BufferFits (s : State) (ident : Bool) (a n : Nat) : Prop := a + n ≤ s.cfg.memEnd ∧ s.bufferApart ident a n = true

/-- The port's register block and the two registers the parameters place in it lie within the address space; the
error register is not `PxCI`. -/
structure PortWindow (s : State) (c : AhciCtx) : Prop where
  block : c.block + 0x80 ≤ addrSpace
  busy : s.cfg.ahciBusyOff + 4 ≤ 0x80
  error : s.cfg.ahciErrOff + 4 ≤ 0x80
  apart : s.cfg.ahciErrOff ≠ 0x38

/-! ## The states operations end in -/

/-- The registers a request loads (10_state.md R25, 30_encoding.md R110). -/
def loaded (op : Byte) (r : Request) (x : Regs) : Regs :=
  { x with op := op, dev := r.dev, cnt := r.cnt, arg := r.arg, lba := r.lba, buf := r.buf }

/-- The same for a micro-operation, AHCI.CMD and NVME.CMD, which take `CMDB`, `WR` and `FLG` from `ARG`
(30_encoding.md R114). -/
def loadedMicro (op : Byte) (r : Request) (x : Regs) : Regs :=
  { loaded op r x with
    cmdb := r.arg.extractLsb' 0 8, wr := r.arg.extractLsb' 8 1, flg := r.arg.extractLsb' 9 4 }

/-- The accepted state of a request. -/
def State.accepted (s : State) (op : Byte) (r : Request) : State := { s with x := loaded op r s.x }

/-- The accepted state of a micro-operation, AHCI.CMD or NVME.CMD. -/
def State.acceptedMicro (s : State) (op : Byte) (r : Request) : State := { s with x := loadedMicro op r s.x }

/-- A 32-bit read, a 32-bit write, as they appear on the bus. -/
def rd32 (a : Nat) (v : Word) : BusEvent := .rd .w32 a (v.setWidth 64)
def wr32 (a : Nat) (v : Word) : BusEvent := .wr .w32 a (v.setWidth 64)

/-- `n` times the same accesses. -/
def repeated (n : Nat) (es : List BusEvent) : List BusEvent := (List.replicate n es).flatten

/-- The stores still unordered after the `Publish()` of an operation with data buffer `buf` (20_memory.md R88). -/
def unordered (buf : Option (Nat × Nat)) (l : List PendStore) : List PendStore := l.flatMap (PendStore.left buf)

/-- The state after a 32-bit write of `v` at `a`, by the kind of register the records make of `a` (log 3, 4). -/
def State.wrote (s : State) (a : Nat) (v : Word) : State := s.afterWrite .w32 a (v.setWidth 64)

/-! ### AHCI commands -/

/-- What a transfer of `cnt` sectors at `buf` needs of the machine before PRDT.BUILD stores anything. -/
structure PrdtFits (s : State) (ident : Bool) (c : AhciCtx) (buf : Quad) (cnt : Half) : Prop where
  arena : PortArena s c
  even : buf.toNat % 2 = 0
  fits : BufferFits s ident buf.toNat (cnt.toNat * 512)
  room : prdtCount cnt.toNat ≤ s.cfg.prdtCap

/-- The FIS of a command (42_descriptor_builder.md R195). -/
def fisOf (p : Params) (x : Regs) : Fis :=
  { flags := p.fisFlags, noLba := x.flg.getLsbD 0, lba := x.lba.setWidth 48, cnt := x.cnt }

/-- The registers after PRDT.BUILD (R191). -/
def prdtRegs (x : Regs) : Regs :=
  { x with
    nprd := BitVec.ofNat 16 (prdtCount x.cnt.toNat)
    bytes := BitVec.ofNat 32 (x.cnt.toNat * 512)
    val := BitVec.ofNat 64 (prdtCount x.cnt.toNat) }

/-- The state after AHCI.BUILD's three stores, from the accepted state `a` (R201). -/
def ahciBuilt (c : AhciCtx) (table : Quad) (a : State) : State :=
  { ((a.afterStore (table.toNat + 0x80) (prdtBytes (prdtOf a.x.buf a.x.cnt.toNat))).afterStore
        table.toNat (tableHead ((fisOf a.cfg a.x).bytes a.x.cmdb))).afterStore
        (c.port.clb.toNat + 32 * a.x.slot.toNat)
        (CmdHdr.bytes { write := a.x.wr, prdtl := BitVec.ofNat 16 (prdtCount a.x.cnt.toNat), ctba := table }) with
    pc := .descriptorsBuilt
    x := prdtRegs a.x
    built := some (a.x.buf.toNat, a.x.cnt.toNat * 512) }

/-- What the registers of a port show to one command: `PxSACT`, `PxCI`, the busy register, the error register. -/
structure PortView where
  sact : Word
  ci : Word
  busy : Word
  err : Word

/-- The registers of the port hold these values. -/
structure PortShows (s : State) (c : AhciCtx) (v : PortView) : Prop where
  sact : Reads32 s (c.portReg 0x34) v.sact
  ci : Reads32 s (c.portReg 0x38) v.ci
  busy : Reads32 s (c.portReg s.cfg.ahciBusyOff) v.busy
  err : Reads32 s (c.portReg s.cfg.ahciErrOff) v.err

/-- Slot `k` is the lowest free one of the port (41_slot_queue_allocator.md R176). -/
structure LowestFree (c : AhciCtx) (sact ci : Word) (k : Nat) : Prop where
  inRange : k < c.hba.nSlots.toNat
  word : k < 32
  free : (sact ||| ci).getLsbD k = false
  lower : ∀ j, j < k → (sact ||| ci).getLsbD j = true

/-- An AHCI command of `cnt` sectors at `buf` can run to its end at once: slot `k` with table `table` is free, the
port is neither busy nor in error, every premise holds, and no budget is 0. -/
structure AhciReady (s : State) (ident : Bool) (dev : Byte) (cnt : Half) (buf : Quad) (c : AhciCtx) (k : Nat)
    (table : Quad) (v : PortView) : Prop where
  port : OnPort s dev c
  window : PortWindow s c
  shows : PortShows s c v
  slot : LowestFree c v.sact v.ci k
  table : c.port.ct[k]? = some table
  fits : PrdtFits s ident c buf cnt
  idle : v.busy &&& s.cfg.ahciBusyMask = 0#32
  noError : v.err &&& s.cfg.ahciErrMask = 0#32
  busyBudget : s.cfg.busyBudget ≠ 0#32
  pollBudget : s.cfg.pollBudget ≠ 0#32

/-- The devices' steps during such a command: seven that do nothing, then, before the first look of the poll, the
transfer of `data` and the new `PxCI`. -/
def ahciScript (c : AhciCtx) (data : List Host.Cell) (ciEnd : Word) : List DevAct :=
  List.replicate 7 ({} : DevAct) ++ [{ regs := [(c.portReg 0x38, some (ciEnd.setWidth 64))], mem := data }]

/-- The accesses of such a command, newest first (43_ahci_engine.md R221). -/
def ahciTrace (c : AhciCtx) (k : Nat) (table : Quad) (v : PortView) (ciEnd : Word) (p : Params) (cnt : Half) :
    List BusEvent :=
  [rd32 (c.portReg p.ahciErrOff) v.err, rd32 (c.portReg 0x38) ciEnd,
    wr32 (c.portReg 0x38) (1#32 <<< k), .publish, rd32 (c.portReg p.ahciBusyOff) v.busy,
    .store (c.port.clb.toNat + 32 * k) 32, .store table.toNat 128,
    .store (table.toNat + 0x80) (16 * prdtCount cnt.toNat),
    rd32 (c.portReg 0x38) v.ci, rd32 (c.portReg 0x34) v.sact]

/-- The state after such a command, from the accepted state `a`: built, issued, completed (R221). -/
def ahciDone (c : AhciCtx) (k : Nat) (table : Quad) (v : PortView) (data : List Host.Cell) (ciEnd : Word)
    (a : State) : State :=
  { a with
    pc := .completed
    x := { prdtRegs { a.x with slot := BitVec.ofNat 16 k } with iter := 0#32 }
    claim := none
    inflight := none
    built := some (a.x.buf.toNat, a.x.cnt.toNat * 512)
    regs := alSet a.regs (c.portReg 0x38) (ciEnd.setWidth 64)
    mem := data.foldl (dmaByte a.cfg.memEnd) (ahciBuilt c table { a with x := { a.x with slot := BitVec.ofNat 16 k } }).mem
    pend := unordered (some (a.x.buf.toNat, a.x.cnt.toNat * 512)) a.pend
    script := []
    log := ahciTrace c k table v ciEnd a.cfg a.x.cnt ++ a.log }

/-! ### NVMe commands -/

/-- The doorbells of the queue pair lie within the address space. -/
structure RingWindow (c : NvmeCtx) : Prop where
  submission : c.sqDoorbell + 4 ≤ addrSpace
  completion : c.cqDoorbell + 4 ≤ addrSpace

/-- What a transfer of `len` bytes at `buf` needs before SQE.BUILD stores anything (42_descriptor_builder.md R203). -/
structure PrpFits (s : State) (ident : Bool) (c : NvmeCtx) (buf : Quad) (len : Nat) : Prop where
  arena : RingArena s c
  aligned : buf.toNat % 4 = 0
  fits : BufferFits s ident buf.toNat len
  maximum : len ≤ c.nv.mdts
  onePage : buf.toNat % c.nv.pageBytes + len ≤ c.nv.pageBytes

/-- The length of a transfer (R203): `CNT` bytes where `RAW` is set, else `CNT` blocks. -/
def transferLength (raw : Bool) (cnt : Half) (d : Dev) : Nat := if raw then cnt.toNat else cnt.toNat * d.blockBytes

/-- The submission entry of a command but for its opcode (R205, 30_encoding.md R124). -/
def entryOf (p : Params) (d : Dev) (x : Regs) : Sqe :=
  let cdws : Word × Word × Word :=
    if x.flg.getLsbD 1 then (lo32 x.lba, hi32 x.lba, 0#32)
    else if p.nvmeRwLayout = .docLayout then (x.cnt.setWidth 32 - 1#32, lo32 x.lba, hi32 x.lba)
    else (lo32 x.lba, hi32 x.lba, x.cnt.setWidth 32 - 1#32)
  { cid := x.cid
    nsid := if x.flg.getLsbD 1 = false ∨ x.flg.getLsbD 3 = true then d.nsid else 0#32
    prp1 := x.buf
    cdw10 := cdws.1
    cdw11 := cdws.2.1
    cdw12 := cdws.2.2 }

/-- The queue pair after the tail has advanced and its doorbell was rung (44_nvme_engine.md R242). -/
def Qp.advanced (q : Qp) : Qp := { q with sqTail := ringNext q.qSize q.sqTail, started := true }

/-- The queue pair after the entry `e` at the head has been consumed (R244). -/
def Qp.after (q : Qp) (e : Cqe) : Qp :=
  { q with
    sqHead := e.sqHead
    cqHead := ringNext q.qSize q.cqHead
    phase := if ringNext q.qSize q.cqHead = 0#16 then q.phase ^^^ 1#1 else q.phase }

/-- An NVMe command of `len` bytes at `buf` can run to its end at once: the controller is ready, the queue is not
full, every premise holds, and the budget is not 0. -/
structure NvmeReady (s : State) (ident : Bool) (dev : Byte) (adm : Bool) (buf : Quad) (len : Nat) (c : NvmeCtx)
    (csts : Word) : Prop where
  queue : OnQueue s dev adm c
  window : RingWindow c
  status : c.reg 0x1C + 4 ≤ addrSpace
  shows : Reads32 s (c.reg 0x1C) csts
  ready : csts.getLsbD 0 = true
  size : 2 ≤ c.qp.qSize ∧ c.qp.qSize ≤ 65536
  tail : c.qp.sqTail.toNat < c.qp.qSize
  head : c.qp.cqHead.toNat < c.qp.qSize
  notFull : ringNext c.qp.qSize c.qp.sqTail ≠ c.qp.sqHead
  fits : PrpFits s ident c buf len
  pollBudget : s.cfg.pollBudget ≠ 0#32

/-- A completion entry that ends the current command (R244): its phase is the expected one, its identifier the
command's, its `sq_head` within the ring. -/
structure Answers (e : Cqe) (q : Qp) (cid : Half) : Prop where
  phase : e.phase = q.phase
  cid : e.cid = cid
  sqHead : e.sqHead.toNat < q.qSize

/-- The device steps of one look of NVME.POLL that finds no entry of the command: with `NVME_CHECK_CFS`, the look also reads
`CSTS` (R246). -/
def missSteps (p : Params) : Nat := if p.nvmeCheckCfs then 2 else 1

/-- The accesses of such a look, newest first, where `CSTS` shows `csts`. -/
def missTrace (p : Params) (c : NvmeCtx) (csts : Word) : List BusEvent :=
  (if p.nvmeCheckCfs then [rd32 (c.reg 0x1C) csts] else []) ++ [.load (c.head + 12) 4]

/-- The devices' steps during such a command: three that do nothing, then, before the first look of the poll, the
transfer of `data` and the completion entry. -/
def nvmeScript (c : NvmeCtx) (data : List Host.Cell) (e : Cqe) : List DevAct :=
  List.replicate 3 ({} : DevAct) ++ [{ mem := data ++ cells c.head e.bytes }]

/-- The accesses of such a command, newest first (R248). -/
def nvmeTrace (c : NvmeCtx) (csts : Word) : List BusEvent :=
  [wr32 c.cqDoorbell ((ringNext c.qp.qSize c.qp.cqHead).setWidth 32),
    .load (c.head + 8) 4, .load (c.head + 12) 4,
    wr32 c.sqDoorbell ((ringNext c.qp.qSize c.qp.sqTail).setWidth 32), .publish,
    .store (c.qp.sqBase.toNat + 64 * c.qp.sqTail.toNat) 64,
    rd32 (c.reg 0x1C) csts]

/-- The NVMe records after an identifier has been taken (41_slot_queue_allocator.md R180). -/
def State.cidTaken (s : State) (c : NvmeCtx) : List (Nat × Nvme) :=
  alSet s.nvme c.qp.ctrl { c.nv with nextCid := c.nv.nextCid + 1#16 }

/-- The state after such a command, from the accepted state `a` (R248). -/
def nvmeDone (c : NvmeCtx) (len : Nat) (csts : Word) (data : List Host.Cell) (e : Cqe) (a : State) : State :=
  let issued : State :=
    ({ a with nvme := a.cidTaken c } : State).wrote c.sqDoorbell ((ringNext c.qp.qSize c.qp.sqTail).setWidth 32)
  { issued.wrote c.cqDoorbell ((ringNext c.qp.qSize c.qp.cqHead).setWidth 32) with
    pc := .completed
    x := { a.x with
      slot := c.qp.sqTail, cid := c.nv.nextCid, val := c.qp.sqTail.setWidth 64, bytes := BitVec.ofNat 32 len
      iter := 0#32 }
    claim := none
    inflight := none
    built := some (a.x.buf.toNat, len)
    qp := alSet a.qp c.q (c.qp.advanced.after e)
    mem := (data ++ cells c.head e.bytes).foldl (dmaByte a.cfg.memEnd)
      (a.mem.write (c.qp.sqBase.toNat + 64 * c.qp.sqTail.toNat)
        ((entryOf a.cfg c.dev { a.x with cid := c.nv.nextCid }).bytes a.x.cmdb))
    pend := unordered (some (a.x.buf.toNat, len)) a.pend
    script := []
    log := nvmeTrace c csts ++ a.log }

/-! ### The decoder (46_identify_decoder.md) -/

/-- High byte of each word first (R281). -/
def swapPairs : List Byte → List Byte
  | a :: b :: rest => b :: a :: swapPairs rest
  | l => l

/-- A field's bytes as they stand in the payload, un-swapped, trimmed, and filled with 0x00; and the trimmed length
(R281). -/
def decodeStr (raw : List Byte) : List Byte := trimmed (swapPairs raw)
def strLen (raw : List Byte) : Nat := trimLen (swapPairs raw)

/-- Word `w` of a payload (00_scope.md R11). -/
def wordAt (bs : List Byte) (w : Nat) : Nat := field bs (2 * w) 2

/-- Bit `b.bit` of word `b.word`. -/
def bitAt (bs : List Byte) (b : BitPos) : Bool := (wordAt bs b.word.toNat).testBit b.bit.toNat

/-- The 48-bit flag: word 83, bit 10. -/
def bigLba (bs : List Byte) : Bool := (wordAt bs 83).testBit 10

/-- The sector count (R283, R284). -/
def sectorsOf (p : Params) (bs : List Byte) : Quad :=
  if bigLba bs then
    if field bs 200 8 < 4294967296 then BitVec.ofNat 64 (field bs 200 8) else p.capClamp
  else BitVec.ofNat 64 (field bs 120 4)

/-- Word 106 has both bit 15 and bit 12 set (R285). -/
def ownSize (bs : List Byte) : Bool := (wordAt bs 106).testBit 15 && (wordAt bs 106).testBit 12

/-- The logical sector size (R285). -/
def sectorSizeOf (p : Params) (bs : List Byte) : Quad :=
  if ownSize bs then BitVec.ofNat 64 (field bs 234 4 * p.secszScale) else 512#64

/-- The Device Identity of a payload (R287). -/
def identityOf (p : Params) (bs : List Byte) : Identity :=
  { model := swapPairs ((bs.drop 54).take 40)
    serial := swapPairs ((bs.drop 20).take 20)
    firmware := swapPairs ((bs.drop 46).take 8)
    lba48 := bigLba bs
    ncq := bitAt bs p.idNcq
    trim := bitAt bs p.idTrim
    smart := bitAt bs p.idSmart
    sectors := sectorsOf p bs
    sectorSize := sectorSizeOf p bs }

/-- One load, and one store, of each of the `n` bytes from `a`, in ascending order, newest first. -/
def byteLoads (a n : Nat) : List BusEvent := ((List.range n).map fun i => .load (a + i) 1).reverse
def byteStores (a n : Nat) : List BusEvent := ((List.range n).map fun i => .store (a + i) 1).reverse

/-- The loads of a string of `n` words from word `w` of the payload at `a`, of each word the high byte first (R281), newest
first. -/
def fieldLoads (a w n : Nat) : List BusEvent :=
  ((List.range n).flatMap fun i => [.load (a + 2 * (w + i) + 1) 1, .load (a + 2 * (w + i)) 1]).reverse

/-- The loads of ID.CAP and of ID.SECSZ from the payload at `a`, newest first. -/
def capTrace (bs : List Byte) (a : Nat) : List BusEvent :=
  (if bigLba bs then byteLoads (a + 200) 8 else byteLoads (a + 120) 4) ++ byteLoads (a + 166) 2
def secszTrace (bs : List Byte) (a : Nat) : List BusEvent :=
  (if ownSize bs then byteLoads (a + 234) 4 else []) ++ byteLoads (a + 212) 2

/-- The loads of ID.DECODE, newest first. -/
def decodeTrace (p : Params) (bs : List Byte) (a : Nat) : List BusEvent :=
  byteLoads (a + 2 * p.idSmart.word.toNat) 2 ++ byteLoads (a + 2 * p.idTrim.word.toNat) 2
  ++ byteLoads (a + 2 * p.idNcq.word.toNat) 2 ++ byteLoads (a + 166) 2
  ++ secszTrace bs a ++ capTrace bs a ++ fieldLoads a 23 4 ++ fieldLoads a 10 10 ++ fieldLoads a 27 20

/-- The state after a store of each of the bytes `bs` from `a` (00_scope.md R7). -/
def State.storedBytes (s : State) (a : Nat) (bs : List Byte) : State :=
  { s with
    mem := s.mem.write a bs
    pend := ((List.range bs.length).map fun i => { byHost := false, addr := a + i, len := 1 }).reverse ++ s.pend
    log := byteStores a bs.length ++ s.log }

/-- The payload stands at `p`, within system memory and outside every received-FIS area (43_ahci_engine.md R215). -/
structure PayloadAt (s : State) (p : Nat) (bs : List Byte) : Prop where
  notNull : p ≠ 0
  length : bs.length = 512
  holds : holds s p bs
  inSpace : p + 512 ≤ s.cfg.memEnd
  received : s.received.all (disjoint (p, 512)) = true

/-- The output of `n` bytes at `out` lies within system memory and touches nothing that a device owns or that only a device
writes. -/
structure OutputAt (s : State) (out n : Nat) : Prop where
  inSpace : out + n ≤ s.cfg.memEnd
  owned : s.outputApart out n = true

/-- The state after ID.DECODE of the payload `bs` at `p` into `out`, from the accepted state `a` (R287, R288). -/
def decoded (bs : List Byte) (p out : Nat) (a : State) : State :=
  ({ a with
    x := { a.x with val := sectorSizeOf a.cfg bs }
    log := decodeTrace a.cfg bs p ++ a.log } : State).storedBytes out (identityOf a.cfg bs).record

/-! ### Bring-up (47_system_ops.md) -/

/-- Every address of the HBA's register window is taken for this HBA's. -/
def HbaWindow (s : State) (c : AhciCtx) : Prop :=
  c.hba.base.toNat + ahciWindow ≤ addrSpace ∧
    ∀ off, off < ahciWindow → s.ctrlAt? (c.hba.base.toNat + off) = some (.hba off)

/-- Every address of the controller's register window below the doorbells is taken for this controller's. -/
def NvmeWindow (s : State) (c : NvmeCtx) : Prop :=
  c.nv.base.toNat + 0x1000 ≤ addrSpace ∧
    ∀ off, off < 0x1000 → s.ctrlAt? (c.nv.base.toNat + off) = some (.nvme c.nv off)

/-- `mem` with zeros in each of the ranges, in order. -/
def zeroed (rs : List (Nat × Nat)) (m : Memory) : Memory := rs.foldl (fun m r => m.write r.1 (zeros r.2)) m

/-- The ranges as stores, oldest first. -/
def storesOf (rs : List (Nat × Nat)) : List BusEvent := rs.map fun r => .store r.1 r.2

/-- What PORT.INIT fills with zeros (R304). -/
def portRanges (c : AhciCtx) (p : Params) : List (Nat × Nat) :=
  (c.port.clb.toNat, 1024) :: (c.port.fb.toNat, 256) ::
    (c.port.ct.take c.hba.nSlots.toNat).map fun t => (t.toNat, 128 + 16 * p.prdtCap)

/-- A port stops after `k` looks (R305): at look `k` its `PxCMD`, which read `cmd` before `ST` and `FRE` were cleared,
shows `stopped`, with `CR` and `FR` clear; at the looks before, if any, they are still set. The devices take no step at
all, or they do nothing until they stop the port. -/
structure PortStops (s : State) (c : AhciCtx) (cmd stopped : Word) (k : Nat) : Prop where
  shows : Reads32 s (c.portReg 0x18) cmd
  course : (s.script = [] ∧ k = 0 ∧ stopped = cmd &&& 0xFFFFFFEE#32) ∨
    s.script = List.replicate (k + 3) ({} : DevAct) ++ [{ regs := [(c.portReg 0x18, some (stopped.setWidth 64))] }]
  running : 0 < k → cmd &&& 0xC000#32 ≠ 0#32
  clear : stopped &&& 0xC000#32 = 0#32
  budget : k < s.cfg.resetBudget.toNat

/-- The registers after PORT.INIT, where `PxCMD` read `stopped` once the port had stopped (R304, R305, R307). -/
def portRegs (c : AhciCtx) (stopped : Word) (regs : List (Nat × Quad)) : List (Nat × Quad) :=
  let based :=
    alSet (alSet (alSet (alSet regs (c.portReg 0x00) ((lo32 c.port.clb).setWidth 64))
      (c.portReg 0x04) ((hi32 c.port.clb).setWidth 64)) (c.portReg 0x08) ((lo32 c.port.fb).setWidth 64))
      (c.portReg 0x0C) ((hi32 c.port.fb).setWidth 64)
  alSet based (c.portReg 0x18) ((stopped ||| 0x11#32).setWidth 64)

/-- The accesses of PORT.INIT, oldest first (R304, R305, R307). -/
def portTrace (c : AhciCtx) (cmd stopped : Word) (k : Nat) (p : Params) : List BusEvent :=
  [rd32 (c.portReg 0x18) cmd, wr32 (c.portReg 0x18) (cmd &&& 0xFFFFFFFE#32),
    wr32 (c.portReg 0x18) (cmd &&& 0xFFFFFFEE#32)]
  ++ repeated k [rd32 (c.portReg 0x18) (cmd &&& 0xFFFFFFEE#32)] ++ [rd32 (c.portReg 0x18) stopped]
  ++ storesOf (portRanges c p)
  ++ [wr32 (c.portReg 0x00) (lo32 c.port.clb), wr32 (c.portReg 0x04) (hi32 c.port.clb),
    wr32 (c.portReg 0x08) (lo32 c.port.fb), wr32 (c.portReg 0x0C) (hi32 c.port.fb), .publish,
    rd32 (c.portReg 0x18) stopped, wr32 (c.portReg 0x18) (stopped ||| 0x10#32),
    wr32 (c.portReg 0x18) (stopped ||| 0x11#32)]

/-- The state after PORT.INIT or PORT.RESET of a port that stops after `k` looks, from the accepted state `a`. -/
def portReady (c : AhciCtx) (cmd stopped : Word) (k : Nat) (a : State) : State :=
  { a with
    pc := .idle
    x := { a.x with iter := BitVec.ofNat 32 k }
    claim := none
    inflight := a.inflight.filter fun t => t.chan != .port c.p
    leaked := a.leaked.filter fun t => t.chan != .port c.p
    regs := portRegs c stopped a.regs
    mem := zeroed (portRanges c a.cfg) a.mem
    pend := a.pend.filter fun q => q.byHost
    script := []
    log := (portTrace c cmd stopped k a.cfg).reverse ++ a.log }

/-- What NVME.INIT fills with zeros: the rings of every queue pair of the controller (R308). -/
def ringRanges (qs : List (Nat × Qp)) : List (Nat × Nat) :=
  qs.flatMap fun e => [(e.2.sqBase.toNat, 64 * e.2.qSize), (e.2.cqBase.toNat, 16 * e.2.qSize)]

/-- The queue-pair records with each of `qs` at its reset state (R308). -/
def freshRings (p : Params) (qs : List (Nat × Qp)) (l : List (Nat × Qp)) : List (Nat × Qp) :=
  qs.foldl (fun l e => alSet l e.1
    { e.2 with sqTail := 0#16, sqHead := 0#16, cqHead := 0#16, phase := p.phaseInit, started := true }) l

/-- `AQA` and `CC` of NVME.INIT (R308). -/
def aqaOf (q : Qp) : Word := BitVec.ofNat 32 ((q.qSize - 1) * 65536 + (q.qSize - 1))
def ccOf (n : Nvme) : Word := 0x00460001#32 ||| (n.mps.setWidth 32 <<< 7)

/-- What `CSTS` shows while a controller is disabled (R308): `csts` at the first `looks` looks, then `off`. -/
structure Disabling where
  csts : Word
  off : Word
  looks : Nat

/-- The controller is disabled after `d.looks` looks: still ready at each of them, then not. `act` is the devices' step
before the last look: it shows `off`, or it does nothing where `CSTS` is not ready from the start. -/
structure Disables (s : State) (c : NvmeCtx) (d : Disabling) (act : DevAct) : Prop where
  shows : Reads32 s (c.reg 0x1C) d.csts
  course : (act = {} ∧ d.looks = 0 ∧ d.off = d.csts) ∨ act = { regs := [(c.reg 0x1C, some (d.off.setWidth 64))] }
  ready : 0 < d.looks → d.csts.getLsbD 0 = true
  clear : d.off.getLsbD 0 = false
  budget : d.looks < s.cfg.resetBudget.toNat

/-- The accesses of NVME.INIT up to the write that enables the controller, oldest first (R308). -/
def nvmeInitTrace (c : NvmeCtx) (qs : List (Nat × Qp)) (cap : Quad) (cc : Word) (d : Disabling) : List BusEvent :=
  [.rd .w64 (c.reg 0x00) cap, rd32 (c.reg 0x14) cc, wr32 (c.reg 0x14) (cc &&& 0xFFFFFFFE#32)]
  ++ repeated d.looks [rd32 (c.reg 0x1C) d.csts] ++ [rd32 (c.reg 0x1C) d.off]
  ++ storesOf (ringRanges qs)
  ++ [wr32 (c.reg 0x24) (aqaOf c.qp), .wr .w64 (c.reg 0x28) c.qp.sqBase, .wr .w64 (c.reg 0x30) c.qp.cqBase, .publish,
    wr32 (c.reg 0x14) (ccOf c.nv)]

/-- The state of NVME.INIT between the write that enables the controller and the second wait, from the accepted state
`a`, but for `ITER` and the content of `CSTS`. -/
def nvmeEnabled (c : NvmeCtx) (cap : Quad) (cc : Word) (d : Disabling) (a : State) : State :=
  { a with
    nvme := alSet a.nvme c.qp.ctrl { c.nv with dstrd := cap.extractLsb' 32 4 }
    qp := freshRings a.cfg (a.qpsOf c.qp.ctrl) a.qp
    regs :=
      alSet (alSet (alSet (alSet (alSet a.regs (c.reg 0x14) ((cc &&& 0xFFFFFFFE#32).setWidth 64))
        (c.reg 0x24) ((aqaOf c.qp).setWidth 64)) (c.reg 0x28) c.qp.sqBase) (c.reg 0x30) c.qp.cqBase)
        (c.reg 0x14) ((ccOf c.nv).setWidth 64)
    mem := zeroed (ringRanges (a.qpsOf c.qp.ctrl)) a.mem
    pend := a.pend.filter fun q => q.byHost
    log := (nvmeInitTrace c (a.qpsOf c.qp.ctrl) cap cc d).reverse ++ a.log }

/-- The state after NVME.INIT of a controller that shows `cstsEnd`, and is ready, after `k` looks of the second wait, from
the accepted state `a`. -/
def nvmeInitDone (c : NvmeCtx) (cap : Quad) (cc : Word) (d : Disabling) (k : Nat) (cstsEnd : Word) (a : State) : State :=
  { nvmeEnabled c cap cc d a with
    pc := .idle
    x := { a.x with iter := BitVec.ofNat 32 k }
    claim := none
    inflight := a.inflight.filter fun t => !a.qpOf c.qp.ctrl t.chan
    leaked := a.leaked.filter fun t => !a.qpOf c.qp.ctrl t.chan
    regs := alSet (nvmeEnabled c cap cc d a).regs (c.reg 0x1C) (cstsEnd.setWidth 64)
    script := []
    log := rd32 (c.reg 0x1C) cstsEnd ::
      (repeated k [rd32 (c.reg 0x1C) d.off] ++ (nvmeEnabled c cap cc d a).log) }

/-- The state after NVME.INIT on a controller that shows `csts` and is never ready: the second wait has used up its budget,
and no command is forgotten. -/
def nvmeInitUnready (c : NvmeCtx) (cap : Quad) (cc csts : Word) (a : State) : State :=
  { nvmeEnabled c cap cc ⟨csts, csts, 0⟩ a with
    pc := .idle
    x := { a.x with iter := a.cfg.resetBudget, res := 9#8 }
    claim := none
    log := repeated a.cfg.resetBudget.toNat [rd32 (c.reg 0x1C) csts] ++ (nvmeEnabled c cap cc ⟨csts, csts, 0⟩ a).log }

end Sys2Proof.Machine
end

