-- ==== Sys2Proof/Certificates/Slice0/Obligations.lean ====
section
/-!
DEFINITION. The statements for the provers. In a statement that names no behaviour of the devices they may do
anything between two accesses (`tick`); where it says `Quiet`, they take no step; where it gives `script`, they take
exactly those steps.
-/

open Sys2Proof Sys2Proof.Machine

/-! ## Encoding -/

/-- 30_encoding.md R110, R112: the request of an operation decodes to that operation, with every operand field at
every value. -/
def Obligations.DecodeEncodeRequest : Prop :=
  ∀ i : Instr, i.isOperation = true → decode (encode i) = .ok i

/-- 30_encoding.md R115 to R126: the bytes of a structure decode, in its format, to that structure, with every
variable field at every value. The command codes of the rows are presumed (log 37). -/
def Obligations.DecodeEncodeStructure : Prop :=
  ∀ (i : Instr) (f : StructFormat), i.structFormat? = some f → decodeStruct f (encode i) = some i

/-- No byte of a request or of a structure is read for nothing: what decodes encodes back to the same bytes.
The command codes of the structure rows are presumed (log 37). -/
def Obligations.EncodeDecode : Prop :=
  (∀ (bs : List Byte) (i : Instr), decode bs = .ok i → encode i = bs) ∧
  (∀ (bs : List Byte) (f : StructFormat) (i : Instr),
    decodeStruct f bs = some i → i.structFormat? = some f ∧ encode i = bs)

/-- 30_encoding.md R110, R113: which bytes are no request, and why. -/
def Obligations.DecodeRefusals : Prop :=
  ∀ bs : List Byte,
    (bs.length ≠ 32 → decode bs = .error .badLength) ∧
    (bs.length = 32 → field bs 24 8 ≠ 0 → decode bs = .error .reservedDword) ∧
    (bs.length = 32 → field bs 24 8 = 0 → field bs 0 1 ∉ operationCodes →
      decode bs = .error (.unknownOpc (BitVec.ofNat 8 (field bs 0 1)))) ∧
    (bs.length = 32 → field bs 24 8 = 0 → field bs 0 1 ∈ operationCodes →
      ∃ i, opcInstr (field bs 0 1) (decodeFields bs) = some i ∧ decode bs = .ok i)

/-- A few request words of 95_test_vectors.md, written out byte by byte, and a FIS, a submission entry, a Command
Header, a PRDT entry and a completion entry. That command byte 0x25 of a FIS names the row FIS.READ_DMA_EXT is the
model's reading (log 37). -/
def Obligations.DecodeWrittenWords : Prop :=
  decode [0x01#8, 0#8, 0#8, 0#8, 0x38#8, 0x01#8, 0#8, 0#8, 0#8, 0#8, 0#8, 0#8, 0#8, 0#8, 0#8, 0#8,
      0#8, 0#8, 0xBF#8, 0xFE#8, 0#8, 0#8, 0#8, 0#8, 0#8, 0#8, 0#8, 0#8, 0#8, 0#8, 0#8, 0#8]
    = .ok (.rd32 { arg := 0x138#32, buf := 0xFEBF0000#64 }) ∧
  decode [0x50#8, 0#8, 1#8, 0#8, 0#8, 0#8, 0#8, 0#8, 100#8, 0#8, 0#8, 0#8, 0#8, 0#8, 0#8, 0#8,
      0#8, 0#8, 0x20#8, 0#8, 0#8, 0#8, 0#8, 0#8, 0#8, 0#8, 0#8, 0#8, 0#8, 0#8, 0#8, 0#8]
    = .ok (.readBlocks { cnt := 1#16, lba := 100#64, buf := 0x200000#64 }) ∧
  decode [0x43#8, 1#8, 8#8, 0#8, 0x02#8, 0#8, 0#8, 0#8, 0x64#8, 0#8, 0#8, 0#8, 0#8, 0#8, 0#8, 0#8,
      0#8, 0#8, 0x20#8, 0#8, 0#8, 0#8, 0#8, 0#8, 0#8, 0#8, 0#8, 0#8, 0#8, 0#8, 0#8, 0#8]
    = .ok (.nvmeCmd { dev := 1#8, cnt := 8#16, arg := 2#32, lba := 100#64, buf := 0x200000#64 }) ∧
  decodeStruct .h2dFis [0x27#8, 0x80#8, 0x25#8, 0#8, 0xBC#8, 0x9A#8, 0x78#8, 0x40#8, 0x56#8, 0x34#8, 0x12#8, 0#8,
      2#8, 1#8, 0#8, 0#8, 0#8, 0#8, 0#8, 0#8]
    = some (.fisReadDmaExt { flags := 0x80#8, noLba := false, lba := 0x123456789ABC#48, cnt := 0x102#16 }) ∧
  decodeStruct .sqe ([2#8, 0#8, 7#8, 0#8, 1#8, 0#8, 0#8, 0#8] ++ List.replicate 16 0#8 ++
      [0#8, 0#8, 0x20#8, 0#8, 0#8, 0#8, 0#8, 0#8] ++ List.replicate 8 0#8 ++
      [7#8, 0#8, 0#8, 0#8, 0x64#8, 0#8, 0#8, 0#8, 1#8, 0#8, 0#8, 0#8] ++ List.replicate 12 0#8)
    = some (.sqeRead
        { cid := 7#16, nsid := 1#32, prp1 := 0x200000#64, cdw10 := 7#32, cdw11 := 0x64#32, cdw12 := 1#32 }) ∧
  decodeStruct .cmdHdr ([0x45#8, 0#8, 2#8, 0#8, 0#8, 0#8, 0#8, 0#8, 0#8, 0x13#8, 0x10#8, 0#8] ++ List.replicate 20 0#8)
    = some (.cmdHdr { write := 1#1, prdtl := 2#16, ctba := 0x101300#64 }) ∧
  decodeStruct .prdt [0#8, 0#8, 0x20#8, 0#8, 0#8, 0#8, 0#8, 0#8, 0#8, 0#8, 0#8, 0#8, 0xFF#8, 1#8, 0#8, 0x80#8]
    = some (.prdtEntry { dba := 0x200000#64, dbc := 511#22, last := 1#1 }) ∧
  decodeStruct .cqe [0#8, 0#8, 0#8, 0#8, 0#8, 0#8, 0#8, 0#8, 0#8, 0#8, 1#8, 0#8, 5#8, 0#8, 5#8, 0#8]
    = some (.cqe
        { cdw0 := 0#32, rsvd := 0#32, sqHead := 0#16, sqId := 1#16, cid := 5#16, phase := 1#1, status := 2#11,
          high := 0#4 })

/-- The dwords the engine emits. 30_encoding.md R116: Command Header DW0. R119: `DW3` of a PRDT entry, and the `I`
bit, set in the last entry of a table and in no other. R122: the `PxCI` value, with exactly one bit set. -/
def Obligations.EmittedDwords : Prop :=
  ((∀ (s : State) (table : Quad),
      (s.cmdHdr table).dw0 = 5#32 ||| (s.x.wr.setWidth 32 <<< 6) ||| (s.x.nprd.setWidth 32 <<< 16)) ∧
    CmdHdr.dw0 { write := 0#1, prdtl := 1#16, ctba := 0#64 } = 0x00010005#32 ∧
    CmdHdr.dw0 { write := 1#1, prdtl := 1#16, ctba := 0#64 } = 0x00010045#32 ∧
    CmdHdr.dw0 { write := 0#1, prdtl := 8#16, ctba := 0#64 } = 0x00080005#32 ∧
    CmdHdr.dw0 { write := 1#1, prdtl := 64#16, ctba := 0#64 } = 0x00400045#32) ∧
  ((∀ (a : Quad) (n : Nat) (last : BitVec 1), 1 ≤ n → n ≤ 4194304 →
      PrdtEntry.dw3 { dba := a, dbc := BitVec.ofNat 22 (n - 1), last := last }
        = BitVec.ofNat 32 (n - 1) ||| (last.setWidth 32 <<< 31)) ∧
    (∀ (buf : Quad) (cnt i : Nat) (e : PrdtEntry), (prdtOf buf cnt)[i]? = some e →
      (e.last = 1#1 ↔ i + 1 = prdtCount cnt)) ∧
    PrdtEntry.dw3 { dba := 0#64, dbc := BitVec.ofNat 22 (8192 - 1), last := 0#1 } = 0x00001FFF#32 ∧
    PrdtEntry.dw3 { dba := 0#64, dbc := BitVec.ofNat 22 (8192 - 1), last := 1#1 } = 0x80001FFF#32 ∧
    PrdtEntry.dw3 { dba := 0#64, dbc := BitVec.ofNat 22 (512 - 1), last := 1#1 } = 0x800001FF#32 ∧
    PrdtEntry.dw3 { dba := 0#64, dbc := BitVec.ofNat 22 (4194304 - 1), last := 1#1 } = 0x803FFFFF#32) ∧
  ((∀ slot : Half, slot.toNat < 32 →
      ciValue slot = BitVec.ofNat 64 (2 ^ slot.toNat) ∧
      ∀ j : Nat, (ciValue slot).getLsbD j = true ↔ j = slot.toNat) ∧
    ciValue 0#16 = 0x00000001#64 ∧ ciValue 5#16 = 0x00000020#64 ∧ ciValue 31#16 = 0x80000000#64)

/-! ## One step, reset, the invariant -/

/-- 30_encoding.md R110: a step whose event is a request runs the decoded operation, at that state, with nothing around
it but that the event is used up; bytes that are no request are refused (R113); with no event the engine is idle and
holds its state (47_system_ops.md R310); and a request placed by `withFetchWord` is the one the next step runs. That one
step runs a whole request is the model's choice (log 1), where 00_scope.md R7 makes each access a step; so are the queue
of events and the place of the fetched word (log 9). -/
def Obligations.StepRunsRequest : Prop :=
  (∀ (s : State) (bs : List Byte) (rest : List HostEvent) (i : Instr),
    s.inputs = .request bs :: rest → decode bs = .ok i → step s = exec i { s with inputs := rest }) ∧
  (∀ (s : State) (bs : List Byte) (rest : List HostEvent) (e : DecodeError),
    s.inputs = .request bs :: rest → decode bs = .error e → step s = .refused (.badRequest e)) ∧
  (∀ s : State, s.inputs = [] → step s = .next s) ∧
  (∀ (s : State) (nbits w : Nat) (i : Instr),
    decodeTableWord nbits w = some i → step (s.withFetchWord nbits w) = exec i s)

/-- 10_state.md R63, 70_reset_and_hazards.md R362: what reset leaves: `pc` Idle, result code 0, no command in flight or
leaked. The rest is how the model says it: every byte of memory reads as a free value (log 5), no device register has a
known content (log 4), no context record exists (log 8), and a record the host then loads is at its reset state
(log 30). -/
def Obligations.ResetState : Prop :=
  State.reset.pc = .idle ∧ State.reset.x.res = 0#8 ∧ State.reset.inflight = none ∧ State.reset.leaked = [] ∧
  (∀ a : Nat, State.reset.mem.byteAt a = Config.freeByte a) ∧ (∀ a : Nat, alGet State.reset.regs a = none) ∧
  State.reset.hba = [] ∧ State.reset.port = [] ∧ State.reset.nvme = [] ∧ State.reset.qp = [] ∧ State.reset.dev = [] ∧
  (∀ (r : Nvme) (n : Nat),
    (alGet (State.reset.withNvme n r).nvme n).map Nvme.nextCid = some 0#16) ∧
  (∀ (r : Qp) (q : Nat),
    alGet (State.reset.withQp q r).qp q
      = some { r with sqTail := 0#16, sqHead := 0#16, cqHead := 0#16, phase := 1#1, started := false })

/-- The state after reset meets the invariant. -/
def Obligations.ResetMeetsInvariant : Prop := Inv State.reset

/-- Every step keeps the invariant: memory, device registers and record banks stay in canonical form; the ring
positions stay in their rings (44_nvme_engine.md R247 (a)); a command is in flight exactly while `pc` is Issued
(10_state.md R60); the sequencer holds a slot inside a command (R22); result codes stay below 10
(60_exceptions.md R321). -/
def Obligations.StepKeepsInvariant : Prop :=
  ∀ s t : State, Inv s → step s = .next t → Inv t

/-- 00_scope.md R10: no step changes a launch parameter. No instruction changes a port or a device record, an event of
the host still to come, or, where the invariant holds, the config fields of a loaded queue-pair or controller record
(10_state.md R30 to R33), `Q_SIZE`, `MDTS_BYTES` and `PAGE_BYTES` among them; `STRIDE` is read anew by NVME.INIT alone,
and `N_SLOTS` and `PI` by AHCI.INIT alone. A host that loads a record again keeps `Q_SIZE`, `STRIDE`, `PAGE_BYTES`, the
command tables once there are any, and `MDTS_BYTES`, `N_SLOTS` and `BLOCK_BYTES` once they are not 0 (the model's
reading: log 30). 10_state.md R25, 30_encoding.md R110, R112: an operation that goes on has loaded its code and its
five operand fields; IDENTIFY sets `CNT` and `LBA` itself (45_block_api.md R268). -/
def Obligations.OperandsAndParameters : Prop :=
  (∀ s t : State, step s = .next t → t.cfg = s.cfg) ∧
  (∀ (i : Instr) (s t : State), exec i s = .next t →
    t.cfg = s.cfg ∧ t.port = s.port ∧ t.dev = s.dev ∧ t.inputs = s.inputs) ∧
  (∀ (i : Instr) (s t : State), Inv s → exec i s = .next t →
    (∀ (q : Nat) (o : Qp), alGet s.qp q = some o → ∃ n, alGet t.qp q = some n ∧ o.sameConfig n) ∧
    (∀ (k : Nat) (o : Nvme), alGet s.nvme k = some o →
      ∃ n, alGet t.nvme k = some n ∧ o.sameConfig n ∧ ((∀ r, i ≠ .nvmeInit r) → n.dstrd = o.dstrd)) ∧
    (∀ (h : Nat) (o : Hba), alGet s.hba h = some o →
      ∃ n, alGet t.hba h = some n ∧ n.base = o.base ∧
        ((∀ r, i ≠ .ahciInit r) → n.nSlots = o.nSlots ∧ n.pi = o.pi))) ∧
  (∀ s t : State, (∀ bs rest, s.inputs ≠ .request bs :: rest) → step s = .next t →
    (∀ (q : Nat) (o : Qp), alGet s.qp q = some o → ∃ n, alGet t.qp q = some n ∧ n.qSize = o.qSize) ∧
    (∀ (k : Nat) (o : Nvme), alGet s.nvme k = some o →
      ∃ n, alGet t.nvme k = some n ∧ n.dstrd = o.dstrd ∧ n.mps = o.mps ∧ (o.mdts ≠ 0 → n.mdts = o.mdts)) ∧
    (∀ (h : Nat) (o : Hba), alGet s.hba h = some o →
      ∃ n, alGet t.hba h = some n ∧ (o.nSlots ≠ 0#6 → n.nSlots = o.nSlots)) ∧
    (∀ (p : Nat) (o : Port), alGet s.port p = some o → ∃ n, alGet t.port p = some n ∧ (o.ct ≠ [] → n.ct = o.ct)) ∧
    (∀ (d : Nat) (o : Dev), alGet s.dev d = some o →
      ∃ n, alGet t.dev d = some n ∧ (o.blockBytes ≠ 0 → n.blockBytes = o.blockBytes))) ∧
  (∀ (i : Instr) (r : Request) (s t : State), i.request? = some r → exec i s = .next t →
    opcInstr t.x.op.toNat r = some i ∧
    t.x.dev = r.dev ∧ t.x.arg = r.arg ∧ t.x.buf = r.buf ∧
    ((∀ r', i ≠ .identify r') → t.x.cnt = r.cnt ∧ t.x.lba = r.lba))

/-- 30_encoding.md R111: the response an operation leaves, and the bytes of a response record. That AHCI.INIT returns
a value is the model's reading (log 23). -/
def Obligations.ResponseCarriesResult : Prop :=
  (∀ (i : Instr) (s t : State), i.isOperation = true → exec i s = .next t →
    t.nrsp = s.nrsp + 1 ∧ t.rsp.res = t.x.res ∧ t.rsp.pc = t.pc.code ∧
    (t.x.res = Err.deviceError.code → t.rsp.raw = t.x.raw) ∧
    (returnsValue i = true → t.x.res = 0#8 → t.rsp.val = t.x.val)) ∧
  (∀ r : Response, (responseBytes r).length = 16 ∧
    field (responseBytes r) 0 4 = r.res.toNat + 256 * r.pc.toNat ∧
    field (responseBytes r) 4 4 = r.raw.toNat ∧ field (responseBytes r) 8 8 = r.val.toNat)

/-- 60_exceptions.md R321 to R329, R340: the errors each operation can end with, and the `pc` each code leaves: a
command that ends with code 0 is Completed, and code 7 leaves Idle from IDENTIFY and `pc` unchanged from a decoder
operation; no operation on an NVMe device is PortHung (R325); and only DeviceError writes `RAW`. -/
def Obligations.ResultCodes : Prop :=
  ∀ (i : Instr) (s t : State), i.isOperation = true → exec i s = .next t →
    (t.x.res = 0#8 ∨ ∃ e ∈ mayReport i, t.x.res = e.code) ∧
    reported t.x.res t.pc ∧
    (isCommand i = true → t.x.res = 0#8 → t.pc = .completed) ∧
    (t.x.res = Err.invalidIdentifyPayload.code →
      ((∃ r, i = .identify r) ∧ t.pc = .idle) ∨ ((∀ r, i ≠ .identify r) ∧ t.pc = s.pc)) ∧
    (t.x.res ≠ Err.deviceError.code → t.x.raw = s.x.raw) ∧
    (∀ (r : Request) (d : Dev), i.request? = some r → namesDevice i = true → alGet s.dev r.dev.toNat = some d →
      (d.kind = .nvme → t.x.res ≠ Err.portHung.code ∧ t.x.res ≠ Err.tooManyDescriptors.code) ∧
      (d.kind = .ahci → t.x.res ≠ Err.transferTooLarge.code))

/-- 10_state.md R21: `pc` changes only as the table says; what NVME.RDYCHK and the bring-up operations leave comes from
their own rules (44_nvme_engine.md R240, 47_system_ops.md R303 to R308), and when a structure row runs is the model's
choice (log 10, 12). -/
def Obligations.PcTransitions : Prop :=
  ∀ (i : Instr) (s t : State), exec i s = .next t → runsIn i s.pc = true ∧ mayLeave i s.pc t.pc = true

/-- 10_state.md R62: only a bring-up operation makes a leaked command forgotten. -/
def Obligations.LeakOutlivesCommands : Prop :=
  ∀ (i : Instr) (s t : State), exec i s = .next t → bringsUp i = false → ∀ e ∈ s.leaked, e ∈ t.leaked

/-- 30_encoding.md R113, R131, 10_state.md R23: a request with an operand its operation does not admit (for misaligned
and wrapping addresses, string bounds and PROBE also 20_memory.md R71, R75, 46_identify_decoder.md R281,
47_system_ops.md R300), or that names no device record, or a device of the wrong kind, or comes in the wrong `pc`, is
refused; and so is an access of another width than its register's (40_mmio_access.md R167; which controller an address
belongs to: log 26). Which operations ask for `ARG[31:13]` to be zero, and that these checks come before everything else,
is the model's reading (log 14, 15). A block operation on a device whose capacity the host has not set runs and ends in
OutOfRange, with nothing accessed: the model's choice (log 8). -/
def Obligations.IllegalRequestsRefused : Prop :=
  ∀ (i : Instr) (r : Request) (s : State), i.request? = some r →
    (∀ d : Defect, i.defect? = some d → exec i s = .refused (.illFormed d)) ∧
    (namesDevice i = true → alGet s.dev r.dev.toNat = none → ∃ q, exec i s = .refused q) ∧
    (∀ (k : Kind) (d : Dev), kindFor i = some k → alGet s.dev r.dev.toNat = some d → d.kind ≠ k →
      ∃ q, exec i s = .refused q) ∧
    (runsIn i s.pc = false → ∃ q, exec i s = .refused q) ∧
    (∀ d : Dev, i = .readBlocks r ∨ i = .writeBlocks r → s.pc.free = true → r.cnt ≠ 0#16 →
      alGet s.dev r.dev.toNat = some d → d.capacity = 0#64 → ∃ t, exec i s = .next t ∧
        t.x.res = Err.outOfRange.code ∧ t.pc = .idle ∧ t.log = s.log ∧ t.regs = s.regs ∧ t.mem = s.mem) ∧
    (∀ w : Width, i.WellFormed → s.pc.free = true → OtherWidth s w (r.buf.toNat + r.arg.toNat) →
      (w = .w32 ∧ (i = .rd32 r ∨ i = .wr32 r)) ∨ (w = .w64 ∧ (i = .rd64 r ∨ i = .wr64 r)) →
      exec i s = .refused .wrongWidth)

/-- 45_block_api.md R269, 60_exceptions.md R342: an operation on a device of one protocol leaves the records of the
other alone; one on an AHCI device leaves every HBA record but its own alone; and one on an NVMe device leaves every
controller but its own alone and every queue pair but the one it works on, where NVME.INIT works on all those of its
controller. -/
def Obligations.OtherChannelsUntouched : Prop :=
  ∀ (i : Instr) (r : Request) (s t : State) (d : Dev), Inv s → i.request? = some r → namesDevice i = true →
    alGet s.dev r.dev.toNat = some d → exec i s = .next t →
    (d.kind = .ahci → t.nvme = s.nvme ∧ t.qp = s.qp ∧
      ∀ (p : Port) (h : Nat), alGet s.port d.ch = some p → h ≠ p.hba → alGet t.hba h = alGet s.hba h) ∧
    (d.kind = .nvme → t.hba = s.hba ∧
      (∀ (q : Nat) (o : Qp), alGet s.qp q = some o → q ≠ d.ch → q ≠ d.admin →
        (∀ a : Qp, alGet s.qp d.admin = some a → o.ctrl ≠ a.ctrl) → alGet t.qp q = some o) ∧
      ((∀ r', i ≠ .nvmeInit r') → ∀ q : Nat, q ≠ queueOf i r d → alGet t.qp q = alGet s.qp q) ∧
      ∀ n : Nat, (∀ a : Qp, alGet s.qp d.ch = some a ∨ alGet s.qp d.admin = some a → n ≠ a.ctrl) →
        alGet t.nvme n = alGet s.nvme n)

/-! ## Register I/O (40_mmio_access.md) -/

/-- R160 to R163: whatever the devices do, RD32 and RD64 make one device step and one read, and `VAL` is the value
read, widened; a register whose content is known answers that content. WR32 writes `LBA[31:0]`, WR64 the whole `LBA`
field, with one device step and one write, and `VAL` is unchanged. A register the model takes to keep what is written
keeps it, and `PxCI`, whatever it held, shows each written bit as 1 besides what it held (10_state.md R49; log 3, 4);
no other register of known content changes. Memory is as the devices left it. -/
def Obligations.MmioAccessesComplete : Prop :=
  ∀ (r : Request) (s : State), s.pc.free = true →
    ((Instr.rd32 r).WellFormed → s.widthOk .w32 (r.buf.toNat + r.arg.toNat) = true →
      exec (.rd32 r) s = .next (respond true
        { (tick s).afterRead .w32 (r.buf.toNat + r.arg.toNat) with
          x := { loaded 0x01#8 r s.x with res := 0#8, val := (tick s).busValue .w32 (r.buf.toNat + r.arg.toNat) } }) ∧
      ∀ v : Quad, alGet (tick s).regs (r.buf.toNat + r.arg.toNat) = some v →
        (tick s).busValue .w32 (r.buf.toNat + r.arg.toNat) = (lo32 v).setWidth 64) ∧
    ((Instr.rd64 r).WellFormed → s.widthOk .w64 (r.buf.toNat + r.arg.toNat) = true →
      exec (.rd64 r) s = .next (respond true
        { (tick s).afterRead .w64 (r.buf.toNat + r.arg.toNat) with
          x := { loaded 0x02#8 r s.x with res := 0#8, val := (tick s).busValue .w64 (r.buf.toNat + r.arg.toNat) } }) ∧
      ∀ v : Quad, alGet (tick s).regs (r.buf.toNat + r.arg.toNat) = some v →
        (tick s).busValue .w64 (r.buf.toNat + r.arg.toNat) = v) ∧
    ((Instr.wr32 r).WellFormed → s.widthOk .w32 (r.buf.toNat + r.arg.toNat) = true →
      exec (.wr32 r) s = .next (respond false
        { (tick s).afterWrite .w32 (r.buf.toNat + r.arg.toNat) ((lo32 r.lba).setWidth 64) with
          x := { loaded 0x03#8 r s.x with res := 0#8 } })) ∧
    ((Instr.wr64 r).WellFormed → s.widthOk .w64 (r.buf.toNat + r.arg.toNat) = true →
      exec (.wr64 r) s = .next (respond false
        { (tick s).afterWrite .w64 (r.buf.toNat + r.arg.toNat) r.lba with
          x := { loaded 0x04#8 r s.x with res := 0#8 } })) ∧
    (∀ (w : Width) (a : Nat) (v : Quad),
      (s.regKind a = .stored → alGet (s.afterWrite w a v).regs a = some (w.trunc v)) ∧
      (s.regKind a = .readOnly → (s.afterWrite w a v).regs = s.regs) ∧
      (s.regKind a = .commandIssue → alGet (s.afterWrite w a v).regs a = some (s.busValue w a ||| w.trunc v)) ∧
      ∀ b : Nat, b ≠ a → alGet (s.afterWrite w a v).regs b = alGet s.regs b)

/-- R164, 20_memory.md R88: PUBLISH runs in every `pc` (log 13: the model's reading) and orders every earlier store;
nothing else changes. -/
def Obligations.PublishCompletes : Prop :=
  ∀ (r : Request) (s : State),
    exec (.publish r) s = .next (respond false
      { s with x := { loaded 0x05#8 r s.x with res := 0#8 }, pend := [], log := .publish :: s.log })

/-! ## Allocators (41_slot_queue_allocator.md) -/

/-- R176: with the two registers known, AHCI.ALLOC claims the lowest slot whose bit is clear in `PxSACT | PxCI`, in
two reads and no write. That it may be the slot of a leaked command whose bit reads 0 is the model's choice (log 36). -/
def Obligations.AhciAllocCompletes : Prop :=
  ∀ (r : Request) (s : State) (c : AhciCtx) (sact ci : Word) (k : Nat),
    s.pc.free = true → (Instr.ahciAlloc r).WellFormed → Quiet s → OnPort s r.dev c → c.block + 0x80 ≤ addrSpace →
    Reads32 s (c.portReg 0x34) sact → Reads32 s (c.portReg 0x38) ci → LowestFree c sact ci k →
    exec (.ahciAlloc r) s = .next (respond true
      { s with
        pc := .slotAllocated
        x := { loadedMicro 0x10#8 r s.x with slot := BitVec.ofNat 16 k, val := BitVec.ofNat 64 k, res := 0#8 }
        claim := some (.port c.p)
        built := none
        log := rd32 (c.portReg 0x38) ci :: rd32 (c.portReg 0x34) sact :: s.log })

/-- R180: on a queue that is not full, NVME.ALLOC takes the tail position and the next command identifier, which then
advances modulo 2^16; nothing is accessed, and the tail stays. The position may be that of a leaked command whose entry
a later `SQ_HEAD` has passed: the model's choice (log 36). -/
def Obligations.NvmeAllocCompletes : Prop :=
  ∀ (r : Request) (s : State) (c : NvmeCtx),
    s.pc.free = true → (Instr.nvmeAlloc r).WellFormed → OnQueue s r.dev (r.arg.getLsbD 11) c →
    ringNext c.qp.qSize c.qp.sqTail ≠ c.qp.sqHead →
    exec (.nvmeAlloc r) s = .next (respond true
      { s with
        pc := .slotAllocated
        x := { loadedMicro 0x11#8 r s.x with
          slot := c.qp.sqTail, cid := c.nv.nextCid, val := c.qp.sqTail.setWidth 64, res := 0#8 }
        nvme := s.cidTaken c
        claim := some (.qp c.q)
        built := none })

/-- R176, R177 (a), R179: whatever the devices do, AHCI.ALLOC ends with NoFreeSlot exactly where the bits of all
`N_SLOTS` slots are set in the two values it read, else with the lowest slot whose bit is clear in both; it writes
neither memory nor a register. NVME.ALLOC ends with NoFreeSlot exactly where `(SQ_TAIL + 1) mod Q_SIZE` is `SQ_HEAD`,
and then takes no identifier. That a leaked command's slot counts as free once its bits read 0, and its position once a
later `SQ_HEAD` has passed it, is the model's choice (log 36). -/
def Obligations.NoFreeSlotExactly : Prop :=
  (∀ (r : Request) (s t : State) (c : AhciCtx), OnPort s r.dev c → exec (.ahciAlloc r) s = .next t →
    ∃ sact ci : Quad,
      t.log = .rd .w32 (c.portReg 0x38) ci :: .rd .w32 (c.portReg 0x34) sact :: s.log ∧
      t.mem = (tick (tick s)).mem ∧ t.regs = (tick (tick s)).regs ∧
      (t.x.res = Err.noFreeSlot.code ↔
        ∀ j, j < min c.hba.nSlots.toNat 32 → (sact ||| ci).getLsbD j = true) ∧
      (t.x.res = 0#8 → t.x.slot.toNat < c.hba.nSlots.toNat ∧
        sact.getLsbD t.x.slot.toNat = false ∧ ci.getLsbD t.x.slot.toNat = false ∧
        ∀ j, j < t.x.slot.toNat → (sact ||| ci).getLsbD j = true)) ∧
  (∀ (r : Request) (s t : State) (c : NvmeCtx), OnQueue s r.dev (r.arg.getLsbD 11) c →
    exec (.nvmeAlloc r) s = .next t →
    (t.x.res = Err.noFreeSlot.code ↔ ringNext c.qp.qSize c.qp.sqTail = c.qp.sqHead) ∧
    (t.x.res = Err.noFreeSlot.code → t.nvme = s.nvme ∧ t.x.slot = s.x.slot ∧ t.x.cid = s.x.cid) ∧
    t.qp = s.qp ∧ t.regs = s.regs ∧ t.mem = s.mem)

/-! ## Builders (42_descriptor_builder.md) -/

/-- R193: the table for `cnt` sectors has `ceil(cnt / 16)` entries; their byte counts add up to `512 * cnt`;
each but the last covers 8192 bytes, the last 512 to 8192; addresses ascend by 8192; and only the last has `I` set. -/
def Obligations.PrdtCoversTransfer : Prop :=
  ∀ (buf : Quad) (cnt : Nat), 1 ≤ cnt → cnt ≤ 65535 →
    (prdtOf buf cnt).length = (cnt + 15) / 16 ∧
    ((prdtOf buf cnt).map fun e => e.dbc.toNat + 1).sum = 512 * cnt ∧
    ∀ (i : Nat) (e : PrdtEntry), (prdtOf buf cnt)[i]? = some e →
      e.dba = buf + BitVec.ofNat 64 (8192 * i) ∧
      (i + 1 < (cnt + 15) / 16 → e.dbc.toNat + 1 = 8192 ∧ e.last = 0#1) ∧
      (i + 1 = (cnt + 15) / 16 → 512 ≤ e.dbc.toNat + 1 ∧ e.dbc.toNat + 1 ≤ 8192 ∧ e.last = 1#1)

/-- R191: PRDT.BUILD, whatever the devices do: one block store of the whole table at `ctba + 0x80`, and the entry
count and byte count in their registers; every other byte of memory is as the devices left it. The slot may be that of a
leaked command whose bits read 0, and its table may lie over the data buffer of a leaked one: the model's choices (log 36,
40). -/
def Obligations.PrdtBuildCompletes : Prop :=
  ∀ (r : Request) (s : State) (c : AhciCtx) (table : Quad),
    s.pc = .slotAllocated → (Instr.prdtBuild r).WellFormed → SlotOn s r.dev c table → PrdtFits s false c r.buf r.cnt →
    exec (.prdtBuild r) s = .next (respond true
      { (tick s).afterStore (table.toNat + 0x80) (prdtBytes (prdtOf r.buf r.cnt.toNat)) with
        x := { prdtRegs (loadedMicro 0x20#8 r s.x) with res := 0#8 }
        built := some (r.buf.toNat, r.cnt.toNat * 512) }) ∧
    sameOutside (tick s) ((tick s).afterStore (table.toNat + 0x80) (prdtBytes (prdtOf r.buf r.cnt.toNat)))
      (table.toNat + 0x80) (16 * prdtCount r.cnt.toNat) ∧
    holds ((tick s).afterStore (table.toNat + 0x80) (prdtBytes (prdtOf r.buf r.cnt.toNat)))
      (table.toNat + 0x80) (prdtBytes (prdtOf r.buf r.cnt.toNat))

/-- R195, R198: FIS.BUILD and HDR.BUILD, whatever the devices do: one block store each, of the 128-byte table head
and of the 32-byte header; every other byte of memory is as the devices left it. The slot may be that of a leaked command
whose bits read 0, and its structures may lie over the data buffer of a leaked one: the model's choices (log 36, 40). -/
def Obligations.FisHdrBuildComplete : Prop :=
  ∀ (r : Request) (s : State) (c : AhciCtx) (table : Quad),
    s.pc = .slotAllocated → SlotOn s r.dev c table → c.hba.nSlots.toNat ≤ 32 → PortArena s c →
    ((Instr.fisBuild r).WellFormed →
      exec (.fisBuild r) s = .next (respond false
        { (tick s).afterStore table.toNat
            (tableHead ((fisOf s.cfg (loadedMicro 0x21#8 r s.x)).bytes (r.arg.extractLsb' 0 8))) with
          x := { loadedMicro 0x21#8 r s.x with res := 0#8 } })) ∧
    ((Instr.hdrBuild r).WellFormed → s.built.isSome = true →
      exec (.hdrBuild r) s = .next (respond false
        { (tick s).afterStore (c.port.clb.toNat + 32 * s.x.slot.toNat)
            (CmdHdr.bytes { write := r.arg.extractLsb' 8 1, prdtl := s.x.nprd, ctba := table }) with
          x := { loadedMicro 0x22#8 r s.x with res := 0#8 } })) ∧
    (∀ (a : Nat) (bs : List Byte), sameOutside (tick s) ((tick s).afterStore a bs) a bs.length ∧
      holds ((tick s).afterStore a bs) a bs) ∧
    (∀ (cmd : Byte) (f : Fis), (tableHead (f.bytes cmd)).length = 128) ∧ ∀ h : CmdHdr, h.bytes.length = 32

/-- R201: AHCI.BUILD: the PRDT, the table head and the header, stored in that order, and `pc` DescriptorsBuilt. The slot
may be that of a leaked command whose bits read 0, and its structures may lie over the data buffer of a leaked one: the
model's choices (log 36, 40). -/
def Obligations.AhciBuildCompletes : Prop :=
  ∀ (r : Request) (s : State) (c : AhciCtx) (table : Quad),
    s.pc = .slotAllocated → (Instr.ahciBuild r).WellFormed → Quiet s → SlotOn s r.dev c table →
    c.hba.nSlots.toNat ≤ 32 → PrdtFits s false c r.buf r.cnt →
    exec (.ahciBuild r) s = .next (respond true
      { ahciBuilt c table (s.acceptedMicro 0x23#8 r) with
        x := { prdtRegs (loadedMicro 0x23#8 r s.x) with res := 0#8 } })

/-- R192: TooManyDescriptors is reported by PRDT.BUILD and AHCI.BUILD exactly when `ceil_div(CNT, 16)` is above
`PRDT_CAP`; then nothing has been stored and `pc` is Idle. -/
def Obligations.TooManyDescriptorsExactly : Prop :=
  ∀ (r : Request) (s t : State),
    ((exec (.prdtBuild r) s = .next t ∨ exec (.ahciBuild r) s = .next t) →
      (t.x.res = Err.tooManyDescriptors.code ↔ s.cfg.prdtCap < (r.cnt.toNat + 15) / 16)) ∧
    (∀ (c : AhciCtx) (table : Quad), s.pc = .slotAllocated → SlotOn s r.dev c table →
      s.cfg.prdtCap < (r.cnt.toNat + 15) / 16 →
      ((Instr.prdtBuild r).WellFormed →
        exec (.prdtBuild r) s = .next (respond false
          { s with pc := .idle, claim := none, x := { loadedMicro 0x20#8 r s.x with res := 2#8 } })) ∧
      ((Instr.ahciBuild r).WellFormed →
        exec (.ahciBuild r) s = .next (respond false
          { s with pc := .idle, claim := none, x := { loadedMicro 0x23#8 r s.x with res := 2#8 } })))

/-- R203, R205: PRP.BUILD records the length and stores nothing, for a buffer of any alignment; SQE.BUILD, whatever the
devices do, stores the 64-byte entry at the allocated position, and every other byte of memory is as the devices left
it. The position may be that of a leaked command whose entry a later `SQ_HEAD` has passed, and the ring may lie over the
data buffer of a leaked command: the model's choices (log 36, 40). A `BLOCK_BYTES` that is not set counts as 0: the
model's choice (log 42). -/
def Obligations.PrpSqeBuildComplete : Prop :=
  ∀ (r : Request) (s : State) (c : NvmeCtx),
    s.pc = .slotAllocated → EntryOn s r.dev (r.arg.getLsbD 11) c →
    ((Instr.prpBuild r).WellFormed →
      BufferFits s false r.buf.toNat (transferLength (r.arg.getLsbD 10) r.cnt c.dev) →
      transferLength (r.arg.getLsbD 10) r.cnt c.dev ≤ c.nv.mdts →
      r.buf.toNat % c.nv.pageBytes + transferLength (r.arg.getLsbD 10) r.cnt c.dev ≤ c.nv.pageBytes →
      exec (.prpBuild r) s = .next (respond false
        { s with
          x := { loadedMicro 0x24#8 r s.x with
            bytes := BitVec.ofNat 32 (transferLength (r.arg.getLsbD 10) r.cnt c.dev), res := 0#8 }
          built := some (r.buf.toNat, transferLength (r.arg.getLsbD 10) r.cnt c.dev) })) ∧
    ((Instr.sqeBuild r).WellFormed → RingArena s c → r.buf.toNat % 4 = 0 →
      BufferFits s false r.buf.toNat (transferLength (r.arg.getLsbD 10) r.cnt c.dev) →
      exec (.sqeBuild r) s = .next (respond false
        { (tick s).afterStore (c.qp.sqBase.toNat + 64 * s.x.slot.toNat)
            ((entryOf s.cfg c.dev (loadedMicro 0x25#8 r s.x)).bytes (r.arg.extractLsb' 0 8)) with
          x := { loadedMicro 0x25#8 r s.x with res := 0#8 } })) ∧
    (∀ (a : Nat) (bs : List Byte), sameOutside (tick s) ((tick s).afterStore a bs) a bs.length ∧
      holds ((tick s).afterStore a bs) a bs) ∧
    ∀ (opc : Byte) (e : Sqe), (e.bytes opc).length = 64

/-- 42_descriptor_builder.md R195, 30_encoding.md R120, R121: the 128 bytes of the table head, one by one: the FIS of
20 bytes and 108 bytes of zero. R205, 30_encoding.md R123, R124: the sixteen dwords of a submission entry of a block
command, in both layouts, and of a raw command. -/
def Obligations.EmittedStructures : Prop :=
  (∀ (p : Params) (x : Regs),
    tableHead ((fisOf p x).bytes x.cmdb) =
      [0x27#8, p.fisFlags, x.cmdb, 0#8,
        x.lba.extractLsb' 0 8, x.lba.extractLsb' 8 8, x.lba.extractLsb' 16 8,
        (if x.flg.getLsbD 0 then 0x00#8 else 0x40#8),
        x.lba.extractLsb' 24 8, x.lba.extractLsb' 32 8, x.lba.extractLsb' 40 8, 0#8,
        x.cnt.extractLsb' 0 8, x.cnt.extractLsb' 8 8, 0#8, 0#8, 0#8, 0#8, 0#8, 0#8] ++ List.replicate 108 0#8) ∧
  (∀ (p : Params) (d : Dev) (x : Regs) (opc : Byte),
    (∀ i, i < 16 → i ∉ [0, 1, 6, 7, 10, 11, 12] → field ((entryOf p d x).bytes opc) (4 * i) 4 = 0) ∧
    field ((entryOf p d x).bytes opc) 0 4 = opc.toNat + 65536 * x.cid.toNat ∧
    field ((entryOf p d x).bytes opc) 24 8 = x.buf.toNat ∧
    (x.flg.getLsbD 1 = false →
      field ((entryOf p d x).bytes opc) 4 4 = d.nsid.toNat ∧
      (1 ≤ x.cnt.toNat → p.nvmeRwLayout = .docLayout →
        field ((entryOf p d x).bytes opc) 40 4 = x.cnt.toNat - 1 ∧
        field ((entryOf p d x).bytes opc) 44 8 = x.lba.toNat) ∧
      (1 ≤ x.cnt.toNat → p.nvmeRwLayout = .stdLayout →
        field ((entryOf p d x).bytes opc) 40 8 = x.lba.toNat ∧
        field ((entryOf p d x).bytes opc) 48 4 = x.cnt.toNat - 1)) ∧
    (x.flg.getLsbD 1 = true →
      field ((entryOf p d x).bytes opc) 4 4 = (if x.flg.getLsbD 3 then d.nsid.toNat else 0) ∧
      field ((entryOf p d x).bytes opc) 40 8 = x.lba.toNat ∧
      field ((entryOf p d x).bytes opc) 48 4 = 0))

/-- R207: NVME.BUILD: the length, then the entry, and `pc` DescriptorsBuilt; the tail does not move. The position may
be that of a leaked command whose entry a later `SQ_HEAD` has passed, and the ring may lie over the data buffer of a
leaked command: the model's choices (log 36, 40). A `BLOCK_BYTES` that is not set counts as 0: the model's choice (log
42). -/
def Obligations.NvmeBuildCompletes : Prop :=
  ∀ (r : Request) (s : State) (c : NvmeCtx),
    s.pc = .slotAllocated → (Instr.nvmeBuild r).WellFormed → EntryOn s r.dev (r.arg.getLsbD 11) c →
    PrpFits s false c r.buf (transferLength (r.arg.getLsbD 10) r.cnt c.dev) →
    exec (.nvmeBuild r) s = .next (respond false
      { (tick s).afterStore (c.qp.sqBase.toNat + 64 * s.x.slot.toNat)
          ((entryOf s.cfg c.dev (loadedMicro 0x26#8 r s.x)).bytes (r.arg.extractLsb' 0 8)) with
        pc := .descriptorsBuilt
        x := { loadedMicro 0x26#8 r s.x with
          bytes := BitVec.ofNat 32 (transferLength (r.arg.getLsbD 10) r.cnt c.dev), res := 0#8 }
        built := some (r.buf.toNat, transferLength (r.arg.getLsbD 10) r.cnt c.dev) })

/-- R203: TransferTooLarge is reported by PRP.BUILD and NVME.BUILD exactly when the length is above `MDTS_BYTES` or the
range does not lie within one page; then that answer is given, nothing has been stored and `pc` is Idle. A
`BLOCK_BYTES` or an `MDTS_BYTES` that is not set counts as 0: the model's choice (log 42). -/
def Obligations.TransferTooLargeExactly : Prop :=
  ∀ (r : Request) (s : State) (c : NvmeCtx), EntryOn s r.dev (r.arg.getLsbD 11) c →
    (∀ t : State, exec (.prpBuild r) s = .next t ∨ exec (.nvmeBuild r) s = .next t →
      (t.x.res = Err.transferTooLarge.code ↔
        c.nv.mdts < transferLength (r.arg.getLsbD 10) r.cnt c.dev ∨
        c.nv.pageBytes < r.buf.toNat % c.nv.pageBytes + transferLength (r.arg.getLsbD 10) r.cnt c.dev)) ∧
    (s.pc = .slotAllocated →
      c.nv.mdts < transferLength (r.arg.getLsbD 10) r.cnt c.dev ∨
        c.nv.pageBytes < r.buf.toNat % c.nv.pageBytes + transferLength (r.arg.getLsbD 10) r.cnt c.dev →
      ((Instr.prpBuild r).WellFormed →
        exec (.prpBuild r) s = .next (respond false
          { s with pc := .idle, claim := none, x := { loadedMicro 0x24#8 r s.x with res := 3#8 } })) ∧
      ((Instr.nvmeBuild r).WellFormed →
        exec (.nvmeBuild r) s = .next (respond false
          { s with pc := .idle, claim := none, x := { loadedMicro 0x26#8 r s.x with res := 3#8 } })))

/-! ## AHCI port engine (43_ahci_engine.md) -/

/-- R216, R217: AHCI.ISSUE on a port that is busy for `k` looks and then not: `k + 1` reads of the busy register, one
`Publish()`, and one write of `PxCI` with the slot's bit alone; the command is in flight. The slot may be that of a leaked
command whose bits read 0: the model's choice (log 36). -/
def Obligations.AhciIssueCompletes : Prop :=
  ∀ (r : Request) (s : State) (c : AhciCtx) (table : Quad) (b : Nat × Nat) (k : Nat) (busy idle : Word),
    s.pc = .descriptorsBuilt → (Instr.ahciIssue r).WellFormed → SlotOn s r.dev c table → PortWindow s c →
    s.built = some b → k < s.cfg.busyBudget.toNat →
    Reads32 s (c.portReg s.cfg.ahciBusyOff) busy → (0 < k → busy &&& s.cfg.ahciBusyMask ≠ 0#32) →
    idle &&& s.cfg.ahciBusyMask = 0#32 →
    s.script = List.replicate k ({} : DevAct) ++ [{ regs := [(c.portReg s.cfg.ahciBusyOff, some (idle.setWidth 64))] }] →
    exec (.ahciIssue r) s = .next (respond false
      { ({ s with regs := alSet s.regs (c.portReg s.cfg.ahciBusyOff) (idle.setWidth 64) } : State).wrote
          (c.portReg 0x38) (1#32 <<< s.x.slot.toNat) with
        pc := .issued
        x := { loadedMicro 0x30#8 r s.x with iter := BitVec.ofNat 32 k, res := 0#8 }
        inflight := some { chan := .port c.p, slot := s.x.slot, cid := 0#16, dataAt := b.1, dataLen := b.2 }
        pend := unordered (some b) s.pend
        script := []
        log := wr32 (c.portReg 0x38) (1#32 <<< s.x.slot.toNat) :: .publish ::
          rd32 (c.portReg s.cfg.ahciBusyOff) idle ::
          repeated k [rd32 (c.portReg s.cfg.ahciBusyOff) busy] ++ s.log })

/-- R216, R218, 60_exceptions.md R346: a port that stays busy is PortHung after exactly `BUSY_BUDGET` reads, and
`PxCI` is not written; a command that neither completes nor fails is a CommandTimeout after exactly `POLL_BUDGET`
looks, and its entry is leaked. -/
def Obligations.AhciBudgets : Prop :=
  ∀ (r : Request) (s : State) (c : AhciCtx) (table : Quad), Quiet s → SlotOn s r.dev c table → PortWindow s c →
    (∀ busy : Word, s.pc = .descriptorsBuilt → (Instr.ahciIssue r).WellFormed →
      Reads32 s (c.portReg s.cfg.ahciBusyOff) busy → busy &&& s.cfg.ahciBusyMask ≠ 0#32 →
      exec (.ahciIssue r) s = .next (respond false
        { s with
          pc := .idle
          x := { loadedMicro 0x30#8 r s.x with iter := s.cfg.busyBudget, res := 4#8 }
          claim := none
          log := repeated s.cfg.busyBudget.toNat [rd32 (c.portReg s.cfg.ahciBusyOff) busy] ++ s.log })) ∧
    (∀ ci err : Word, s.pc = .issued → (Instr.ahciPoll r).WellFormed →
      Reads32 s (c.portReg 0x38) ci → Reads32 s (c.portReg s.cfg.ahciErrOff) err →
      ci.getLsbD s.x.slot.toNat = true → err &&& s.cfg.ahciErrMask = 0#32 →
      exec (.ahciPoll r) s = .next (respond false
        { s with
          pc := .timedOut
          x := { loadedMicro 0x31#8 r s.x with iter := s.cfg.pollBudget, res := 5#8 }
          inflight := none
          leaked := s.leaked ++ s.inflight.toList
          log := repeated s.cfg.pollBudget.toNat [rd32 (c.portReg s.cfg.ahciErrOff) err, rd32 (c.portReg 0x38) ci]
            ++ s.log }))

/-- R218: AHCI.POLL on a command whose bit of `PxCI` clears after `k` looks: `k + 1` pairs of reads, the entry
forgotten, `pc` Completed, and nothing written. -/
def Obligations.AhciPollCompletes : Prop :=
  ∀ (r : Request) (s : State) (c : AhciCtx) (table : Quad) (k : Nat) (ci done err : Word),
    s.pc = .issued → (Instr.ahciPoll r).WellFormed → SlotOn s r.dev c table → PortWindow s c →
    s.x.slot.toNat < 32 → k < s.cfg.pollBudget.toNat →
    Reads32 s (c.portReg 0x38) ci → (0 < k → ci.getLsbD s.x.slot.toNat = true) →
    done.getLsbD s.x.slot.toNat = false →
    Reads32 s (c.portReg s.cfg.ahciErrOff) err → err &&& s.cfg.ahciErrMask = 0#32 →
    s.script = List.replicate (2 * k) ({} : DevAct) ++ [{ regs := [(c.portReg 0x38, some (done.setWidth 64))] }] →
    exec (.ahciPoll r) s = .next (respond false
      { s with
        pc := .completed
        x := { loadedMicro 0x31#8 r s.x with iter := BitVec.ofNat 32 k, res := 0#8 }
        claim := none
        inflight := none
        regs := alSet s.regs (c.portReg 0x38) (done.setWidth 64)
        script := []
        log := rd32 (c.portReg s.cfg.ahciErrOff) err :: rd32 (c.portReg 0x38) done ::
          repeated k [rd32 (c.portReg s.cfg.ahciErrOff) err, rd32 (c.portReg 0x38) ci] ++ s.log })

/-- R219: a look that sees the error bit ends in DeviceError with the whole error register as the raw status, whether
or not it also sees the slot's bit clear. -/
def Obligations.AhciPollDeviceError : Prop :=
  ∀ (r : Request) (s : State) (c : AhciCtx) (table : Quad) (ci err : Word),
    s.pc = .issued → (Instr.ahciPoll r).WellFormed → Quiet s → SlotOn s r.dev c table → PortWindow s c →
    s.cfg.pollBudget ≠ 0#32 → Reads32 s (c.portReg 0x38) ci → Reads32 s (c.portReg s.cfg.ahciErrOff) err →
    err &&& s.cfg.ahciErrMask ≠ 0#32 →
    exec (.ahciPoll r) s = .next (respond false
      { s with
        pc := .deviceError
        x := { loadedMicro 0x31#8 r s.x with iter := 0#32, raw := err, res := 6#8 }
        claim := none
        inflight := none
        log := rd32 (c.portReg s.cfg.ahciErrOff) err :: rd32 (c.portReg 0x38) ci :: s.log })

/-- R221: AHCI.CMD on an idle port whose device transfers `data` and clears the slot's bit before the first look: the
whole command, with every access in its order. What `VAL` holds after it is the model's reading (log 31); that the slot may
be that of a leaked command whose bits read 0, and its structures may lie over the data buffer of a leaked one, are its
choices (log 36, 40). -/
def Obligations.AhciCmdCompletes : Prop :=
  ∀ (r : Request) (s : State) (c : AhciCtx) (k : Nat) (table : Quad) (v : PortView) (data : List Host.Cell)
    (ciEnd : Word),
    s.pc.free = true → (Instr.ahciCmd r).WellFormed → AhciReady s false r.dev r.cnt r.buf c k table v →
    s.script = ahciScript c data ciEnd → ciEnd.getLsbD k = false →
    exec (.ahciCmd r) s = .next (respond false
      { ahciDone c k table v data ciEnd (s.acceptedMicro 0x32#8 r) with
        x := { (ahciDone c k table v data ciEnd (s.acceptedMicro 0x32#8 r)).x with res := 0#8 } })

/-! ## NVMe queue-pair engine (44_nvme_engine.md) -/

/-- R240: NVME.RDYCHK makes one read of `CSTS`: bit 0 decides between success and ControllerNotReady, the fatal bit
does not; `pc` is Idle either way. -/
def Obligations.ReadyCheckBothWays : Prop :=
  ∀ (r : Request) (s : State) (c : NvmeCtx) (csts : Word),
    s.pc.free = true → (Instr.nvmeRdychk r).WellFormed → Quiet s → OnQueue s r.dev (r.arg.getLsbD 11) c →
    c.reg 0x1C + 4 ≤ addrSpace → Reads32 s (c.reg 0x1C) csts →
    exec (.nvmeRdychk r) s = .next (respond false
      { s with
        pc := .idle
        x := { loadedMicro 0x40#8 r s.x with res := if csts.getLsbD 0 then 0#8 else 9#8 }
        claim := none
        log := rd32 (c.reg 0x1C) csts :: s.log })

/-- R242, R243: NVME.ISSUE, whatever the devices do: `Publish()`, the tail advances modulo `Q_SIZE`, and its doorbell
is written with the new tail; the command is in flight. The queue pair then counts as shared with the device (log 16).
The position may be that of a leaked command whose entry a later `SQ_HEAD` has passed: the model's choice (log 36). -/
def Obligations.NvmeIssueCompletes : Prop :=
  ∀ (r : Request) (s : State) (c : NvmeCtx) (b : Nat × Nat),
    s.pc = .descriptorsBuilt → (Instr.nvmeIssue r).WellFormed → EntryOn s r.dev (r.arg.getLsbD 11) c →
    s.x.slot = c.qp.sqTail → s.built = some b → c.sqDoorbell + 4 ≤ addrSpace →
    exec (.nvmeIssue r) s = .next (respond false
      { (tick s).wrote c.sqDoorbell ((ringNext c.qp.qSize c.qp.sqTail).setWidth 32) with
        pc := .issued
        x := { loadedMicro 0x41#8 r s.x with res := 0#8 }
        qp := alSet s.qp c.q c.qp.advanced
        inflight := some { chan := .qp c.q, slot := s.x.slot, cid := s.x.cid, dataAt := b.1, dataLen := b.2 }
        pend := unordered (some b) s.pend
        log := wr32 c.sqDoorbell ((ringNext c.qp.qSize c.qp.sqTail).setWidth 32) :: .publish :: s.log })

/-- R244: NVME.POLL on a command whose entry the controller writes after `k` looks: `k + 1` loads of dword 3, one of
dword 2, the ring update, the head doorbell with the new head, and success where the status field is zero. Where
`NVME_CHECK_CFS` is set, each of the `k` looks also reads `CSTS`, whose fatal bit is clear (R246). -/
def Obligations.NvmePollCompletes : Prop :=
  ∀ (r : Request) (s : State) (c : NvmeCtx) (k : Nat) (old csts : Word) (e : Cqe),
    s.pc = .issued → (Instr.nvmePoll r).WellFormed → EntryOn s r.dev (r.arg.getLsbD 11) c →
    c.cqDoorbell + 4 ≤ addrSpace → c.head + 16 ≤ s.cfg.memEnd →
    (0 < k → s.cfg.nvmeCheckCfs = true →
      c.reg 0x1C + 4 ≤ addrSpace ∧ Reads32 s (c.reg 0x1C) csts ∧ csts.getLsbD 1 = false) →
    k < s.cfg.pollBudget.toNat → (0 < k → holds s (c.head + 12) (leBytes 4 old.toNat)) →
    (0 < k → old.extractLsb' 16 1 ≠ c.qp.phase ∨ old.extractLsb' 0 16 ≠ s.x.cid) →
    Answers e c.qp s.x.cid → e.status = 0#11 →
    s.script = List.replicate (missSteps s.cfg * k) ({} : DevAct) ++ [{ mem := cells c.head e.bytes }] →
    exec (.nvmePoll r) s = .next (respond false
      { s.wrote c.cqDoorbell ((ringNext c.qp.qSize c.qp.cqHead).setWidth 32) with
        pc := .completed
        x := { loadedMicro 0x42#8 r s.x with iter := BitVec.ofNat 32 k, res := 0#8 }
        qp := alSet s.qp c.q (c.qp.after e)
        claim := none
        inflight := none
        mem := (cells c.head e.bytes).foldl (dmaByte s.cfg.memEnd) s.mem
        script := []
        log := wr32 c.cqDoorbell ((ringNext c.qp.qSize c.qp.cqHead).setWidth 32) :: .load (c.head + 8) 4 ::
          .load (c.head + 12) 4 :: repeated k (missTrace s.cfg c csts) ++ s.log })

/-- R244, R246: a matching entry with a nonzero status field is consumed, and then reported as DeviceError with the
status halfword as the raw status; and where `NVME_CHECK_CFS` is set, a look that finds no entry and sees the fatal
bit is a DeviceError with the whole of `CSTS`, and the entry is leaked. That the raw status is the whole halfword,
phase bit included, is the model's reading (log 22). -/
def Obligations.NvmePollDeviceErrors : Prop :=
  ∀ (r : Request) (s : State) (c : NvmeCtx),
    s.pc = .issued → (Instr.nvmePoll r).WellFormed → Quiet s → EntryOn s r.dev (r.arg.getLsbD 11) c →
    s.cfg.pollBudget ≠ 0#32 → c.head + 16 ≤ s.cfg.memEnd →
    (∀ e : Cqe, c.cqDoorbell + 4 ≤ addrSpace → holds s c.head e.bytes → Answers e c.qp s.x.cid → e.status ≠ 0#11 →
      exec (.nvmePoll r) s = .next (respond false
        { s.wrote c.cqDoorbell ((ringNext c.qp.qSize c.qp.cqHead).setWidth 32) with
          pc := .deviceError
          x := { loadedMicro 0x42#8 r s.x with iter := 0#32, raw := e.dw3 >>> 16, res := 6#8 }
          qp := alSet s.qp c.q (c.qp.after e)
          claim := none
          inflight := none
          log := wr32 c.cqDoorbell ((ringNext c.qp.qSize c.qp.cqHead).setWidth 32) :: .load (c.head + 8) 4 ::
            .load (c.head + 12) 4 :: s.log })) ∧
    (∀ old csts : Word, holds s (c.head + 12) (leBytes 4 old.toNat) →
      (old.extractLsb' 16 1 ≠ c.qp.phase ∨ old.extractLsb' 0 16 ≠ s.x.cid) →
      s.cfg.nvmeCheckCfs = true → c.reg 0x1C + 4 ≤ addrSpace → Reads32 s (c.reg 0x1C) csts →
      csts.getLsbD 1 = true →
      exec (.nvmePoll r) s = .next (respond false
        { s with
          pc := .deviceError
          x := { loadedMicro 0x42#8 r s.x with iter := 0#32, raw := csts, res := 6#8 }
          claim := none
          inflight := none
          leaked := s.leaked ++ s.inflight.toList
          log := rd32 (c.reg 0x1C) csts :: .load (c.head + 12) 4 :: s.log }))

/-- R245: whatever else the devices do meanwhile, an entry at the head that is not the command's own (an old phase, or
another identifier) at any look is never consumed: the head does not move, no doorbell is rung, and after exactly
`POLL_BUDGET` looks the command is a CommandTimeout. Where `NVME_CHECK_CFS` is set, each look also reads `CSTS`, whose
fatal bit is clear (R246). -/
def Obligations.NvmePollForeignEntry : Prop :=
  ∀ (r : Request) (s : State) (c : NvmeCtx) (d3 csts : Nat → Word),
    s.pc = .issued → (Instr.nvmePoll r).WellFormed → EntryOn s r.dev (r.arg.getLsbD 11) c →
    c.head + 16 ≤ s.cfg.memEnd →
    (∀ k, k < s.cfg.pollBudget.toNat →
      (d3 k).extractLsb' 16 1 ≠ c.qp.phase ∨ (d3 k).extractLsb' 0 16 ≠ s.x.cid) →
    (s.cfg.nvmeCheckCfs = false →
      (∀ k, k < s.cfg.pollBudget.toNat → holds (ticks (k + 1) s) (c.head + 12) (leBytes 4 (d3 k).toNat)) →
      exec (.nvmePoll r) s = .next (respond false
        { ticks s.cfg.pollBudget.toNat s with
          pc := .timedOut
          x := { loadedMicro 0x42#8 r s.x with iter := s.cfg.pollBudget, res := 5#8 }
          inflight := none
          leaked := s.leaked ++ s.inflight.toList
          log := repeated s.cfg.pollBudget.toNat [.load (c.head + 12) 4] ++ s.log })) ∧
    (s.cfg.nvmeCheckCfs = true → c.reg 0x1C + 4 ≤ addrSpace →
      (∀ k, k < s.cfg.pollBudget.toNat →
        holds (ticks (2 * k + 1) s) (c.head + 12) (leBytes 4 (d3 k).toNat) ∧
        Reads32 (ticks (2 * k + 2) s) (c.reg 0x1C) (csts k) ∧ (csts k).getLsbD 1 = false) →
      exec (.nvmePoll r) s = .next (respond false
        { ticks (2 * s.cfg.pollBudget.toNat) s with
          pc := .timedOut
          x := { loadedMicro 0x42#8 r s.x with iter := s.cfg.pollBudget, res := 5#8 }
          inflight := none
          leaked := s.leaked ++ s.inflight.toList
          log := ((List.range s.cfg.pollBudget.toNat).reverse.flatMap fun k =>
              [rd32 (c.reg 0x1C) (csts k), .load (c.head + 12) 4]) ++ s.log }))

/-- R248: NVME.CMD on a ready controller that transfers `data` and writes the command's completion entry before the
first look: the whole command, with every access in its order. What `VAL` holds after it is the model's reading (log
31); that the position may be that of a leaked command whose entry a later `SQ_HEAD` has passed, and the ring may lie over
the data buffer of a leaked command, are its choices (log 36, 40). A `BLOCK_BYTES` that is not set counts as 0: the model's choice (log 42). -/
def Obligations.NvmeCmdCompletes : Prop :=
  ∀ (r : Request) (s : State) (c : NvmeCtx) (csts : Word) (data : List Host.Cell) (e : Cqe),
    s.pc.free = true → (Instr.nvmeCmd r).WellFormed →
    NvmeReady s false r.dev (r.arg.getLsbD 11) r.buf (transferLength (r.arg.getLsbD 10) r.cnt c.dev) c csts →
    s.script = nvmeScript c data e → Answers e c.qp c.nv.nextCid → e.status = 0#11 →
    exec (.nvmeCmd r) s = .next (respond false
      (let t := nvmeDone c (transferLength (r.arg.getLsbD 10) r.cnt c.dev) csts data e (s.acceptedMicro 0x43#8 r)
       { t with x := { t.x with res := 0#8 } }))

/-! ## Block interface (45_block_api.md) -/

/-- R266, R267: READ_BLOCKS and WRITE_BLOCKS on an AHCI device, in range: one whole command, with the ATA command and
the direction the rule sets. What `VAL` holds after it is the model's reading (log 31); that the slot may be that of a
leaked command whose bits read 0, and its structures may lie over the data buffer of a leaked one, are its choices (log
36, 40). -/
def Obligations.BlocksOnAhci : Prop :=
  ∀ (r : Request) (s : State) (c : AhciCtx) (d : Dev) (k : Nat) (table : Quad)
    (v : PortView) (data : List Host.Cell) (ciEnd : Word),
    s.pc.free = true → r.cnt ≠ 0#16 → r.lba.toNat < 281474976710656 →
    alGet s.dev r.dev.toNat = some d → r.lba.toNat + r.cnt.toNat ≤ d.capacity.toNat →
    AhciReady s false r.dev r.cnt r.buf c k table v → s.script = ahciScript c data ciEnd → ciEnd.getLsbD k = false →
    exec (.readBlocks r) s = .next (respond false
      (let t := ahciDone c k table v data ciEnd
        { s with x := { loaded 0x50#8 r s.x with wr := 0#1, flg := 0#4, cmdb := s.cfg.ataCmdRead } }
       { t with x := { t.x with res := 0#8 } })) ∧
    exec (.writeBlocks r) s = .next (respond false
      (let t := ahciDone c k table v data ciEnd
        { s with x := { loaded 0x51#8 r s.x with wr := 1#1, flg := 0#4, cmdb := s.cfg.ataCmdWrite } }
       { t with x := { t.x with res := 0#8 } }))

/-- R266, R267: READ_BLOCKS and WRITE_BLOCKS on an NVMe device, in range: one whole command on its I/O queue pair. What
`VAL` holds after it is the model's reading (log 31); that the position may be that of a leaked command whose entry a
later `SQ_HEAD` has passed, and the ring may lie over the data buffer of a leaked command, are its choices (log 36, 40).
A `BLOCK_BYTES` that is not set counts as 0: the model's choice (log 42). -/
def Obligations.BlocksOnNvme : Prop :=
  ∀ (r : Request) (s : State) (c : NvmeCtx) (csts : Word) (data : List Host.Cell) (e : Cqe),
    s.pc.free = true → r.cnt ≠ 0#16 → r.lba.toNat + r.cnt.toNat ≤ c.dev.capacity.toNat →
    NvmeReady s false r.dev false r.buf (r.cnt.toNat * c.dev.blockBytes) c csts →
    s.script = nvmeScript c data e → Answers e c.qp c.nv.nextCid → e.status = 0#11 →
    exec (.readBlocks r) s = .next (respond false
      (let t := nvmeDone c (r.cnt.toNat * c.dev.blockBytes) csts data e
        { s with x := { loaded 0x50#8 r s.x with wr := 0#1, flg := 0#4, cmdb := s.cfg.nvmeOpcRead } }
       { t with x := { t.x with res := 0#8 } })) ∧
    exec (.writeBlocks r) s = .next (respond false
      (let t := nvmeDone c (r.cnt.toNat * c.dev.blockBytes) csts data e
        { s with x := { loaded 0x51#8 r s.x with wr := 1#1, flg := 0#4, cmdb := s.cfg.nvmeOpcWrite } }
       { t with x := { t.x with res := 0#8 } }))

/-- R268: IDENTIFY of an AHCI device whose device transfers the payload into the identify buffer: one command of one
sector with no LBA, then the decoded record at the address in the `LBA` field. What `VAL` holds after it, and the order
of the decoder's accesses to single bytes, is the model's reading (log 31, 28); that the record may be stored into a part
of the arena that no device owns, that it holds the low 4 bytes of an overflowing sector size, that the slot may be that
of a leaked command whose bits read 0, and that its structures may lie over the data buffer of a leaked one, are the
model's choices (log 16, 38, 36, 40), as is that the record is stored byte by byte (log 28). -/
def Obligations.IdentifyOnAhci : Prop :=
  ∀ (r : Request) (s : State) (c : AhciCtx) (k : Nat) (table : Quad) (v : PortView) (payload : List Byte)
    (ciEnd : Word),
    s.pc.free = true → r.buf ≠ 0#64 → AhciReady s true r.dev 1#16 r.buf c k table v → payload.length = 512 →
    s.script = ahciScript c (cells r.buf.toNat payload) ciEnd → ciEnd.getLsbD k = false →
    r.lba.toNat + 96 ≤ s.cfg.memEnd → disjoint (r.buf.toNat, 512) (r.lba.toNat, 96) = true →
    s.outputApart r.lba.toNat 96 = true →
    exec (.identify r) s = .next (respond false
      (let t := decoded payload r.buf.toNat r.lba.toNat
        (ahciDone c k table v (cells r.buf.toNat payload) ciEnd
          { s with x := { loaded 0x52#8 r s.x with
              wr := 0#1, flg := 1#4, cmdb := s.cfg.ataCmdIdentify, cnt := 1#16, lba := 0#64 } })
       { t with x := { t.x with res := 0#8 } }))

/-- R268: IDENTIFY of an NVMe device: one raw admin command with `cdw10 = CNS`, `NSID` sent for `CNS` 0 alone; the
payload stays undecoded. What `VAL` holds after it is the model's reading (log 31), and that `ARG[31:8]` may hold
anything is its choice (log 14), as is that the position may be that of a leaked command whose entry a later `SQ_HEAD`
has passed, and that the ring may lie over the data buffer of a leaked command (log 36, 40). -/
def Obligations.IdentifyOnNvme : Prop :=
  ∀ (r : Request) (s : State) (c : NvmeCtx) (csts : Word) (data : List Host.Cell) (e : Cqe),
    s.pc.free = true → r.buf ≠ 0#64 → r.buf.toNat % c.nv.pageBytes = 0 →
    NvmeReady s true r.dev true r.buf s.cfg.nvmeIdBytes.toNat c csts →
    s.script = nvmeScript c data e → Answers e c.qp c.nv.nextCid → e.status = 0#11 →
    exec (.identify r) s = .next (respond false
      (let t := nvmeDone c s.cfg.nvmeIdBytes.toNat csts data e
        { s with x := { loaded 0x52#8 r s.x with
            wr := 0#1, flg := if r.arg.extractLsb' 0 8 = 0#8 then 0b1110#4 else 0b0110#4
            cmdb := s.cfg.nvmeOpcIdentify, cnt := s.cfg.nvmeIdBytes
            lba := (r.arg.extractLsb' 0 8).setWidth 64 } }
       { t with x := { t.x with res := 0#8 } }))

/-- R265: READ_BLOCKS and WRITE_BLOCKS report OutOfRange exactly when `LBA + CNT`, without wrap, is above the
capacity; and then no register and no memory has been accessed. -/
def Obligations.OutOfRangeExactly : Prop :=
  ∀ (r : Request) (s : State) (d : Dev), alGet s.dev r.dev.toNat = some d →
    (∀ t : State, exec (.readBlocks r) s = .next t ∨ exec (.writeBlocks r) s = .next t →
      (t.x.res = Err.outOfRange.code ↔ d.capacity.toNat < r.lba.toNat + r.cnt.toNat)) ∧
    (s.pc.free = true → r.cnt ≠ 0#16 → d.capacity.toNat < r.lba.toNat + r.cnt.toNat →
      exec (.readBlocks r) s = .next (respond false
        { s with pc := .idle, claim := none, x := { loaded 0x50#8 r s.x with res := 8#8 } }) ∧
      exec (.writeBlocks r) s = .next (respond false
        { s with pc := .idle, claim := none, x := { loaded 0x51#8 r s.x with res := 8#8 } }))

/-! ## Identify decoder (46_identify_decoder.md) -/

/-- R281: ID.STR of a field of 1 to 20 words: the un-swapped, right-trimmed string filled up with 0x00 at the output
address, and its length in `VAL`; each byte is loaded and stored by an access of its own. It runs in every `pc`: the
model's reading (log 13). That `ARG[31:16]` may hold anything, and that the output may lie in a part of the arena that no
device owns, and may overlap the payload, and that the payload may lie in memory that a device still owns, are the model's
choices (log 14, 16). -/
def Obligations.IdStrCompletes : Prop :=
  ∀ (r : Request) (s : State) (bs : List Byte) (w0 n : Nat),
    512 ≤ r.cnt.toNat → Quiet s → w0 = (r.arg.extractLsb' 0 8).toNat → n = (r.arg.extractLsb' 8 8).toNat →
    1 ≤ n → n ≤ 20 → w0 + n ≤ 256 → PayloadAt s r.buf.toNat bs → OutputAt s r.lba.toNat (2 * n) →
    exec (.idStr r) s = .next (respond true
      (({ s with
          x := { loaded 0x60#8 r s.x with
            val := BitVec.ofNat 64 (strLen ((bs.drop (2 * w0)).take (2 * n))), res := 0#8 }
          log := fieldLoads r.buf.toNat w0 n ++ s.log } : State).storedBytes r.lba.toNat
        (decodeStr ((bs.drop (2 * w0)).take (2 * n)))))

/-- R281: the decoded string: byte `2i` is the high byte of word `i`, byte `2i + 1` the low one, up to the length,
and 0x00 from there on; the length is the least that leaves out only spaces. -/
def Obligations.StringDecoding : Prop :=
  ∀ (raw : List Byte) (m : Nat), raw.length = 2 * m →
    (swapPairs raw).length = 2 * m ∧
    (∀ i, i < m → (swapPairs raw)[2 * i]? = raw[2 * i + 1]? ∧ (swapPairs raw)[2 * i + 1]? = raw[2 * i]?) ∧
    strLen raw ≤ 2 * m ∧
    (∀ j, strLen raw ≤ j → j < 2 * m → (swapPairs raw)[j]? = some 0x20#8) ∧
    (0 < strLen raw → (swapPairs raw)[strLen raw - 1]? ≠ some 0x20#8) ∧
    (decodeStr raw).length = 2 * m ∧
    (∀ j, j < strLen raw → (decodeStr raw)[j]? = (swapPairs raw)[j]?) ∧
    (∀ j, strLen raw ≤ j → j < 2 * m → (decodeStr raw)[j]? = some 0#8)

/-- R283, R284, R285: ID.CAP and ID.SECSZ return the sector count and the logical sector size of the payload, and store
nothing. They run in every `pc` and load each word's low byte first: the model's reading (log 13, 28). That an overflowing
sector size is cut to 64 bits, and that the payload may lie in memory that a device still owns, are the model's choices
(log 38, 16). -/
def Obligations.IdCapSecszComplete : Prop :=
  ∀ (r : Request) (s : State) (bs : List Byte),
    512 ≤ r.cnt.toNat → Quiet s → PayloadAt s r.buf.toNat bs →
    exec (.idCap r) s = .next (respond true
      { s with
        x := { loaded 0x61#8 r s.x with val := sectorsOf s.cfg bs, res := 0#8 }
        log := capTrace bs r.buf.toNat ++ s.log }) ∧
    exec (.idSecsz r) s = .next (respond true
      { s with
        x := { loaded 0x62#8 r s.x with val := sectorSizeOf s.cfg bs, res := 0#8 }
        log := secszTrace bs r.buf.toNat ++ s.log })

/-- R287, R288: ID.DECODE stores the 96-byte record of the payload at the output address, and no other byte. It runs in
every `pc` and loads the bytes one by one in the order of the pseudocode: the model's reading (log 13, 28). That the
output may lie in a part of the arena that no device owns, and that the record holds the low 4 bytes of an overflowing
sector size, are the model's choices (log 16, 38), as are that the payload may lie in memory that a device still owns,
that of a longer payload the first 512 bytes alone must not meet the output (log 16), and that the record is stored byte
by byte (log 28). -/
def Obligations.IdDecodeCompletes : Prop :=
  ∀ (r : Request) (s : State) (bs : List Byte),
    512 ≤ r.cnt.toNat → Quiet s → PayloadAt s r.buf.toNat bs → OutputAt s r.lba.toNat 96 →
    disjoint (r.buf.toNat, 512) (r.lba.toNat, 96) = true →
    exec (.idDecode r) s = .next (respond false
      (let t := decoded bs r.buf.toNat r.lba.toNat (s.accepted 0x63#8 r)
       { t with x := { t.x with res := 0#8 } })) ∧
    (identityOf s.cfg bs).record.length = 96 ∧
    sameOutside s (decoded bs r.buf.toNat r.lba.toNat (s.accepted 0x63#8 r)) r.lba.toNat 96

/-- R282, 45_block_api.md R268: a null or short payload is InvalidIdentifyPayload for each decoder operation, and a
null buffer for IDENTIFY, with nothing read or written; where the payload, or the buffer, is neither, no operation ends
in it. That a decoder operation runs in every `pc` is the model's reading (log 13). -/
def Obligations.InvalidPayload : Prop :=
  (∀ (r : Request) (s : State), r.buf = 0#64 ∨ r.cnt.toNat < 512 →
    exec (.idStr r) s = .next (respond false { s with x := { loaded 0x60#8 r s.x with res := 7#8 } }) ∧
    exec (.idCap r) s = .next (respond false { s with x := { loaded 0x61#8 r s.x with res := 7#8 } }) ∧
    exec (.idSecsz r) s = .next (respond false { s with x := { loaded 0x62#8 r s.x with res := 7#8 } }) ∧
    exec (.idDecode r) s = .next (respond false { s with x := { loaded 0x63#8 r s.x with res := 7#8 } })) ∧
  (∀ (r : Request) (s t : State), 512 ≤ r.cnt.toNat → r.buf ≠ 0#64 →
    (exec (.idStr r) s = .next t ∨ exec (.idCap r) s = .next t ∨ exec (.idSecsz r) s = .next t ∨
      exec (.idDecode r) s = .next t) → t.x.res = 0#8) ∧
  (∀ (r : Request) (s : State) (d : Dev), s.pc.free = true → alGet s.dev r.dev.toNat = some d → r.buf = 0#64 →
    exec (.identify r) s = .next (respond false
      { s with pc := .idle, claim := none, x := { loaded 0x52#8 r s.x with res := 7#8 } })) ∧
  (∀ (r : Request) (s t : State), r.buf ≠ 0#64 → exec (.identify r) s = .next t → t.x.res ≠ 7#8)

/-! ## System operations (47_system_ops.md) -/

/-- R300: PROBE answers 1 for the AHCI class triple, 2 for the NVMe one, 0 for every other, in every `pc` (log 13: the
model's reading), and accesses nothing; with a bit of `ARG[31:24]` set it is refused. -/
def Obligations.ProbeCompletes : Prop :=
  ∀ (r : Request) (s : State),
    (r.arg.toNat < 16777216 →
      exec (.probe r) s = .next (respond true
        { s with
          x := { loaded 0x70#8 r s.x with
            val := if r.arg = 0x010601#32 then 1#64 else if r.arg = 0x010802#32 then 2#64 else 0#64
            res := 0#8 } })) ∧
    (16777216 ≤ r.arg.toNat → exec (.probe r) s = .refused (.illFormed .argReserved))

/-- R302: SIG.CLASS: with a device present (`DET` 3, `IPM` 1) the type code of `PxSIG`; without one, 0 and one read. It
runs in every `pc`: the model's reading (log 13). -/
def Obligations.SigClassCompletes : Prop :=
  ∀ (r : Request) (s : State) (c : AhciCtx) (ssts sig : Word), Quiet s → OnPort s r.dev c →
    c.block + 0x80 ≤ addrSpace → Reads32 s (c.portReg 0x28) ssts → Reads32 s (c.portReg 0x24) sig →
    exec (.sigClass r) s = .next (respond true
      (if ssts.extractLsb' 0 4 = 3#4 ∧ ssts.extractLsb' 8 4 = 1#4 then
        { s with
          x := { loaded 0x71#8 r s.x with
            val :=
              if sig = 0x00000101#32 then 1#64 else if sig = 0xEB140101#32 then 2#64
              else if sig = 0xC33C0101#32 then 3#64 else if sig = 0x96690101#32 then 4#64 else 5#64
            res := 0#8 }
          log := rd32 (c.portReg 0x24) sig :: rd32 (c.portReg 0x28) ssts :: s.log }
       else
        { s with
          x := { loaded 0x71#8 r s.x with val := 0#64, res := 0#8 }
          log := rd32 (c.portReg 0x28) ssts :: s.log }))

/-- R303: AHCI.INIT of an HBA whose reset bit clears after `k` looks: the three writes of `GHC`, the capabilities in
the record, every leaked command of the HBA forgotten, and `PI` in `VAL` (log 23: the model's reading of R303 over
30_encoding.md R114). That `GHC` keeps what is written to it is presumed (log 3). -/
def Obligations.AhciInitCompletes : Prop :=
  ∀ (r : Request) (s : State) (c : AhciCtx) (k : Nat) (ghc cap pi : Word),
    s.pc.free = true → OnHba s r.dev c → s.inflight = none → rising s.hba = true → HbaWindow s c →
    Reads32 s (c.hbaReg 0x00) cap → Reads32 s (c.hbaReg 0x0C) pi → ghc.getLsbD 0 = false →
    k < s.cfg.resetBudget.toNat →
    s.script = List.replicate (k + 2) ({} : DevAct) ++ [{ regs := [(c.hbaReg 0x04, some (ghc.setWidth 64))] }] →
    exec (.ahciInit r) s = .next (respond true
      { s with
        pc := .idle
        x := { loaded 0x72#8 r s.x with iter := BitVec.ofNat 32 k, val := pi.setWidth 64, res := 0#8 }
        hba := alSet s.hba c.port.hba
          { c.hba with nSlots := (cap.extractLsb' 8 5).setWidth 6 + 1#6, pi := pi, ready := true }
        claim := none
        leaked := s.leaked.filter fun t => !s.portOf c.port.hba t.chan
        regs := alSet s.regs (c.hbaReg 0x04) 0x80000000#64
        script := []
        log := rd32 (c.hbaReg 0x0C) pi :: rd32 (c.hbaReg 0x00) cap :: wr32 (c.hbaReg 0x04) 0x80000000#32 ::
          rd32 (c.hbaReg 0x04) ghc :: repeated k [rd32 (c.hbaReg 0x04) 0x80000001#32] ++
          wr32 (c.hbaReg 0x04) 0x80000001#32 :: wr32 (c.hbaReg 0x04) 0x80000000#32 :: s.log })

/-- R304 to R307: PORT.INIT after AHCI.INIT with no command of the port outstanding, and PORT.RESET with or without
one, on a port that shows `CR` and `FR` clear after `k` looks: the port stopped, its structures zero, its bases written,
the port started, and every command of the port forgotten. That `PxCMD` and the base registers keep what is written to
them is presumed (log 3); that a structure may lie over the data buffer of a leaked command, and the size of a
table whose `PRDT_CAP` is out of range, are the model's choices (log 40, 43). -/
def Obligations.PortInitCompletes : Prop :=
  ∀ (r : Request) (s : State) (c : AhciCtx) (cmd stopped : Word) (k : Nat),
    s.pc.free = true → OnPort s r.dev c → PortArena s c → HbaWindow s c →
    c.hba.nSlots.toNat ≤ c.port.ct.length → PortStops s c cmd stopped k →
    (c.hba.ready = true → s.inUse (.port c.p) = false →
      exec (.portInit r) s = .next (respond false
        (let t := portReady c cmd stopped k (s.accepted 0x73#8 r)
         { t with x := { t.x with res := 0#8 } }))) ∧
    exec (.portReset r) s = .next (respond false
      (let t := portReady c cmd stopped k (s.accepted 0x74#8 r)
       { t with x := { t.x with res := 0#8 } }))

/-- R308: NVME.INIT of a controller that clears `CSTS.RDY` after some looks once it is disabled, and sets it after `k`
looks once it is enabled: the rings zero and at their reset state, the admin queue registers and `CC` written, and
every command of the controller forgotten; `NEXT_CID` keeps its value. That those registers keep what is written to
them is presumed (log 3), and the order of the queue pairs is chosen (log 39), as is when a queue pair counts as shared
with the device (log 16), that no field of `CAP` but the stride is looked at (log 41), and that a ring may lie over the
data buffer of a leaked command (log 40). -/
def Obligations.NvmeInitCompletes : Prop :=
  ∀ (r : Request) (s : State) (c : NvmeCtx) (cap : Quad) (cc : Word) (d : Disabling) (act : DevAct) (k : Nat)
    (cstsEnd : Word),
    s.pc.free = true → OnQueue s r.dev true c → rising s.nvme = true → rising s.qp = true → NvmeWindow s c →
    2 ≤ c.qp.qSize → c.qp.qSize ≤ 4096 → (∀ e ∈ s.qpsOf c.qp.ctrl, e.2.aligned c.nv.pageBytes = true) →
    s.arenaOk = true → alGet s.regs (c.reg 0x00) = some cap → Reads32 s (c.reg 0x14) cc → Disables s c d act →
    k < s.cfg.resetBudget.toNat → cstsEnd.getLsbD 0 = true →
    s.script = List.replicate (3 + d.looks) ({} : DevAct) ++ act ::
      (List.replicate (4 + 2 * (s.qpsOf c.qp.ctrl).length + k) ({} : DevAct) ++
        [{ regs := [(c.reg 0x1C, some (cstsEnd.setWidth 64))] }]) →
    exec (.nvmeInit r) s = .next (respond false
      (let t := nvmeInitDone c cap cc d k cstsEnd (s.accepted 0x75#8 r)
       { t with x := { t.x with res := 0#8 } }))

/-- R303, R305, R308: a wait of a bring-up operation ends after exactly `RESET_BUDGET` looks: AHCI.INIT, where the
reset bit stays set, in ControllerNotReady; PORT.INIT and PORT.RESET, where the port does not stop, in PortHung with no
base register written; NVME.INIT, where the disabled controller stays ready, or where the enabled one never becomes
ready, in ControllerNotReady. That `GHC`, `PxCMD` and the controller's registers keep what is written to them is
presumed (log 3); that a failed wait forgets no leaked command, and the order in which the queue pairs are zero-filled,
are choices (log 19, 39), as are that NVME.INIT looks at no field of `CAP` but the stride (log 41), and that a ring it
fills with zeros may lie over the data buffer of a leaked command (log 40). -/
def Obligations.BringUpFailures : Prop :=
  (∀ (r : Request) (s : State) (c : AhciCtx), s.pc.free = true → Quiet s → OnHba s r.dev c → s.inflight = none →
    rising s.hba = true → HbaWindow s c →
    exec (.ahciInit r) s = .next (respond false
      { s with
        pc := .idle
        x := { loaded 0x72#8 r s.x with iter := s.cfg.resetBudget, res := 9#8 }
        hba := alSet s.hba c.port.hba { c.hba with ready := false }
        claim := none
        regs := alSet s.regs (c.hbaReg 0x04) 0x80000001#64
        log := repeated s.cfg.resetBudget.toNat [rd32 (c.hbaReg 0x04) 0x80000001#32] ++
          wr32 (c.hbaReg 0x04) 0x80000001#32 :: wr32 (c.hbaReg 0x04) 0x80000000#32 :: s.log })) ∧
  (∀ (r : Request) (s : State) (c : AhciCtx) (cmd : Word), s.pc.free = true → Quiet s → OnPort s r.dev c →
    PortArena s c → HbaWindow s c → c.hba.nSlots.toNat ≤ c.port.ct.length →
    Reads32 s (c.portReg 0x18) cmd → cmd &&& 0xC000#32 ≠ 0#32 →
    (c.hba.ready = true → s.inUse (.port c.p) = false →
      exec (.portInit r) s = .next (respond false
        { s with
          pc := .idle
          x := { loaded 0x73#8 r s.x with iter := s.cfg.resetBudget, res := 4#8 }
          claim := none
          regs := alSet s.regs (c.portReg 0x18) ((cmd &&& 0xFFFFFFEE#32).setWidth 64)
          log := repeated s.cfg.resetBudget.toNat [rd32 (c.portReg 0x18) (cmd &&& 0xFFFFFFEE#32)] ++
            wr32 (c.portReg 0x18) (cmd &&& 0xFFFFFFEE#32) :: wr32 (c.portReg 0x18) (cmd &&& 0xFFFFFFFE#32) ::
            rd32 (c.portReg 0x18) cmd :: s.log })) ∧
    exec (.portReset r) s = .next (respond false
      { s with
        pc := .idle
        x := { loaded 0x74#8 r s.x with iter := s.cfg.resetBudget, res := 4#8 }
        claim := none
        regs := alSet s.regs (c.portReg 0x18) ((cmd &&& 0xFFFFFFEE#32).setWidth 64)
        log := repeated s.cfg.resetBudget.toNat [rd32 (c.portReg 0x18) (cmd &&& 0xFFFFFFEE#32)] ++
          wr32 (c.portReg 0x18) (cmd &&& 0xFFFFFFEE#32) :: wr32 (c.portReg 0x18) (cmd &&& 0xFFFFFFFE#32) ::
          rd32 (c.portReg 0x18) cmd :: s.log })) ∧
  (∀ (r : Request) (s : State) (c : NvmeCtx) (cap : Quad) (cc csts : Word), s.pc.free = true → Quiet s →
    OnQueue s r.dev true c → rising s.nvme = true → NvmeWindow s c → 2 ≤ c.qp.qSize → c.qp.qSize ≤ 4096 →
    (∀ e ∈ s.qpsOf c.qp.ctrl, e.2.aligned c.nv.pageBytes = true) → s.arenaOk = true →
    alGet s.regs (c.reg 0x00) = some cap → Reads32 s (c.reg 0x14) cc → Reads32 s (c.reg 0x1C) csts →
    csts.getLsbD 0 = true →
    exec (.nvmeInit r) s = .next (respond false
      { s with
        pc := .idle
        x := { loaded 0x75#8 r s.x with iter := s.cfg.resetBudget, res := 9#8 }
        nvme := alSet s.nvme c.qp.ctrl { c.nv with dstrd := cap.extractLsb' 32 4 }
        claim := none
        regs := alSet s.regs (c.reg 0x14) ((cc &&& 0xFFFFFFFE#32).setWidth 64)
        log := repeated s.cfg.resetBudget.toNat [rd32 (c.reg 0x1C) csts] ++
          wr32 (c.reg 0x14) (cc &&& 0xFFFFFFFE#32) :: rd32 (c.reg 0x14) cc :: .rd .w64 (c.reg 0x00) cap :: s.log })) ∧
  (∀ (r : Request) (s : State) (c : NvmeCtx) (cap : Quad) (cc csts : Word), s.pc.free = true → Quiet s →
    OnQueue s r.dev true c → rising s.nvme = true → rising s.qp = true → NvmeWindow s c →
    2 ≤ c.qp.qSize → c.qp.qSize ≤ 4096 → (∀ e ∈ s.qpsOf c.qp.ctrl, e.2.aligned c.nv.pageBytes = true) →
    s.arenaOk = true → s.cfg.resetBudget ≠ 0#32 →
    alGet s.regs (c.reg 0x00) = some cap → Reads32 s (c.reg 0x14) cc → Reads32 s (c.reg 0x1C) csts →
    csts.getLsbD 0 = false →
    exec (.nvmeInit r) s = .next (respond false (nvmeInitUnready c cap cc csts (s.accepted 0x75#8 r))))

/-! ## Structures (30_encoding.md R115 to R126) -/

/-- The structure rows of a command (log 10), whatever the devices do: each is one block store at its place
(20_memory.md R83, R84), with no result: a FIS with the rest of the table head, a Command Header that names the slot's
table, a PRDT entry at the position of the chunk it covers (log 11), and a submission entry. A Command Header that
names another table, and an identify entry whose buffer begins no page (20_memory.md R76, R77), are refused. The
command codes that the rows of FIS and submission entries store are presumed (log 37); that the slot or the position
may be that of a leaked command whose bits read 0, or whose entry a later `SQ_HEAD` has passed, is the model's choice
(log 36), as are the fields that a FIS, a Command Header and a submission entry may have (log 10), the byte counts and
`I` bits of a PRDT entry (log 11), that a structure may lie over the data buffer of a leaked command (log 40), that a
`BLOCK_BYTES` not set counts as 0 (log 42) and the limit of a `PRDT_CAP` out of range (log 43). -/
def Obligations.StructureRows : Prop :=
  (∀ (s : State) (c : AhciCtx) (table : Quad),
    s.pc = .slotAllocated → SlotOn s s.x.dev c table → c.hba.nSlots.toNat ≤ 32 → PortArena s c →
    (∀ f : Fis,
      exec (.fisReadDmaExt f) s = .next ((tick s).afterStore table.toNat (tableHead (f.bytes 0x25#8))) ∧
      exec (.fisWriteDmaExt f) s = .next ((tick s).afterStore table.toNat (tableHead (f.bytes 0x35#8))) ∧
      exec (.fisIdentifyDevice f) s = .next ((tick s).afterStore table.toNat (tableHead (f.bytes 0xEC#8)))) ∧
    (∀ h : CmdHdr, h.ctba = table →
      exec (.cmdHdr h) s = .next ((tick s).afterStore (c.port.clb.toNat + 32 * s.x.slot.toNat) h.bytes)) ∧
    (∀ h : CmdHdr, h.ctba ≠ table →
      exec (.cmdHdr h) s = .refused (if h.ctba.toNat % 128 = 0 then .notEmitted else .misalignedStructure)) ∧
    (∀ (e : PrdtEntry) (i : Nat), e.dba = s.x.buf + BitVec.ofNat 64 (8192 * i) →
      s.x.buf.toNat + 8192 * i < addrSpace → i < s.cfg.prdtCap → i < 65535 →
      e.dba.toNat % 2 = 0 → (e.dbc.toNat + 1) % 2 = 0 → BufferFits s s.x.isIdentify e.dba.toNat (e.dbc.toNat + 1) →
      exec (.prdtEntry e) s = .next ((tick s).afterStore (table.toNat + 0x80 + 16 * i) e.bytes))) ∧
  (∀ (s : State) (c : NvmeCtx) (e : Sqe),
    s.pc = .slotAllocated → EntryOn s s.x.dev (s.x.flg.getLsbD 2) c → RingArena s c → e.prp1.toNat % 4 = 0 →
    BufferFits s s.x.isIdentify e.prp1.toNat (transferLength (s.x.flg.getLsbD 1) s.x.cnt c.dev) →
    exec (.sqeRead e) s = .next ((tick s).afterStore (c.qp.sqBase.toNat + 64 * s.x.slot.toNat) (e.bytes 0x02#8)) ∧
    exec (.sqeWrite e) s = .next ((tick s).afterStore (c.qp.sqBase.toNat + 64 * s.x.slot.toNat) (e.bytes 0x01#8)) ∧
    (e.prp1.toNat % c.nv.pageBytes = 0 →
      exec (.sqeIdentify e) s =
        .next ((tick s).afterStore (c.qp.sqBase.toNat + 64 * s.x.slot.toNat) (e.bytes 0x06#8))) ∧
    (e.prp1.toNat % c.nv.pageBytes ≠ 0 → exec (.sqeIdentify e) s = .refused .misalignedStructure))

/-- The completion row (44_nvme_engine.md R244; how the row runs: log 12), whatever the devices do: a look at an entry
that is the command's own consumes it and ends the poll, with success where its status field is zero and else with
DeviceError and the whole status halfword (log 22); one that reports a submission head outside the ring breaks the
device's contract and is refused (log 29). A look at any other entry changes no queue pair: the round is counted, but
where `NVME_CHECK_CFS` is set and `CSTS` shows the fatal bit, the command ends in DeviceError and its entry is leaked
(R246). The count goes on from what `ITER` holds, also where no poll has cleared it, and past `POLL_BUDGET`, and the look
loads nothing: the model's choices (log 12). -/
def Obligations.CompletionRow : Prop :=
  ∀ (s : State) (c : NvmeCtx) (e : Cqe), s.pc = .issued → EntryOn s s.x.dev (s.x.flg.getLsbD 2) c →
    (c.cqDoorbell + 4 ≤ addrSpace → Answers e c.qp s.x.cid →
      (e.status = 0#11 →
        exec (.cqe e) s = .next (respond false
          { (tick s).wrote c.cqDoorbell ((ringNext c.qp.qSize c.qp.cqHead).setWidth 32) with
            pc := .completed
            x := { s.x with res := 0#8 }
            qp := alSet s.qp c.q (c.qp.after e)
            claim := none
            inflight := none
            log := wr32 c.cqDoorbell ((ringNext c.qp.qSize c.qp.cqHead).setWidth 32) :: s.log })) ∧
      (e.status ≠ 0#11 →
        exec (.cqe e) s = .next (respond false
          { (tick s).wrote c.cqDoorbell ((ringNext c.qp.qSize c.qp.cqHead).setWidth 32) with
            pc := .deviceError
            x := { s.x with raw := e.dw3 >>> 16, res := 6#8 }
            qp := alSet s.qp c.q (c.qp.after e)
            claim := none
            inflight := none
            log := wr32 c.cqDoorbell ((ringNext c.qp.qSize c.qp.cqHead).setWidth 32) :: s.log }))) ∧
    (e.phase = c.qp.phase → e.cid = s.x.cid → c.qp.qSize ≤ e.sqHead.toNat →
      exec (.cqe e) s = .refused .deviceContract) ∧
    (e.phase ≠ c.qp.phase ∨ e.cid ≠ s.x.cid →
      (s.cfg.nvmeCheckCfs = false → exec (.cqe e) s = .next { s with x := { s.x with iter := s.x.iter + 1#32 } }) ∧
      (∀ csts : Word, s.cfg.nvmeCheckCfs = true → c.reg 0x1C + 4 ≤ addrSpace → Reads32 (tick s) (c.reg 0x1C) csts →
        (csts.getLsbD 1 = true →
          exec (.cqe e) s = .next (respond false
            { tick s with
              pc := .deviceError
              x := { s.x with raw := csts, res := 6#8 }
              claim := none
              inflight := none
              leaked := s.leaked ++ s.inflight.toList
              log := rd32 (c.reg 0x1C) csts :: s.log })) ∧
        (csts.getLsbD 1 = false →
          exec (.cqe e) s = .next
            { tick s with
              x := { s.x with iter := s.x.iter + 1#32 }
              log := rd32 (c.reg 0x1C) csts :: s.log })))
end

