-- ==== Sys2Proof/Laws/PerInstr.lean ====
section
/-!
SUPPORT. Statements about every instruction, one lemma for each constructor.
-/

namespace Sys2Proof.Laws

@[simp] theorem leBytes_length (n v : Nat) : (leBytes n v).length = n := by
  induction n generalizing v with
  | zero => rfl
  | succ n ih => simp [leBytes, ih]

@[simp] theorem zeros_length (n : Nat) : (zeros n).length = n := by simp [zeros]

/-- The length of a structure (30_encoding.md R132). -/
def structSize : StructFormat → Nat
  | .h2dFis => 20
  | .sqe => 64
  | .cmdHdr => 32
  | .prdt => 16
  | .cqe => 16

@[simp] theorem request_length (opc : Nat) (r : Request) : (r.bytes opc).length = 32 := by
  simp [Request.bytes]
@[simp] theorem fis_length (c : Byte) (f : Fis) : (f.bytes c).length = 20 := by simp [Fis.bytes]
@[simp] theorem sqe_length (o : Byte) (e : Sqe) : (e.bytes o).length = 64 := by simp [Sqe.bytes]
@[simp] theorem cmdHdr_length (h : CmdHdr) : h.bytes.length = 32 := by simp [CmdHdr.bytes]
@[simp] theorem prdtEntry_length (e : PrdtEntry) : e.bytes.length = 16 := by simp [PrdtEntry.bytes]
@[simp] theorem cqe_length (e : Cqe) : e.bytes.length = 16 := by simp [Cqe.bytes]

/-- The length of an encoding: 32 bytes for a request, else the structure's own (30_encoding.md R110, R132). -/
def EncodedSize.Statement (i : Instr) : Prop :=
  (encode i).length = (i.structFormat?.map structSize).getD 32

theorem EncodedSize.rd32 (r : Request) : EncodedSize.Statement (.rd32 r) := request_length _ r
theorem EncodedSize.rd64 (r : Request) : EncodedSize.Statement (.rd64 r) := request_length _ r
theorem EncodedSize.wr32 (r : Request) : EncodedSize.Statement (.wr32 r) := request_length _ r
theorem EncodedSize.wr64 (r : Request) : EncodedSize.Statement (.wr64 r) := request_length _ r
theorem EncodedSize.publish (r : Request) : EncodedSize.Statement (.publish r) := request_length _ r
theorem EncodedSize.ahciAlloc (r : Request) : EncodedSize.Statement (.ahciAlloc r) := request_length _ r
theorem EncodedSize.nvmeAlloc (r : Request) : EncodedSize.Statement (.nvmeAlloc r) := request_length _ r
theorem EncodedSize.prdtBuild (r : Request) : EncodedSize.Statement (.prdtBuild r) := request_length _ r
theorem EncodedSize.fisBuild (r : Request) : EncodedSize.Statement (.fisBuild r) := request_length _ r
theorem EncodedSize.hdrBuild (r : Request) : EncodedSize.Statement (.hdrBuild r) := request_length _ r
theorem EncodedSize.ahciBuild (r : Request) : EncodedSize.Statement (.ahciBuild r) := request_length _ r
theorem EncodedSize.prpBuild (r : Request) : EncodedSize.Statement (.prpBuild r) := request_length _ r
theorem EncodedSize.sqeBuild (r : Request) : EncodedSize.Statement (.sqeBuild r) := request_length _ r
theorem EncodedSize.nvmeBuild (r : Request) : EncodedSize.Statement (.nvmeBuild r) := request_length _ r
theorem EncodedSize.ahciIssue (r : Request) : EncodedSize.Statement (.ahciIssue r) := request_length _ r
theorem EncodedSize.ahciPoll (r : Request) : EncodedSize.Statement (.ahciPoll r) := request_length _ r
theorem EncodedSize.ahciCmd (r : Request) : EncodedSize.Statement (.ahciCmd r) := request_length _ r
theorem EncodedSize.nvmeRdychk (r : Request) : EncodedSize.Statement (.nvmeRdychk r) := request_length _ r
theorem EncodedSize.nvmeIssue (r : Request) : EncodedSize.Statement (.nvmeIssue r) := request_length _ r
theorem EncodedSize.nvmePoll (r : Request) : EncodedSize.Statement (.nvmePoll r) := request_length _ r
theorem EncodedSize.nvmeCmd (r : Request) : EncodedSize.Statement (.nvmeCmd r) := request_length _ r
theorem EncodedSize.readBlocks (r : Request) : EncodedSize.Statement (.readBlocks r) := request_length _ r
theorem EncodedSize.writeBlocks (r : Request) : EncodedSize.Statement (.writeBlocks r) := request_length _ r
theorem EncodedSize.identify (r : Request) : EncodedSize.Statement (.identify r) := request_length _ r
theorem EncodedSize.idStr (r : Request) : EncodedSize.Statement (.idStr r) := request_length _ r
theorem EncodedSize.idCap (r : Request) : EncodedSize.Statement (.idCap r) := request_length _ r
theorem EncodedSize.idSecsz (r : Request) : EncodedSize.Statement (.idSecsz r) := request_length _ r
theorem EncodedSize.idDecode (r : Request) : EncodedSize.Statement (.idDecode r) := request_length _ r
theorem EncodedSize.probe (r : Request) : EncodedSize.Statement (.probe r) := request_length _ r
theorem EncodedSize.sigClass (r : Request) : EncodedSize.Statement (.sigClass r) := request_length _ r
theorem EncodedSize.ahciInit (r : Request) : EncodedSize.Statement (.ahciInit r) := request_length _ r
theorem EncodedSize.portInit (r : Request) : EncodedSize.Statement (.portInit r) := request_length _ r
theorem EncodedSize.portReset (r : Request) : EncodedSize.Statement (.portReset r) := request_length _ r
theorem EncodedSize.nvmeInit (r : Request) : EncodedSize.Statement (.nvmeInit r) := request_length _ r
theorem EncodedSize.fisReadDmaExt (f : Fis) : EncodedSize.Statement (.fisReadDmaExt f) := fis_length _ f
theorem EncodedSize.fisWriteDmaExt (f : Fis) : EncodedSize.Statement (.fisWriteDmaExt f) := fis_length _ f
theorem EncodedSize.fisIdentifyDevice (f : Fis) : EncodedSize.Statement (.fisIdentifyDevice f) := fis_length _ f
theorem EncodedSize.sqeRead (e : Sqe) : EncodedSize.Statement (.sqeRead e) := sqe_length _ e
theorem EncodedSize.sqeWrite (e : Sqe) : EncodedSize.Statement (.sqeWrite e) := sqe_length _ e
theorem EncodedSize.sqeIdentify (e : Sqe) : EncodedSize.Statement (.sqeIdentify e) := sqe_length _ e
theorem EncodedSize.cmdHdr (h : CmdHdr) : EncodedSize.Statement (.cmdHdr h) := cmdHdr_length h
theorem EncodedSize.prdtEntry (e : PrdtEntry) : EncodedSize.Statement (.prdtEntry e) := prdtEntry_length e
theorem EncodedSize.cqe (e : Cqe) : EncodedSize.Statement (.cqe e) := cqe_length e

end Sys2Proof.Laws
end

