-- ==== Sys2Proof/Laws/Encoding.lean ====
section
/-!
SUPPORT. Byte order: a field of an encoded record reads what was written, and bytes are what their value writes.
-/

namespace Sys2Proof.Laws

theorem leNat_leBytes (n v : Nat) : leNat (leBytes n v) = v % 256 ^ n := by
  induction n generalizing v with
  | zero => simp [leBytes, leNat, Nat.mod_one]
  | succ n ih =>
    have h : 256 ^ (n + 1) = 256 * 256 ^ n := by rw [Nat.pow_succ, Nat.mul_comm]
    rw [leBytes, leNat, ih, BitVec.toNat_ofNat, h, Nat.mod_mul]

theorem leNat_lt (bs : List Byte) : leNat bs < 256 ^ bs.length := by
  induction bs with
  | nil => simp [leNat]
  | cons b bs ih =>
    have := b.isLt
    rw [leNat, List.length_cons, Nat.pow_succ]
    omega

theorem leBytes_leNat (bs : List Byte) : leBytes bs.length (leNat bs) = bs := by
  induction bs with
  | nil => rfl
  | cons b bs ih =>
    have hb := b.isLt
    have h1 : (b.toNat + 256 * leNat bs) / 256 = leNat bs := by omega
    have h2 : BitVec.ofNat 8 (b.toNat + 256 * leNat bs) = b := by
      apply BitVec.eq_of_toNat_eq; rw [BitVec.toNat_ofNat]; omega
    rw [List.length_cons, leNat, leBytes, h1, h2, ih]

@[simp] theorem leNat_zeros (n : Nat) : leNat (zeros n) = 0 := by
  induction n with
  | zero => rfl
  | succ n ih => simp only [zeros, List.replicate_succ, leNat] at ih ⊢; simp [ih]

theorem leBytes_zero (n : Nat) : leBytes n 0 = zeros n := by
  induction n with
  | zero => rfl
  | succ n ih => simp only [leBytes, zeros, List.replicate_succ, Nat.zero_div] at ih ⊢; rw [ih]

/-- A field that starts behind the first `a` bytes. -/
theorem field_skip {a b : List Byte} {off n : Nat} (h : a.length ≤ off) :
    field (a ++ b) off n = field b (off - a.length) n := by
  unfold field
  rw [List.drop_append, List.drop_eq_nil_of_le h, List.nil_append]

/-- The field that the first bytes are. -/
theorem field_head {a b : List Byte} {n : Nat} (h : a.length = n) : field (a ++ b) 0 n = leNat a := by
  unfold field
  rw [List.drop_zero, List.take_left' h]

theorem field_whole {a : List Byte} {n : Nat} (h : a.length = n) : field a 0 n = leNat a := by
  unfold field
  rw [List.drop_zero, ← h, List.take_length]

/-- A field is below its size. -/
theorem field_lt (bs : List Byte) (off n : Nat) : field bs off n < 256 ^ n := by
  refine Nat.lt_of_lt_of_le (leNat_lt _) (Nat.pow_le_pow_right (by omega) ?_)
  rw [List.length_take]
  exact Nat.min_le_left _ _

/-- The bytes of a field are the bytes that stand there. -/
theorem leBytes_field {bs : List Byte} {off n : Nat} (h : off + n ≤ bs.length) :
    leBytes n (field bs off n) = (bs.drop off).take n := by
  have hl : ((bs.drop off).take n).length = n := by rw [List.length_take, List.length_drop]; omega
  have := leBytes_leNat ((bs.drop off).take n)
  rw [hl] at this
  exact this

theorem leNat_append (a b : List Byte) : leNat (a ++ b) = leNat a + 256 ^ a.length * leNat b := by
  induction a with
  | nil => simp [leNat]
  | cons x a ih => simp only [List.cons_append, leNat, ih, List.length_cons, pow_succ]; ring

/-- Two neighbouring fields read as one. -/
theorem field_add (bs : List Byte) (off n m : Nat) (h : off + n ≤ bs.length) :
    field bs off (n + m) = field bs off n + 256 ^ n * field bs (off + n) m := by
  unfold field
  rw [List.take_add, leNat_append, List.drop_drop]
  congr 2
  simp; omega

/-- The fields of an encoded submission entry (30_encoding.md R123). -/
theorem sqe_fields (opc : Byte) (e : Sqe) :
    field (e.bytes opc) 0 4 = opc.toNat + 65536 * e.cid.toNat ∧ field (e.bytes opc) 4 4 = e.nsid.toNat ∧ field (e.bytes opc) 8 16 = 0 ∧
    field (e.bytes opc) 24 8 = e.prp1.toNat ∧ field (e.bytes opc) 32 8 = 0 ∧ field (e.bytes opc) 40 4 = e.cdw10.toNat ∧ field (e.bytes opc) 44 4 = e.cdw11.toNat ∧
    field (e.bytes opc) 48 4 = e.cdw12.toNat ∧ field (e.bytes opc) 52 12 = 0 := by
  have h1 := opc.isLt
  have h2 := e.cid.isLt
  have h3 := e.nsid.isLt
  have h4 := e.prp1.isLt
  have h5 := e.cdw10.isLt
  have h6 := e.cdw11.isLt
  have h7 := e.cdw12.isLt
  unfold Sqe.bytes
  simp only [List.append_assoc]
  refine ⟨?_, ?_, ?_, ?_, ?_, ?_, ?_, ?_, ?_⟩
  · rw [field_head (by simp), leNat_leBytes]; omega
  · rw [field_skip (by simp), leBytes_length, field_head (by simp), leNat_leBytes]; omega
  · iterate 2 rw [field_skip (by simp), leBytes_length]
    rw [field_head (by simp), leNat_zeros]
  · iterate 2 rw [field_skip (by simp), leBytes_length]
    rw [field_skip (by simp), zeros_length, field_head (by simp), leNat_leBytes]; omega
  · iterate 2 rw [field_skip (by simp), leBytes_length]
    rw [field_skip (by simp), zeros_length]
    rw [field_skip (by simp), leBytes_length, field_head (by simp), leNat_zeros]
  · iterate 2 rw [field_skip (by simp), leBytes_length]
    rw [field_skip (by simp), zeros_length]
    rw [field_skip (by simp), leBytes_length, field_skip (by simp), zeros_length, field_head (by simp), leNat_leBytes]; omega
  · iterate 2 rw [field_skip (by simp), leBytes_length]
    rw [field_skip (by simp), zeros_length]
    rw [field_skip (by simp), leBytes_length, field_skip (by simp), zeros_length, field_skip (by simp), leBytes_length, field_head (by simp), leNat_leBytes]; omega
  · iterate 2 rw [field_skip (by simp), leBytes_length]
    rw [field_skip (by simp), zeros_length]
    rw [field_skip (by simp), leBytes_length, field_skip (by simp), zeros_length]
    iterate 2 rw [field_skip (by simp), leBytes_length]
    rw [field_head (by simp), leNat_leBytes]; omega
  · iterate 2 rw [field_skip (by simp), leBytes_length]
    rw [field_skip (by simp), zeros_length]
    rw [field_skip (by simp), leBytes_length, field_skip (by simp), zeros_length]
    iterate 3 rw [field_skip (by simp), leBytes_length]
    rw [field_whole (by simp), leNat_zeros]

/-- A part of a field that is zero is zero. -/
theorem field_zero {bs : List Byte} {off n : Nat} (h : field bs off n = 0) (hl : off + n ≤ bs.length) (k m : Nat)
    (hk : k + m ≤ n) : field bs (off + k) m = 0 := by
  rw [show n = k + (m + (n - k - m)) by omega] at h
  rw [field_add _ _ _ _ (by omega), field_add _ _ _ _ (by omega)] at h
  simp at h; exact h.2.1

/-- The operand fields of an encoded request are the request's. -/
theorem decodeFields_bytes (opc : Nat) (r : Request) : decodeFields (r.bytes opc) = r := by
  have hd : field (r.bytes opc) 1 1 = r.dev.toNat := by
    simp only [Request.bytes, List.append_assoc]
    rw [field_skip (by simp)]
    simp only [leBytes_length, Nat.sub_self]
    rw [field_head (by simp), leNat_leBytes]
    have := r.dev.isLt; simp; omega
  have hc : field (r.bytes opc) 2 2 = r.cnt.toNat := by
    simp only [Request.bytes, List.append_assoc]
    rw [field_skip (by simp), field_skip (by simp)]
    simp only [leBytes_length, Nat.reduceSub]
    rw [field_head (by simp), leNat_leBytes]
    have := r.cnt.isLt; simp; omega
  have ha : field (r.bytes opc) 4 4 = r.arg.toNat := by
    simp only [Request.bytes, List.append_assoc]
    rw [field_skip (by simp), field_skip (by simp), field_skip (by simp)]
    simp only [leBytes_length, Nat.reduceSub]
    rw [field_head (by simp), leNat_leBytes]
    have := r.arg.isLt; simp; omega
  have hl : field (r.bytes opc) 8 8 = r.lba.toNat := by
    simp only [Request.bytes, List.append_assoc]
    rw [field_skip (by simp), field_skip (by simp), field_skip (by simp), field_skip (by simp)]
    simp only [leBytes_length, Nat.reduceSub]
    rw [field_head (by simp), leNat_leBytes]
    have := r.lba.isLt; simp; omega
  have hb : field (r.bytes opc) 16 8 = r.buf.toNat := by
    simp only [Request.bytes, List.append_assoc]
    rw [field_skip (by simp), field_skip (by simp), field_skip (by simp), field_skip (by simp), field_skip (by simp)]
    simp only [leBytes_length, Nat.reduceSub]
    rw [field_head (by simp), leNat_leBytes]
    have := r.buf.isLt; simp; omega
  simp [decodeFields, hd, hc, ha, hl, hb]

theorem reserved_bytes (opc : Nat) (r : Request) : field (r.bytes opc) 24 8 = 0 := by
  simp only [Request.bytes, List.append_assoc]
  rw [field_skip (by simp), field_skip (by simp), field_skip (by simp), field_skip (by simp), field_skip (by simp),
    field_skip (by simp)]
  simp only [leBytes_length, Nat.reduceSub]
  rw [field_whole (by simp), leNat_zeros]

theorem opc_bytes {opc : Nat} (r : Request) (h : opc < 256) : field (r.bytes opc) 0 1 = opc := by
  simp only [Request.bytes, List.append_assoc]
  rw [field_head (by simp), leNat_leBytes]
  simp; omega

/-- An encoded request decodes to what its operation code names. -/
theorem decode_bytes {opc : Nat} {r : Request} {i : Instr} (h : opc < 256) (hi : opcInstr opc r = some i) :
    decode (r.bytes opc) = .ok i := by
  simp [decode, reserved_bytes, opc_bytes r h, decodeFields_bytes, hi]

end Sys2Proof.Laws
end

