-- ==== Sys2Proof/Laws/State.lean ====
section
/-!
SUPPORT. One lemma for each field under each update of the state, all true by `rfl`, so that no proof unfolds a
record update.
-/

namespace Sys2Proof.Laws

open Sys2Proof.Machine

/-! ## `tick s` -/

@[simp] theorem tick_pc (s : State) :
    (tick s).pc = s.pc := rfl
@[simp] theorem tick_x (s : State) :
    (tick s).x = s.x := rfl
@[simp] theorem tick_hba (s : State) :
    (tick s).hba = s.hba := rfl
@[simp] theorem tick_port (s : State) :
    (tick s).port = s.port := rfl
@[simp] theorem tick_nvme (s : State) :
    (tick s).nvme = s.nvme := rfl
@[simp] theorem tick_qp (s : State) :
    (tick s).qp = s.qp := rfl
@[simp] theorem tick_dev (s : State) :
    (tick s).dev = s.dev := rfl
@[simp] theorem tick_regs (s : State) :
    (tick s).regs = s.nextAct.regs.foldl setReg s.regs := rfl
@[simp] theorem tick_mem (s : State) :
    (tick s).mem = s.nextAct.mem.foldl (dmaByte s.cfg.memEnd) s.mem := rfl
@[simp] theorem tick_claim (s : State) :
    (tick s).claim = s.claim := rfl
@[simp] theorem tick_inflight (s : State) :
    (tick s).inflight = s.inflight := rfl
@[simp] theorem tick_leaked (s : State) :
    (tick s).leaked = s.leaked := rfl
@[simp] theorem tick_built (s : State) :
    (tick s).built = s.built := rfl
@[simp] theorem tick_pend (s : State) :
    (tick s).pend = s.pend := rfl
@[simp] theorem tick_rsp (s : State) :
    (tick s).rsp = s.rsp := rfl
@[simp] theorem tick_nrsp (s : State) :
    (tick s).nrsp = s.nrsp := rfl
@[simp] theorem tick_draws (s : State) :
    (tick s).draws = s.draws := rfl
@[simp] theorem tick_script (s : State) :
    (tick s).script = s.script.tail := rfl
@[simp] theorem tick_inputs (s : State) :
    (tick s).inputs = s.inputs := rfl
@[simp] theorem tick_log (s : State) :
    (tick s).log = s.log := rfl
@[simp] theorem tick_cfg (s : State) :
    (tick s).cfg = s.cfg := rfl

/-! ## `s.setVal v` -/

@[simp] theorem setVal_pc (s : State) (v : Quad) :
    (s.setVal v).pc = s.pc := rfl
@[simp] theorem setVal_x_op (s : State) (v : Quad) :
    (s.setVal v).x.op = s.x.op := rfl
@[simp] theorem setVal_x_dev (s : State) (v : Quad) :
    (s.setVal v).x.dev = s.x.dev := rfl
@[simp] theorem setVal_x_cnt (s : State) (v : Quad) :
    (s.setVal v).x.cnt = s.x.cnt := rfl
@[simp] theorem setVal_x_arg (s : State) (v : Quad) :
    (s.setVal v).x.arg = s.x.arg := rfl
@[simp] theorem setVal_x_lba (s : State) (v : Quad) :
    (s.setVal v).x.lba = s.x.lba := rfl
@[simp] theorem setVal_x_buf (s : State) (v : Quad) :
    (s.setVal v).x.buf = s.x.buf := rfl
@[simp] theorem setVal_x_wr (s : State) (v : Quad) :
    (s.setVal v).x.wr = s.x.wr := rfl
@[simp] theorem setVal_x_cmdb (s : State) (v : Quad) :
    (s.setVal v).x.cmdb = s.x.cmdb := rfl
@[simp] theorem setVal_x_flg (s : State) (v : Quad) :
    (s.setVal v).x.flg = s.x.flg := rfl
@[simp] theorem setVal_x_slot (s : State) (v : Quad) :
    (s.setVal v).x.slot = s.x.slot := rfl
@[simp] theorem setVal_x_cid (s : State) (v : Quad) :
    (s.setVal v).x.cid = s.x.cid := rfl
@[simp] theorem setVal_x_nprd (s : State) (v : Quad) :
    (s.setVal v).x.nprd = s.x.nprd := rfl
@[simp] theorem setVal_x_bytes (s : State) (v : Quad) :
    (s.setVal v).x.bytes = s.x.bytes := rfl
@[simp] theorem setVal_x_iter (s : State) (v : Quad) :
    (s.setVal v).x.iter = s.x.iter := rfl
@[simp] theorem setVal_x_res (s : State) (v : Quad) :
    (s.setVal v).x.res = s.x.res := rfl
@[simp] theorem setVal_x_raw (s : State) (v : Quad) :
    (s.setVal v).x.raw = s.x.raw := rfl
@[simp] theorem setVal_x_val (s : State) (v : Quad) :
    (s.setVal v).x.val = v := rfl
@[simp] theorem setVal_hba (s : State) (v : Quad) :
    (s.setVal v).hba = s.hba := rfl
@[simp] theorem setVal_port (s : State) (v : Quad) :
    (s.setVal v).port = s.port := rfl
@[simp] theorem setVal_nvme (s : State) (v : Quad) :
    (s.setVal v).nvme = s.nvme := rfl
@[simp] theorem setVal_qp (s : State) (v : Quad) :
    (s.setVal v).qp = s.qp := rfl
@[simp] theorem setVal_dev (s : State) (v : Quad) :
    (s.setVal v).dev = s.dev := rfl
@[simp] theorem setVal_regs (s : State) (v : Quad) :
    (s.setVal v).regs = s.regs := rfl
@[simp] theorem setVal_mem (s : State) (v : Quad) :
    (s.setVal v).mem = s.mem := rfl
@[simp] theorem setVal_claim (s : State) (v : Quad) :
    (s.setVal v).claim = s.claim := rfl
@[simp] theorem setVal_inflight (s : State) (v : Quad) :
    (s.setVal v).inflight = s.inflight := rfl
@[simp] theorem setVal_leaked (s : State) (v : Quad) :
    (s.setVal v).leaked = s.leaked := rfl
@[simp] theorem setVal_built (s : State) (v : Quad) :
    (s.setVal v).built = s.built := rfl
@[simp] theorem setVal_pend (s : State) (v : Quad) :
    (s.setVal v).pend = s.pend := rfl
@[simp] theorem setVal_rsp (s : State) (v : Quad) :
    (s.setVal v).rsp = s.rsp := rfl
@[simp] theorem setVal_nrsp (s : State) (v : Quad) :
    (s.setVal v).nrsp = s.nrsp := rfl
@[simp] theorem setVal_draws (s : State) (v : Quad) :
    (s.setVal v).draws = s.draws := rfl
@[simp] theorem setVal_script (s : State) (v : Quad) :
    (s.setVal v).script = s.script := rfl
@[simp] theorem setVal_inputs (s : State) (v : Quad) :
    (s.setVal v).inputs = s.inputs := rfl
@[simp] theorem setVal_log (s : State) (v : Quad) :
    (s.setVal v).log = s.log := rfl
@[simp] theorem setVal_cfg (s : State) (v : Quad) :
    (s.setVal v).cfg = s.cfg := rfl

/-! ## `s.clearIter` -/

@[simp] theorem clearIter_pc (s : State) :
    (s.clearIter).pc = s.pc := rfl
@[simp] theorem clearIter_x_op (s : State) :
    (s.clearIter).x.op = s.x.op := rfl
@[simp] theorem clearIter_x_dev (s : State) :
    (s.clearIter).x.dev = s.x.dev := rfl
@[simp] theorem clearIter_x_cnt (s : State) :
    (s.clearIter).x.cnt = s.x.cnt := rfl
@[simp] theorem clearIter_x_arg (s : State) :
    (s.clearIter).x.arg = s.x.arg := rfl
@[simp] theorem clearIter_x_lba (s : State) :
    (s.clearIter).x.lba = s.x.lba := rfl
@[simp] theorem clearIter_x_buf (s : State) :
    (s.clearIter).x.buf = s.x.buf := rfl
@[simp] theorem clearIter_x_wr (s : State) :
    (s.clearIter).x.wr = s.x.wr := rfl
@[simp] theorem clearIter_x_cmdb (s : State) :
    (s.clearIter).x.cmdb = s.x.cmdb := rfl
@[simp] theorem clearIter_x_flg (s : State) :
    (s.clearIter).x.flg = s.x.flg := rfl
@[simp] theorem clearIter_x_slot (s : State) :
    (s.clearIter).x.slot = s.x.slot := rfl
@[simp] theorem clearIter_x_cid (s : State) :
    (s.clearIter).x.cid = s.x.cid := rfl
@[simp] theorem clearIter_x_nprd (s : State) :
    (s.clearIter).x.nprd = s.x.nprd := rfl
@[simp] theorem clearIter_x_bytes (s : State) :
    (s.clearIter).x.bytes = s.x.bytes := rfl
@[simp] theorem clearIter_x_iter (s : State) :
    (s.clearIter).x.iter = 0#32 := rfl
@[simp] theorem clearIter_x_res (s : State) :
    (s.clearIter).x.res = s.x.res := rfl
@[simp] theorem clearIter_x_raw (s : State) :
    (s.clearIter).x.raw = s.x.raw := rfl
@[simp] theorem clearIter_x_val (s : State) :
    (s.clearIter).x.val = s.x.val := rfl
@[simp] theorem clearIter_hba (s : State) :
    (s.clearIter).hba = s.hba := rfl
@[simp] theorem clearIter_port (s : State) :
    (s.clearIter).port = s.port := rfl
@[simp] theorem clearIter_nvme (s : State) :
    (s.clearIter).nvme = s.nvme := rfl
@[simp] theorem clearIter_qp (s : State) :
    (s.clearIter).qp = s.qp := rfl
@[simp] theorem clearIter_dev (s : State) :
    (s.clearIter).dev = s.dev := rfl
@[simp] theorem clearIter_regs (s : State) :
    (s.clearIter).regs = s.regs := rfl
@[simp] theorem clearIter_mem (s : State) :
    (s.clearIter).mem = s.mem := rfl
@[simp] theorem clearIter_claim (s : State) :
    (s.clearIter).claim = s.claim := rfl
@[simp] theorem clearIter_inflight (s : State) :
    (s.clearIter).inflight = s.inflight := rfl
@[simp] theorem clearIter_leaked (s : State) :
    (s.clearIter).leaked = s.leaked := rfl
@[simp] theorem clearIter_built (s : State) :
    (s.clearIter).built = s.built := rfl
@[simp] theorem clearIter_pend (s : State) :
    (s.clearIter).pend = s.pend := rfl
@[simp] theorem clearIter_rsp (s : State) :
    (s.clearIter).rsp = s.rsp := rfl
@[simp] theorem clearIter_nrsp (s : State) :
    (s.clearIter).nrsp = s.nrsp := rfl
@[simp] theorem clearIter_draws (s : State) :
    (s.clearIter).draws = s.draws := rfl
@[simp] theorem clearIter_script (s : State) :
    (s.clearIter).script = s.script := rfl
@[simp] theorem clearIter_inputs (s : State) :
    (s.clearIter).inputs = s.inputs := rfl
@[simp] theorem clearIter_log (s : State) :
    (s.clearIter).log = s.log := rfl
@[simp] theorem clearIter_cfg (s : State) :
    (s.clearIter).cfg = s.cfg := rfl

/-! ## `s.bumpIter` -/

@[simp] theorem bumpIter_pc (s : State) :
    (s.bumpIter).pc = s.pc := rfl
@[simp] theorem bumpIter_x_op (s : State) :
    (s.bumpIter).x.op = s.x.op := rfl
@[simp] theorem bumpIter_x_dev (s : State) :
    (s.bumpIter).x.dev = s.x.dev := rfl
@[simp] theorem bumpIter_x_cnt (s : State) :
    (s.bumpIter).x.cnt = s.x.cnt := rfl
@[simp] theorem bumpIter_x_arg (s : State) :
    (s.bumpIter).x.arg = s.x.arg := rfl
@[simp] theorem bumpIter_x_lba (s : State) :
    (s.bumpIter).x.lba = s.x.lba := rfl
@[simp] theorem bumpIter_x_buf (s : State) :
    (s.bumpIter).x.buf = s.x.buf := rfl
@[simp] theorem bumpIter_x_wr (s : State) :
    (s.bumpIter).x.wr = s.x.wr := rfl
@[simp] theorem bumpIter_x_cmdb (s : State) :
    (s.bumpIter).x.cmdb = s.x.cmdb := rfl
@[simp] theorem bumpIter_x_flg (s : State) :
    (s.bumpIter).x.flg = s.x.flg := rfl
@[simp] theorem bumpIter_x_slot (s : State) :
    (s.bumpIter).x.slot = s.x.slot := rfl
@[simp] theorem bumpIter_x_cid (s : State) :
    (s.bumpIter).x.cid = s.x.cid := rfl
@[simp] theorem bumpIter_x_nprd (s : State) :
    (s.bumpIter).x.nprd = s.x.nprd := rfl
@[simp] theorem bumpIter_x_bytes (s : State) :
    (s.bumpIter).x.bytes = s.x.bytes := rfl
@[simp] theorem bumpIter_x_iter (s : State) :
    (s.bumpIter).x.iter = s.x.iter + 1#32 := rfl
@[simp] theorem bumpIter_x_res (s : State) :
    (s.bumpIter).x.res = s.x.res := rfl
@[simp] theorem bumpIter_x_raw (s : State) :
    (s.bumpIter).x.raw = s.x.raw := rfl
@[simp] theorem bumpIter_x_val (s : State) :
    (s.bumpIter).x.val = s.x.val := rfl
@[simp] theorem bumpIter_hba (s : State) :
    (s.bumpIter).hba = s.hba := rfl
@[simp] theorem bumpIter_port (s : State) :
    (s.bumpIter).port = s.port := rfl
@[simp] theorem bumpIter_nvme (s : State) :
    (s.bumpIter).nvme = s.nvme := rfl
@[simp] theorem bumpIter_qp (s : State) :
    (s.bumpIter).qp = s.qp := rfl
@[simp] theorem bumpIter_dev (s : State) :
    (s.bumpIter).dev = s.dev := rfl
@[simp] theorem bumpIter_regs (s : State) :
    (s.bumpIter).regs = s.regs := rfl
@[simp] theorem bumpIter_mem (s : State) :
    (s.bumpIter).mem = s.mem := rfl
@[simp] theorem bumpIter_claim (s : State) :
    (s.bumpIter).claim = s.claim := rfl
@[simp] theorem bumpIter_inflight (s : State) :
    (s.bumpIter).inflight = s.inflight := rfl
@[simp] theorem bumpIter_leaked (s : State) :
    (s.bumpIter).leaked = s.leaked := rfl
@[simp] theorem bumpIter_built (s : State) :
    (s.bumpIter).built = s.built := rfl
@[simp] theorem bumpIter_pend (s : State) :
    (s.bumpIter).pend = s.pend := rfl
@[simp] theorem bumpIter_rsp (s : State) :
    (s.bumpIter).rsp = s.rsp := rfl
@[simp] theorem bumpIter_nrsp (s : State) :
    (s.bumpIter).nrsp = s.nrsp := rfl
@[simp] theorem bumpIter_draws (s : State) :
    (s.bumpIter).draws = s.draws := rfl
@[simp] theorem bumpIter_script (s : State) :
    (s.bumpIter).script = s.script := rfl
@[simp] theorem bumpIter_inputs (s : State) :
    (s.bumpIter).inputs = s.inputs := rfl
@[simp] theorem bumpIter_log (s : State) :
    (s.bumpIter).log = s.log := rfl
@[simp] theorem bumpIter_cfg (s : State) :
    (s.bumpIter).cfg = s.cfg := rfl

/-! ## `s.afterRead w a` -/

@[simp] theorem afterRead_pc (s : State) (w : Width) (a : Nat) :
    (s.afterRead w a).pc = s.pc := rfl
@[simp] theorem afterRead_x (s : State) (w : Width) (a : Nat) :
    (s.afterRead w a).x = s.x := rfl
@[simp] theorem afterRead_hba (s : State) (w : Width) (a : Nat) :
    (s.afterRead w a).hba = s.hba := rfl
@[simp] theorem afterRead_port (s : State) (w : Width) (a : Nat) :
    (s.afterRead w a).port = s.port := rfl
@[simp] theorem afterRead_nvme (s : State) (w : Width) (a : Nat) :
    (s.afterRead w a).nvme = s.nvme := rfl
@[simp] theorem afterRead_qp (s : State) (w : Width) (a : Nat) :
    (s.afterRead w a).qp = s.qp := rfl
@[simp] theorem afterRead_dev (s : State) (w : Width) (a : Nat) :
    (s.afterRead w a).dev = s.dev := rfl
@[simp] theorem afterRead_regs (s : State) (w : Width) (a : Nat) :
    (s.afterRead w a).regs = s.regs := rfl
@[simp] theorem afterRead_mem (s : State) (w : Width) (a : Nat) :
    (s.afterRead w a).mem = s.mem := rfl
@[simp] theorem afterRead_claim (s : State) (w : Width) (a : Nat) :
    (s.afterRead w a).claim = s.claim := rfl
@[simp] theorem afterRead_inflight (s : State) (w : Width) (a : Nat) :
    (s.afterRead w a).inflight = s.inflight := rfl
@[simp] theorem afterRead_leaked (s : State) (w : Width) (a : Nat) :
    (s.afterRead w a).leaked = s.leaked := rfl
@[simp] theorem afterRead_built (s : State) (w : Width) (a : Nat) :
    (s.afterRead w a).built = s.built := rfl
@[simp] theorem afterRead_pend (s : State) (w : Width) (a : Nat) :
    (s.afterRead w a).pend = s.pend := rfl
@[simp] theorem afterRead_rsp (s : State) (w : Width) (a : Nat) :
    (s.afterRead w a).rsp = s.rsp := rfl
@[simp] theorem afterRead_nrsp (s : State) (w : Width) (a : Nat) :
    (s.afterRead w a).nrsp = s.nrsp := rfl
@[simp] theorem afterRead_draws (s : State) (w : Width) (a : Nat) :
    (s.afterRead w a).draws = if (alGet s.regs a).isSome then s.draws else s.draws + 1 := rfl
@[simp] theorem afterRead_script (s : State) (w : Width) (a : Nat) :
    (s.afterRead w a).script = s.script := rfl
@[simp] theorem afterRead_inputs (s : State) (w : Width) (a : Nat) :
    (s.afterRead w a).inputs = s.inputs := rfl
@[simp] theorem afterRead_log (s : State) (w : Width) (a : Nat) :
    (s.afterRead w a).log = .rd w a (s.busValue w a) :: s.log := rfl
@[simp] theorem afterRead_cfg (s : State) (w : Width) (a : Nat) :
    (s.afterRead w a).cfg = s.cfg := rfl

/-! ## `s.afterWrite w a v` -/

@[simp] theorem afterWrite_pc (s : State) (w : Width) (a : Nat) (v : Quad) :
    (s.afterWrite w a v).pc = s.pc := rfl
@[simp] theorem afterWrite_x (s : State) (w : Width) (a : Nat) (v : Quad) :
    (s.afterWrite w a v).x = s.x := rfl
@[simp] theorem afterWrite_hba (s : State) (w : Width) (a : Nat) (v : Quad) :
    (s.afterWrite w a v).hba = s.hba := rfl
@[simp] theorem afterWrite_port (s : State) (w : Width) (a : Nat) (v : Quad) :
    (s.afterWrite w a v).port = s.port := rfl
@[simp] theorem afterWrite_nvme (s : State) (w : Width) (a : Nat) (v : Quad) :
    (s.afterWrite w a v).nvme = s.nvme := rfl
@[simp] theorem afterWrite_qp (s : State) (w : Width) (a : Nat) (v : Quad) :
    (s.afterWrite w a v).qp = s.qp := rfl
@[simp] theorem afterWrite_dev (s : State) (w : Width) (a : Nat) (v : Quad) :
    (s.afterWrite w a v).dev = s.dev := rfl
@[simp] theorem afterWrite_regs (s : State) (w : Width) (a : Nat) (v : Quad) :
    (s.afterWrite w a v).regs = writeReg s.regs (s.regKind a) a (w.trunc v) (s.busValue w a) := rfl
@[simp] theorem afterWrite_mem (s : State) (w : Width) (a : Nat) (v : Quad) :
    (s.afterWrite w a v).mem = s.mem := rfl
@[simp] theorem afterWrite_claim (s : State) (w : Width) (a : Nat) (v : Quad) :
    (s.afterWrite w a v).claim = s.claim := rfl
@[simp] theorem afterWrite_inflight (s : State) (w : Width) (a : Nat) (v : Quad) :
    (s.afterWrite w a v).inflight = s.inflight := rfl
@[simp] theorem afterWrite_leaked (s : State) (w : Width) (a : Nat) (v : Quad) :
    (s.afterWrite w a v).leaked = s.leaked := rfl
@[simp] theorem afterWrite_built (s : State) (w : Width) (a : Nat) (v : Quad) :
    (s.afterWrite w a v).built = s.built := rfl
@[simp] theorem afterWrite_pend (s : State) (w : Width) (a : Nat) (v : Quad) :
    (s.afterWrite w a v).pend = s.pend := rfl
@[simp] theorem afterWrite_rsp (s : State) (w : Width) (a : Nat) (v : Quad) :
    (s.afterWrite w a v).rsp = s.rsp := rfl
@[simp] theorem afterWrite_nrsp (s : State) (w : Width) (a : Nat) (v : Quad) :
    (s.afterWrite w a v).nrsp = s.nrsp := rfl
@[simp] theorem afterWrite_draws (s : State) (w : Width) (a : Nat) (v : Quad) :
    (s.afterWrite w a v).draws = if s.writeDraws a then s.draws + 1 else s.draws := rfl
@[simp] theorem afterWrite_script (s : State) (w : Width) (a : Nat) (v : Quad) :
    (s.afterWrite w a v).script = s.script := rfl
@[simp] theorem afterWrite_inputs (s : State) (w : Width) (a : Nat) (v : Quad) :
    (s.afterWrite w a v).inputs = s.inputs := rfl
@[simp] theorem afterWrite_log (s : State) (w : Width) (a : Nat) (v : Quad) :
    (s.afterWrite w a v).log = .wr w a (w.trunc v) :: s.log := rfl
@[simp] theorem afterWrite_cfg (s : State) (w : Width) (a : Nat) (v : Quad) :
    (s.afterWrite w a v).cfg = s.cfg := rfl

/-! ## `s.afterStore a bs` -/

@[simp] theorem afterStore_pc (s : State) (a : Nat) (bs : List Byte) :
    (s.afterStore a bs).pc = s.pc := rfl
@[simp] theorem afterStore_x (s : State) (a : Nat) (bs : List Byte) :
    (s.afterStore a bs).x = s.x := rfl
@[simp] theorem afterStore_hba (s : State) (a : Nat) (bs : List Byte) :
    (s.afterStore a bs).hba = s.hba := rfl
@[simp] theorem afterStore_port (s : State) (a : Nat) (bs : List Byte) :
    (s.afterStore a bs).port = s.port := rfl
@[simp] theorem afterStore_nvme (s : State) (a : Nat) (bs : List Byte) :
    (s.afterStore a bs).nvme = s.nvme := rfl
@[simp] theorem afterStore_qp (s : State) (a : Nat) (bs : List Byte) :
    (s.afterStore a bs).qp = s.qp := rfl
@[simp] theorem afterStore_dev (s : State) (a : Nat) (bs : List Byte) :
    (s.afterStore a bs).dev = s.dev := rfl
@[simp] theorem afterStore_regs (s : State) (a : Nat) (bs : List Byte) :
    (s.afterStore a bs).regs = s.regs := rfl
@[simp] theorem afterStore_mem (s : State) (a : Nat) (bs : List Byte) :
    (s.afterStore a bs).mem = s.mem.write a bs := rfl
@[simp] theorem afterStore_claim (s : State) (a : Nat) (bs : List Byte) :
    (s.afterStore a bs).claim = s.claim := rfl
@[simp] theorem afterStore_inflight (s : State) (a : Nat) (bs : List Byte) :
    (s.afterStore a bs).inflight = s.inflight := rfl
@[simp] theorem afterStore_leaked (s : State) (a : Nat) (bs : List Byte) :
    (s.afterStore a bs).leaked = s.leaked := rfl
@[simp] theorem afterStore_built (s : State) (a : Nat) (bs : List Byte) :
    (s.afterStore a bs).built = s.built := rfl
@[simp] theorem afterStore_pend (s : State) (a : Nat) (bs : List Byte) :
    (s.afterStore a bs).pend = { byHost := false, addr := a, len := bs.length } :: s.pend := rfl
@[simp] theorem afterStore_rsp (s : State) (a : Nat) (bs : List Byte) :
    (s.afterStore a bs).rsp = s.rsp := rfl
@[simp] theorem afterStore_nrsp (s : State) (a : Nat) (bs : List Byte) :
    (s.afterStore a bs).nrsp = s.nrsp := rfl
@[simp] theorem afterStore_draws (s : State) (a : Nat) (bs : List Byte) :
    (s.afterStore a bs).draws = s.draws := rfl
@[simp] theorem afterStore_script (s : State) (a : Nat) (bs : List Byte) :
    (s.afterStore a bs).script = s.script := rfl
@[simp] theorem afterStore_inputs (s : State) (a : Nat) (bs : List Byte) :
    (s.afterStore a bs).inputs = s.inputs := rfl
@[simp] theorem afterStore_log (s : State) (a : Nat) (bs : List Byte) :
    (s.afterStore a bs).log = .store a bs.length :: s.log := rfl
@[simp] theorem afterStore_cfg (s : State) (a : Nat) (bs : List Byte) :
    (s.afterStore a bs).cfg = s.cfg := rfl

/-! ## `publish b s` -/

@[simp] theorem publish_pc (b : Option (Nat × Nat)) (s : State) :
    (publish b s).pc = s.pc := rfl
@[simp] theorem publish_x (b : Option (Nat × Nat)) (s : State) :
    (publish b s).x = s.x := rfl
@[simp] theorem publish_hba (b : Option (Nat × Nat)) (s : State) :
    (publish b s).hba = s.hba := rfl
@[simp] theorem publish_port (b : Option (Nat × Nat)) (s : State) :
    (publish b s).port = s.port := rfl
@[simp] theorem publish_nvme (b : Option (Nat × Nat)) (s : State) :
    (publish b s).nvme = s.nvme := rfl
@[simp] theorem publish_qp (b : Option (Nat × Nat)) (s : State) :
    (publish b s).qp = s.qp := rfl
@[simp] theorem publish_dev (b : Option (Nat × Nat)) (s : State) :
    (publish b s).dev = s.dev := rfl
@[simp] theorem publish_regs (b : Option (Nat × Nat)) (s : State) :
    (publish b s).regs = s.regs := rfl
@[simp] theorem publish_mem (b : Option (Nat × Nat)) (s : State) :
    (publish b s).mem = s.mem := rfl
@[simp] theorem publish_claim (b : Option (Nat × Nat)) (s : State) :
    (publish b s).claim = s.claim := rfl
@[simp] theorem publish_inflight (b : Option (Nat × Nat)) (s : State) :
    (publish b s).inflight = s.inflight := rfl
@[simp] theorem publish_leaked (b : Option (Nat × Nat)) (s : State) :
    (publish b s).leaked = s.leaked := rfl
@[simp] theorem publish_built (b : Option (Nat × Nat)) (s : State) :
    (publish b s).built = s.built := rfl
@[simp] theorem publish_pend (b : Option (Nat × Nat)) (s : State) :
    (publish b s).pend = s.pend.flatMap (PendStore.left b) := rfl
@[simp] theorem publish_rsp (b : Option (Nat × Nat)) (s : State) :
    (publish b s).rsp = s.rsp := rfl
@[simp] theorem publish_nrsp (b : Option (Nat × Nat)) (s : State) :
    (publish b s).nrsp = s.nrsp := rfl
@[simp] theorem publish_draws (b : Option (Nat × Nat)) (s : State) :
    (publish b s).draws = s.draws := rfl
@[simp] theorem publish_script (b : Option (Nat × Nat)) (s : State) :
    (publish b s).script = s.script := rfl
@[simp] theorem publish_inputs (b : Option (Nat × Nat)) (s : State) :
    (publish b s).inputs = s.inputs := rfl
@[simp] theorem publish_log (b : Option (Nat × Nat)) (s : State) :
    (publish b s).log = .publish :: s.log := rfl
@[simp] theorem publish_cfg (b : Option (Nat × Nat)) (s : State) :
    (publish b s).cfg = s.cfg := rfl

/-! ## `publishAll s` -/

@[simp] theorem publishAll_pc (s : State) :
    (publishAll s).pc = s.pc := rfl
@[simp] theorem publishAll_x (s : State) :
    (publishAll s).x = s.x := rfl
@[simp] theorem publishAll_hba (s : State) :
    (publishAll s).hba = s.hba := rfl
@[simp] theorem publishAll_port (s : State) :
    (publishAll s).port = s.port := rfl
@[simp] theorem publishAll_nvme (s : State) :
    (publishAll s).nvme = s.nvme := rfl
@[simp] theorem publishAll_qp (s : State) :
    (publishAll s).qp = s.qp := rfl
@[simp] theorem publishAll_dev (s : State) :
    (publishAll s).dev = s.dev := rfl
@[simp] theorem publishAll_regs (s : State) :
    (publishAll s).regs = s.regs := rfl
@[simp] theorem publishAll_mem (s : State) :
    (publishAll s).mem = s.mem := rfl
@[simp] theorem publishAll_claim (s : State) :
    (publishAll s).claim = s.claim := rfl
@[simp] theorem publishAll_inflight (s : State) :
    (publishAll s).inflight = s.inflight := rfl
@[simp] theorem publishAll_leaked (s : State) :
    (publishAll s).leaked = s.leaked := rfl
@[simp] theorem publishAll_built (s : State) :
    (publishAll s).built = s.built := rfl
@[simp] theorem publishAll_pend (s : State) :
    (publishAll s).pend = [] := rfl
@[simp] theorem publishAll_rsp (s : State) :
    (publishAll s).rsp = s.rsp := rfl
@[simp] theorem publishAll_nrsp (s : State) :
    (publishAll s).nrsp = s.nrsp := rfl
@[simp] theorem publishAll_draws (s : State) :
    (publishAll s).draws = s.draws := rfl
@[simp] theorem publishAll_script (s : State) :
    (publishAll s).script = s.script := rfl
@[simp] theorem publishAll_inputs (s : State) :
    (publishAll s).inputs = s.inputs := rfl
@[simp] theorem publishAll_log (s : State) :
    (publishAll s).log = .publish :: s.log := rfl
@[simp] theorem publishAll_cfg (s : State) :
    (publishAll s).cfg = s.cfg := rfl

/-! ## `leak s` -/

@[simp] theorem leak_pc (s : State) :
    (leak s).pc = s.pc := rfl
@[simp] theorem leak_x (s : State) :
    (leak s).x = s.x := rfl
@[simp] theorem leak_hba (s : State) :
    (leak s).hba = s.hba := rfl
@[simp] theorem leak_port (s : State) :
    (leak s).port = s.port := rfl
@[simp] theorem leak_nvme (s : State) :
    (leak s).nvme = s.nvme := rfl
@[simp] theorem leak_qp (s : State) :
    (leak s).qp = s.qp := rfl
@[simp] theorem leak_dev (s : State) :
    (leak s).dev = s.dev := rfl
@[simp] theorem leak_regs (s : State) :
    (leak s).regs = s.regs := rfl
@[simp] theorem leak_mem (s : State) :
    (leak s).mem = s.mem := rfl
@[simp] theorem leak_claim (s : State) :
    (leak s).claim = s.claim := rfl
@[simp] theorem leak_inflight (s : State) :
    (leak s).inflight = none := rfl
@[simp] theorem leak_leaked (s : State) :
    (leak s).leaked = s.leaked ++ s.inflight.toList := rfl
@[simp] theorem leak_built (s : State) :
    (leak s).built = s.built := rfl
@[simp] theorem leak_pend (s : State) :
    (leak s).pend = s.pend := rfl
@[simp] theorem leak_rsp (s : State) :
    (leak s).rsp = s.rsp := rfl
@[simp] theorem leak_nrsp (s : State) :
    (leak s).nrsp = s.nrsp := rfl
@[simp] theorem leak_draws (s : State) :
    (leak s).draws = s.draws := rfl
@[simp] theorem leak_script (s : State) :
    (leak s).script = s.script := rfl
@[simp] theorem leak_inputs (s : State) :
    (leak s).inputs = s.inputs := rfl
@[simp] theorem leak_log (s : State) :
    (leak s).log = s.log := rfl
@[simp] theorem leak_cfg (s : State) :
    (leak s).cfg = s.cfg := rfl

/-! ## `markIssued t s` -/

@[simp] theorem markIssued_pc (t : Tag) (s : State) :
    (markIssued t s).pc = .issued := rfl
@[simp] theorem markIssued_x (t : Tag) (s : State) :
    (markIssued t s).x = s.x := rfl
@[simp] theorem markIssued_hba (t : Tag) (s : State) :
    (markIssued t s).hba = s.hba := rfl
@[simp] theorem markIssued_port (t : Tag) (s : State) :
    (markIssued t s).port = s.port := rfl
@[simp] theorem markIssued_nvme (t : Tag) (s : State) :
    (markIssued t s).nvme = s.nvme := rfl
@[simp] theorem markIssued_qp (t : Tag) (s : State) :
    (markIssued t s).qp = s.qp := rfl
@[simp] theorem markIssued_dev (t : Tag) (s : State) :
    (markIssued t s).dev = s.dev := rfl
@[simp] theorem markIssued_regs (t : Tag) (s : State) :
    (markIssued t s).regs = s.regs := rfl
@[simp] theorem markIssued_mem (t : Tag) (s : State) :
    (markIssued t s).mem = s.mem := rfl
@[simp] theorem markIssued_claim (t : Tag) (s : State) :
    (markIssued t s).claim = s.claim := rfl
@[simp] theorem markIssued_inflight (t : Tag) (s : State) :
    (markIssued t s).inflight = some t := rfl
@[simp] theorem markIssued_leaked (t : Tag) (s : State) :
    (markIssued t s).leaked = s.leaked := rfl
@[simp] theorem markIssued_built (t : Tag) (s : State) :
    (markIssued t s).built = s.built := rfl
@[simp] theorem markIssued_pend (t : Tag) (s : State) :
    (markIssued t s).pend = s.pend := rfl
@[simp] theorem markIssued_rsp (t : Tag) (s : State) :
    (markIssued t s).rsp = s.rsp := rfl
@[simp] theorem markIssued_nrsp (t : Tag) (s : State) :
    (markIssued t s).nrsp = s.nrsp := rfl
@[simp] theorem markIssued_draws (t : Tag) (s : State) :
    (markIssued t s).draws = s.draws := rfl
@[simp] theorem markIssued_script (t : Tag) (s : State) :
    (markIssued t s).script = s.script := rfl
@[simp] theorem markIssued_inputs (t : Tag) (s : State) :
    (markIssued t s).inputs = s.inputs := rfl
@[simp] theorem markIssued_log (t : Tag) (s : State) :
    (markIssued t s).log = s.log := rfl
@[simp] theorem markIssued_cfg (t : Tag) (s : State) :
    (markIssued t s).cfg = s.cfg := rfl

/-! ## `complete s` -/

@[simp] theorem complete_pc (s : State) :
    (complete s).pc = .completed := rfl
@[simp] theorem complete_x (s : State) :
    (complete s).x = s.x := rfl
@[simp] theorem complete_hba (s : State) :
    (complete s).hba = s.hba := rfl
@[simp] theorem complete_port (s : State) :
    (complete s).port = s.port := rfl
@[simp] theorem complete_nvme (s : State) :
    (complete s).nvme = s.nvme := rfl
@[simp] theorem complete_qp (s : State) :
    (complete s).qp = s.qp := rfl
@[simp] theorem complete_dev (s : State) :
    (complete s).dev = s.dev := rfl
@[simp] theorem complete_regs (s : State) :
    (complete s).regs = s.regs := rfl
@[simp] theorem complete_mem (s : State) :
    (complete s).mem = s.mem := rfl
@[simp] theorem complete_claim (s : State) :
    (complete s).claim = none := rfl
@[simp] theorem complete_inflight (s : State) :
    (complete s).inflight = none := rfl
@[simp] theorem complete_leaked (s : State) :
    (complete s).leaked = s.leaked := rfl
@[simp] theorem complete_built (s : State) :
    (complete s).built = s.built := rfl
@[simp] theorem complete_pend (s : State) :
    (complete s).pend = s.pend := rfl
@[simp] theorem complete_rsp (s : State) :
    (complete s).rsp = s.rsp := rfl
@[simp] theorem complete_nrsp (s : State) :
    (complete s).nrsp = s.nrsp := rfl
@[simp] theorem complete_draws (s : State) :
    (complete s).draws = s.draws := rfl
@[simp] theorem complete_script (s : State) :
    (complete s).script = s.script := rfl
@[simp] theorem complete_inputs (s : State) :
    (complete s).inputs = s.inputs := rfl
@[simp] theorem complete_log (s : State) :
    (complete s).log = s.log := rfl
@[simp] theorem complete_cfg (s : State) :
    (complete s).cfg = s.cfg := rfl

/-! ## `land s` -/

@[simp] theorem land_pc (s : State) :
    (land s).pc = s.pc := rfl
@[simp] theorem land_x (s : State) :
    (land s).x = s.x := rfl
@[simp] theorem land_hba (s : State) :
    (land s).hba = s.hba := rfl
@[simp] theorem land_port (s : State) :
    (land s).port = s.port := rfl
@[simp] theorem land_nvme (s : State) :
    (land s).nvme = s.nvme := rfl
@[simp] theorem land_qp (s : State) :
    (land s).qp = s.qp := rfl
@[simp] theorem land_dev (s : State) :
    (land s).dev = s.dev := rfl
@[simp] theorem land_regs (s : State) :
    (land s).regs = s.regs := rfl
@[simp] theorem land_mem (s : State) :
    (land s).mem = s.mem := rfl
@[simp] theorem land_claim (s : State) :
    (land s).claim = s.claim := rfl
@[simp] theorem land_inflight (s : State) :
    (land s).inflight = none := rfl
@[simp] theorem land_leaked (s : State) :
    (land s).leaked = s.leaked := rfl
@[simp] theorem land_built (s : State) :
    (land s).built = s.built := rfl
@[simp] theorem land_pend (s : State) :
    (land s).pend = s.pend := rfl
@[simp] theorem land_rsp (s : State) :
    (land s).rsp = s.rsp := rfl
@[simp] theorem land_nrsp (s : State) :
    (land s).nrsp = s.nrsp := rfl
@[simp] theorem land_draws (s : State) :
    (land s).draws = s.draws := rfl
@[simp] theorem land_script (s : State) :
    (land s).script = s.script := rfl
@[simp] theorem land_inputs (s : State) :
    (land s).inputs = s.inputs := rfl
@[simp] theorem land_log (s : State) :
    (land s).log = s.log := rfl
@[simp] theorem land_cfg (s : State) :
    (land s).cfg = s.cfg := rfl

/-! ## `settle s` -/

@[simp] theorem settle_pc (s : State) :
    (settle s).pc = .idle := rfl
@[simp] theorem settle_x (s : State) :
    (settle s).x = s.x := rfl
@[simp] theorem settle_hba (s : State) :
    (settle s).hba = s.hba := rfl
@[simp] theorem settle_port (s : State) :
    (settle s).port = s.port := rfl
@[simp] theorem settle_nvme (s : State) :
    (settle s).nvme = s.nvme := rfl
@[simp] theorem settle_qp (s : State) :
    (settle s).qp = s.qp := rfl
@[simp] theorem settle_dev (s : State) :
    (settle s).dev = s.dev := rfl
@[simp] theorem settle_regs (s : State) :
    (settle s).regs = s.regs := rfl
@[simp] theorem settle_mem (s : State) :
    (settle s).mem = s.mem := rfl
@[simp] theorem settle_claim (s : State) :
    (settle s).claim = none := rfl
@[simp] theorem settle_inflight (s : State) :
    (settle s).inflight = s.inflight := rfl
@[simp] theorem settle_leaked (s : State) :
    (settle s).leaked = s.leaked := rfl
@[simp] theorem settle_built (s : State) :
    (settle s).built = s.built := rfl
@[simp] theorem settle_pend (s : State) :
    (settle s).pend = s.pend := rfl
@[simp] theorem settle_rsp (s : State) :
    (settle s).rsp = s.rsp := rfl
@[simp] theorem settle_nrsp (s : State) :
    (settle s).nrsp = s.nrsp := rfl
@[simp] theorem settle_draws (s : State) :
    (settle s).draws = s.draws := rfl
@[simp] theorem settle_script (s : State) :
    (settle s).script = s.script := rfl
@[simp] theorem settle_inputs (s : State) :
    (settle s).inputs = s.inputs := rfl
@[simp] theorem settle_log (s : State) :
    (settle s).log = s.log := rfl
@[simp] theorem settle_cfg (s : State) :
    (settle s).cfg = s.cfg := rfl

/-! ## `forget p s` -/

@[simp] theorem forget_pc (p : Chan → Bool) (s : State) :
    (forget p s).pc = s.pc := rfl
@[simp] theorem forget_x (p : Chan → Bool) (s : State) :
    (forget p s).x = s.x := rfl
@[simp] theorem forget_hba (p : Chan → Bool) (s : State) :
    (forget p s).hba = s.hba := rfl
@[simp] theorem forget_port (p : Chan → Bool) (s : State) :
    (forget p s).port = s.port := rfl
@[simp] theorem forget_nvme (p : Chan → Bool) (s : State) :
    (forget p s).nvme = s.nvme := rfl
@[simp] theorem forget_qp (p : Chan → Bool) (s : State) :
    (forget p s).qp = s.qp := rfl
@[simp] theorem forget_dev (p : Chan → Bool) (s : State) :
    (forget p s).dev = s.dev := rfl
@[simp] theorem forget_regs (p : Chan → Bool) (s : State) :
    (forget p s).regs = s.regs := rfl
@[simp] theorem forget_mem (p : Chan → Bool) (s : State) :
    (forget p s).mem = s.mem := rfl
@[simp] theorem forget_claim (p : Chan → Bool) (s : State) :
    (forget p s).claim = s.claim := rfl
@[simp] theorem forget_inflight (p : Chan → Bool) (s : State) :
    (forget p s).inflight = s.inflight.filter (fun t => !p t.chan) := rfl
@[simp] theorem forget_leaked (p : Chan → Bool) (s : State) :
    (forget p s).leaked = s.leaked.filter (fun t => !p t.chan) := rfl
@[simp] theorem forget_built (p : Chan → Bool) (s : State) :
    (forget p s).built = s.built := rfl
@[simp] theorem forget_pend (p : Chan → Bool) (s : State) :
    (forget p s).pend = s.pend := rfl
@[simp] theorem forget_rsp (p : Chan → Bool) (s : State) :
    (forget p s).rsp = s.rsp := rfl
@[simp] theorem forget_nrsp (p : Chan → Bool) (s : State) :
    (forget p s).nrsp = s.nrsp := rfl
@[simp] theorem forget_draws (p : Chan → Bool) (s : State) :
    (forget p s).draws = s.draws := rfl
@[simp] theorem forget_script (p : Chan → Bool) (s : State) :
    (forget p s).script = s.script := rfl
@[simp] theorem forget_inputs (p : Chan → Bool) (s : State) :
    (forget p s).inputs = s.inputs := rfl
@[simp] theorem forget_log (p : Chan → Bool) (s : State) :
    (forget p s).log = s.log := rfl
@[simp] theorem forget_cfg (p : Chan → Bool) (s : State) :
    (forget p s).cfg = s.cfg := rfl

/-! ## `accept op r s` -/

@[simp] theorem accept_pc (op : Byte) (r : Request) (s : State) :
    (accept op r s).pc = s.pc := rfl
@[simp] theorem accept_x_op (op : Byte) (r : Request) (s : State) :
    (accept op r s).x.op = op := rfl
@[simp] theorem accept_x_dev (op : Byte) (r : Request) (s : State) :
    (accept op r s).x.dev = r.dev := rfl
@[simp] theorem accept_x_cnt (op : Byte) (r : Request) (s : State) :
    (accept op r s).x.cnt = r.cnt := rfl
@[simp] theorem accept_x_arg (op : Byte) (r : Request) (s : State) :
    (accept op r s).x.arg = r.arg := rfl
@[simp] theorem accept_x_lba (op : Byte) (r : Request) (s : State) :
    (accept op r s).x.lba = r.lba := rfl
@[simp] theorem accept_x_buf (op : Byte) (r : Request) (s : State) :
    (accept op r s).x.buf = r.buf := rfl
@[simp] theorem accept_x_wr (op : Byte) (r : Request) (s : State) :
    (accept op r s).x.wr = s.x.wr := rfl
@[simp] theorem accept_x_cmdb (op : Byte) (r : Request) (s : State) :
    (accept op r s).x.cmdb = s.x.cmdb := rfl
@[simp] theorem accept_x_flg (op : Byte) (r : Request) (s : State) :
    (accept op r s).x.flg = s.x.flg := rfl
@[simp] theorem accept_x_slot (op : Byte) (r : Request) (s : State) :
    (accept op r s).x.slot = s.x.slot := rfl
@[simp] theorem accept_x_cid (op : Byte) (r : Request) (s : State) :
    (accept op r s).x.cid = s.x.cid := rfl
@[simp] theorem accept_x_nprd (op : Byte) (r : Request) (s : State) :
    (accept op r s).x.nprd = s.x.nprd := rfl
@[simp] theorem accept_x_bytes (op : Byte) (r : Request) (s : State) :
    (accept op r s).x.bytes = s.x.bytes := rfl
@[simp] theorem accept_x_iter (op : Byte) (r : Request) (s : State) :
    (accept op r s).x.iter = s.x.iter := rfl
@[simp] theorem accept_x_res (op : Byte) (r : Request) (s : State) :
    (accept op r s).x.res = s.x.res := rfl
@[simp] theorem accept_x_raw (op : Byte) (r : Request) (s : State) :
    (accept op r s).x.raw = s.x.raw := rfl
@[simp] theorem accept_x_val (op : Byte) (r : Request) (s : State) :
    (accept op r s).x.val = s.x.val := rfl
@[simp] theorem accept_hba (op : Byte) (r : Request) (s : State) :
    (accept op r s).hba = s.hba := rfl
@[simp] theorem accept_port (op : Byte) (r : Request) (s : State) :
    (accept op r s).port = s.port := rfl
@[simp] theorem accept_nvme (op : Byte) (r : Request) (s : State) :
    (accept op r s).nvme = s.nvme := rfl
@[simp] theorem accept_qp (op : Byte) (r : Request) (s : State) :
    (accept op r s).qp = s.qp := rfl
@[simp] theorem accept_dev (op : Byte) (r : Request) (s : State) :
    (accept op r s).dev = s.dev := rfl
@[simp] theorem accept_regs (op : Byte) (r : Request) (s : State) :
    (accept op r s).regs = s.regs := rfl
@[simp] theorem accept_mem (op : Byte) (r : Request) (s : State) :
    (accept op r s).mem = s.mem := rfl
@[simp] theorem accept_claim (op : Byte) (r : Request) (s : State) :
    (accept op r s).claim = s.claim := rfl
@[simp] theorem accept_inflight (op : Byte) (r : Request) (s : State) :
    (accept op r s).inflight = s.inflight := rfl
@[simp] theorem accept_leaked (op : Byte) (r : Request) (s : State) :
    (accept op r s).leaked = s.leaked := rfl
@[simp] theorem accept_built (op : Byte) (r : Request) (s : State) :
    (accept op r s).built = s.built := rfl
@[simp] theorem accept_pend (op : Byte) (r : Request) (s : State) :
    (accept op r s).pend = s.pend := rfl
@[simp] theorem accept_rsp (op : Byte) (r : Request) (s : State) :
    (accept op r s).rsp = s.rsp := rfl
@[simp] theorem accept_nrsp (op : Byte) (r : Request) (s : State) :
    (accept op r s).nrsp = s.nrsp := rfl
@[simp] theorem accept_draws (op : Byte) (r : Request) (s : State) :
    (accept op r s).draws = s.draws := rfl
@[simp] theorem accept_script (op : Byte) (r : Request) (s : State) :
    (accept op r s).script = s.script := rfl
@[simp] theorem accept_inputs (op : Byte) (r : Request) (s : State) :
    (accept op r s).inputs = s.inputs := rfl
@[simp] theorem accept_log (op : Byte) (r : Request) (s : State) :
    (accept op r s).log = s.log := rfl
@[simp] theorem accept_cfg (op : Byte) (r : Request) (s : State) :
    (accept op r s).cfg = s.cfg := rfl

/-! ## `acceptMicro op r s` -/

@[simp] theorem acceptMicro_pc (op : Byte) (r : Request) (s : State) :
    (acceptMicro op r s).pc = s.pc := rfl
@[simp] theorem acceptMicro_x_op (op : Byte) (r : Request) (s : State) :
    (acceptMicro op r s).x.op = op := rfl
@[simp] theorem acceptMicro_x_dev (op : Byte) (r : Request) (s : State) :
    (acceptMicro op r s).x.dev = r.dev := rfl
@[simp] theorem acceptMicro_x_cnt (op : Byte) (r : Request) (s : State) :
    (acceptMicro op r s).x.cnt = r.cnt := rfl
@[simp] theorem acceptMicro_x_arg (op : Byte) (r : Request) (s : State) :
    (acceptMicro op r s).x.arg = r.arg := rfl
@[simp] theorem acceptMicro_x_lba (op : Byte) (r : Request) (s : State) :
    (acceptMicro op r s).x.lba = r.lba := rfl
@[simp] theorem acceptMicro_x_buf (op : Byte) (r : Request) (s : State) :
    (acceptMicro op r s).x.buf = r.buf := rfl
@[simp] theorem acceptMicro_x_wr (op : Byte) (r : Request) (s : State) :
    (acceptMicro op r s).x.wr = r.argWr := rfl
@[simp] theorem acceptMicro_x_cmdb (op : Byte) (r : Request) (s : State) :
    (acceptMicro op r s).x.cmdb = r.argCmd := rfl
@[simp] theorem acceptMicro_x_flg (op : Byte) (r : Request) (s : State) :
    (acceptMicro op r s).x.flg = r.argFlg := rfl
@[simp] theorem acceptMicro_x_slot (op : Byte) (r : Request) (s : State) :
    (acceptMicro op r s).x.slot = s.x.slot := rfl
@[simp] theorem acceptMicro_x_cid (op : Byte) (r : Request) (s : State) :
    (acceptMicro op r s).x.cid = s.x.cid := rfl
@[simp] theorem acceptMicro_x_nprd (op : Byte) (r : Request) (s : State) :
    (acceptMicro op r s).x.nprd = s.x.nprd := rfl
@[simp] theorem acceptMicro_x_bytes (op : Byte) (r : Request) (s : State) :
    (acceptMicro op r s).x.bytes = s.x.bytes := rfl
@[simp] theorem acceptMicro_x_iter (op : Byte) (r : Request) (s : State) :
    (acceptMicro op r s).x.iter = s.x.iter := rfl
@[simp] theorem acceptMicro_x_res (op : Byte) (r : Request) (s : State) :
    (acceptMicro op r s).x.res = s.x.res := rfl
@[simp] theorem acceptMicro_x_raw (op : Byte) (r : Request) (s : State) :
    (acceptMicro op r s).x.raw = s.x.raw := rfl
@[simp] theorem acceptMicro_x_val (op : Byte) (r : Request) (s : State) :
    (acceptMicro op r s).x.val = s.x.val := rfl
@[simp] theorem acceptMicro_hba (op : Byte) (r : Request) (s : State) :
    (acceptMicro op r s).hba = s.hba := rfl
@[simp] theorem acceptMicro_port (op : Byte) (r : Request) (s : State) :
    (acceptMicro op r s).port = s.port := rfl
@[simp] theorem acceptMicro_nvme (op : Byte) (r : Request) (s : State) :
    (acceptMicro op r s).nvme = s.nvme := rfl
@[simp] theorem acceptMicro_qp (op : Byte) (r : Request) (s : State) :
    (acceptMicro op r s).qp = s.qp := rfl
@[simp] theorem acceptMicro_dev (op : Byte) (r : Request) (s : State) :
    (acceptMicro op r s).dev = s.dev := rfl
@[simp] theorem acceptMicro_regs (op : Byte) (r : Request) (s : State) :
    (acceptMicro op r s).regs = s.regs := rfl
@[simp] theorem acceptMicro_mem (op : Byte) (r : Request) (s : State) :
    (acceptMicro op r s).mem = s.mem := rfl
@[simp] theorem acceptMicro_claim (op : Byte) (r : Request) (s : State) :
    (acceptMicro op r s).claim = s.claim := rfl
@[simp] theorem acceptMicro_inflight (op : Byte) (r : Request) (s : State) :
    (acceptMicro op r s).inflight = s.inflight := rfl
@[simp] theorem acceptMicro_leaked (op : Byte) (r : Request) (s : State) :
    (acceptMicro op r s).leaked = s.leaked := rfl
@[simp] theorem acceptMicro_built (op : Byte) (r : Request) (s : State) :
    (acceptMicro op r s).built = s.built := rfl
@[simp] theorem acceptMicro_pend (op : Byte) (r : Request) (s : State) :
    (acceptMicro op r s).pend = s.pend := rfl
@[simp] theorem acceptMicro_rsp (op : Byte) (r : Request) (s : State) :
    (acceptMicro op r s).rsp = s.rsp := rfl
@[simp] theorem acceptMicro_nrsp (op : Byte) (r : Request) (s : State) :
    (acceptMicro op r s).nrsp = s.nrsp := rfl
@[simp] theorem acceptMicro_draws (op : Byte) (r : Request) (s : State) :
    (acceptMicro op r s).draws = s.draws := rfl
@[simp] theorem acceptMicro_script (op : Byte) (r : Request) (s : State) :
    (acceptMicro op r s).script = s.script := rfl
@[simp] theorem acceptMicro_inputs (op : Byte) (r : Request) (s : State) :
    (acceptMicro op r s).inputs = s.inputs := rfl
@[simp] theorem acceptMicro_log (op : Byte) (r : Request) (s : State) :
    (acceptMicro op r s).log = s.log := rfl
@[simp] theorem acceptMicro_cfg (op : Byte) (r : Request) (s : State) :
    (acceptMicro op r s).cfg = s.cfg := rfl

/-! ## `respond b s` -/

@[simp] theorem respond_pc (b : Bool) (s : State) :
    (respond b s).pc = s.pc := rfl
@[simp] theorem respond_x (b : Bool) (s : State) :
    (respond b s).x = s.x := rfl
@[simp] theorem respond_hba (b : Bool) (s : State) :
    (respond b s).hba = s.hba := rfl
@[simp] theorem respond_port (b : Bool) (s : State) :
    (respond b s).port = s.port := rfl
@[simp] theorem respond_nvme (b : Bool) (s : State) :
    (respond b s).nvme = s.nvme := rfl
@[simp] theorem respond_qp (b : Bool) (s : State) :
    (respond b s).qp = s.qp := rfl
@[simp] theorem respond_dev (b : Bool) (s : State) :
    (respond b s).dev = s.dev := rfl
@[simp] theorem respond_regs (b : Bool) (s : State) :
    (respond b s).regs = s.regs := rfl
@[simp] theorem respond_mem (b : Bool) (s : State) :
    (respond b s).mem = s.mem := rfl
@[simp] theorem respond_claim (b : Bool) (s : State) :
    (respond b s).claim = s.claim := rfl
@[simp] theorem respond_inflight (b : Bool) (s : State) :
    (respond b s).inflight = s.inflight := rfl
@[simp] theorem respond_leaked (b : Bool) (s : State) :
    (respond b s).leaked = s.leaked := rfl
@[simp] theorem respond_built (b : Bool) (s : State) :
    (respond b s).built = s.built := rfl
@[simp] theorem respond_pend (b : Bool) (s : State) :
    (respond b s).pend = s.pend := rfl
@[simp] theorem respond_rsp (b : Bool) (s : State) :
    (respond b s).rsp = { res := s.x.res, pc := s.pc.code, raw := if s.x.res = Err.deviceError.code then s.x.raw else Config.freeRspRaw s.nrsp, val := if b && s.x.res == 0#8 then s.x.val else Config.freeRspVal s.nrsp } := rfl
@[simp] theorem respond_nrsp (b : Bool) (s : State) :
    (respond b s).nrsp = s.nrsp + 1 := rfl
@[simp] theorem respond_draws (b : Bool) (s : State) :
    (respond b s).draws = s.draws := rfl
@[simp] theorem respond_script (b : Bool) (s : State) :
    (respond b s).script = s.script := rfl
@[simp] theorem respond_inputs (b : Bool) (s : State) :
    (respond b s).inputs = s.inputs := rfl
@[simp] theorem respond_log (b : Bool) (s : State) :
    (respond b s).log = s.log := rfl
@[simp] theorem respond_cfg (b : Bool) (s : State) :
    (respond b s).cfg = s.cfg := rfl

/-! ## `s.allocated c k` -/

@[simp] theorem allocated_pc (s : State) (c : Chan) (k : Half) :
    (s.allocated c k).pc = .slotAllocated := rfl
@[simp] theorem allocated_x_op (s : State) (c : Chan) (k : Half) :
    (s.allocated c k).x.op = s.x.op := rfl
@[simp] theorem allocated_x_dev (s : State) (c : Chan) (k : Half) :
    (s.allocated c k).x.dev = s.x.dev := rfl
@[simp] theorem allocated_x_cnt (s : State) (c : Chan) (k : Half) :
    (s.allocated c k).x.cnt = s.x.cnt := rfl
@[simp] theorem allocated_x_arg (s : State) (c : Chan) (k : Half) :
    (s.allocated c k).x.arg = s.x.arg := rfl
@[simp] theorem allocated_x_lba (s : State) (c : Chan) (k : Half) :
    (s.allocated c k).x.lba = s.x.lba := rfl
@[simp] theorem allocated_x_buf (s : State) (c : Chan) (k : Half) :
    (s.allocated c k).x.buf = s.x.buf := rfl
@[simp] theorem allocated_x_wr (s : State) (c : Chan) (k : Half) :
    (s.allocated c k).x.wr = s.x.wr := rfl
@[simp] theorem allocated_x_cmdb (s : State) (c : Chan) (k : Half) :
    (s.allocated c k).x.cmdb = s.x.cmdb := rfl
@[simp] theorem allocated_x_flg (s : State) (c : Chan) (k : Half) :
    (s.allocated c k).x.flg = s.x.flg := rfl
@[simp] theorem allocated_x_slot (s : State) (c : Chan) (k : Half) :
    (s.allocated c k).x.slot = k := rfl
@[simp] theorem allocated_x_cid (s : State) (c : Chan) (k : Half) :
    (s.allocated c k).x.cid = s.x.cid := rfl
@[simp] theorem allocated_x_nprd (s : State) (c : Chan) (k : Half) :
    (s.allocated c k).x.nprd = s.x.nprd := rfl
@[simp] theorem allocated_x_bytes (s : State) (c : Chan) (k : Half) :
    (s.allocated c k).x.bytes = s.x.bytes := rfl
@[simp] theorem allocated_x_iter (s : State) (c : Chan) (k : Half) :
    (s.allocated c k).x.iter = s.x.iter := rfl
@[simp] theorem allocated_x_res (s : State) (c : Chan) (k : Half) :
    (s.allocated c k).x.res = s.x.res := rfl
@[simp] theorem allocated_x_raw (s : State) (c : Chan) (k : Half) :
    (s.allocated c k).x.raw = s.x.raw := rfl
@[simp] theorem allocated_x_val (s : State) (c : Chan) (k : Half) :
    (s.allocated c k).x.val = k.setWidth 64 := rfl
@[simp] theorem allocated_hba (s : State) (c : Chan) (k : Half) :
    (s.allocated c k).hba = s.hba := rfl
@[simp] theorem allocated_port (s : State) (c : Chan) (k : Half) :
    (s.allocated c k).port = s.port := rfl
@[simp] theorem allocated_nvme (s : State) (c : Chan) (k : Half) :
    (s.allocated c k).nvme = s.nvme := rfl
@[simp] theorem allocated_qp (s : State) (c : Chan) (k : Half) :
    (s.allocated c k).qp = s.qp := rfl
@[simp] theorem allocated_dev (s : State) (c : Chan) (k : Half) :
    (s.allocated c k).dev = s.dev := rfl
@[simp] theorem allocated_regs (s : State) (c : Chan) (k : Half) :
    (s.allocated c k).regs = s.regs := rfl
@[simp] theorem allocated_mem (s : State) (c : Chan) (k : Half) :
    (s.allocated c k).mem = s.mem := rfl
@[simp] theorem allocated_claim (s : State) (c : Chan) (k : Half) :
    (s.allocated c k).claim = some c := rfl
@[simp] theorem allocated_inflight (s : State) (c : Chan) (k : Half) :
    (s.allocated c k).inflight = s.inflight := rfl
@[simp] theorem allocated_leaked (s : State) (c : Chan) (k : Half) :
    (s.allocated c k).leaked = s.leaked := rfl
@[simp] theorem allocated_built (s : State) (c : Chan) (k : Half) :
    (s.allocated c k).built = none := rfl
@[simp] theorem allocated_pend (s : State) (c : Chan) (k : Half) :
    (s.allocated c k).pend = s.pend := rfl
@[simp] theorem allocated_rsp (s : State) (c : Chan) (k : Half) :
    (s.allocated c k).rsp = s.rsp := rfl
@[simp] theorem allocated_nrsp (s : State) (c : Chan) (k : Half) :
    (s.allocated c k).nrsp = s.nrsp := rfl
@[simp] theorem allocated_draws (s : State) (c : Chan) (k : Half) :
    (s.allocated c k).draws = s.draws := rfl
@[simp] theorem allocated_script (s : State) (c : Chan) (k : Half) :
    (s.allocated c k).script = s.script := rfl
@[simp] theorem allocated_inputs (s : State) (c : Chan) (k : Half) :
    (s.allocated c k).inputs = s.inputs := rfl
@[simp] theorem allocated_log (s : State) (c : Chan) (k : Half) :
    (s.allocated c k).log = s.log := rfl
@[simp] theorem allocated_cfg (s : State) (c : Chan) (k : Half) :
    (s.allocated c k).cfg = s.cfg := rfl

/-! ## `takeCid c s` -/

@[simp] theorem takeCid_pc (c : NvmeCtx) (s : State) :
    (takeCid c s).pc = s.pc := rfl
@[simp] theorem takeCid_x_op (c : NvmeCtx) (s : State) :
    (takeCid c s).x.op = s.x.op := rfl
@[simp] theorem takeCid_x_dev (c : NvmeCtx) (s : State) :
    (takeCid c s).x.dev = s.x.dev := rfl
@[simp] theorem takeCid_x_cnt (c : NvmeCtx) (s : State) :
    (takeCid c s).x.cnt = s.x.cnt := rfl
@[simp] theorem takeCid_x_arg (c : NvmeCtx) (s : State) :
    (takeCid c s).x.arg = s.x.arg := rfl
@[simp] theorem takeCid_x_lba (c : NvmeCtx) (s : State) :
    (takeCid c s).x.lba = s.x.lba := rfl
@[simp] theorem takeCid_x_buf (c : NvmeCtx) (s : State) :
    (takeCid c s).x.buf = s.x.buf := rfl
@[simp] theorem takeCid_x_wr (c : NvmeCtx) (s : State) :
    (takeCid c s).x.wr = s.x.wr := rfl
@[simp] theorem takeCid_x_cmdb (c : NvmeCtx) (s : State) :
    (takeCid c s).x.cmdb = s.x.cmdb := rfl
@[simp] theorem takeCid_x_flg (c : NvmeCtx) (s : State) :
    (takeCid c s).x.flg = s.x.flg := rfl
@[simp] theorem takeCid_x_slot (c : NvmeCtx) (s : State) :
    (takeCid c s).x.slot = s.x.slot := rfl
@[simp] theorem takeCid_x_cid (c : NvmeCtx) (s : State) :
    (takeCid c s).x.cid = c.nv.nextCid := rfl
@[simp] theorem takeCid_x_nprd (c : NvmeCtx) (s : State) :
    (takeCid c s).x.nprd = s.x.nprd := rfl
@[simp] theorem takeCid_x_bytes (c : NvmeCtx) (s : State) :
    (takeCid c s).x.bytes = s.x.bytes := rfl
@[simp] theorem takeCid_x_iter (c : NvmeCtx) (s : State) :
    (takeCid c s).x.iter = s.x.iter := rfl
@[simp] theorem takeCid_x_res (c : NvmeCtx) (s : State) :
    (takeCid c s).x.res = s.x.res := rfl
@[simp] theorem takeCid_x_raw (c : NvmeCtx) (s : State) :
    (takeCid c s).x.raw = s.x.raw := rfl
@[simp] theorem takeCid_x_val (c : NvmeCtx) (s : State) :
    (takeCid c s).x.val = s.x.val := rfl
@[simp] theorem takeCid_hba (c : NvmeCtx) (s : State) :
    (takeCid c s).hba = s.hba := rfl
@[simp] theorem takeCid_port (c : NvmeCtx) (s : State) :
    (takeCid c s).port = s.port := rfl
@[simp] theorem takeCid_nvme (c : NvmeCtx) (s : State) :
    (takeCid c s).nvme = alSet s.nvme c.qp.ctrl { c.nv with nextCid := c.nv.nextCid + 1#16 } := rfl
@[simp] theorem takeCid_qp (c : NvmeCtx) (s : State) :
    (takeCid c s).qp = s.qp := rfl
@[simp] theorem takeCid_dev (c : NvmeCtx) (s : State) :
    (takeCid c s).dev = s.dev := rfl
@[simp] theorem takeCid_regs (c : NvmeCtx) (s : State) :
    (takeCid c s).regs = s.regs := rfl
@[simp] theorem takeCid_mem (c : NvmeCtx) (s : State) :
    (takeCid c s).mem = s.mem := rfl
@[simp] theorem takeCid_claim (c : NvmeCtx) (s : State) :
    (takeCid c s).claim = s.claim := rfl
@[simp] theorem takeCid_inflight (c : NvmeCtx) (s : State) :
    (takeCid c s).inflight = s.inflight := rfl
@[simp] theorem takeCid_leaked (c : NvmeCtx) (s : State) :
    (takeCid c s).leaked = s.leaked := rfl
@[simp] theorem takeCid_built (c : NvmeCtx) (s : State) :
    (takeCid c s).built = s.built := rfl
@[simp] theorem takeCid_pend (c : NvmeCtx) (s : State) :
    (takeCid c s).pend = s.pend := rfl
@[simp] theorem takeCid_rsp (c : NvmeCtx) (s : State) :
    (takeCid c s).rsp = s.rsp := rfl
@[simp] theorem takeCid_nrsp (c : NvmeCtx) (s : State) :
    (takeCid c s).nrsp = s.nrsp := rfl
@[simp] theorem takeCid_draws (c : NvmeCtx) (s : State) :
    (takeCid c s).draws = s.draws := rfl
@[simp] theorem takeCid_script (c : NvmeCtx) (s : State) :
    (takeCid c s).script = s.script := rfl
@[simp] theorem takeCid_inputs (c : NvmeCtx) (s : State) :
    (takeCid c s).inputs = s.inputs := rfl
@[simp] theorem takeCid_log (c : NvmeCtx) (s : State) :
    (takeCid c s).log = s.log := rfl
@[simp] theorem takeCid_cfg (c : NvmeCtx) (s : State) :
    (takeCid c s).cfg = s.cfg := rfl

/-! ## `s.prdtBuilt` -/

@[simp] theorem prdtBuilt_pc (s : State) :
    (s.prdtBuilt).pc = s.pc := rfl
@[simp] theorem prdtBuilt_x_op (s : State) :
    (s.prdtBuilt).x.op = s.x.op := rfl
@[simp] theorem prdtBuilt_x_dev (s : State) :
    (s.prdtBuilt).x.dev = s.x.dev := rfl
@[simp] theorem prdtBuilt_x_cnt (s : State) :
    (s.prdtBuilt).x.cnt = s.x.cnt := rfl
@[simp] theorem prdtBuilt_x_arg (s : State) :
    (s.prdtBuilt).x.arg = s.x.arg := rfl
@[simp] theorem prdtBuilt_x_lba (s : State) :
    (s.prdtBuilt).x.lba = s.x.lba := rfl
@[simp] theorem prdtBuilt_x_buf (s : State) :
    (s.prdtBuilt).x.buf = s.x.buf := rfl
@[simp] theorem prdtBuilt_x_wr (s : State) :
    (s.prdtBuilt).x.wr = s.x.wr := rfl
@[simp] theorem prdtBuilt_x_cmdb (s : State) :
    (s.prdtBuilt).x.cmdb = s.x.cmdb := rfl
@[simp] theorem prdtBuilt_x_flg (s : State) :
    (s.prdtBuilt).x.flg = s.x.flg := rfl
@[simp] theorem prdtBuilt_x_slot (s : State) :
    (s.prdtBuilt).x.slot = s.x.slot := rfl
@[simp] theorem prdtBuilt_x_cid (s : State) :
    (s.prdtBuilt).x.cid = s.x.cid := rfl
@[simp] theorem prdtBuilt_x_nprd (s : State) :
    (s.prdtBuilt).x.nprd = BitVec.ofNat 16 (prdtCount s.x.cnt.toNat) := rfl
@[simp] theorem prdtBuilt_x_bytes (s : State) :
    (s.prdtBuilt).x.bytes = BitVec.ofNat 32 (s.x.cnt.toNat * sectorBytes) := rfl
@[simp] theorem prdtBuilt_x_iter (s : State) :
    (s.prdtBuilt).x.iter = s.x.iter := rfl
@[simp] theorem prdtBuilt_x_res (s : State) :
    (s.prdtBuilt).x.res = s.x.res := rfl
@[simp] theorem prdtBuilt_x_raw (s : State) :
    (s.prdtBuilt).x.raw = s.x.raw := rfl
@[simp] theorem prdtBuilt_x_val (s : State) :
    (s.prdtBuilt).x.val = BitVec.ofNat 64 (prdtCount s.x.cnt.toNat) := rfl
@[simp] theorem prdtBuilt_hba (s : State) :
    (s.prdtBuilt).hba = s.hba := rfl
@[simp] theorem prdtBuilt_port (s : State) :
    (s.prdtBuilt).port = s.port := rfl
@[simp] theorem prdtBuilt_nvme (s : State) :
    (s.prdtBuilt).nvme = s.nvme := rfl
@[simp] theorem prdtBuilt_qp (s : State) :
    (s.prdtBuilt).qp = s.qp := rfl
@[simp] theorem prdtBuilt_dev (s : State) :
    (s.prdtBuilt).dev = s.dev := rfl
@[simp] theorem prdtBuilt_regs (s : State) :
    (s.prdtBuilt).regs = s.regs := rfl
@[simp] theorem prdtBuilt_mem (s : State) :
    (s.prdtBuilt).mem = s.mem := rfl
@[simp] theorem prdtBuilt_claim (s : State) :
    (s.prdtBuilt).claim = s.claim := rfl
@[simp] theorem prdtBuilt_inflight (s : State) :
    (s.prdtBuilt).inflight = s.inflight := rfl
@[simp] theorem prdtBuilt_leaked (s : State) :
    (s.prdtBuilt).leaked = s.leaked := rfl
@[simp] theorem prdtBuilt_built (s : State) :
    (s.prdtBuilt).built = some (s.x.buf.toNat, s.x.cnt.toNat * sectorBytes) := rfl
@[simp] theorem prdtBuilt_pend (s : State) :
    (s.prdtBuilt).pend = s.pend := rfl
@[simp] theorem prdtBuilt_rsp (s : State) :
    (s.prdtBuilt).rsp = s.rsp := rfl
@[simp] theorem prdtBuilt_nrsp (s : State) :
    (s.prdtBuilt).nrsp = s.nrsp := rfl
@[simp] theorem prdtBuilt_draws (s : State) :
    (s.prdtBuilt).draws = s.draws := rfl
@[simp] theorem prdtBuilt_script (s : State) :
    (s.prdtBuilt).script = s.script := rfl
@[simp] theorem prdtBuilt_inputs (s : State) :
    (s.prdtBuilt).inputs = s.inputs := rfl
@[simp] theorem prdtBuilt_log (s : State) :
    (s.prdtBuilt).log = s.log := rfl
@[simp] theorem prdtBuilt_cfg (s : State) :
    (s.prdtBuilt).cfg = s.cfg := rfl

/-! ## `s.prpBuilt n` -/

@[simp] theorem prpBuilt_pc (s : State) (n : Nat) :
    (s.prpBuilt n).pc = s.pc := rfl
@[simp] theorem prpBuilt_x_op (s : State) (n : Nat) :
    (s.prpBuilt n).x.op = s.x.op := rfl
@[simp] theorem prpBuilt_x_dev (s : State) (n : Nat) :
    (s.prpBuilt n).x.dev = s.x.dev := rfl
@[simp] theorem prpBuilt_x_cnt (s : State) (n : Nat) :
    (s.prpBuilt n).x.cnt = s.x.cnt := rfl
@[simp] theorem prpBuilt_x_arg (s : State) (n : Nat) :
    (s.prpBuilt n).x.arg = s.x.arg := rfl
@[simp] theorem prpBuilt_x_lba (s : State) (n : Nat) :
    (s.prpBuilt n).x.lba = s.x.lba := rfl
@[simp] theorem prpBuilt_x_buf (s : State) (n : Nat) :
    (s.prpBuilt n).x.buf = s.x.buf := rfl
@[simp] theorem prpBuilt_x_wr (s : State) (n : Nat) :
    (s.prpBuilt n).x.wr = s.x.wr := rfl
@[simp] theorem prpBuilt_x_cmdb (s : State) (n : Nat) :
    (s.prpBuilt n).x.cmdb = s.x.cmdb := rfl
@[simp] theorem prpBuilt_x_flg (s : State) (n : Nat) :
    (s.prpBuilt n).x.flg = s.x.flg := rfl
@[simp] theorem prpBuilt_x_slot (s : State) (n : Nat) :
    (s.prpBuilt n).x.slot = s.x.slot := rfl
@[simp] theorem prpBuilt_x_cid (s : State) (n : Nat) :
    (s.prpBuilt n).x.cid = s.x.cid := rfl
@[simp] theorem prpBuilt_x_nprd (s : State) (n : Nat) :
    (s.prpBuilt n).x.nprd = s.x.nprd := rfl
@[simp] theorem prpBuilt_x_bytes (s : State) (n : Nat) :
    (s.prpBuilt n).x.bytes = BitVec.ofNat 32 n := rfl
@[simp] theorem prpBuilt_x_iter (s : State) (n : Nat) :
    (s.prpBuilt n).x.iter = s.x.iter := rfl
@[simp] theorem prpBuilt_x_res (s : State) (n : Nat) :
    (s.prpBuilt n).x.res = s.x.res := rfl
@[simp] theorem prpBuilt_x_raw (s : State) (n : Nat) :
    (s.prpBuilt n).x.raw = s.x.raw := rfl
@[simp] theorem prpBuilt_x_val (s : State) (n : Nat) :
    (s.prpBuilt n).x.val = s.x.val := rfl
@[simp] theorem prpBuilt_hba (s : State) (n : Nat) :
    (s.prpBuilt n).hba = s.hba := rfl
@[simp] theorem prpBuilt_port (s : State) (n : Nat) :
    (s.prpBuilt n).port = s.port := rfl
@[simp] theorem prpBuilt_nvme (s : State) (n : Nat) :
    (s.prpBuilt n).nvme = s.nvme := rfl
@[simp] theorem prpBuilt_qp (s : State) (n : Nat) :
    (s.prpBuilt n).qp = s.qp := rfl
@[simp] theorem prpBuilt_dev (s : State) (n : Nat) :
    (s.prpBuilt n).dev = s.dev := rfl
@[simp] theorem prpBuilt_regs (s : State) (n : Nat) :
    (s.prpBuilt n).regs = s.regs := rfl
@[simp] theorem prpBuilt_mem (s : State) (n : Nat) :
    (s.prpBuilt n).mem = s.mem := rfl
@[simp] theorem prpBuilt_claim (s : State) (n : Nat) :
    (s.prpBuilt n).claim = s.claim := rfl
@[simp] theorem prpBuilt_inflight (s : State) (n : Nat) :
    (s.prpBuilt n).inflight = s.inflight := rfl
@[simp] theorem prpBuilt_leaked (s : State) (n : Nat) :
    (s.prpBuilt n).leaked = s.leaked := rfl
@[simp] theorem prpBuilt_built (s : State) (n : Nat) :
    (s.prpBuilt n).built = some (s.x.buf.toNat, n) := rfl
@[simp] theorem prpBuilt_pend (s : State) (n : Nat) :
    (s.prpBuilt n).pend = s.pend := rfl
@[simp] theorem prpBuilt_rsp (s : State) (n : Nat) :
    (s.prpBuilt n).rsp = s.rsp := rfl
@[simp] theorem prpBuilt_nrsp (s : State) (n : Nat) :
    (s.prpBuilt n).nrsp = s.nrsp := rfl
@[simp] theorem prpBuilt_draws (s : State) (n : Nat) :
    (s.prpBuilt n).draws = s.draws := rfl
@[simp] theorem prpBuilt_script (s : State) (n : Nat) :
    (s.prpBuilt n).script = s.script := rfl
@[simp] theorem prpBuilt_inputs (s : State) (n : Nat) :
    (s.prpBuilt n).inputs = s.inputs := rfl
@[simp] theorem prpBuilt_log (s : State) (n : Nat) :
    (s.prpBuilt n).log = s.log := rfl
@[simp] theorem prpBuilt_cfg (s : State) (n : Nat) :
    (s.prpBuilt n).cfg = s.cfg := rfl

/-! ## `setTail c t s` -/

@[simp] theorem setTail_pc (c : NvmeCtx) (t : Half) (s : State) :
    (setTail c t s).pc = s.pc := rfl
@[simp] theorem setTail_x (c : NvmeCtx) (t : Half) (s : State) :
    (setTail c t s).x = s.x := rfl
@[simp] theorem setTail_hba (c : NvmeCtx) (t : Half) (s : State) :
    (setTail c t s).hba = s.hba := rfl
@[simp] theorem setTail_port (c : NvmeCtx) (t : Half) (s : State) :
    (setTail c t s).port = s.port := rfl
@[simp] theorem setTail_nvme (c : NvmeCtx) (t : Half) (s : State) :
    (setTail c t s).nvme = s.nvme := rfl
@[simp] theorem setTail_qp (c : NvmeCtx) (t : Half) (s : State) :
    (setTail c t s).qp = alSet s.qp c.q { c.qp with sqTail := t, started := true } := rfl
@[simp] theorem setTail_dev (c : NvmeCtx) (t : Half) (s : State) :
    (setTail c t s).dev = s.dev := rfl
@[simp] theorem setTail_regs (c : NvmeCtx) (t : Half) (s : State) :
    (setTail c t s).regs = s.regs := rfl
@[simp] theorem setTail_mem (c : NvmeCtx) (t : Half) (s : State) :
    (setTail c t s).mem = s.mem := rfl
@[simp] theorem setTail_claim (c : NvmeCtx) (t : Half) (s : State) :
    (setTail c t s).claim = s.claim := rfl
@[simp] theorem setTail_inflight (c : NvmeCtx) (t : Half) (s : State) :
    (setTail c t s).inflight = s.inflight := rfl
@[simp] theorem setTail_leaked (c : NvmeCtx) (t : Half) (s : State) :
    (setTail c t s).leaked = s.leaked := rfl
@[simp] theorem setTail_built (c : NvmeCtx) (t : Half) (s : State) :
    (setTail c t s).built = s.built := rfl
@[simp] theorem setTail_pend (c : NvmeCtx) (t : Half) (s : State) :
    (setTail c t s).pend = s.pend := rfl
@[simp] theorem setTail_rsp (c : NvmeCtx) (t : Half) (s : State) :
    (setTail c t s).rsp = s.rsp := rfl
@[simp] theorem setTail_nrsp (c : NvmeCtx) (t : Half) (s : State) :
    (setTail c t s).nrsp = s.nrsp := rfl
@[simp] theorem setTail_draws (c : NvmeCtx) (t : Half) (s : State) :
    (setTail c t s).draws = s.draws := rfl
@[simp] theorem setTail_script (c : NvmeCtx) (t : Half) (s : State) :
    (setTail c t s).script = s.script := rfl
@[simp] theorem setTail_inputs (c : NvmeCtx) (t : Half) (s : State) :
    (setTail c t s).inputs = s.inputs := rfl
@[simp] theorem setTail_log (c : NvmeCtx) (t : Half) (s : State) :
    (setTail c t s).log = s.log := rfl
@[simp] theorem setTail_cfg (c : NvmeCtx) (t : Half) (s : State) :
    (setTail c t s).cfg = s.cfg := rfl

/-! ## `s.setCommand w f c` -/

@[simp] theorem setCommand_pc (s : State) (w : BitVec 1) (f : BitVec 4) (c : Byte) :
    (s.setCommand w f c).pc = s.pc := rfl
@[simp] theorem setCommand_x_op (s : State) (w : BitVec 1) (f : BitVec 4) (c : Byte) :
    (s.setCommand w f c).x.op = s.x.op := rfl
@[simp] theorem setCommand_x_dev (s : State) (w : BitVec 1) (f : BitVec 4) (c : Byte) :
    (s.setCommand w f c).x.dev = s.x.dev := rfl
@[simp] theorem setCommand_x_cnt (s : State) (w : BitVec 1) (f : BitVec 4) (c : Byte) :
    (s.setCommand w f c).x.cnt = s.x.cnt := rfl
@[simp] theorem setCommand_x_arg (s : State) (w : BitVec 1) (f : BitVec 4) (c : Byte) :
    (s.setCommand w f c).x.arg = s.x.arg := rfl
@[simp] theorem setCommand_x_lba (s : State) (w : BitVec 1) (f : BitVec 4) (c : Byte) :
    (s.setCommand w f c).x.lba = s.x.lba := rfl
@[simp] theorem setCommand_x_buf (s : State) (w : BitVec 1) (f : BitVec 4) (c : Byte) :
    (s.setCommand w f c).x.buf = s.x.buf := rfl
@[simp] theorem setCommand_x_wr (s : State) (w : BitVec 1) (f : BitVec 4) (c : Byte) :
    (s.setCommand w f c).x.wr = w := rfl
@[simp] theorem setCommand_x_cmdb (s : State) (w : BitVec 1) (f : BitVec 4) (c : Byte) :
    (s.setCommand w f c).x.cmdb = c := rfl
@[simp] theorem setCommand_x_flg (s : State) (w : BitVec 1) (f : BitVec 4) (c : Byte) :
    (s.setCommand w f c).x.flg = f := rfl
@[simp] theorem setCommand_x_slot (s : State) (w : BitVec 1) (f : BitVec 4) (c : Byte) :
    (s.setCommand w f c).x.slot = s.x.slot := rfl
@[simp] theorem setCommand_x_cid (s : State) (w : BitVec 1) (f : BitVec 4) (c : Byte) :
    (s.setCommand w f c).x.cid = s.x.cid := rfl
@[simp] theorem setCommand_x_nprd (s : State) (w : BitVec 1) (f : BitVec 4) (c : Byte) :
    (s.setCommand w f c).x.nprd = s.x.nprd := rfl
@[simp] theorem setCommand_x_bytes (s : State) (w : BitVec 1) (f : BitVec 4) (c : Byte) :
    (s.setCommand w f c).x.bytes = s.x.bytes := rfl
@[simp] theorem setCommand_x_iter (s : State) (w : BitVec 1) (f : BitVec 4) (c : Byte) :
    (s.setCommand w f c).x.iter = s.x.iter := rfl
@[simp] theorem setCommand_x_res (s : State) (w : BitVec 1) (f : BitVec 4) (c : Byte) :
    (s.setCommand w f c).x.res = s.x.res := rfl
@[simp] theorem setCommand_x_raw (s : State) (w : BitVec 1) (f : BitVec 4) (c : Byte) :
    (s.setCommand w f c).x.raw = s.x.raw := rfl
@[simp] theorem setCommand_x_val (s : State) (w : BitVec 1) (f : BitVec 4) (c : Byte) :
    (s.setCommand w f c).x.val = s.x.val := rfl
@[simp] theorem setCommand_hba (s : State) (w : BitVec 1) (f : BitVec 4) (c : Byte) :
    (s.setCommand w f c).hba = s.hba := rfl
@[simp] theorem setCommand_port (s : State) (w : BitVec 1) (f : BitVec 4) (c : Byte) :
    (s.setCommand w f c).port = s.port := rfl
@[simp] theorem setCommand_nvme (s : State) (w : BitVec 1) (f : BitVec 4) (c : Byte) :
    (s.setCommand w f c).nvme = s.nvme := rfl
@[simp] theorem setCommand_qp (s : State) (w : BitVec 1) (f : BitVec 4) (c : Byte) :
    (s.setCommand w f c).qp = s.qp := rfl
@[simp] theorem setCommand_dev (s : State) (w : BitVec 1) (f : BitVec 4) (c : Byte) :
    (s.setCommand w f c).dev = s.dev := rfl
@[simp] theorem setCommand_regs (s : State) (w : BitVec 1) (f : BitVec 4) (c : Byte) :
    (s.setCommand w f c).regs = s.regs := rfl
@[simp] theorem setCommand_mem (s : State) (w : BitVec 1) (f : BitVec 4) (c : Byte) :
    (s.setCommand w f c).mem = s.mem := rfl
@[simp] theorem setCommand_claim (s : State) (w : BitVec 1) (f : BitVec 4) (c : Byte) :
    (s.setCommand w f c).claim = s.claim := rfl
@[simp] theorem setCommand_inflight (s : State) (w : BitVec 1) (f : BitVec 4) (c : Byte) :
    (s.setCommand w f c).inflight = s.inflight := rfl
@[simp] theorem setCommand_leaked (s : State) (w : BitVec 1) (f : BitVec 4) (c : Byte) :
    (s.setCommand w f c).leaked = s.leaked := rfl
@[simp] theorem setCommand_built (s : State) (w : BitVec 1) (f : BitVec 4) (c : Byte) :
    (s.setCommand w f c).built = s.built := rfl
@[simp] theorem setCommand_pend (s : State) (w : BitVec 1) (f : BitVec 4) (c : Byte) :
    (s.setCommand w f c).pend = s.pend := rfl
@[simp] theorem setCommand_rsp (s : State) (w : BitVec 1) (f : BitVec 4) (c : Byte) :
    (s.setCommand w f c).rsp = s.rsp := rfl
@[simp] theorem setCommand_nrsp (s : State) (w : BitVec 1) (f : BitVec 4) (c : Byte) :
    (s.setCommand w f c).nrsp = s.nrsp := rfl
@[simp] theorem setCommand_draws (s : State) (w : BitVec 1) (f : BitVec 4) (c : Byte) :
    (s.setCommand w f c).draws = s.draws := rfl
@[simp] theorem setCommand_script (s : State) (w : BitVec 1) (f : BitVec 4) (c : Byte) :
    (s.setCommand w f c).script = s.script := rfl
@[simp] theorem setCommand_inputs (s : State) (w : BitVec 1) (f : BitVec 4) (c : Byte) :
    (s.setCommand w f c).inputs = s.inputs := rfl
@[simp] theorem setCommand_log (s : State) (w : BitVec 1) (f : BitVec 4) (c : Byte) :
    (s.setCommand w f c).log = s.log := rfl
@[simp] theorem setCommand_cfg (s : State) (w : BitVec 1) (f : BitVec 4) (c : Byte) :
    (s.setCommand w f c).cfg = s.cfg := rfl

/-! ## `s.setTransfer n l` -/

@[simp] theorem setTransfer_pc (s : State) (n : Half) (l : Quad) :
    (s.setTransfer n l).pc = s.pc := rfl
@[simp] theorem setTransfer_x_op (s : State) (n : Half) (l : Quad) :
    (s.setTransfer n l).x.op = s.x.op := rfl
@[simp] theorem setTransfer_x_dev (s : State) (n : Half) (l : Quad) :
    (s.setTransfer n l).x.dev = s.x.dev := rfl
@[simp] theorem setTransfer_x_cnt (s : State) (n : Half) (l : Quad) :
    (s.setTransfer n l).x.cnt = n := rfl
@[simp] theorem setTransfer_x_arg (s : State) (n : Half) (l : Quad) :
    (s.setTransfer n l).x.arg = s.x.arg := rfl
@[simp] theorem setTransfer_x_lba (s : State) (n : Half) (l : Quad) :
    (s.setTransfer n l).x.lba = l := rfl
@[simp] theorem setTransfer_x_buf (s : State) (n : Half) (l : Quad) :
    (s.setTransfer n l).x.buf = s.x.buf := rfl
@[simp] theorem setTransfer_x_wr (s : State) (n : Half) (l : Quad) :
    (s.setTransfer n l).x.wr = s.x.wr := rfl
@[simp] theorem setTransfer_x_cmdb (s : State) (n : Half) (l : Quad) :
    (s.setTransfer n l).x.cmdb = s.x.cmdb := rfl
@[simp] theorem setTransfer_x_flg (s : State) (n : Half) (l : Quad) :
    (s.setTransfer n l).x.flg = s.x.flg := rfl
@[simp] theorem setTransfer_x_slot (s : State) (n : Half) (l : Quad) :
    (s.setTransfer n l).x.slot = s.x.slot := rfl
@[simp] theorem setTransfer_x_cid (s : State) (n : Half) (l : Quad) :
    (s.setTransfer n l).x.cid = s.x.cid := rfl
@[simp] theorem setTransfer_x_nprd (s : State) (n : Half) (l : Quad) :
    (s.setTransfer n l).x.nprd = s.x.nprd := rfl
@[simp] theorem setTransfer_x_bytes (s : State) (n : Half) (l : Quad) :
    (s.setTransfer n l).x.bytes = s.x.bytes := rfl
@[simp] theorem setTransfer_x_iter (s : State) (n : Half) (l : Quad) :
    (s.setTransfer n l).x.iter = s.x.iter := rfl
@[simp] theorem setTransfer_x_res (s : State) (n : Half) (l : Quad) :
    (s.setTransfer n l).x.res = s.x.res := rfl
@[simp] theorem setTransfer_x_raw (s : State) (n : Half) (l : Quad) :
    (s.setTransfer n l).x.raw = s.x.raw := rfl
@[simp] theorem setTransfer_x_val (s : State) (n : Half) (l : Quad) :
    (s.setTransfer n l).x.val = s.x.val := rfl
@[simp] theorem setTransfer_hba (s : State) (n : Half) (l : Quad) :
    (s.setTransfer n l).hba = s.hba := rfl
@[simp] theorem setTransfer_port (s : State) (n : Half) (l : Quad) :
    (s.setTransfer n l).port = s.port := rfl
@[simp] theorem setTransfer_nvme (s : State) (n : Half) (l : Quad) :
    (s.setTransfer n l).nvme = s.nvme := rfl
@[simp] theorem setTransfer_qp (s : State) (n : Half) (l : Quad) :
    (s.setTransfer n l).qp = s.qp := rfl
@[simp] theorem setTransfer_dev (s : State) (n : Half) (l : Quad) :
    (s.setTransfer n l).dev = s.dev := rfl
@[simp] theorem setTransfer_regs (s : State) (n : Half) (l : Quad) :
    (s.setTransfer n l).regs = s.regs := rfl
@[simp] theorem setTransfer_mem (s : State) (n : Half) (l : Quad) :
    (s.setTransfer n l).mem = s.mem := rfl
@[simp] theorem setTransfer_claim (s : State) (n : Half) (l : Quad) :
    (s.setTransfer n l).claim = s.claim := rfl
@[simp] theorem setTransfer_inflight (s : State) (n : Half) (l : Quad) :
    (s.setTransfer n l).inflight = s.inflight := rfl
@[simp] theorem setTransfer_leaked (s : State) (n : Half) (l : Quad) :
    (s.setTransfer n l).leaked = s.leaked := rfl
@[simp] theorem setTransfer_built (s : State) (n : Half) (l : Quad) :
    (s.setTransfer n l).built = s.built := rfl
@[simp] theorem setTransfer_pend (s : State) (n : Half) (l : Quad) :
    (s.setTransfer n l).pend = s.pend := rfl
@[simp] theorem setTransfer_rsp (s : State) (n : Half) (l : Quad) :
    (s.setTransfer n l).rsp = s.rsp := rfl
@[simp] theorem setTransfer_nrsp (s : State) (n : Half) (l : Quad) :
    (s.setTransfer n l).nrsp = s.nrsp := rfl
@[simp] theorem setTransfer_draws (s : State) (n : Half) (l : Quad) :
    (s.setTransfer n l).draws = s.draws := rfl
@[simp] theorem setTransfer_script (s : State) (n : Half) (l : Quad) :
    (s.setTransfer n l).script = s.script := rfl
@[simp] theorem setTransfer_inputs (s : State) (n : Half) (l : Quad) :
    (s.setTransfer n l).inputs = s.inputs := rfl
@[simp] theorem setTransfer_log (s : State) (n : Half) (l : Quad) :
    (s.setTransfer n l).log = s.log := rfl
@[simp] theorem setTransfer_cfg (s : State) (n : Half) (l : Quad) :
    (s.setTransfer n l).cfg = s.cfg := rfl

/-! ## `setHba h r s` -/

@[simp] theorem setHba_pc (h : Nat) (r : Hba) (s : State) :
    (setHba h r s).pc = s.pc := rfl
@[simp] theorem setHba_x (h : Nat) (r : Hba) (s : State) :
    (setHba h r s).x = s.x := rfl
@[simp] theorem setHba_hba (h : Nat) (r : Hba) (s : State) :
    (setHba h r s).hba = alSet s.hba h r := rfl
@[simp] theorem setHba_port (h : Nat) (r : Hba) (s : State) :
    (setHba h r s).port = s.port := rfl
@[simp] theorem setHba_nvme (h : Nat) (r : Hba) (s : State) :
    (setHba h r s).nvme = s.nvme := rfl
@[simp] theorem setHba_qp (h : Nat) (r : Hba) (s : State) :
    (setHba h r s).qp = s.qp := rfl
@[simp] theorem setHba_dev (h : Nat) (r : Hba) (s : State) :
    (setHba h r s).dev = s.dev := rfl
@[simp] theorem setHba_regs (h : Nat) (r : Hba) (s : State) :
    (setHba h r s).regs = s.regs := rfl
@[simp] theorem setHba_mem (h : Nat) (r : Hba) (s : State) :
    (setHba h r s).mem = s.mem := rfl
@[simp] theorem setHba_claim (h : Nat) (r : Hba) (s : State) :
    (setHba h r s).claim = s.claim := rfl
@[simp] theorem setHba_inflight (h : Nat) (r : Hba) (s : State) :
    (setHba h r s).inflight = s.inflight := rfl
@[simp] theorem setHba_leaked (h : Nat) (r : Hba) (s : State) :
    (setHba h r s).leaked = s.leaked := rfl
@[simp] theorem setHba_built (h : Nat) (r : Hba) (s : State) :
    (setHba h r s).built = s.built := rfl
@[simp] theorem setHba_pend (h : Nat) (r : Hba) (s : State) :
    (setHba h r s).pend = s.pend := rfl
@[simp] theorem setHba_rsp (h : Nat) (r : Hba) (s : State) :
    (setHba h r s).rsp = s.rsp := rfl
@[simp] theorem setHba_nrsp (h : Nat) (r : Hba) (s : State) :
    (setHba h r s).nrsp = s.nrsp := rfl
@[simp] theorem setHba_draws (h : Nat) (r : Hba) (s : State) :
    (setHba h r s).draws = s.draws := rfl
@[simp] theorem setHba_script (h : Nat) (r : Hba) (s : State) :
    (setHba h r s).script = s.script := rfl
@[simp] theorem setHba_inputs (h : Nat) (r : Hba) (s : State) :
    (setHba h r s).inputs = s.inputs := rfl
@[simp] theorem setHba_log (h : Nat) (r : Hba) (s : State) :
    (setHba h r s).log = s.log := rfl
@[simp] theorem setHba_cfg (h : Nat) (r : Hba) (s : State) :
    (setHba h r s).cfg = s.cfg := rfl

/-! ## `setStride c v s` -/

@[simp] theorem setStride_pc (c : NvmeCtx) (v : Quad) (s : State) :
    (setStride c v s).pc = s.pc := rfl
@[simp] theorem setStride_x (c : NvmeCtx) (v : Quad) (s : State) :
    (setStride c v s).x = s.x := rfl
@[simp] theorem setStride_hba (c : NvmeCtx) (v : Quad) (s : State) :
    (setStride c v s).hba = s.hba := rfl
@[simp] theorem setStride_port (c : NvmeCtx) (v : Quad) (s : State) :
    (setStride c v s).port = s.port := rfl
@[simp] theorem setStride_nvme (c : NvmeCtx) (v : Quad) (s : State) :
    (setStride c v s).nvme = alSet s.nvme c.qp.ctrl { c.nv with dstrd := v.extractLsb' 32 4 } := rfl
@[simp] theorem setStride_qp (c : NvmeCtx) (v : Quad) (s : State) :
    (setStride c v s).qp = s.qp := rfl
@[simp] theorem setStride_dev (c : NvmeCtx) (v : Quad) (s : State) :
    (setStride c v s).dev = s.dev := rfl
@[simp] theorem setStride_regs (c : NvmeCtx) (v : Quad) (s : State) :
    (setStride c v s).regs = s.regs := rfl
@[simp] theorem setStride_mem (c : NvmeCtx) (v : Quad) (s : State) :
    (setStride c v s).mem = s.mem := rfl
@[simp] theorem setStride_claim (c : NvmeCtx) (v : Quad) (s : State) :
    (setStride c v s).claim = s.claim := rfl
@[simp] theorem setStride_inflight (c : NvmeCtx) (v : Quad) (s : State) :
    (setStride c v s).inflight = s.inflight := rfl
@[simp] theorem setStride_leaked (c : NvmeCtx) (v : Quad) (s : State) :
    (setStride c v s).leaked = s.leaked := rfl
@[simp] theorem setStride_built (c : NvmeCtx) (v : Quad) (s : State) :
    (setStride c v s).built = s.built := rfl
@[simp] theorem setStride_pend (c : NvmeCtx) (v : Quad) (s : State) :
    (setStride c v s).pend = s.pend := rfl
@[simp] theorem setStride_rsp (c : NvmeCtx) (v : Quad) (s : State) :
    (setStride c v s).rsp = s.rsp := rfl
@[simp] theorem setStride_nrsp (c : NvmeCtx) (v : Quad) (s : State) :
    (setStride c v s).nrsp = s.nrsp := rfl
@[simp] theorem setStride_draws (c : NvmeCtx) (v : Quad) (s : State) :
    (setStride c v s).draws = s.draws := rfl
@[simp] theorem setStride_script (c : NvmeCtx) (v : Quad) (s : State) :
    (setStride c v s).script = s.script := rfl
@[simp] theorem setStride_inputs (c : NvmeCtx) (v : Quad) (s : State) :
    (setStride c v s).inputs = s.inputs := rfl
@[simp] theorem setStride_log (c : NvmeCtx) (v : Quad) (s : State) :
    (setStride c v s).log = s.log := rfl
@[simp] theorem setStride_cfg (c : NvmeCtx) (v : Quad) (s : State) :
    (setStride c v s).cfg = s.cfg := rfl

/-! ## `placeRequest s n w` -/

@[simp] theorem placeRequest_pc (s : State) (n w : Nat) :
    (placeRequest s n w).pc = s.pc := rfl
@[simp] theorem placeRequest_x (s : State) (n w : Nat) :
    (placeRequest s n w).x = s.x := rfl
@[simp] theorem placeRequest_hba (s : State) (n w : Nat) :
    (placeRequest s n w).hba = s.hba := rfl
@[simp] theorem placeRequest_port (s : State) (n w : Nat) :
    (placeRequest s n w).port = s.port := rfl
@[simp] theorem placeRequest_nvme (s : State) (n w : Nat) :
    (placeRequest s n w).nvme = s.nvme := rfl
@[simp] theorem placeRequest_qp (s : State) (n w : Nat) :
    (placeRequest s n w).qp = s.qp := rfl
@[simp] theorem placeRequest_dev (s : State) (n w : Nat) :
    (placeRequest s n w).dev = s.dev := rfl
@[simp] theorem placeRequest_regs (s : State) (n w : Nat) :
    (placeRequest s n w).regs = s.regs := rfl
@[simp] theorem placeRequest_mem (s : State) (n w : Nat) :
    (placeRequest s n w).mem = s.mem := rfl
@[simp] theorem placeRequest_claim (s : State) (n w : Nat) :
    (placeRequest s n w).claim = s.claim := rfl
@[simp] theorem placeRequest_inflight (s : State) (n w : Nat) :
    (placeRequest s n w).inflight = s.inflight := rfl
@[simp] theorem placeRequest_leaked (s : State) (n w : Nat) :
    (placeRequest s n w).leaked = s.leaked := rfl
@[simp] theorem placeRequest_built (s : State) (n w : Nat) :
    (placeRequest s n w).built = s.built := rfl
@[simp] theorem placeRequest_pend (s : State) (n w : Nat) :
    (placeRequest s n w).pend = s.pend := rfl
@[simp] theorem placeRequest_rsp (s : State) (n w : Nat) :
    (placeRequest s n w).rsp = s.rsp := rfl
@[simp] theorem placeRequest_nrsp (s : State) (n w : Nat) :
    (placeRequest s n w).nrsp = s.nrsp := rfl
@[simp] theorem placeRequest_draws (s : State) (n w : Nat) :
    (placeRequest s n w).draws = s.draws := rfl
@[simp] theorem placeRequest_script (s : State) (n w : Nat) :
    (placeRequest s n w).script = s.script := rfl
@[simp] theorem placeRequest_inputs (s : State) (n w : Nat) :
    (placeRequest s n w).inputs = .request (requestBytesOfWord n w) :: s.inputs := rfl
@[simp] theorem placeRequest_log (s : State) (n w : Nat) :
    (placeRequest s n w).log = s.log := rfl
@[simp] theorem placeRequest_cfg (s : State) (n w : Nat) :
    (placeRequest s n w).cfg = s.cfg := rfl

end Sys2Proof.Laws
end

