-- ==== Sys2Proof/Laws/Flow.lean ====
section
/-!
SUPPORT. How an operation runs from part to part: what `Flow.bind`, `need`, `needOk`, `endOp` and `operation` can
answer, and one rule for statements about every way a part can end.
-/

namespace Sys2Proof.Laws

open Sys2Proof.Machine

/-! ## One part after another -/

@[simp] theorem bind_go {α β : Type} (a : α) (s : State) (k : α → State → Flow β) :
    (Flow.go a s).bind k = k a s := rfl
@[simp] theorem bind_stop {α β : Type} (s : State) (k : α → State → Flow β) :
    (Flow.stop s).bind k = .stop s := rfl
@[simp] theorem bind_refuse {α β : Type} (r : Refusal) (k : α → State → Flow β) :
    (Flow.refuse r).bind k = .refuse r := rfl

theorem bind_assoc {α β γ : Type} (m : Flow α) (k : α → State → Flow β) (l : β → State → Flow γ) :
    (m.bind k).bind l = m.bind (fun a s => (k a s).bind l) := by
  cases m <;> rfl

theorem bind_eq_go {α β : Type} {m : Flow α} {k : α → State → Flow β} {b : β} {t : State} :
    m.bind k = .go b t ↔ ∃ a s, m = .go a s ∧ k a s = .go b t := by
  cases m <;> simp

theorem bind_eq_stop {α β : Type} {m : Flow α} {k : α → State → Flow β} {t : State} :
    m.bind k = .stop t ↔ m = .stop t ∨ ∃ a s, m = .go a s ∧ k a s = .stop t := by
  cases m <;> simp

/-! ## Tests -/

@[simp] theorem need_true (r : Refusal) (s : State) : need true r s = .go () s := rfl
@[simp] theorem need_false (r : Refusal) (s : State) : need false r s = .refuse r := rfl

theorem need_of {ok : Bool} (r : Refusal) (s : State) (h : ok = true) : need ok r s = .go () s := by simp [h]

@[simp] theorem need_eq_go {ok : Bool} {r : Refusal} {s t : State} {u : Unit} :
    need ok r s = .go u t ↔ ok = true ∧ t = s := by
  cases ok <;> simp [eq_comm]

@[simp] theorem need_ne_stop {ok : Bool} {r : Refusal} {s t : State} : (need ok r s = .stop t) = False := by
  cases ok <;> simp

@[simp] theorem needOk_ok {α : Type} (a : α) (s : State) : needOk (.ok a) s = .go a s := rfl
@[simp] theorem needOk_error {α : Type} (r : Refusal) (s : State) :
    needOk (.error r : Except Refusal α) s = .refuse r := rfl

@[simp] theorem needOk_eq_go {α : Type} {e : Except Refusal α} {a : α} {s t : State} :
    needOk e s = .go a t ↔ e = .ok a ∧ t = s := by
  cases e <;> simp [eq_comm]

@[simp] theorem needOk_ne_stop {α : Type} {e : Except Refusal α} {s t : State} :
    (needOk e s = .stop t) = False := by
  cases e <;> simp

/-! ## The end of an operation -/

/-- The result of an operation that succeeds: `RES` is 0, and the response stands. -/
def succeed (hasVal : Bool) (s : State) : State := respond hasVal { s with x := { s.x with res := 0#8 } }

@[simp] theorem endOp_go (v : Bool) (s : State) :
    endOp v (.go () s) = .next (respond v { s with x := { s.x with res := 0#8 } }) := rfl
@[simp] theorem endOp_stop (v : Bool) (s : State) : endOp v (.stop s) = .next (respond false s) := rfl
@[simp] theorem endOp_refuse (v : Bool) (r : Refusal) : endOp v (.refuse r) = .refused r := rfl

/-- An operation that goes on has succeeded or has ended with an error. -/
theorem endOp_eq_next {v : Bool} {m : Flow Unit} {t : State} :
    endOp v m = .next t ↔ (∃ s, m = .go () s ∧ t = succeed v s) ∨ (∃ s, m = .stop s ∧ t = respond false s) := by
  cases m with
  | go a s =>
    constructor
    · intro h
      exact .inl ⟨s, rfl, (Host.Outcome.next.inj h).symm⟩
    · rintro (⟨u, hu, rfl⟩ | ⟨u, hu, -⟩)
      · cases hu; rfl
      · cases hu
  | stop s =>
    constructor
    · intro h
      exact .inr ⟨s, rfl, (Host.Outcome.next.inj h).symm⟩
    · rintro (⟨u, hu, -⟩ | ⟨u, hu, rfl⟩)
      · cases hu
      · cases hu; rfl
  | refuse r => simp

/-- An operation that goes on is well formed, met its `pc` precondition, and its body ended. -/
theorem operation_eq_next {i : Instr} {pcOk v : Bool} {m : Flow Unit} {t : State} :
    operation i pcOk v m = .next t ↔ i.defect? = none ∧ pcOk = true ∧ endOp v m = .next t := by
  unfold operation
  split <;> rename_i h <;> cases pcOk <;> simp [h]

theorem operation_wf {i : Instr} {pcOk v : Bool} {m : Flow Unit} (hi : i.defect? = none) (hp : pcOk = true) :
    operation i pcOk v m = endOp v m := by
  simp [operation, hi, hp]

theorem operation_defect {i : Instr} {pcOk v : Bool} {m : Flow Unit} {d : Defect} (hi : i.defect? = some d) :
    operation i pcOk v m = .refused (.illFormed d) := by
  simp [operation, hi]

theorem operation_wrongPc {i : Instr} {v : Bool} {m : Flow Unit} (hi : i.defect? = none) :
    operation i false v m = .refused .wrongPc := by
  simp [operation, hi]

/-! ## Every way a part can end -/

/-- Where `m` goes on, `Q` holds of its value and state; where it ends with an error, `E` holds of the state. -/
structure Ends {α : Type} (m : Flow α) (Q : α → State → Prop) (E : State → Prop) : Prop where
  go : ∀ {a : α} {s : State}, m = .go a s → Q a s
  stop : ∀ {s : State}, m = .stop s → E s

variable {α β : Type} {Q : α → State → Prop} {R : β → State → Prop} {E : State → Prop}

theorem ends_go {a : α} {s : State} (h : Q a s) : Ends (.go a s) Q E :=
  ⟨fun e => by cases e; exact h, fun e => by cases e⟩

theorem ends_stop {s : State} (h : E s) : Ends (.stop s : Flow α) Q E :=
  ⟨fun e => (by cases e), fun e => by cases e; exact h⟩

theorem ends_refuse {r : Refusal} : Ends (.refuse r : Flow α) Q E :=
  ⟨fun e => (by cases e), fun e => by cases e⟩

theorem Ends.bind {m : Flow α} {k : α → State → Flow β} (hm : Ends m Q E)
    (hk : ∀ a s, Q a s → Ends (k a s) R E) : Ends (m.bind k) R E := by
  cases m with
  | go a s => exact hk a s (hm.go rfl)
  | stop s => exact ends_stop (hm.stop rfl)
  | refuse r => exact ends_refuse

theorem Ends.mono {m : Flow α} {Q' : α → State → Prop} {E' : State → Prop} (hm : Ends m Q E)
    (hq : ∀ a s, Q a s → Q' a s) (he : ∀ s, E s → E' s) : Ends m Q' E' :=
  ⟨fun e => hq _ _ (hm.go e), fun e => he _ (hm.stop e)⟩

theorem ends_need {Q : Unit → State → Prop} {ok : Bool} {r : Refusal} {s : State} (h : ok = true → Q () s) :
    Ends (need ok r s) Q E := by
  cases ok
  · exact ends_refuse
  · exact ends_go (h rfl)

theorem ends_needOk {e : Except Refusal α} {s : State} (h : ∀ a, e = .ok a → Q a s) : Ends (needOk e s) Q E := by
  cases e
  · exact ends_refuse
  · exact ends_go (h _ rfl)

theorem ends_ite {c : Prop} [Decidable c] {m n : Flow α} (hm : c → Ends m Q E) (hn : ¬ c → Ends n Q E) :
    Ends (if c then m else n) Q E := by
  split
  · exact hm ‹_›
  · exact hn ‹_›

/-- What holds after every way the body of an operation can end holds, with the response, of the next state. -/
theorem Ends.next {m : Flow Unit} {Q : Unit → State → Prop} {i : Instr} {pcOk v : Bool} {t : State} (h : Ends m Q E)
    (ht : operation i pcOk v m = .next t) :
    (∃ s, Q () s ∧ t = succeed v s) ∨ (∃ s, E s ∧ t = respond false s) := by
  obtain ⟨-, -, he⟩ := operation_eq_next.1 ht
  rcases endOp_eq_next.1 he with ⟨s, hm, rfl⟩ | ⟨s, hm, rfl⟩
  · exact .inl ⟨s, h.go hm, rfl⟩
  · exact .inr ⟨s, h.stop hm, rfl⟩

end Sys2Proof.Laws
end

