-- ==== Sys2Proof/Laws/Memory.lean ====
section
/-!
SUPPORT. Lists of (key, value) in rising order and system memory: what a lookup reads after a write, and that
every operation keeps the canonical form.
-/

namespace Sys2Proof.Laws

open Sys2Proof.Machine

/-! ## The canonical form as `List.Pairwise` -/

theorem rising_cons {α : Type} (a : Nat × α) (l : List (Nat × α)) :
    rising (a :: l) = true ↔ (∀ b ∈ l, a.1 < b.1) ∧ rising l = true := by
  induction l generalizing a with
  | nil => simp [rising]
  | cons b rest ih =>
    simp only [rising, Bool.and_eq_true, decide_eq_true_eq, ih b, List.mem_cons, forall_eq_or_imp]
    constructor
    · rintro ⟨h, h2, h3⟩
      exact ⟨⟨h, fun c hc => Nat.lt_trans h (h2 c hc)⟩, h2, h3⟩
    · rintro ⟨⟨h, -⟩, h2, h3⟩
      exact ⟨h, h2, h3⟩

theorem rising_iff_pairwise {α : Type} (l : List (Nat × α)) :
    rising l = true ↔ l.Pairwise (fun a b => a.1 < b.1) := by
  induction l with
  | nil => simp [rising]
  | cons a l ih => rw [rising_cons, List.pairwise_cons, ih]

theorem rising_filter {α : Type} {l : List (Nat × α)} (p : Nat × α → Bool) (h : rising l = true) :
    rising (l.filter p) = true := by
  rw [rising_iff_pairwise] at h ⊢
  exact h.filter p

/-! ## Lookup -/

theorem alGet_append {α : Type} (l m : List (Nat × α)) (k : Nat) :
    alGet (l ++ m) k = (alGet l k).or (alGet m k) := by
  induction l with
  | nil => simp [alGet]
  | cons e l ih =>
    obtain ⟨a, v⟩ := e
    by_cases h : a = k <;> simp [alGet, h, ih]

theorem alGet_filter {α : Type} (l : List (Nat × α)) (p : Nat → Bool) (k : Nat) :
    alGet (l.filter (fun e => p e.1)) k = if p k then alGet l k else none := by
  induction l with
  | nil => simp [alGet]
  | cons e l ih =>
    obtain ⟨a, v⟩ := e
    by_cases h : a = k
    · subst h
      by_cases hp : p a <;> simp [alGet, hp, ih]
    · by_cases hp : p a <;> simp [alGet, hp, h, ih]

@[simp] theorem alGet_alSet_same {α : Type} (l : List (Nat × α)) (k : Nat) (v : α) :
    alGet (alSet l k v) k = some v := by
  simp [alSet, alGet_append, alGet_filter l (fun e => decide (e < k)), alGet]

theorem alGet_alSet_other {α : Type} (l : List (Nat × α)) (k : Nat) (v : α) {j : Nat} (h : j ≠ k) :
    alGet (alSet l k v) j = alGet l j := by
  rw [alSet, alGet_append, alGet_filter l (fun e => decide (e < k)), alGet, if_neg (Ne.symm h),
    alGet_filter l (fun e => decide (k < e))]
  rcases Nat.lt_or_gt_of_ne h with h | h <;> simp [h, Nat.lt_asymm h]

@[simp] theorem alGet_alErase_same {α : Type} (l : List (Nat × α)) (k : Nat) :
    alGet (alErase l k) k = none := by
  rw [alErase, alGet_filter l (fun e => decide (e ≠ k))]; simp

theorem alGet_alErase_other {α : Type} (l : List (Nat × α)) {j k : Nat} (h : j ≠ k) :
    alGet (alErase l k) j = alGet l j := by
  rw [alErase, alGet_filter l (fun e => decide (e ≠ k))]; simp [h]

theorem alGet_mem {α : Type} {l : List (Nat × α)} {k : Nat} {v : α} (h : alGet l k = some v) : (k, v) ∈ l := by
  induction l with
  | nil => simp [alGet] at h
  | cons e l ih =>
    obtain ⟨a, w⟩ := e
    by_cases hk : a = k
    · simp only [alGet, hk, if_true, Option.some.injEq] at h
      simp [hk, h]
    · simp only [alGet, hk, if_false] at h
      exact List.mem_cons_of_mem _ (ih h)

theorem mem_alSet {α : Type} {l : List (Nat × α)} {k : Nat} {v : α} {e : Nat × α} (h : e ∈ alSet l k v) :
    e = (k, v) ∨ e ∈ l := by
  simp only [alSet, List.mem_append, List.mem_filter, List.mem_cons] at h
  rcases h with h | h | h
  · exact .inr h.1
  · exact .inl h
  · exact .inr h.1

theorem rising_alSet {α : Type} {l : List (Nat × α)} (k : Nat) (v : α) (h : rising l = true) :
    rising (alSet l k v) = true := by
  rw [rising_iff_pairwise] at h ⊢
  simp only [alSet, List.pairwise_append, List.pairwise_cons, List.mem_filter, List.mem_cons, decide_eq_true_eq]
  refine ⟨h.filter _, ⟨fun b hb => hb.2, h.filter _⟩, ?_⟩
  rintro a ⟨-, ha⟩ b (rfl | ⟨-, hb⟩)
  · exact ha
  · exact Nat.lt_trans ha hb

theorem rising_alErase {α : Type} {l : List (Nat × α)} (k : Nat) (h : rising l = true) :
    rising (alErase l k) = true :=
  rising_filter _ h

/-- In canonical form a record stands where its lookup finds it. -/
theorem alGet_of_mem {α : Type} {l : List (Nat × α)} {e : Nat × α} (h : rising l = true) (he : e ∈ l) :
    alGet l e.1 = some e.2 := by
  induction l with
  | nil => simp at he
  | cons a l ih =>
    obtain ⟨k, v⟩ := a
    rw [rising_cons] at h
    rcases List.mem_cons.1 he with rfl | he
    · simp [alGet]
    · have : k ≠ e.1 := Nat.ne_of_lt (h.1 e he)
      simp [alGet, this, ih h.2 he]

/-! ## Memory -/

theorem cells_fst_ge {a : Nat} {bs : List Byte} {c : Host.Cell} (h : c ∈ cells a bs) : a ≤ c.1 := by
  induction bs generalizing a with
  | nil => simp [cells] at h
  | cons b bs ih =>
    rcases List.mem_cons.1 h with rfl | h
    · simp
    · exact Nat.le_of_succ_le (ih h)

theorem cells_fst_lt {a : Nat} {bs : List Byte} {c : Host.Cell} (h : c ∈ cells a bs) : c.1 < a + bs.length := by
  induction bs generalizing a with
  | nil => simp [cells] at h
  | cons b bs ih =>
    rcases List.mem_cons.1 h with rfl | h
    · simp
    · have := ih h; simp only [List.length_cons]; omega

theorem rising_cells (a : Nat) (bs : List Byte) : rising (cells a bs) = true := by
  induction bs generalizing a with
  | nil => simp [cells, rising]
  | cons b bs ih =>
    rw [cells, rising_cons]
    exact ⟨fun c hc => cells_fst_ge hc, ih (a + 1)⟩

theorem alGet_cells (a : Nat) (bs : List Byte) (k : Nat) :
    alGet (cells a bs) k = if a ≤ k then bs[k - a]? else none := by
  induction bs generalizing a with
  | nil => simp [cells, alGet]
  | cons b bs ih =>
    by_cases h : a = k
    · simp [cells, alGet, h]
    · by_cases h2 : a ≤ k
      · have e : k - a = (k - (a + 1)) + 1 := by omega
        have h3 : a + 1 ≤ k := by omega
        simp [cells, alGet, h, ih, h2, h3, e]
      · have h3 : ¬ a + 1 ≤ k := by omega
        simp [cells, alGet, h, ih, h2, h3]

/-- A byte after a block write: the byte written, inside; as before, outside. -/
theorem byte?_write (m : Memory) (a : Nat) (bs : List Byte) (k : Nat) :
    (m.write a bs).byte? k = if a ≤ k ∧ k < a + bs.length then bs[k - a]? else m.byte? k := by
  unfold Memory.write Memory.byte?
  rw [alGet_append, alGet_append, alGet_filter m (fun e => decide (e < a)), alGet_cells,
    alGet_filter m (fun e => decide (a + bs.length ≤ e))]
  by_cases h1 : k < a
  · have h2 : ¬ a ≤ k := by omega
    have h3 : ¬ a + bs.length ≤ k := by omega
    simp [h1, h2, h3]
  · have h2 : a ≤ k := by omega
    by_cases h3 : k < a + bs.length
    · have h4 : k - a < bs.length := by omega
      simp [h1, h2, h3, List.getElem?_eq_getElem h4]
    · have h4 : bs.length ≤ k - a := by omega
      have h5 : a + bs.length ≤ k := by omega
      simp [h1, h2, h3, h5, List.getElem?_eq_none h4]

theorem byte?_write_inside (m : Memory) (a : Nat) (bs : List Byte) {i : Nat} (h : i < bs.length) :
    (m.write a bs).byte? (a + i) = bs[i]? := by
  rw [byte?_write, if_pos (by omega), Nat.add_sub_cancel_left]

theorem byte?_write_outside (m : Memory) (a : Nat) (bs : List Byte) {k : Nat} (h : k < a ∨ a + bs.length ≤ k) :
    (m.write a bs).byte? k = m.byte? k := by
  rw [byte?_write, if_neg (by omega)]

/-- A byte stored, and then the bytes behind it, is the whole stored at once. -/
theorem write_cons (m : Memory) (a : Nat) (b c : Byte) (bs : List Byte) :
    (m.write a [b]).write (a + 1) (c :: bs) = m.write a (b :: c :: bs) := by
  have below : (m.filter (fun e => e.1 < a)).filter (fun e => e.1 < a + 1) = m.filter (fun e => e.1 < a) := by
    rw [List.filter_filter]; exact List.filter_congr fun e _ => by by_cases h : e.1 < a <;> simp [h]; omega
  have none1 : (m.filter (fun e => e.1 < a)).filter (fun e => a + 1 + (c :: bs).length ≤ e.1) = [] := by
    rw [List.filter_filter]; exact List.filter_eq_nil_iff.2 fun e _ => by simp; omega
  have none2 : (m.filter (fun e => a + 1 ≤ e.1)).filter (fun e => e.1 < a + 1) = [] := by
    rw [List.filter_filter]; exact List.filter_eq_nil_iff.2 fun e _ => by simp
  have above : (m.filter (fun e => a + 1 ≤ e.1)).filter (fun e => a + 1 + (c :: bs).length ≤ e.1)
      = m.filter (fun e => a + (b :: c :: bs).length ≤ e.1) := by
    rw [List.filter_filter]
    exact List.filter_congr fun e _ => by simp only [← Bool.decide_and, List.length_cons]; congr 1; simp; omega
  simp only [Memory.write, List.filter_append, List.length_singleton, below, none1, none2, above]
  simp only [cells, List.filter_cons, List.filter_nil, List.length_cons]
  simp; omega

theorem rising_write (a : Nat) (bs : List Byte) {m : Memory} (h : rising m = true) :
    rising (m.write a bs) = true := by
  have hc := rising_cells a bs
  rw [rising_iff_pairwise] at h hc ⊢
  unfold Memory.write
  simp only [List.pairwise_append, List.mem_filter, List.mem_append, decide_eq_true_eq]
  refine ⟨⟨h.filter _, hc, ?_⟩, h.filter _, ?_⟩
  · rintro x ⟨-, hx⟩ y hy
    exact Nat.lt_of_lt_of_le hx (cells_fst_ge hy)
  · rintro x (⟨-, hx⟩ | hx) y ⟨-, hy⟩
    · omega
    · exact Nat.lt_of_lt_of_le (cells_fst_lt hx) hy

/-- A write below 2^64 keeps the canonical form. -/
theorem wf_write {m : Memory} {a : Nat} {bs : List Byte} (h : Memory.wf m = true)
    (hb : a + bs.length ≤ addrSpace) : Memory.wf (m.write a bs) = true := by
  simp only [Memory.wf, Bool.and_eq_true, List.all_eq_true, decide_eq_true_eq] at h ⊢
  refine ⟨rising_write a bs h.1, fun c hc => ?_⟩
  unfold Memory.write at hc
  simp only [List.mem_append, List.mem_filter] at hc
  rcases hc with (hc | hc) | hc
  · exact h.2 c hc.1
  · exact Nat.lt_of_lt_of_le (cells_fst_lt hc) hb
  · exact h.2 c hc.1

theorem wf_dmaByte {e : Nat} {m : Memory} (c : Host.Cell) (he : e ≤ addrSpace) (h : Memory.wf m = true) :
    Memory.wf (dmaByte e m c) = true := by
  unfold dmaByte
  split
  · exact wf_write h (by simp only [List.length_singleton]; omega)
  · exact h

/-- The memory at reset is in canonical form. -/
theorem wf_nil : Memory.wf [] = true := rfl

/-- A byte whose content is known reads as that. -/
theorem byteAt_known {m : Memory} {a : Nat} {b : Byte} (h : m.byte? a = some b) : m.byteAt a = b := by
  simp [Memory.byteAt, h]

/-- A byte after a block write: the byte written, inside; as before, outside. -/
theorem byteAt_write_inside (m : Memory) (a : Nat) (bs : List Byte) {i : Nat} (h : i < bs.length) :
    some ((m.write a bs).byteAt (a + i)) = bs[i]? := by
  have h1 := byte?_write_inside m a bs h
  rw [List.getElem?_eq_getElem h] at h1 ⊢
  rw [byteAt_known h1]

theorem byteAt_write_outside (m : Memory) (a : Nat) (bs : List Byte) {k : Nat} (h : k < a ∨ a + bs.length ≤ k) :
    (m.write a bs).byteAt k = m.byteAt k := by
  rw [Memory.byteAt, byte?_write_outside m a bs h, Memory.byteAt]

/-- A load answers the bytes that stand there. -/
theorem read_eq {m : Memory} {a n : Nat} {bs : List Byte} :
    m.read a n = bs ↔ bs.length = n ∧ ∀ i : Nat, i < n → some (m.byteAt (a + i)) = bs[i]? := by
  induction n generalizing a bs with
  | zero =>
    rw [Memory.read]
    constructor
    · rintro rfl; simp
    · rintro ⟨h, -⟩; exact (List.length_eq_zero_iff.1 h).symm
  | succ n ih =>
    cases bs with
    | nil => simp [Memory.read]
    | cons b cs =>
      rw [Memory.read, List.cons.injEq, ih]
      constructor
      · rintro ⟨h0, hl, hi⟩
        refine ⟨by simp [hl], fun i hi' => ?_⟩
        cases i with
        | zero => simp [h0]
        | succ i => have := hi i (by omega); simpa [Nat.add_assoc, Nat.add_comm 1 i] using this
      · rintro ⟨hl, hi⟩
        refine ⟨by simpa using hi 0 (by omega), by simpa using hl, fun i hi' => ?_⟩
        have := hi (i + 1) (by omega)
        simpa [Nat.add_assoc, Nat.add_comm 1 i] using this

@[simp] theorem read_length (m : Memory) (a n : Nat) : (m.read a n).length = n := (read_eq.1 rfl).1

/-- A load of what has just been written answers it. -/
theorem read_write (m : Memory) (a : Nat) (bs : List Byte) : (m.write a bs).read a bs.length = bs :=
  read_eq.2 ⟨rfl, fun _ hi => byteAt_write_inside m a bs hi⟩

/-- A load that meets no byte written in between answers what it did. -/
theorem read_write_outside {m : Memory} {a : Nat} {bs : List Byte} {b n : Nat} (h : b + n ≤ a ∨ a + bs.length ≤ b) :
    (m.write a bs).read b n = m.read b n :=
  read_eq.2 ⟨read_length m b n, fun i hi => by
    rw [byteAt_write_outside m a bs (by omega)]; exact (read_eq.1 rfl).2 i hi⟩

end Sys2Proof.Laws
end

