-- ==== Sys2Proof/Laws/Ops.lean ====
section
/-!
SUPPORT. What each shared operation of Machine/Ops.lean and Machine/Operands.lean can do, said once: accesses,
waits, context records, and the tests before a structure is stored.
-/

namespace Sys2Proof.Laws

open Sys2Proof.Machine

/-! ## The devices' steps -/

/-- Devices that take no step change nothing. -/
@[simp] theorem tick_quiet {s : State} (h : s.script = []) : tick s = s := by
  cases s; simp only at h; subst h; rfl

/-- A step of the devices that does nothing only uses itself up. -/
theorem tick_idle {s : State} {rest : List DevAct} (h : s.script = {} :: rest) :
    tick s = { s with script := rest } := by
  cases s; simp only at h; subst h; rfl

/-- A step of the devices. -/
theorem tick_act {s : State} {a : DevAct} {rest : List DevAct} (h : s.script = a :: rest) :
    tick s = { s with script := rest, regs := a.regs.foldl setReg s.regs, mem := a.mem.foldl (dmaByte s.cfg.memEnd) s.mem } := by
  cases s; simp only at h; subst h; rfl

theorem rising_setReg {l : List (Nat × Quad)} (e : Nat × Option Quad) (h : rising l = true) :
    rising (setReg l e) = true := by
  unfold setReg
  split
  · exact rising_alSet _ _ h
  · exact rising_alErase _ h

theorem rising_setRegs (es : List (Nat × Option Quad)) {l : List (Nat × Quad)} (h : rising l = true) :
    rising (es.foldl setReg l) = true := by
  induction es generalizing l with
  | nil => exact h
  | cons e es ih => exact ih (rising_setReg e h)

/-- System memory ends within the address space. -/
theorem memEnd_le (p : Params) : p.memEnd ≤ addrSpace := Nat.min_le_right _ _

theorem wf_dma {e : Nat} (he : e ≤ addrSpace) (cs : List Host.Cell) {m : Memory} (h : Memory.wf m = true) :
    Memory.wf (cs.foldl (dmaByte e) m) = true := by
  induction cs generalizing m with
  | nil => exact h
  | cons c cs ih => exact ih (wf_dmaByte c he h)

theorem rising_writeReg {l : List (Nat × Quad)} (k : RegKind) (a : Nat) (v old : Quad) (h : rising l = true) :
    rising (writeReg l k a v old) = true := by
  cases k
  · exact rising_alSet _ _ h
  · exact h
  · exact rising_alSet _ _ h
  · exact rising_alSet _ _ h
  · exact rising_alErase _ h

/-- A write of one register leaves every other register as it was. -/
theorem alGet_writeReg_other (l : List (Nat × Quad)) (k : RegKind) {a b : Nat} (v old : Quad) (h : b ≠ a) :
    alGet (writeReg l k a v old) b = alGet l b := by
  cases k
  · exact alGet_alSet_other l a v h
  · rfl
  · exact alGet_alSet_other l a _ h
  · exact alGet_alSet_other l a _ h
  · exact alGet_alErase_other l h

/-- A write of `PxCI` leaves each bit that it sets at 1, whatever the register held (10_state.md R49). -/
theorem commandIssue_bit (l : List (Nat × Quad)) (a j : Nat) (v old : Quad) (h : v.getLsbD j = true) :
    ∃ w, alGet (writeReg l .commandIssue a v old) a = some w ∧ w.getLsbD j = true :=
  ⟨old ||| v, alGet_alSet_same .., by rw [BitVec.getLsbD_or, h, Bool.or_true]⟩

theorem filter_lt_alSet {α : Type} (l : List (Nat × α)) (k : Nat) (v : α) :
    (alSet l k v).filter (fun e => decide (e.1 < k)) = l.filter (fun e => decide (e.1 < k)) := by
  unfold alSet
  rw [List.filter_append, List.filter_filter, List.filter_cons_of_neg (by simp), List.filter_filter]
  have : l.filter (fun e => decide (e.1 < k) && decide (k < e.1)) = [] := by
    rw [List.filter_eq_nil_iff]; intro e _; simp; omega
  simp [this]

theorem filter_gt_alSet {α : Type} (l : List (Nat × α)) (k : Nat) (v : α) :
    (alSet l k v).filter (fun e => decide (k < e.1)) = l.filter (fun e => decide (k < e.1)) := by
  unfold alSet
  rw [List.filter_append, List.filter_filter, List.filter_cons_of_neg (by simp), List.filter_filter]
  have : l.filter (fun e => decide (k < e.1) && decide (e.1 < k)) = [] := by
    rw [List.filter_eq_nil_iff]; intro e _; simp; omega
  simp [this]

/-- The later of two writes at one key stands. -/
@[simp] theorem alSet_alSet {α : Type} (l : List (Nat × α)) (k : Nat) (v w : α) :
    alSet (alSet l k v) k w = alSet l k w := by
  rw [alSet, filter_lt_alSet, filter_gt_alSet]; rfl

/-- Writes at two keys commute. -/
theorem alSet_comm {α : Type} (l : List (Nat × α)) {a b : Nat} (v w : α) (h : a ≠ b) :
    alSet (alSet l a v) b w = alSet (alSet l b w) a v := by
  have key : ∀ (a b : Nat) (v w : α), a < b → alSet (alSet l a v) b w = alSet (alSet l b w) a v := by
    intro a b v w h
    have h1 : ∀ l : List (Nat × α), (l.filter fun e => decide (b < e.1)).filter (fun e => decide (e.1 < a)) = [] := by
      intro l; rw [List.filter_filter, List.filter_eq_nil_iff]; intro e _; simp; omega
    have h2 : ∀ l : List (Nat × α), (l.filter fun e => decide (e.1 < a)).filter (fun e => decide (b < e.1)) = [] := by
      intro l; rw [List.filter_filter, List.filter_eq_nil_iff]; intro e _; simp; omega
    have h3 : ∀ l : List (Nat × α), (l.filter fun e => decide (e.1 < a)).filter (fun e => decide (e.1 < b))
        = l.filter fun e => decide (e.1 < a) := by
      intro l; rw [List.filter_filter]; congr 1; funext e; simp; omega
    have h4 : ∀ l : List (Nat × α), (l.filter fun e => decide (b < e.1)).filter (fun e => decide (a < e.1))
        = l.filter fun e => decide (b < e.1) := by
      intro l; rw [List.filter_filter]; congr 1; funext e; simp; omega
    have h5 : ∀ l : List (Nat × α), (l.filter fun e => decide (a < e.1)).filter (fun e => decide (b < e.1))
        = l.filter fun e => decide (b < e.1) := by
      intro l; rw [List.filter_filter]; congr 1; funext e; simp; omega
    have h6 : ∀ l : List (Nat × α), (l.filter fun e => decide (e.1 < b)).filter (fun e => decide (e.1 < a))
        = l.filter fun e => decide (e.1 < a) := by
      intro l; rw [List.filter_filter]; congr 1; funext e; simp; omega
    have h7 : ∀ l : List (Nat × α), (l.filter fun e => decide (e.1 < b)).filter (fun e => decide (a < e.1))
        = (l.filter fun e => decide (a < e.1)).filter fun e => decide (e.1 < b) := by
      intro l; rw [List.filter_filter, List.filter_filter]; congr 1; funext e; exact Bool.and_comm _ _
    have n1 : ¬ b < a := by omega
    simp only [alSet, List.filter_append, List.filter_cons, h, n1, decide_true, decide_false, if_true, h1, h2, h3, h4,
      h5, h6, h7]
    simp
  rcases Nat.lt_or_gt_of_ne h with h | h
  · exact key a b v w h
  · exact (key b a w v h).symm

@[simp] theorem alSet_alErase {α : Type} (l : List (Nat × α)) (k : Nat) (w : α) :
    alSet (alErase l k) k w = alSet l k w := by
  have h1 : (alErase l k).filter (fun e => decide (e.1 < k)) = l.filter (fun e => decide (e.1 < k)) := by
    unfold alErase; rw [List.filter_filter]; congr 1; funext e; simp; omega
  have h2 : (alErase l k).filter (fun e => decide (k < e.1)) = l.filter (fun e => decide (k < e.1)) := by
    unfold alErase; rw [List.filter_filter]; congr 1; funext e; simp; omega
  unfold alSet
  rw [h1, h2]

/-- A register that the devices set after a write holds what they set. -/
@[simp] theorem alSet_writeReg (l : List (Nat × Quad)) (k : RegKind) (a : Nat) (v old w : Quad) :
    alSet (writeReg l k a v old) a w = alSet l a w := by
  cases k <;> simp [writeReg]

/-! ## The controller at an address -/

/-- Every key lies above the address exactly where none is nearest to it. -/
theorem nearest_eq_none {α : Type} {a : Nat} {l : List (Nat × α)} : nearest a l = none ↔ ∀ f ∈ l, a < f.1 := by
  induction l with
  | nil => simp [nearest]
  | cons e l ih =>
    rw [nearest]
    cases h : nearest a l with
    | none =>
      have := ih.1 h
      by_cases he : e.1 ≤ a
      · simp only [he, if_true, reduceCtorEq, false_iff]
        intro hall; have := hall e (by simp); omega
      · simp only [he, if_false, true_iff]
        rintro f hf
        rcases List.mem_cons.1 hf with rfl | hf
        · omega
        · exact this f hf
    | some g =>
      have h1 : ¬ ∀ f ∈ l, a < f.1 := fun hall => by rw [ih.2 hall] at h; cases h
      have h2 : ¬ ∀ f ∈ e :: l, a < f.1 := fun hall => h1 fun f hf => hall f (List.mem_cons_of_mem _ hf)
      simp only [h2, iff_false]
      split <;> simp

/-- The nearest entry is one of the list at or below the address, and no other such entry lies above it. -/
theorem nearest_spec {α : Type} {a : Nat} {l : List (Nat × α)} {e : Nat × α} (h : nearest a l = some e) :
    e ∈ l ∧ e.1 ≤ a ∧ ∀ f ∈ l, f.1 ≤ a → f.1 ≤ e.1 := by
  induction l generalizing e with
  | nil => simp [nearest] at h
  | cons d l ih =>
    rw [nearest] at h
    cases hl : nearest a l with
    | none =>
      have hn := nearest_eq_none.1 hl
      simp only [hl] at h
      split at h
      · cases h
        refine ⟨by simp, ‹_›, fun f hf hfa => ?_⟩
        rcases List.mem_cons.1 hf with rfl | hf
        · exact Nat.le_refl _
        · have := hn f hf; omega
      · cases h
    | some g =>
      obtain ⟨h1, h2, h3⟩ := ih hl
      simp only [hl] at h
      split at h <;> cases h
      · rename_i hc
        refine ⟨by simp, hc.1, fun f hf hfa => ?_⟩
        rcases List.mem_cons.1 hf with rfl | hf
        · exact Nat.le_refl _
        · exact Nat.le_trans (h3 f hf hfa) hc.2
      · rename_i hc
        refine ⟨List.mem_cons_of_mem _ h1, h2, fun f hf hfa => ?_⟩
        rcases List.mem_cons.1 hf with rfl | hf
        · omega
        · exact h3 f hf hfa

/-! ## Stores not ordered yet -/

/-- The bytes that the parts of a store outside a range cover: those of the store that do not lie in the range. -/
theorem outside_covers (p : PendStore) (a n k : Nat) :
    (∃ q ∈ p.outside a n, q.addr ≤ k ∧ k < q.addr + q.len) ↔
      p.addr ≤ k ∧ k < p.addr + p.len ∧ ¬ (a ≤ k ∧ k < a + n) := by
  unfold PendStore.outside
  split
  · simp only [List.mem_singleton, exists_eq_left]; omega
  · simp only [List.mem_append]
    constructor
    · rintro ⟨q, hq | hq, h1, h2⟩
      · split at hq
        · simp only [List.mem_singleton] at hq; subst hq; simp only at h1 h2; omega
        · simp at hq
      · split at hq
        · simp only [List.mem_singleton] at hq; subst hq; simp only at h1 h2; omega
        · simp at hq
    · rintro ⟨h1, h2, h3⟩
      by_cases h4 : k < a
      · refine ⟨{ p with len := a - p.addr }, .inl ?_, h1, by simp only; omega⟩
        rw [if_pos (by omega)]; simp
      · refine ⟨{ p with addr := a + n, len := p.addr + p.len - (a + n) }, .inr ?_, by simp only; omega, by simp only; omega⟩
        rw [if_pos (by omega)]; simp

/-- A `Publish()` with no data buffer leaves the host's stores. -/
theorem publish_none_pend (s : State) : (publish none s).pend = s.pend.filter (fun q => q.byHost) := by
  show s.pend.flatMap (PendStore.left none) = _
  induction s.pend with
  | nil => rfl
  | cons p l ih =>
    rw [List.flatMap_cons, ih, List.filter_cons]
    cases h : p.byHost <;> simp [PendStore.left, h]

/-- No store of the sequencer is left by a `Publish()`. -/
@[simp] theorem left_sequencer (b : Option (Nat × Nat)) (a n : Nat) :
    PendStore.left b { byHost := false, addr := a, len := n } = [] := rfl

/-! ## What an access or a wait leaves alone -/

/-- All that accesses and waits leave alone: everything but `ITER`, the device registers, memory, and the
bookkeeping of the bus. They keep the canonical forms. -/
structure Touch (s t : State) : Prop where
  pc : t.pc = s.pc
  x : { t.x with iter := s.x.iter } = s.x
  hba : t.hba = s.hba
  port : t.port = s.port
  nvme : t.nvme = s.nvme
  qp : t.qp = s.qp
  dev : t.dev = s.dev
  claim : t.claim = s.claim
  inflight : t.inflight = s.inflight
  leaked : t.leaked = s.leaked
  built : t.built = s.built
  rsp : t.rsp = s.rsp
  nrsp : t.nrsp = s.nrsp
  inputs : t.inputs = s.inputs
  cfg : t.cfg = s.cfg
  wf : Memory.wf s.mem = true → Memory.wf t.mem = true
  regs : rising s.regs = true → rising t.regs = true

theorem Touch.refl (s : State) : Touch s s :=
  ⟨rfl, rfl, rfl, rfl, rfl, rfl, rfl, rfl, rfl, rfl, rfl, rfl, rfl, rfl, rfl, id, id⟩

theorem Touch.trans {s t u : State} (h : Touch s t) (g : Touch t u) : Touch s u where
  pc := g.pc.trans h.pc
  x := by
    have h1 := h.x
    have h2 := g.x
    rw [← h2] at h1
    exact h1
  hba := g.hba.trans h.hba
  port := g.port.trans h.port
  nvme := g.nvme.trans h.nvme
  qp := g.qp.trans h.qp
  dev := g.dev.trans h.dev
  claim := g.claim.trans h.claim
  inflight := g.inflight.trans h.inflight
  leaked := g.leaked.trans h.leaked
  built := g.built.trans h.built
  rsp := g.rsp.trans h.rsp
  nrsp := g.nrsp.trans h.nrsp
  inputs := g.inputs.trans h.inputs
  cfg := g.cfg.trans h.cfg
  wf := fun w => g.wf (h.wf w)
  regs := fun w => g.regs (h.regs w)

theorem touch_tick (s : State) : Touch s (tick s) :=
  ⟨rfl, rfl, rfl, rfl, rfl, rfl, rfl, rfl, rfl, rfl, rfl, rfl, rfl, rfl, rfl, wf_dma (memEnd_le _) _, rising_setRegs _⟩

theorem touch_afterRead (w : Width) (a : Nat) (s : State) : Touch s (s.afterRead w a) :=
  ⟨rfl, rfl, rfl, rfl, rfl, rfl, rfl, rfl, rfl, rfl, rfl, rfl, rfl, rfl, rfl, id, id⟩

theorem touch_afterWrite (w : Width) (a : Nat) (v : Quad) (s : State) : Touch s (s.afterWrite w a v) :=
  ⟨rfl, rfl, rfl, rfl, rfl, rfl, rfl, rfl, rfl, rfl, rfl, rfl, rfl, rfl, rfl, id, rising_writeReg _ _ _ _⟩

theorem touch_afterStore {a : Nat} {bs : List Byte} (s : State) (h : a + bs.length ≤ addrSpace) :
    Touch s (s.afterStore a bs) :=
  ⟨rfl, rfl, rfl, rfl, rfl, rfl, rfl, rfl, rfl, rfl, rfl, rfl, rfl, rfl, rfl, fun w => wf_write w h, id⟩

theorem touch_publish (b : Option (Nat × Nat)) (s : State) : Touch s (publish b s) :=
  ⟨rfl, rfl, rfl, rfl, rfl, rfl, rfl, rfl, rfl, rfl, rfl, rfl, rfl, rfl, rfl, id, id⟩

theorem touch_clearIter (s : State) : Touch s s.clearIter :=
  ⟨rfl, rfl, rfl, rfl, rfl, rfl, rfl, rfl, rfl, rfl, rfl, rfl, rfl, rfl, rfl, id, id⟩

theorem touch_bumpIter (s : State) : Touch s s.bumpIter :=
  ⟨rfl, rfl, rfl, rfl, rfl, rfl, rfl, rfl, rfl, rfl, rfl, rfl, rfl, rfl, rfl, id, id⟩

/-! ## Device registers -/

/-- What a read answers of a register with a known content. -/
theorem busValue_known {s : State} {a : Nat} {v : Quad} (w : Width) (h : alGet s.regs a = some v) :
    s.busValue w a = w.trunc v := by
  simp [State.busValue, h]

/-- A read of a register with a known content only appears on the bus. -/
theorem afterRead_known {s : State} {a : Nat} {v : Quad} (w : Width) (h : alGet s.regs a = some v) :
    s.afterRead w a = { s with log := .rd w a (w.trunc v) :: s.log } := by
  simp [State.afterRead, State.busValue, h]

theorem mmioRead_of {w : Width} {a : Nat} {s : State} (h : a + w.bytes ≤ addrSpace) :
    mmioRead w a s = .go ((tick s).busValue w a) ((tick s).afterRead w a) := if_pos h

/-- A read of a known register while the devices take no step. -/
theorem mmioRead_quiet {w : Width} {a : Nat} {s : State} {v : Quad} (h : a + w.bytes ≤ addrSpace)
    (hq : s.script = []) (hv : alGet s.regs a = some v) :
    mmioRead w a s = .go (w.trunc v) { s with log := .rd w a (w.trunc v) :: s.log } := by
  rw [mmioRead_of h, tick_quiet hq, busValue_known w hv, afterRead_known w hv]

/-- A read of a known register while the devices' step does nothing. -/
theorem mmioRead_idle {w : Width} {a : Nat} {s : State} {v : Quad} {rest : List DevAct}
    (h : a + w.bytes ≤ addrSpace) (hq : s.script = {} :: rest) (hv : alGet s.regs a = some v) :
    mmioRead w a s = .go (w.trunc v) { s with script := rest, log := .rd w a (w.trunc v) :: s.log } := by
  have hv' : alGet ({ s with script := rest } : State).regs a = some v := hv
  rw [mmioRead_of h, tick_idle hq, busValue_known w hv', afterRead_known w hv']

theorem mmioWrite_of {w : Width} {a : Nat} {v : Quad} {s : State} (h : a + w.bytes ≤ addrSpace) :
    mmioWrite w a v s = .go () ((tick s).afterWrite w a v) := if_pos h

theorem memStore_of {a : Nat} {bs : List Byte} {s : State} (h : a + bs.length ≤ s.cfg.memEnd) :
    memStore a bs s = .go () ((tick s).afterStore a bs) := if_pos h

theorem memLoad_of {a n : Nat} {s : State} (h : a + n ≤ s.cfg.memEnd) :
    memLoad a n s = .go ((tick s).mem.read a n) { tick s with log := .load a n :: s.log } := if_pos h

/-- A load while the devices take no step. -/
theorem memLoad_quiet {a n : Nat} {s : State} (h : a + n ≤ s.cfg.memEnd) (hq : s.script = []) :
    memLoad a n s = .go (s.mem.read a n) { s with log := .load a n :: s.log } := by
  rw [memLoad_of h, tick_quiet hq]

/-! ## Every way an access or a wait can end -/

variable {E : State → Prop}

theorem ends_mmioRead (w : Width) (a : Nat) (s : State) :
    Ends (mmioRead w a s) (fun v t => Touch s t ∧ v = (tick s).busValue w a ∧ t = (tick s).afterRead w a) E := by
  unfold mmioRead
  split
  · exact ends_go ⟨(touch_tick s).trans (touch_afterRead w a _), rfl, rfl⟩
  · exact ends_refuse

theorem ends_mmioWrite (w : Width) (a : Nat) (v : Quad) (s : State) :
    Ends (mmioWrite w a v s) (fun _ t => Touch s t ∧ t = (tick s).afterWrite w a v) E := by
  unfold mmioWrite
  split
  · exact ends_go ⟨(touch_tick s).trans (touch_afterWrite w a v _), rfl⟩
  · exact ends_refuse

theorem ends_memStore (a : Nat) (bs : List Byte) (s : State) :
    Ends (memStore a bs s)
      (fun _ t => Touch s t ∧ a + bs.length ≤ s.cfg.memEnd ∧ t = (tick s).afterStore a bs) E := by
  unfold memStore
  split
  · exact ends_go ⟨(touch_tick s).trans (touch_afterStore _ (Nat.le_trans ‹_› (memEnd_le _))), ‹_›, rfl⟩
  · exact ends_refuse

theorem ends_memLoad (a n : Nat) (s : State) :
    Ends (memLoad a n s)
      (fun bs t => Touch s t ∧ a + n ≤ s.cfg.memEnd ∧ bs = (tick s).mem.read a n ∧
        t = { tick s with log := .load a n :: s.log }) E := by
  unfold memLoad
  split
  · refine ends_go ⟨?_, ‹_›, rfl, rfl⟩
    exact (touch_tick s).trans ⟨rfl, rfl, rfl, rfl, rfl, rfl, rfl, rfl, rfl, rfl, rfl, rfl, rfl, rfl, rfl, id, id⟩
  · exact ends_refuse

/-- Byte accesses touch nothing else, whatever the devices do between them; a load answers one byte for each. -/
theorem ends_loadBytes (a n : Nat) (s : State) :
    Ends (loadBytes a n s) (fun bs t => Touch s t ∧ bs.length = n) E := by
  induction n generalizing a s with
  | zero => exact ends_go ⟨Touch.refl s, rfl⟩
  | succ n ih =>
    rw [loadBytes]
    refine (ends_memLoad a 1 s).bind ?_
    rintro b t ⟨ht, -, rfl, -⟩
    refine (ih (a + 1) t).bind fun bs u hu => ends_go ⟨ht.trans hu.1, ?_⟩
    rw [List.length_append, read_length, hu.2, Nat.add_comm]

theorem ends_storeBytes (a : Nat) (bs : List Byte) (s : State) :
    Ends (storeBytes a bs s) (fun _ t => Touch s t) E := by
  induction bs generalizing a s with
  | nil => exact ends_go (Touch.refl s)
  | cons b bs ih =>
    rw [storeBytes]
    exact (ends_memStore a [b] s).bind fun _ t ht => (ih (a + 1) t).mono (fun _ _ hu => ht.1.trans hu) fun _ h => h

/-- The string of a field has two bytes a word. -/
theorem ends_loadField (p w n : Nat) (s : State) :
    Ends (loadField p w n s) (fun bs t => Touch s t ∧ bs.length = 2 * n) E := by
  induction n generalizing w s with
  | zero => exact ends_go ⟨Touch.refl s, rfl⟩
  | succ n ih =>
    rw [loadField]
    refine (ends_memLoad _ 1 s).bind ?_
    rintro hi t ⟨ht, -, rfl, -⟩
    refine (ends_memLoad _ 1 t).bind ?_
    rintro lo u ⟨hu, -, rfl, -⟩
    refine (ih (w + 1) u).bind fun bs v hv => ends_go ⟨(ht.trans hu).trans hv.1, ?_⟩
    simp only [List.length_append, read_length, hv.2]; omega

/-- `raise` as one state. -/
def raised (e : Err) (p : Pc) (s : State) : State :=
  { s with pc := p, x := { s.x with res := e.code }, claim := if p = .timedOut then s.claim else none }

@[simp] theorem raise_eq {α : Type} (e : Err) (p : Pc) (s : State) : (raise e p s : Flow α) = .stop (raised e p s) :=
  rfl

/-- A wait touches nothing else; where its budget is used up, it raises its error and `pc` is Idle. -/
theorem ends_waitRounds (a : Nat) (done : Quad → Bool) (e : Err) (n : Nat) (s : State) :
    Ends (waitRounds a done e n s) (fun _ t => Touch s t) (fun t => ∃ u, Touch s u ∧ t = raised e .idle u) := by
  induction n generalizing s with
  | zero => exact ends_stop ⟨s, Touch.refl s, rfl⟩
  | succ n ih =>
    rw [waitRounds]
    refine (ends_mmioRead _ _ s).bind fun v t ht => ?_
    refine ends_ite (fun _ => ends_go ht.1) (fun _ => ?_)
    refine (ih t.bumpIter).mono (fun _ u hu => (ht.1.trans (touch_bumpIter t)).trans hu) ?_
    rintro u ⟨w, hw, rfl⟩
    exact ⟨w, (ht.1.trans (touch_bumpIter t)).trans hw, rfl⟩

theorem ends_waitFor (a : Nat) (done : Quad → Bool) (e : Err) (b : Word) (s : State) :
    Ends (waitFor a done e b s) (fun _ t => Touch s t) (fun t => ∃ u, Touch s u ∧ t = raised e .idle u) := by
  refine (ends_waitRounds a done e b.toNat s.clearIter).mono (fun _ u hu => (touch_clearIter s).trans hu) ?_
  rintro u ⟨w, hw, rfl⟩
  exact ⟨w, (touch_clearIter s).trans hw, rfl⟩

/-- A wait that is over at its first look. -/
theorem waitFor_now {a : Nat} {done : Quad → Bool} {e : Err} {b : Word} {s : State} (hb : b ≠ 0#32)
    (ha : a + 4 ≤ addrSpace) (hd : done ((tick s).busValue .w32 a) = true) :
    waitFor a done e b s = .go () ((tick s.clearIter).afterRead .w32 a) := by
  obtain ⟨n, hn⟩ : ∃ n, b.toNat = n + 1 := by
    refine Nat.exists_eq_succ_of_ne_zero fun h => hb ?_
    exact BitVec.eq_of_toNat_eq (by simpa using h)
  have hv : (tick s.clearIter).busValue .w32 a = (tick s).busValue .w32 a := rfl
  rw [waitFor, hn, waitRounds, mmioRead_of ha, bind_go, hv, if_pos hd]

/-! ## Records -/

theorem device_eq_ok {s : State} {d : Dev} : s.device = .ok d ↔ alGet s.dev s.x.dev.toNat = some d := by
  unfold State.device
  cases alGet s.dev s.x.dev.toNat <;> simp

/-- The records an AHCI request works on. -/
theorem hbaCtx_eq_ok {s : State} {c : AhciCtx} :
    s.hbaCtx = .ok c ↔ ∃ d, alGet s.dev s.x.dev.toNat = some d ∧ d.kind = .ahci ∧ c.p = d.ch ∧
      alGet s.port c.p = some c.port ∧ alGet s.hba c.port.hba = some c.hba := by
  constructor
  · intro h
    unfold State.hbaCtx at h
    split at h
    · cases h
    · rename_i d hd
      split at h
      · cases h
      · rename_i hk
        split at h
        · cases h
        · rename_i p hp
          split at h
          · cases h
          · rename_i hh
            cases h
            exact ⟨d, device_eq_ok.1 hd, hk, rfl, hp, hh⟩
  · rintro ⟨d, hd, hk, hc, hp, hh⟩
    obtain ⟨p, port, hba⟩ := c
    simp only at hc hp hh
    subst hc
    simp [State.hbaCtx, device_eq_ok.2 hd, hk, hp, hh]

theorem ahciCtx_eq_ok {s : State} {c : AhciCtx} :
    s.ahciCtx = .ok c ↔ s.hbaCtx = .ok c ∧ c.hba.pi.getLsbD c.port.port.toNat = true := by
  unfold State.ahciCtx
  cases s.hbaCtx with
  | error r => simp
  | ok d =>
    simp only [Except.ok.injEq]
    split
    · rename_i h
      simp only [Except.ok.injEq]
      exact ⟨fun e => ⟨e, e ▸ h⟩, fun e => e.1⟩
    · rename_i h
      simp only [reduceCtorEq, false_iff, not_and]
      rintro rfl; exact h

/-- The records an NVMe request works on. -/
theorem nvmeCtxOf_eq_ok {s : State} {adm : Bool} {c : NvmeCtx} :
    s.nvmeCtxOf adm = .ok c ↔ alGet s.dev s.x.dev.toNat = some c.dev ∧ c.dev.kind = .nvme ∧
      c.q = (if adm then c.dev.admin else c.dev.ch) ∧
      alGet s.qp c.q = some c.qp ∧ alGet s.nvme c.qp.ctrl = some c.nv := by
  constructor
  · intro h
    unfold State.nvmeCtxOf at h
    split at h
    · cases h
    · rename_i d hd
      split at h
      · cases h
      · rename_i hk
        split at h
        · cases h
        · rename_i q hq
          split at h
          · cases h
          · rename_i hn
            cases h
            exact ⟨device_eq_ok.1 hd, hk, rfl, hq, hn⟩
  · rintro ⟨hd, hk, hc, hq, hn⟩
    obtain ⟨q, qp, nv, dev⟩ := c
    simp only at hd hk hc hq hn
    subst hc
    simp [State.nvmeCtxOf, device_eq_ok.2 hd, hk, hq, hn]

end Sys2Proof.Laws
end

