-- ==== Sys2Proof/Laws/Steps.lean ====
section
/-!
SUPPORT. What each part of an operation (allocator, builders, issue, poll, decoder, initialisation) can do, said
once: the state it goes on in, and the state it ends in with an error.
-/

namespace Sys2Proof.Laws

open Sys2Proof.Machine

variable {E : State → Prop}

/-! ## The claimed slot -/

/-- The sequencer holds the slot `x[SLOT]` of port `c.1`, whose command table is at `c.2`. -/
structure HoldsSlot (s : State) (c : AhciCtx × Quad) : Prop where
  ctx : s.ahciCtx = .ok c.1
  claim : s.claim = some (.port c.1.p)
  table : c.1.table s.x.slot = .ok c.2

/-- The sequencer holds position `x[SLOT]` of the queue pair `c`. -/
structure HoldsEntry (s : State) (c : NvmeCtx) : Prop where
  ctx : s.nvmeCtx = .ok c
  claim : s.claim = some (.qp c.q)
  inRing : s.x.slot.toNat < c.qp.qSize

theorem ahciSlot_eq_go {s t : State} {c : AhciCtx × Quad} : ahciSlot s = .go c t ↔ t = s ∧ HoldsSlot s c := by
  simp only [ahciSlot, bind_eq_go, needOk_eq_go, claims, need_eq_go, beq_iff_eq, Flow.go.injEq]
  constructor
  · rintro ⟨c1, s1, ⟨h1, rfl⟩, -, s2, ⟨h2, rfl⟩, c2, s3, ⟨h3, rfl⟩, rfl, rfl⟩
    exact ⟨rfl, h1, h2, h3⟩
  · rintro ⟨rfl, h1, h2, h3⟩
    exact ⟨c.1, _, ⟨h1, rfl⟩, (), _, ⟨h2, rfl⟩, c.2, _, ⟨h3, rfl⟩, rfl, rfl⟩

theorem nvmeSlot_eq_go {s t : State} {c : NvmeCtx} : nvmeSlot s = .go c t ↔ t = s ∧ HoldsEntry s c := by
  simp only [nvmeSlot, bind_eq_go, needOk_eq_go, claims, need_eq_go, beq_iff_eq, Flow.go.injEq, decide_eq_true_eq]
  constructor
  · rintro ⟨c1, s1, ⟨h1, rfl⟩, -, s2, ⟨h2, rfl⟩, -, s3, ⟨h3, rfl⟩, rfl, rfl⟩
    exact ⟨rfl, h1, h2, h3⟩
  · rintro ⟨rfl, h1, h2, h3⟩
    exact ⟨c, _, ⟨h1, rfl⟩, (), _, ⟨h2, rfl⟩, (), _, ⟨h3, rfl⟩, rfl, rfl⟩

theorem ends_ahciSlot (s : State) : Ends (ahciSlot s) (fun c t => t = s ∧ HoldsSlot s c) E := by
  cases h : ahciSlot s with
  | go c t => exact ends_go (ahciSlot_eq_go.1 h)
  | stop t => simp [ahciSlot, claims, bind_eq_stop] at h
  | refuse r => exact ends_refuse

theorem ends_nvmeSlot (s : State) : Ends (nvmeSlot s) (fun c t => t = s ∧ HoldsEntry s c) E := by
  cases h : nvmeSlot s with
  | go c t => exact ends_go (nvmeSlot_eq_go.1 h)
  | stop t => simp [nvmeSlot, claims, bind_eq_stop] at h
  | refuse r => exact ends_refuse

/-! ## Launch premises -/

theorem ahciPremises_eq_go {c : AhciCtx} {s t : State} :
    c.premises s = .go () t ↔ t = s ∧ c.port.aligned = true ∧ s.arenaOk = true := by
  simp only [AhciCtx.premises, bind_eq_go, need_eq_go]
  constructor
  · rintro ⟨-, u, ⟨h1, rfl⟩, h2, rfl⟩; exact ⟨rfl, h1, h2⟩
  · rintro ⟨rfl, h1, h2⟩; exact ⟨(), _, ⟨h1, rfl⟩, h2, rfl⟩

theorem nvmePremises_eq_go {c : NvmeCtx} {s t : State} :
    c.premises s = .go () t ↔ t = s ∧ c.qp.aligned c.nv.pageBytes = true ∧ s.arenaOk = true := by
  simp only [NvmeCtx.premises, bind_eq_go, need_eq_go]
  constructor
  · rintro ⟨-, u, ⟨h1, rfl⟩, h2, rfl⟩; exact ⟨rfl, h1, h2⟩
  · rintro ⟨rfl, h1, h2⟩; exact ⟨(), _, ⟨h1, rfl⟩, h2, rfl⟩

theorem bufferPremises_eq_go {a n : Nat} {s t : State} :
    bufferPremises a n s = .go () t ↔ t = s ∧ BufferFits s s.x.isIdentify a n := by
  simp only [bufferPremises, bind_eq_go, need_eq_go, decide_eq_true_eq, BufferFits]
  constructor
  · rintro ⟨-, u, ⟨h1, rfl⟩, h2, rfl⟩; exact ⟨rfl, h1, h2⟩
  · rintro ⟨rfl, h1, h2⟩; exact ⟨(), _, ⟨h1, rfl⟩, h2, rfl⟩

theorem ends_ahciPremises (c : AhciCtx) (s : State) :
    Ends (c.premises s) (fun _ t => t = s ∧ c.port.aligned = true ∧ s.arenaOk = true) E := by
  cases h : c.premises s with
  | go a t => exact ends_go (ahciPremises_eq_go.1 h)
  | stop t => simp [AhciCtx.premises, bind_eq_stop] at h
  | refuse r => exact ends_refuse

theorem ends_nvmePremises (c : NvmeCtx) (s : State) :
    Ends (c.premises s) (fun _ t => t = s ∧ c.qp.aligned c.nv.pageBytes = true ∧ s.arenaOk = true) E := by
  cases h : c.premises s with
  | go a t => exact ends_go (nvmePremises_eq_go.1 h)
  | stop t => simp [NvmeCtx.premises, bind_eq_stop] at h
  | refuse r => exact ends_refuse

theorem ends_bufferPremises (a n : Nat) (s : State) :
    Ends (bufferPremises a n s) (fun _ t => t = s ∧ BufferFits s s.x.isIdentify a n) E := by
  cases h : bufferPremises a n s with
  | go u t => exact ends_go (bufferPremises_eq_go.1 h)
  | stop t => simp [bufferPremises, bind_eq_stop] at h
  | refuse r => exact ends_refuse

/-! ## Allocators -/

/-- The scan answers the lowest clear bit. -/
theorem firstClear_eq_some {live : Quad} {n i k : Nat} :
    firstClear live n i = some k ↔
      i ≤ k ∧ k < i + n ∧ slotClear live k = true ∧ ∀ j, i ≤ j → j < k → slotClear live j = false := by
  induction n generalizing i with
  | zero => simp [firstClear]; omega
  | succ n ih =>
    rw [firstClear]
    split
    · rename_i h
      simp only [Option.some.injEq]
      constructor
      · rintro rfl; exact ⟨Nat.le_refl _, by omega, h, fun j h1 h2 => by omega⟩
      · rintro ⟨h1, -, -, h4⟩
        rcases Nat.eq_or_lt_of_le h1 with h5 | h5
        · exact h5
        · rw [h4 i (Nat.le_refl _) h5] at h; cases h
    · rename_i h
      rw [ih]
      constructor
      · rintro ⟨h1, h2, h3, h4⟩
        refine ⟨by omega, by omega, h3, fun j hj hk => ?_⟩
        rcases Nat.eq_or_lt_of_le hj with rfl | h5
        · simpa using h
        · exact h4 j h5 hk
      · rintro ⟨h1, h2, h3, h4⟩
        rcases Nat.eq_or_lt_of_le h1 with rfl | h5
        · rw [h3] at h; cases h rfl
        · exact ⟨h5, by omega, h3, fun j hj hk => h4 j (by omega) hk⟩

/-- The scan answers none where every bit is set. -/
theorem firstClear_eq_none {live : Quad} {n i : Nat} :
    firstClear live n i = none ↔ ∀ j, i ≤ j → j < i + n → slotClear live j = false := by
  induction n generalizing i with
  | zero => simp only [firstClear, true_iff]; intro j h1 h2; omega
  | succ n ih =>
    rw [firstClear]
    split
    · rename_i h
      simp only [reduceCtorEq, false_iff]
      intro hall; rw [hall i (Nat.le_refl _) (by omega)] at h; cases h
    · rename_i h
      rw [ih]
      constructor
      · intro hall j h1 h2
        rcases Nat.eq_or_lt_of_le h1 with rfl | h5
        · simpa using h
        · exact hall j h5 (by omega)
      · intro hall j h1 h2; exact hall j (by omega) (by omega)

/-- An AHCI allocation claims the lowest slot clear in the bitmap it read, or ends with NoFreeSlot. -/
theorem ends_ahciAllocStep (s : State) :
    Ends (ahciAllocStep s)
      (fun _ t => ∃ c u sact ci k, s.ahciCtx = .ok c ∧ Touch s u ∧
        firstClear (sact ||| ci) (min c.hba.nSlots.toNat 32) 0 = some k ∧
        (u.log = .rd .w32 (c.portReg 0x38) ci :: .rd .w32 (c.portReg 0x34) sact :: s.log ∧
          u.mem = (tick (tick s)).mem ∧ u.regs = (tick (tick s)).regs) ∧
        t = u.allocated (.port c.p) (BitVec.ofNat 16 k))
      (fun t => ∃ c u sact ci, s.ahciCtx = .ok c ∧ Touch s u ∧
        firstClear (sact ||| ci) (min c.hba.nSlots.toNat 32) 0 = none ∧
        (u.log = .rd .w32 (c.portReg 0x38) ci :: .rd .w32 (c.portReg 0x34) sact :: s.log ∧
          u.mem = (tick (tick s)).mem ∧ u.regs = (tick (tick s)).regs) ∧
        t = raised .noFreeSlot .idle u) := by
  unfold ahciAllocStep
  refine (ends_needOk (Q := fun c t => s.ahciCtx = .ok c ∧ t = s) fun c hc => ⟨hc, rfl⟩).bind ?_
  rintro c t ⟨hc, rfl⟩
  refine (ends_mmioRead _ _ _).bind ?_
  rintro sact t1 ⟨h1, hv1, hs1⟩
  refine (ends_mmioRead _ _ _).bind ?_
  rintro ci t2 ⟨h2, hv2, hs2⟩
  have hlog : t2.log = .rd .w32 (c.portReg 0x38) ci :: .rd .w32 (c.portReg 0x34) sact :: t.log := by
    rw [hs2, hv2, hs1, hv1]; rfl
  have hmem : t2.mem = (tick (tick t)).mem ∧ t2.regs = (tick (tick t)).regs := by
    rw [hs2, hs1]; exact ⟨rfl, rfl⟩
  split
  · rename_i k hk
    exact ends_go ⟨c, t2, sact, ci, k, hc, h1.trans h2, hk, ⟨hlog, hmem⟩, rfl⟩
  · rename_i hk
    exact ends_stop ⟨c, t2, sact, ci, hc, h1.trans h2, hk, ⟨hlog, hmem⟩, rfl⟩

/-- An NVMe allocation claims the tail position and takes the next identifier, or ends with NoFreeSlot. -/
theorem ends_nvmeAllocStep (s : State) :
    Ends (nvmeAllocStep s)
      (fun _ t => ∃ c, s.nvmeCtx = .ok c ∧ c.qp.full = false ∧ t = (takeCid c s).allocated (.qp c.q) c.qp.sqTail)
      (fun t => ∃ c, s.nvmeCtx = .ok c ∧ c.qp.full = true ∧ t = raised .noFreeSlot .idle s) := by
  unfold nvmeAllocStep
  refine (ends_needOk (Q := fun c t => s.nvmeCtx = .ok c ∧ t = s) fun c hc => ⟨hc, rfl⟩).bind ?_
  rintro c t ⟨hc, rfl⟩
  split
  · rename_i h; exact ends_stop ⟨c, hc, h, rfl⟩
  · rename_i h; exact ends_go ⟨c, hc, by simpa using h, rfl⟩

/-! ## Builders -/

/-- The store of a FIS: the table head at the table of the claimed slot. -/
theorem ends_storeFis (fis : List Byte) (s : State) :
    Ends (storeFis fis s)
      (fun _ t => ∃ c, HoldsSlot s c ∧ c.1.port.aligned = true ∧ s.arenaOk = true ∧ Touch s t ∧
        t = (tick s).afterStore c.2.toNat (tableHead fis)) E := by
  unfold storeFis
  refine (ends_ahciSlot s).bind ?_
  rintro c t ⟨rfl, hc⟩
  refine (ends_ahciPremises _ _).bind ?_
  rintro - t ⟨rfl, ha, ho⟩
  exact (ends_memStore _ _ _).mono (fun _ u hu => ⟨c, hc, ha, ho, hu.1, hu.2.2⟩) fun _ h => h

/-- The store of a header: at the header of the claimed slot. -/
theorem ends_storeHeader (h : Quad → CmdHdr) (s : State) :
    Ends (storeHeader h s)
      (fun _ t => ∃ c, HoldsSlot s c ∧ c.1.port.aligned = true ∧ s.arenaOk = true ∧ Touch s t ∧
        t = (tick s).afterStore (c.1.header s.x.slot) (h c.2).bytes) E := by
  unfold storeHeader
  refine (ends_ahciSlot s).bind ?_
  rintro c t ⟨rfl, hc⟩
  refine (ends_ahciPremises _ _).bind ?_
  rintro - t ⟨rfl, ha, ho⟩
  exact (ends_memStore _ _ _).mono (fun _ u hu => ⟨c, hc, ha, ho, hu.1, hu.2.2⟩) fun _ h => h

/-- The store of a submission entry: at the claimed ring position. -/
theorem ends_storeEntry (prp1 : Quad) (bs : NvmeCtx → List Byte) (s : State) :
    Ends (storeEntry prp1 bs s)
      (fun _ t => ∃ c, HoldsEntry s c ∧ c.qp.aligned c.nv.pageBytes = true ∧ s.arenaOk = true ∧
        prp1.toNat % 4 = 0 ∧ BufferFits s s.x.isIdentify prp1.toNat (c.transferBytes s.x) ∧ Touch s t ∧
        t = (tick s).afterStore (c.entry s.x.slot) (bs c)) E := by
  unfold storeEntry
  refine (ends_nvmeSlot s).bind ?_
  rintro c t ⟨rfl, hc⟩
  refine (ends_nvmePremises _ _).bind ?_
  rintro - t ⟨rfl, ha, ho⟩
  refine (ends_need (Q := fun _ u => prp1.toNat % 4 = 0 ∧ u = t) fun h => ⟨by simpa using h, rfl⟩).bind ?_
  rintro - u ⟨hp, rfl⟩
  refine (ends_bufferPremises _ _ _).bind ?_
  rintro - t ⟨rfl, hf⟩
  exact (ends_memStore _ _ _).mono (fun _ u hu => ⟨c, hc, ha, ho, hp, hf, hu.1, hu.2.2⟩) fun _ h => h

/-- PRDT.BUILD stores the whole table, or ends with TooManyDescriptors before any store. -/
theorem ends_prdtStep (s : State) :
    Ends (prdtStep s)
      (fun _ t => ∃ c u, HoldsSlot s c ∧ prdtCount s.x.cnt.toNat ≤ prdtLimit s.cfg ∧ Touch s u ∧
        u = (tick s).afterStore (prdtAt c.2) (prdtBytes (prdtOf s.x.buf s.x.cnt.toNat)) ∧ t = u.prdtBuilt)
      (fun t => ∃ c, HoldsSlot s c ∧ prdtLimit s.cfg < prdtCount s.x.cnt.toNat ∧
        t = raised .tooManyDescriptors .idle s) := by
  unfold prdtStep
  refine (ends_ahciSlot s).bind ?_
  rintro c t ⟨rfl, hc⟩
  refine ends_ite (fun h => ends_stop ⟨c, hc, h, rfl⟩) fun hn => ?_
  refine (ends_ahciPremises _ _).bind ?_
  rintro - t ⟨rfl, -, -⟩
  refine (ends_need (Q := fun _ u => u = t) fun _ => rfl).bind ?_
  rintro - u rfl
  refine (ends_bufferPremises _ _ _).bind ?_
  rintro - t ⟨rfl, -⟩
  refine (ends_memStore _ _ _).bind ?_
  rintro - v ⟨h1, -, h3⟩
  exact ends_go ⟨c, v, hc, Nat.not_lt.1 hn, h1, h3, rfl⟩

theorem ends_fisStep (s : State) :
    Ends (fisStep s)
      (fun _ t => ∃ c, HoldsSlot s c ∧ Touch s t ∧
        t = (tick s).afterStore c.2.toNat (tableHead (Fis.bytes s.x.cmdb s.fis))) E := by
  unfold fisStep
  refine (ends_need (Q := fun _ u => u = s) fun _ => rfl).bind ?_
  rintro - u rfl
  exact (ends_storeFis _ _).mono (fun _ _ ⟨c, h, _, _, h1, h2⟩ => ⟨c, h, h1, h2⟩) fun _ h => h

theorem ends_hdrStep (s : State) :
    Ends (hdrStep s)
      (fun _ t => ∃ c, HoldsSlot s c ∧ Touch s t ∧
        t = (tick s).afterStore (c.1.header s.x.slot) (s.cmdHdr c.2).bytes) E := by
  unfold hdrStep
  refine (ends_need (Q := fun _ u => u = s) fun _ => rfl).bind ?_
  rintro - u rfl
  exact (ends_storeHeader _ _).mono (fun _ _ ⟨c, h, _, _, h1, h2⟩ => ⟨c, h, h1, h2⟩) fun _ h => h

/-- PRP.BUILD records the length, or ends with TransferTooLarge. -/
theorem ends_prpStep (s : State) :
    Ends (prpStep s)
      (fun _ t => ∃ c, HoldsEntry s c ∧ c.tooLarge s.x.buf (c.transferBytes s.x) = false ∧
        t = s.prpBuilt (c.transferBytes s.x))
      (fun t => ∃ c, HoldsEntry s c ∧ c.tooLarge s.x.buf (c.transferBytes s.x) = true ∧
        t = raised .transferTooLarge .idle s) := by
  unfold prpStep
  refine (ends_nvmeSlot s).bind ?_
  rintro c t ⟨rfl, hc⟩
  refine ends_ite (fun h => ends_stop ⟨c, hc, h, rfl⟩) fun hn => ?_
  refine (ends_bufferPremises _ _ _).bind ?_
  rintro - t ⟨rfl, -⟩
  exact ends_go ⟨c, hc, by simpa using hn, rfl⟩

theorem ends_sqeStep (s : State) :
    Ends (sqeStep s)
      (fun _ t => ∃ c, HoldsEntry s c ∧ Touch s t ∧
        t = (tick s).afterStore (c.entry s.x.slot) (Sqe.bytes s.x.cmdb (s.sqe c))) E :=
  (ends_storeEntry _ _ _).mono (fun _ _ ⟨c, h, _, _, _, _, h1, h2⟩ => ⟨c, h, h1, h2⟩) fun _ h => h

end Sys2Proof.Laws
end

