-- ==== Sys2Proof/Laws/Runs.lean ====
section
/-!
SUPPORT. How the parts of an operation run from a state that meets their premises: the records of the request, the
bounds that the premises give, and the waits and polls that end at a given look or use up their budget.
-/

namespace Sys2Proof.Laws

open Sys2Proof.Machine

/-! ## Acceptance -/

theorem accept_eq (op : Byte) (r : Request) (s : State) : accept op r s = s.accepted op r := rfl

theorem acceptMicro_eq (op : Byte) (r : Request) (s : State) : acceptMicro op r s = s.acceptedMicro op r := rfl

@[simp] theorem acceptedMicro_cfg (op : Byte) (r : Request) (s : State) : (s.acceptedMicro op r).cfg = s.cfg := rfl

@[simp] theorem accepted_cfg (op : Byte) (r : Request) (s : State) : (s.accepted op r).cfg = s.cfg := rfl

/-- The flag `ADM` is bit 11 of `ARG` (30_encoding.md R114). -/
theorem argFlg_adm (r : Request) : r.argFlg.getLsbD 2 = r.arg.getLsbD 11 := by simp [Request.argFlg]

/-- The flag `RAW` is bit 10 of `ARG`. -/
theorem argFlg_raw (r : Request) : r.argFlg.getLsbD 1 = r.arg.getLsbD 10 := by simp [Request.argFlg]

/-! ## The records of a request -/

theorem hbaCtx_of {s : State} {dev : Byte} {c : AhciCtx} (h : OnHba s dev c) (hx : s.x.dev = dev) :
    s.hbaCtx = .ok c := by
  subst hx; exact hbaCtx_eq_ok.2 h

theorem ahciCtx_of {s : State} {dev : Byte} {c : AhciCtx} (h : OnPort s dev c) (hx : s.x.dev = dev) :
    s.ahciCtx = .ok c := ahciCtx_eq_ok.2 ⟨hbaCtx_of h.1 hx, h.2⟩

theorem nvmeCtxOf_of {s : State} {dev : Byte} {adm : Bool} {c : NvmeCtx} (h : OnQueue s dev adm c)
    (hx : s.x.dev = dev) : s.nvmeCtxOf adm = .ok c := by
  subst hx; exact nvmeCtxOf_eq_ok.2 h

theorem nvmeCtx_of {s : State} {dev : Byte} {adm : Bool} {c : NvmeCtx} (h : OnQueue s dev adm c)
    (hx : s.x.dev = dev) (ha : s.x.flg.getLsbD 2 = adm) : s.nvmeCtx = .ok c := by
  unfold State.nvmeCtx Regs.isAdm; rw [ha]; exact nvmeCtxOf_of h hx

theorem ahciSlot_of {s : State} {dev : Byte} {c : AhciCtx} {t : Quad} (h : SlotOn s dev c t) (hx : s.x.dev = dev) :
    ahciSlot s = .go (c, t) s :=
  ahciSlot_eq_go.2 ⟨rfl, ahciCtx_of h.port hx, h.claim, by simp [AhciCtx.table, h.inRange, h.table]⟩

theorem nvmeSlot_of {s : State} {dev : Byte} {adm : Bool} {c : NvmeCtx} (h : EntryOn s dev adm c)
    (hx : s.x.dev = dev) (ha : s.x.flg.getLsbD 2 = adm) : nvmeSlot s = .go c s :=
  nvmeSlot_eq_go.2 ⟨rfl, nvmeCtx_of h.queue hx ha, h.claim, h.inRange⟩

theorem ahciPremises_of {s : State} {c : AhciCtx} (h : PortArena s c) : c.premises s = .go () s :=
  ahciPremises_eq_go.2 ⟨rfl, h⟩

theorem nvmePremises_of {s : State} {c : NvmeCtx} (h : RingArena s c) : c.premises s = .go () s :=
  nvmePremises_eq_go.2 ⟨rfl, h⟩

theorem bufferPremises_of {s : State} {ident : Bool} {a n : Nat} (hi : s.x.isIdentify = ident)
    (h : BufferFits s ident a n) : bufferPremises a n s = .go () s :=
  bufferPremises_eq_go.2 ⟨rfl, hi ▸ h⟩

/-! ## Bounds: every region of the arena ends within system memory -/

theorem arena_fits {s : State} (h : s.arenaOk = true) {a n : Nat} (hr : (a, n) ∈ s.arena) : a + n ≤ s.cfg.memEnd := by
  unfold State.arenaOk at h
  simp only [Bool.and_eq_true, List.all_eq_true, decide_eq_true_eq] at h
  exact h.1 (a, n) (List.mem_append_left _ hr)

theorem port_arena {s : State} {p : Nat} {r : Port} (hp : alGet s.port p = some r) {x : Nat × Nat}
    (hx : x ∈ r.regions (tableBytes s.cfg)) : x ∈ s.arena :=
  List.mem_append_left _ (List.mem_flatMap.2 ⟨(p, r), alGet_mem hp, hx⟩)

theorem qp_arena {s : State} {q : Nat} {r : Qp} (hq : alGet s.qp q = some r) {x : Nat × Nat}
    (hx : x ∈ r.regions) : x ∈ s.arena :=
  List.mem_append_right _ (List.mem_flatMap.2 ⟨(q, r), alGet_mem hq, hx⟩)

theorem portRecord {s : State} {dev : Byte} {c : AhciCtx} (h : OnPort s dev c) :
    alGet s.port c.p = some c.port := by
  obtain ⟨⟨d, -, -, -, hp, -⟩, -⟩ := h; exact hp

theorem clb_fits {s : State} {dev : Byte} {c : AhciCtx} (h : OnPort s dev c) (ha : s.arenaOk = true) :
    c.port.clb.toNat + 1024 ≤ s.cfg.memEnd :=
  arena_fits ha (port_arena (portRecord h) (by simp [Port.regions]))

theorem fb_fits {s : State} {dev : Byte} {c : AhciCtx} (h : OnPort s dev c) (ha : s.arenaOk = true) :
    c.port.fb.toNat + 256 ≤ s.cfg.memEnd :=
  arena_fits ha (port_arena (portRecord h) (by simp [Port.regions, Port.received]))

theorem table_fits {s : State} {dev : Byte} {c : AhciCtx} {t : Quad} (h : OnPort s dev c) (ha : s.arenaOk = true)
    (ht : t ∈ c.port.ct) : t.toNat + (128 + 16 * s.cfg.prdtCap) ≤ s.cfg.memEnd :=
  arena_fits ha (port_arena (portRecord h) (by
    simp only [Port.regions, List.mem_cons, List.mem_map]
    exact .inr (.inr ⟨t, ht, rfl⟩)))

theorem sq_fits {s : State} {q : Nat} {r : Qp} (h : alGet s.qp q = some r) (ha : s.arenaOk = true) :
    r.sqBase.toNat + 64 * r.qSize ≤ s.cfg.memEnd :=
  arena_fits ha (qp_arena h (by simp [Qp.regions]))

theorem cq_fits {s : State} {q : Nat} {r : Qp} (h : alGet s.qp q = some r) (ha : s.arenaOk = true) :
    r.cqBase.toNat + 16 * r.qSize ≤ s.cfg.memEnd :=
  arena_fits ha (qp_arena h (by simp [Qp.regions]))

theorem mem_of_getElem? {α : Type} {l : List α} {i : Nat} {x : α} (h : l[i]? = some x) : x ∈ l :=
  List.mem_of_getElem? h

/-! ## Sizes -/

@[simp] theorem tableHead_length (cmd : Byte) (f : Fis) : (tableHead (f.bytes cmd)).length = 128 := by
  simp [tableHead]

theorem prdtBytes_length (es : List PrdtEntry) : (prdtBytes es).length = 16 * es.length := by
  unfold prdtBytes
  induction es with
  | nil => rfl
  | cons e es ih => simp [List.flatMap_cons, ih]; omega

@[simp] theorem prdtOf_length (buf : Quad) (cnt : Nat) : (prdtOf buf cnt).length = prdtCount cnt := by
  simp [prdtOf]

theorem prdtCount_eq (cnt : Nat) : prdtCount cnt = (cnt + 15) / 16 := by
  simp [prdtCount, ceilDiv, chunkSectors]

theorem prdtCount_le (cnt : Half) : prdtCount cnt.toNat ≤ 4096 := by
  rw [prdtCount_eq]; have := cnt.isLt; omega

/-- The limit of R192 is `PRDT_CAP`: 65535 is never reached. -/
theorem prdtLimit_lt (p : Params) (cnt : Half) :
    prdtLimit p < prdtCount cnt.toNat ↔ p.prdtCap < (cnt.toNat + 15) / 16 := by
  have h := prdtCount_le cnt
  rw [← prdtCount_eq]
  simp only [prdtLimit, prdtAbsMax]
  omega

/-! ## 32-bit values of registers -/

@[simp] theorem trunc_word (v : Word) : Width.w32.trunc (v.setWidth 64) = v.setWidth 64 := by
  simp [Width.trunc]

theorem wrote_log (s : State) (a : Nat) (v : Word) : (s.wrote a v).log = wr32 a v :: s.log := by
  simp only [State.wrote, State.afterWrite, trunc_word]
  rfl

/-- A 32-bit write to a register of known content uses up no free value. -/
theorem wrote_known {s : State} {a : Nat} {old : Word} (v : Word) (h : Reads32 s a old) :
    s.wrote a v =
      { s with
        regs := writeReg s.regs (s.regKind a) a (v.setWidth 64) (old.setWidth 64), log := wr32 a v :: s.log } := by
  have hd : s.writeDraws a = false := by rw [State.writeDraws, h]; simp
  simp only [State.wrote, State.afterWrite, hd, busValue_known .w32 h, trunc_word]
  rfl

@[simp] theorem word_setWidth (v : Word) : word (v.setWidth 64) = v := by simp [word]

theorem portBusy_word (p : Params) (v : Word) : portBusy p (v.setWidth 64) = (v &&& p.ahciBusyMask != 0#32) := by
  simp [portBusy]

theorem portError_word (p : Params) (v : Word) : portError p (v.setWidth 64) = (v &&& p.ahciErrMask != 0#32) := by
  simp [portError]

theorem slotClear_word (v : Word) {k : Nat} (h : k < 64) : slotClear (v.setWidth 64) k = !v.getLsbD k := by
  simp [slotClear, h]

theorem ciValue_eq (slot : Half) : ciValue slot = (1#32 <<< slot.toNat).setWidth 64 := rfl

/-- A read of a register that holds a 32-bit value while the devices take no step. -/
theorem mmioRead_word {a : Nat} {s : State} {v : Word} (h : a + 4 ≤ addrSpace) (hq : s.script = [])
    (hv : Reads32 s a v) : mmioRead .w32 a s = .go (v.setWidth 64) { s with log := rd32 a v :: s.log } := by
  have := mmioRead_quiet (w := .w32) h hq hv
  rw [trunc_word] at this; exact this

/-- The same while the devices' step does nothing. -/
theorem mmioRead_word_idle {a : Nat} {s : State} {v : Word} {rest : List DevAct} (h : a + 4 ≤ addrSpace)
    (hq : s.script = {} :: rest) (hv : Reads32 s a v) :
    mmioRead .w32 a s = .go (v.setWidth 64) { s with script := rest, log := rd32 a v :: s.log } := by
  have := mmioRead_idle (w := .w32) h hq hv
  rw [trunc_word] at this; exact this

/-- The same while the devices' step gives that very register its value. -/
theorem mmioRead_word_set {a : Nat} {s : State} {v : Word} {rest : List DevAct} {data : List Host.Cell}
    (h : a + 4 ≤ addrSpace) (hq : s.script = { regs := [(a, some (v.setWidth 64))], mem := data } :: rest) :
    mmioRead .w32 a s = .go (v.setWidth 64)
      { s with
        script := rest, regs := alSet s.regs a (v.setWidth 64), mem := data.foldl (dmaByte s.cfg.memEnd) s.mem
        log := rd32 a v :: s.log } := by
  rw [mmioRead_of h, tick_act hq]
  have hv : alGet ({ s with
      script := rest, regs := [(a, some (v.setWidth 64))].foldl setReg s.regs,
      mem := data.foldl (dmaByte s.cfg.memEnd) s.mem } : State).regs a = some (v.setWidth 64) := by
    simp [setReg]
  rw [busValue_known .w32 hv, afterRead_known .w32 hv, trunc_word]
  rfl

/-- A register of a port whose block lies within the address space. -/
theorem portReg_fits {c : AhciCtx} {off : Nat} (h : c.block + 0x80 ≤ addrSpace) (ho : off + 4 ≤ 0x80) :
    c.portReg off + 4 ≤ addrSpace := by
  unfold AhciCtx.portReg; omega

/-- The scan of two 32-bit registers finds the lowest free slot. -/
theorem firstClear_lowest {c : AhciCtx} {sact ci : Word} {k : Nat} (h : LowestFree c sact ci k) :
    firstClear (sact.setWidth 64 ||| ci.setWidth 64) (min c.hba.nSlots.toNat 32) 0 = some k := by
  rw [firstClear_eq_some]
  have h1 := h.inRange
  have h2 := h.word
  refine ⟨by omega, by omega, ?_, fun j _ hj => ?_⟩
  · have := h.free
    simp at this
    simp [slotClear, this]
  · have := h.lower j hj
    have h3 : j < 64 := by omega
    simp at this
    rcases this with h | h <;> simp [slotClear, h, h3]

theorem header_fits {s : State} {dev : Byte} {c : AhciCtx} {slot : Half} (h : OnPort s dev c)
    (ha : s.arenaOk = true) (hn : slot.toNat < 32) : c.port.clb.toNat + 32 * slot.toNat + 32 ≤ s.cfg.memEnd := by
  have := clb_fits h ha; omega

/-! ## Stores and loads -/

theorem bind_of {α β : Type} {m : Flow α} {k : α → State → Flow β} {a : α} {s : State} (h : m = .go a s) :
    m.bind k = k a s := by rw [h]; rfl

/-- A block store changes the bytes it names and no other. -/
theorem afterStore_frame (s : State) (a : Nat) (bs : List Byte) :
    sameOutside s (s.afterStore a bs) a bs.length ∧ holds (s.afterStore a bs) a bs :=
  ⟨fun _ hb => byteAt_write_outside _ _ _ hb, fun _ hi => byteAt_write_inside _ _ _ hi⟩

/-- A block store while the devices take no step. -/
theorem memStore_quiet {a : Nat} {bs : List Byte} {s : State} (hq : s.script = [])
    (h : a + bs.length ≤ s.cfg.memEnd) : memStore a bs s = .go () (s.afterStore a bs) := by
  rw [memStore_of h, tick_quiet hq]

/-- Byte stores while the devices take no step. -/
theorem storeBytes_quiet {a : Nat} {bs : List Byte} {s : State} (hb : bs ≠ []) (hq : s.script = [])
    (h : a + bs.length ≤ s.cfg.memEnd) : storeBytes a bs s = .go () (s.storedBytes a bs) := by
  induction bs generalizing a s with
  | nil => exact absurd rfl hb
  | cons b bs ih =>
    rw [List.length_cons] at h
    rw [storeBytes, bind_of (memStore_quiet hq (by simp only [List.length_singleton]; omega))]
    cases bs with
    | nil => rfl
    | cons c bs =>
      rw [ih (by simp) (by exact hq) (by simp only [State.afterStore]; omega)]
      simp only [State.storedBytes, State.afterStore, write_cons, byteStores, List.length_cons,
        List.range_succ_eq_map (n := bs.length + 1), List.map_cons, List.map_map,
        List.reverse_cons, List.append_assoc, List.singleton_append]
      congr 4 <;> (congr 1; funext i; simp; omega)

/-- Byte loads while the devices take no step. -/
theorem loadBytes_quiet {a n : Nat} {s : State} (h : a + n ≤ s.cfg.memEnd) (hq : s.script = []) :
    loadBytes a n s = .go (s.mem.read a n) { s with log := byteLoads a n ++ s.log } := by
  induction n generalizing a s with
  | zero => rfl
  | succ n ih =>
    rw [loadBytes, bind_of (memLoad_quiet (by omega) hq),
      bind_of (ih (s := { s with log := .load a 1 :: s.log }) (by show a + 1 + n ≤ s.cfg.memEnd; omega) hq)]
    simp only [Memory.read, byteLoads, List.range_succ_eq_map, List.map_cons, List.map_map, List.reverse_cons,
      List.append_assoc, List.singleton_append, Nat.add_zero, Function.comp_def, Nat.add_assoc, Nat.add_comm 1]

/-- A string of the payload while the devices take no step. -/
theorem loadField_quiet {p w n : Nat} {s : State} (h : p + 2 * (w + n) ≤ s.cfg.memEnd) (hq : s.script = []) :
    loadField p w n s =
      .go (swapPairs (s.mem.read (p + 2 * w) (2 * n))) { s with log := fieldLoads p w n ++ s.log } := by
  induction n generalizing w s with
  | zero => rfl
  | succ n ih =>
    rw [loadField, bind_of (memLoad_quiet (by omega) hq),
      bind_of (memLoad_quiet (s := { s with log := .load (p + 2 * w + 1) 1 :: s.log }) (by
        show p + 2 * w + 1 ≤ s.cfg.memEnd; omega) hq),
      bind_of (ih (s := { s with log := .load (p + 2 * w) 1 :: .load (p + 2 * w + 1) 1 :: s.log }) (by
        show p + 2 * (w + 1 + n) ≤ s.cfg.memEnd; omega) hq)]
    simp only [fieldLoads, List.range_succ_eq_map, List.flatMap_cons, List.flatMap_map, List.reverse_cons,
      List.reverse_append, List.append_assoc, List.singleton_append, List.nil_append, List.reverse_nil,
      Nat.add_zero, Nat.add_assoc, Nat.add_comm 1, Nat.succ_eq_add_one]
    rfl

/-- A block store while the devices' step does nothing. -/
theorem memStore_idle {a : Nat} {bs : List Byte} {s : State} {rest : List DevAct} (hq : s.script = {} :: rest)
    (h : a + bs.length ≤ s.cfg.memEnd) : memStore a bs s = .go () { s.afterStore a bs with script := rest } := by
  rw [memStore_of h, tick_idle hq]; rfl

/-- A register write while the devices take no step. -/
theorem mmioWrite_quiet {w : Width} {a : Nat} {v : Quad} {s : State} (hq : s.script = [])
    (h : a + w.bytes ≤ addrSpace) : mmioWrite w a v s = .go () (s.afterWrite w a v) := by
  rw [mmioWrite_of h, tick_quiet hq]

/-- The same while the devices' step does nothing. -/
theorem mmioWrite_idle {w : Width} {a : Nat} {v : Quad} {s : State} {rest : List DevAct}
    (hq : s.script = {} :: rest) (h : a + w.bytes ≤ addrSpace) :
    mmioWrite w a v s = .go () { s.afterWrite w a v with script := rest } := by
  rw [mmioWrite_of h, tick_idle hq]; rfl

/-! ## Acceptance leaves a claim as it was -/

theorem slotOn_accepted {s : State} {dev : Byte} {c : AhciCtx} {t : Quad} (op : Byte) (r : Request)
    (h : SlotOn s dev c t) : SlotOn (s.acceptedMicro op r) dev c t :=
  ⟨h.port, h.claim, h.inRange, h.table⟩

theorem entryOn_accepted {s : State} {dev : Byte} {c : NvmeCtx} {a : Bool} (op : Byte) (r : Request)
    (h : EntryOn s dev a c) : EntryOn (s.acceptedMicro op r) dev a c :=
  ⟨h.queue, h.claim, h.inRange⟩

theorem accepted_raw (r : Request) (s : State) (op : Byte) :
    (s.acceptedMicro op r).x.flg.getLsbD 1 = r.arg.getLsbD 10 := argFlg_raw r

/-! ## NVMe transfers -/

theorem transferBytes_eq (c : NvmeCtx) (x : Regs) :
    c.transferBytes x = transferLength (x.flg.getLsbD 1) x.cnt c.dev := rfl

theorem sqe_eq (s : State) (c : NvmeCtx) : s.sqe c = entryOf s.cfg c.dev s.x := by
  unfold State.sqe entryOf State.cdws Regs.isRaw Regs.isNs
  cases h : s.x.flg.getLsbD 1 <;> cases h3 : s.x.flg.getLsbD 3 <;> cases h2 : s.cfg.nvmeRwLayout <;> rfl

theorem tooLarge_false {c : NvmeCtx} {buf : Quad} {len : Nat} (h1 : len ≤ c.nv.mdts)
    (h2 : buf.toNat % c.nv.pageBytes + len ≤ c.nv.pageBytes) : c.tooLarge buf len = false := by
  simp [NvmeCtx.tooLarge]; omega

theorem entry_fits {s : State} {q : Nat} {c : NvmeCtx} (h : alGet s.qp q = some c.qp) (ha : s.arenaOk = true)
    {slot : Half} (hs : slot.toNat < c.qp.qSize) : c.entry slot + 64 ≤ s.cfg.memEnd := by
  have := sq_fits h ha
  unfold NvmeCtx.entry; omega

theorem head_fits {s : State} {q : Nat} {c : NvmeCtx} (h : alGet s.qp q = some c.qp) (ha : s.arenaOk = true)
    (hs : c.qp.cqHead.toNat < c.qp.qSize) : c.head + 16 ≤ s.cfg.memEnd := by
  have := cq_fits h ha
  unfold NvmeCtx.head; omega

/-! ## Waits and polls -/

theorem repeated_succ (n : Nat) (es l : List BusEvent) : repeated n es ++ (es ++ l) = repeated (n + 1) es ++ l := by
  unfold repeated
  rw [List.replicate_succ', List.flatten_append, List.append_assoc]
  simp

@[simp] theorem repeated_zero (es l : List BusEvent) : repeated 0 es ++ l = l := rfl

theorem repeated_reverse (n : Nat) (e : BusEvent) : (repeated n [e]).reverse = repeated n [e] := by
  simp [repeated]

theorem bump_add (i : Word) (k : Nat) : i + 1#32 + BitVec.ofNat 32 k = i + BitVec.ofNat 32 (k + 1) := by
  apply BitVec.eq_of_toNat_eq; simp; omega

/-- A wait whose register shows `v0`, which does not end it, for `k` looks, and then `v`, which does. -/
theorem waitRounds_at {a : Nat} {done : Quad → Bool} {e : Err} {v0 v : Word} {rest : List DevAct}
    (ha : a + 4 ≤ addrSpace) (hv : done (v.setWidth 64) = true) (k n : Nat) (s : State) (hk : k < n)
    (hs : s.script = List.replicate k ({} : DevAct) ++ { regs := [(a, some (v.setWidth 64))] } :: rest)
    (h0 : 0 < k → Reads32 s a v0 ∧ done (v0.setWidth 64) = false) :
    waitRounds a done e n s = .go ()
      { s with
        x := { s.x with iter := s.x.iter + BitVec.ofNat 32 k }
        regs := alSet s.regs a (v.setWidth 64)
        script := rest
        log := rd32 a v :: (repeated k [rd32 a v0] ++ s.log) } := by
  induction k generalizing n s with
  | zero =>
    obtain ⟨m, rfl⟩ : ∃ m, n = m + 1 := ⟨n - 1, by omega⟩
    rw [waitRounds, mmioRead_word_set ha hs, bind_go, if_pos hv]
    simp
  | succ k ih =>
    obtain ⟨m, rfl⟩ : ∃ m, n = m + 1 := ⟨n - 1, by omega⟩
    obtain ⟨h1, h2⟩ := h0 (by omega)
    rw [List.replicate_succ] at hs
    rw [waitRounds, mmioRead_word_idle ha hs h1, bind_go,
      if_neg (by rw [h2]; simp), ih _ _ (by omega) (by rfl) (fun _ => ⟨by exact h1, h2⟩)]
    simp only [State.bumpIter, bump_add, ← repeated_succ k]
    rfl

/-- A wait whose register always shows `v`, which does not end it. -/
theorem waitRounds_out {a : Nat} {done : Quad → Bool} {e : Err} {v : Word} (ha : a + 4 ≤ addrSpace)
    (hv : done (v.setWidth 64) = false) (n : Nat) (s : State) (hq : s.script = []) (h : Reads32 s a v) :
    waitRounds a done e n s = .stop (raised e .idle
      { s with
        x := { s.x with iter := s.x.iter + BitVec.ofNat 32 n }
        log := repeated n [rd32 a v] ++ s.log }) := by
  induction n generalizing s with
  | zero => simp [waitRounds]
  | succ n ih =>
    rw [waitRounds, mmioRead_word ha hq h, bind_go, if_neg (by rw [hv]; simp), ih _ (by exact hq) (by exact h)]
    simp only [State.bumpIter, bump_add, ← repeated_succ n]
    rfl

/-- The budget as the number of looks. -/
theorem ofNat_budget (b : Word) : (0#32) + BitVec.ofNat 32 b.toNat = b := by simp

/-- An AHCI poll that sees the slot's bit of `PxCI` set for `k` looks, and then clear. -/
theorem ahciPollRounds_at {c : AhciCtx} {ci done err : Word} {data : List Host.Cell}
    (hb : c.block + 0x80 ≤ addrSpace) (k n : Nat) (s : State) (hw : s.cfg.ahciErrOff + 4 ≤ 0x80)
    (hne : s.cfg.ahciErrOff ≠ 0x38) (hs64 : s.x.slot.toNat < 64) (hd : done.getLsbD s.x.slot.toNat = false)
    (he : err &&& s.cfg.ahciErrMask = 0#32) (hk : k < n)
    (hs : s.script = List.replicate (2 * k) ({} : DevAct) ++
      [{ regs := [(c.portReg 0x38, some (done.setWidth 64))], mem := data }])
    (hr : Reads32 s (c.portReg s.cfg.ahciErrOff) err)
    (h0 : 0 < k → Reads32 s (c.portReg 0x38) ci ∧ ci.getLsbD s.x.slot.toNat = true) :
    ahciPollRounds c n s = .go () (complete
      { s with
        x := { s.x with iter := s.x.iter + BitVec.ofNat 32 k }
        regs := alSet s.regs (c.portReg 0x38) (done.setWidth 64)
        mem := data.foldl (dmaByte s.cfg.memEnd) s.mem
        script := []
        log := rd32 (c.portReg s.cfg.ahciErrOff) err :: rd32 (c.portReg 0x38) done ::
          (repeated k [rd32 (c.portReg s.cfg.ahciErrOff) err, rd32 (c.portReg 0x38) ci] ++ s.log) }) := by
  have hci : c.portReg 0x38 + 4 ≤ addrSpace := portReg_fits hb (by omega)
  induction k generalizing n s with
  | zero =>
    obtain ⟨m, rfl⟩ : ∃ m, n = m + 1 := ⟨n - 1, by omega⟩
    have hr' : alGet (alSet s.regs (c.portReg 0x38) (done.setWidth 64)) (c.portReg s.cfg.ahciErrOff)
        = some (err.setWidth 64) := by
      rw [alGet_alSet_other]
      · exact hr
      · unfold AhciCtx.portReg; omega
    rw [ahciPollRounds, mmioRead_word_set hci hs, bind_go,
      mmioRead_word (portReg_fits hb hw) (by rfl) (by exact hr'), bind_go,
      if_neg (by rw [portError_word, he]; simp),
      if_pos (by rw [slotClear_word _ (by exact hs64), hd]; rfl)]
    simp
  | succ k ih =>
    obtain ⟨m, rfl⟩ : ∃ m, n = m + 1 := ⟨n - 1, by omega⟩
    obtain ⟨h1, h2⟩ := h0 (by omega)
    rw [show 2 * (k + 1) = 2 * k + 1 + 1 by omega, List.replicate_succ, List.replicate_succ] at hs
    rw [ahciPollRounds, mmioRead_word_idle hci hs h1, bind_go,
      mmioRead_word_idle (portReg_fits hb hw) (by rfl) (by exact hr), bind_go,
      if_neg (by rw [portError_word, he]; simp),
      if_neg (by rw [slotClear_word _ (by exact hs64), h2]; simp),
      ih _ _ (by exact hw) (by exact hne) (by exact hs64) (by exact hd) (by exact he) (by omega) (by rfl)
        (by exact hr) (fun _ => ⟨by exact h1, by exact h2⟩)]
    simp only [State.bumpIter, bump_add, ← repeated_succ k]
    rfl

/-- An AHCI poll that neither completes nor fails. -/
theorem ahciPollRounds_out {c : AhciCtx} {ci err : Word} (hb : c.block + 0x80 ≤ addrSpace) (n : Nat) (s : State)
    (hw : s.cfg.ahciErrOff + 4 ≤ 0x80) (hs64 : s.x.slot.toNat < 64) (hci : ci.getLsbD s.x.slot.toNat = true)
    (he : err &&& s.cfg.ahciErrMask = 0#32) (hq : s.script = []) (h1 : Reads32 s (c.portReg 0x38) ci)
    (h2 : Reads32 s (c.portReg s.cfg.ahciErrOff) err) :
    ahciPollRounds c n s = timeOut
      { s with
        x := { s.x with iter := s.x.iter + BitVec.ofNat 32 n }
        log := repeated n [rd32 (c.portReg s.cfg.ahciErrOff) err, rd32 (c.portReg 0x38) ci] ++ s.log } := by
  induction n generalizing s with
  | zero => simp [ahciPollRounds]
  | succ n ih =>
    rw [ahciPollRounds, mmioRead_word (portReg_fits hb (by omega)) hq h1, bind_go,
      mmioRead_word (portReg_fits hb hw) (by exact hq) (by exact h2), bind_go,
      if_neg (by rw [portError_word, he]; simp),
      if_neg (by rw [slotClear_word _ (by exact hs64), hci]; simp),
      ih _ (by exact hw) (by exact hs64) (by exact hci) (by exact he) (by exact hq) (by exact h1) (by exact h2)]
    simp only [State.bumpIter, bump_add, ← repeated_succ n]
    rfl

end Sys2Proof.Laws
end

