-- ==== Sys2Proof/Laws/Commands.lean ====
section
/-!
SUPPORT. A whole command of either engine, from its accepted state to its completion, on a device that answers before
the first look of the poll.
-/

namespace Sys2Proof.Laws

open Sys2Proof.Machine

theorem needOk_of {α : Type} {e : Except Refusal α} {a : α} {s : State} (h : e = .ok a) : needOk e s = .go a s := by
  rw [h]; rfl

/-! ## AHCI -/

theorem toNat_slot {k : Nat} (h : k < 32) : (BitVec.ofNat 16 k).toNat = k := by
  simp; omega

/-- The allocator, on known registers. -/
theorem ahciAllocStep_run {s : State} {c : AhciCtx} {sact ci : Word} {k : Nat} {rest : List DevAct}
    (hp : OnPort s s.x.dev c) (hb : c.block + 0x80 ≤ addrSpace) (hs : s.script = {} :: {} :: rest)
    (h1 : Reads32 s (c.portReg 0x34) sact) (h2 : Reads32 s (c.portReg 0x38) ci) (hk : LowestFree c sact ci k) :
    ahciAllocStep s = .go ()
      { s with
        pc := .slotAllocated
        x := { s.x with slot := BitVec.ofNat 16 k, val := (BitVec.ofNat 16 k).setWidth 64 }
        claim := some (.port c.p)
        built := none
        script := rest
        log := rd32 (c.portReg 0x38) ci :: rd32 (c.portReg 0x34) sact :: s.log } := by
  rw [ahciAllocStep, ahciCtx_of hp rfl, needOk_ok, bind_go, mmioRead_word_idle (portReg_fits hb (by omega)) hs h1,
    bind_go, mmioRead_word_idle (portReg_fits hb (by omega)) (by rfl) (by exact h2), bind_go, firstClear_lowest hk]
  rfl

/-- PRDT.BUILD. -/
theorem prdtStep_run {s : State} {ident : Bool} {c : AhciCtx} {table : Quad} {rest : List DevAct}
    (hs : SlotOn s s.x.dev c table) (hi : s.x.isIdentify = ident) (hf : PrdtFits s ident c s.x.buf s.x.cnt) (hq : s.script = {} :: rest) :
    prdtStep s = .go ()
      { s.afterStore (table.toNat + 0x80) (prdtBytes (prdtOf s.x.buf s.x.cnt.toNat)) with
        script := rest, x := prdtRegs s.x, built := some (s.x.buf.toNat, s.x.cnt.toNat * 512) } := by
  have ht := table_fits hs.port hf.arena.2 (mem_of_getElem? hs.table)
  have hroom := hf.room
  have hp : table.toNat + 0x80 + (prdtBytes (prdtOf s.x.buf s.x.cnt.toNat)).length ≤ s.cfg.memEnd := by
    rw [prdtBytes_length, prdtOf_length]; omega
  have hl : ¬ prdtLimit s.cfg < prdtCount s.x.cnt.toNat := by
    rw [prdtLimit_lt, ← prdtCount_eq]; omega
  rw [prdtStep, ahciSlot_of hs rfl, bind_go, if_neg hl, ahciPremises_of hf.arena, bind_go,
    need_of _ _ (beq_iff_eq.2 hf.even), bind_go, bufferPremises_of (n := s.x.cnt.toNat * sectorBytes) hi hf.fits, bind_go]
  exact bind_of (memStore_idle hq hp)

/-- FIS.BUILD. -/
theorem fisStep_run {s : State} {c : AhciCtx} {table : Quad} {rest : List DevAct} (hs : SlotOn s s.x.dev c table)
    (ha : PortArena s c) (hl : s.x.lba.toNat < 281474976710656) (hq : s.script = {} :: rest) :
    fisStep s = .go ()
      { s.afterStore table.toNat (tableHead ((fisOf s.cfg s.x).bytes s.x.cmdb)) with script := rest } := by
  have ht := table_fits hs.port ha.2 (mem_of_getElem? hs.table)
  rw [fisStep, need_of _ _ (decide_eq_true hl), bind_go, storeFis, ahciSlot_of hs rfl, bind_go, ahciPremises_of ha,
    bind_go]
  exact memStore_idle hq (by simp; omega)

/-- HDR.BUILD. -/
theorem hdrStep_run {s : State} {c : AhciCtx} {table : Quad} {rest : List DevAct} (hs : SlotOn s s.x.dev c table)
    (ha : PortArena s c) (hb : s.built.isSome = true) (h32 : s.x.slot.toNat < 32) (hq : s.script = {} :: rest) :
    hdrStep s = .go ()
      { s.afterStore (c.port.clb.toNat + 32 * s.x.slot.toNat)
          (CmdHdr.bytes { write := s.x.wr, prdtl := s.x.nprd, ctba := table }) with script := rest } := by
  have hh := header_fits (slot := s.x.slot) hs.port ha.2 h32
  rw [hdrStep, need_of _ _ hb, bind_go, storeHeader, ahciSlot_of hs rfl, bind_go, ahciPremises_of ha, bind_go]
  exact memStore_idle hq (by simp; exact hh)

theorem slotOn_of {s t : State} {dev : Byte} {c : AhciCtx} {table : Quad} (h : SlotOn s dev c table)
    (h1 : t.dev = s.dev) (h2 : t.port = s.port) (h3 : t.hba = s.hba) (h4 : t.claim = s.claim)
    (h5 : t.x.slot = s.x.slot) : SlotOn t dev c table := by
  refine ⟨?_, h4.trans h.claim, h5 ▸ h.inRange, h5 ▸ h.table⟩
  have := h.port
  unfold OnPort OnHba at this ⊢
  rw [h1, h2, h3]; exact this

/-- AHCI.BUILD (R201). -/
theorem ahciBuildStep_run {s : State} {ident : Bool} {c : AhciCtx} {table : Quad} {rest : List DevAct}
    (hs : SlotOn s s.x.dev c table) (hi : s.x.isIdentify = ident) (hf : PrdtFits s ident c s.x.buf s.x.cnt) (hl : s.x.lba.toNat < 281474976710656)
    (h32 : s.x.slot.toNat < 32) (hq : s.script = {} :: {} :: {} :: rest) :
    ahciBuildStep s = .go () { ahciBuilt c table s with script := rest } := by
  rw [ahciBuildStep, bind_of (prdtStep_run hs hi hf hq)]
  refine Eq.trans (bind_of (fisStep_run (c := c) (table := table) (rest := {} :: rest)
    (slotOn_of hs rfl rfl rfl rfl rfl) hf.arena hl rfl)) ?_
  refine Eq.trans (bind_of (hdrStep_run (c := c) (table := table) (rest := rest)
    (slotOn_of hs rfl rfl rfl rfl rfl) hf.arena rfl h32 rfl)) ?_
  have hv : (BitVec.ofNat 16 (prdtCount s.x.cnt.toNat)).setWidth 64 = BitVec.ofNat 64 (prdtCount s.x.cnt.toNat) := by
    have := prdtCount_le s.x.cnt
    apply BitVec.eq_of_toNat_eq; simp; omega
  simp only [State.setVal, State.afterStore, prdtRegs, hv]
  rfl

/-- AHCI.ISSUE on a port that is not busy (R216). -/
theorem ahciIssueStep_run {s : State} {c : AhciCtx} {table : Quad} {b : Nat × Nat} {busy : Word}
    {rest : List DevAct} (hs : SlotOn s s.x.dev c table) (hw : PortWindow s c) (hb : s.built = some b)
    (hr : Reads32 s (c.portReg s.cfg.ahciBusyOff) busy) (hi : busy &&& s.cfg.ahciBusyMask = 0#32)
    (hn : s.cfg.busyBudget ≠ 0#32) (hq : s.script = {} :: {} :: rest) :
    ahciIssueStep s = .go ()
      { s.wrote (c.portReg 0x38) (1#32 <<< s.x.slot.toNat) with
        pc := .issued
        x := { s.x with iter := 0#32 }
        inflight := some { chan := .port c.p, slot := s.x.slot, cid := 0#16, dataAt := b.1, dataLen := b.2 }
        pend := unordered (some b) s.pend
        script := rest
        log := wr32 (c.portReg 0x38) (1#32 <<< s.x.slot.toNat) :: .publish ::
          rd32 (c.portReg s.cfg.ahciBusyOff) busy :: s.log } := by
  obtain ⟨n, hn⟩ : ∃ n, s.cfg.busyBudget.toNat = n + 1 := by
    refine Nat.exists_eq_succ_of_ne_zero fun h => hn ?_
    exact BitVec.eq_of_toNat_eq (by simpa using h)
  have h1 : waitFor (c.portReg s.cfg.ahciBusyOff) (fun t => !portBusy s.cfg t) .portHung s.cfg.busyBudget s
      = .go () { s with
          x := { s.x with iter := 0#32 }, script := {} :: rest
          log := rd32 (c.portReg s.cfg.ahciBusyOff) busy :: s.log } := by
    rw [waitFor, hn, waitRounds, mmioRead_word_idle (s := s.clearIter) (portReg_fits hw.block hw.busy) hq hr, bind_go,
      if_pos (by rw [portBusy_word, hi]; rfl)]
    rfl
  rw [ahciIssueStep, ahciSlot_of hs rfl, bind_go, bind_of h1, bind_of (mmioWrite_idle (rest := rest) (by rfl)
    (portReg_fits hw.block (by omega))), ciValue_eq]
  simp only [publish, State.wrote, State.afterWrite, markIssued, State.portTag, hb, Option.getD_some, trunc_word]
  rfl

/-- The same on a port whose `PxCI` is known. -/
theorem ahciIssueStep_known {s : State} {c : AhciCtx} {table : Quad} {b : Nat × Nat} {busy ci : Word}
    {rest : List DevAct} (hs : SlotOn s s.x.dev c table) (hw : PortWindow s c) (hb : s.built = some b)
    (hr : Reads32 s (c.portReg s.cfg.ahciBusyOff) busy) (hi : busy &&& s.cfg.ahciBusyMask = 0#32)
    (hn : s.cfg.busyBudget ≠ 0#32) (hc : Reads32 s (c.portReg 0x38) ci) (hq : s.script = {} :: {} :: rest) :
    ahciIssueStep s = .go ()
      { s with
        pc := .issued
        x := { s.x with iter := 0#32 }
        inflight := some { chan := .port c.p, slot := s.x.slot, cid := 0#16, dataAt := b.1, dataLen := b.2 }
        regs := writeReg s.regs (s.regKind (c.portReg 0x38)) (c.portReg 0x38) ((1#32 <<< s.x.slot.toNat).setWidth 64)
          (ci.setWidth 64)
        pend := unordered (some b) s.pend
        script := rest
        log := wr32 (c.portReg 0x38) (1#32 <<< s.x.slot.toNat) :: .publish ::
          rd32 (c.portReg s.cfg.ahciBusyOff) busy :: s.log } := by
  rw [ahciIssueStep_run hs hw hb hr hi hn hq, wrote_known _ hc]

/-- AHCI.POLL on a command that is over at the first look (R218). -/
theorem ahciPollStep_run {s : State} {c : AhciCtx} {table : Quad} {done err : Word} {data : List Host.Cell}
    (hs : SlotOn s s.x.dev c table) (hw : PortWindow s c) (h64 : s.x.slot.toNat < 64)
    (hd : done.getLsbD s.x.slot.toNat = false) (he : err &&& s.cfg.ahciErrMask = 0#32)
    (hk : s.cfg.pollBudget ≠ 0#32)
    (hq : s.script = [{ regs := [(c.portReg 0x38, some (done.setWidth 64))], mem := data }])
    (hr : Reads32 s (c.portReg s.cfg.ahciErrOff) err) :
    ahciPollStep s = .go () (complete
      { s with
        x := { s.x with iter := 0#32 }
        regs := alSet s.regs (c.portReg 0x38) (done.setWidth 64)
        mem := data.foldl (dmaByte s.cfg.memEnd) s.mem
        script := []
        log := rd32 (c.portReg s.cfg.ahciErrOff) err :: rd32 (c.portReg 0x38) done :: s.log }) := by
  have hb0 : 0 < s.cfg.pollBudget.toNat :=
    Nat.pos_of_ne_zero fun h => hk (BitVec.eq_of_toNat_eq (by simpa using h))
  rw [ahciPollStep, ahciSlot_of hs rfl, bind_go,
    ahciPollRounds_at (ci := 0#32) hw.block 0 _ s.clearIter hw.error hw.apart h64 hd he hb0 hq hr
      (fun h => absurd h (by omega))]
  simp [State.clearIter]

/-- One AHCI command (43_ahci_engine.md R221). -/
theorem ahciCmdStep_run {a : State} {ident : Bool} {c : AhciCtx} {k : Nat} {table : Quad} {v : PortView}
    {data : List Host.Cell} {ciEnd : Word} (hi : a.x.isIdentify = ident) (h : AhciReady a ident a.x.dev a.x.cnt a.x.buf c k table v) (hl : a.x.lba.toNat < 281474976710656)
    (hs : a.script = ahciScript c data ciEnd) (hd : ciEnd.getLsbD k = false) :
    ahciCmdStep a = .go () (ahciDone c k table v data ciEnd a) := by
  have hk := h.slot.word
  have hks := toNat_slot hk
  rw [ahciCmdStep, bind_of (ahciAllocStep_run h.port h.window.block hs h.shows.sact h.shows.ci h.slot)]
  have hslot : SlotOn { a with
      pc := .slotAllocated
      x := { a.x with slot := BitVec.ofNat 16 k, val := (BitVec.ofNat 16 k).setWidth 64 }
      claim := some (.port c.p)
      built := none
      script := (List.replicate 5 ({} : DevAct)).append
        [{ regs := [(c.portReg 0x38, some (ciEnd.setWidth 64))], mem := data }]
      log := rd32 (c.portReg 0x38) v.ci :: rd32 (c.portReg 0x34) v.sact :: a.log } a.x.dev c table :=
    ⟨h.port, rfl, by show (BitVec.ofNat 16 k).toNat < _; rw [hks]; exact h.slot.inRange,
      by show c.port.ct[(BitVec.ofNat 16 k).toNat]? = _; rw [hks]; exact h.table⟩
  refine Eq.trans (bind_of (ahciBuildStep_run hslot hi ⟨h.fits.arena, h.fits.even, h.fits.fits, h.fits.room⟩ hl
      (by show (BitVec.ofNat 16 k).toNat < 32; omega) rfl)) ?_
  refine Eq.trans (bind_of (ahciIssueStep_known (c := c) (table := table) (busy := v.busy) (ci := v.ci)
    (rest := [{ regs := [(c.portReg 0x38, some (ciEnd.setWidth 64))], mem := data }])
    (slotOn_of hslot rfl rfl rfl rfl rfl)
    ⟨h.window.block, h.window.busy, h.window.error, h.window.apart⟩ rfl h.shows.busy h.idle h.busyBudget
    h.shows.ci rfl)) ?_
  refine Eq.trans (ahciPollStep_run (c := c) (table := table) (done := ciEnd) (data := data) (err := v.err)
      (slotOn_of hslot rfl rfl rfl rfl rfl)
      ⟨h.window.block, h.window.busy, h.window.error, h.window.apart⟩
      (by show (BitVec.ofNat 16 k).toNat < 64; omega)
      (by show ciEnd.getLsbD (BitVec.ofNat 16 k).toNat = _; rw [hks]; exact hd)
      h.noError h.pollBudget rfl ?_) ?_
  · show alGet (writeReg a.regs _ (c.portReg 0x38) _ _) (c.portReg a.cfg.ahciErrOff) = _
    rw [alGet_writeReg_other]
    · exact h.shows.err
    · have := h.window.apart
      unfold AhciCtx.portReg; omega
  · simp only [complete, ahciDone, ahciBuilt, State.afterStore, unordered, alSet_writeReg,
      prdtBytes_length, prdtOf_length, tableHead_length, cmdHdr_length, ahciTrace, hks,
      List.flatMap_cons, left_sequencer, List.nil_append, prdtRegs]
    rfl

/-! ## What DMA leaves in memory -/

theorem byte?_dmaByte {e : Nat} {m : Memory} {c : Host.Cell} (h : c.1 < e) (k : Nat) :
    (dmaByte e m c).byte? k = if k = c.1 then some c.2 else m.byte? k := by
  rw [dmaByte, if_pos h, byte?_write]
  by_cases hk : k = c.1
  · subst hk; simp
  · rw [if_neg (by simp only [List.length_singleton]; omega), if_neg hk]

theorem byte?_dma_outside {e : Nat} (a : Nat) (bs : List Byte) (m : Memory) {k : Nat}
    (h : k < a ∨ a + bs.length ≤ k) (hb : a + bs.length ≤ e) :
    ((cells a bs).foldl (dmaByte e) m).byte? k = m.byte? k := by
  induction bs generalizing a m with
  | nil => rfl
  | cons b bs ih =>
    simp only [List.length_cons] at h hb
    rw [cells, List.foldl_cons, ih (a + 1) _ (by omega) (by omega), byte?_dmaByte (by simp only; omega),
      if_neg (by simp only; omega)]

/-- The bytes a device transfers stand where it puts them. -/
theorem byte?_dma_inside {e : Nat} (a : Nat) (bs : List Byte) (m : Memory) (hb : a + bs.length ≤ e) {i : Nat}
    (hi : i < bs.length) : ((cells a bs).foldl (dmaByte e) m).byte? (a + i) = bs[i]? := by
  induction bs generalizing a m i with
  | nil => simp at hi
  | cons b bs ih =>
    simp only [List.length_cons] at hi hb
    rw [cells, List.foldl_cons]
    cases i with
    | zero =>
      rw [byte?_dma_outside (a + 1) bs _ (by omega) (by omega), byte?_dmaByte (by simp only; omega)]
      simp
    | succ i =>
      rw [show a + (i + 1) = a + 1 + i by omega, ih (a + 1) _ (by omega) (by omega)]
      simp

/-- The same of what a load reads. -/
theorem byteAt_dma_inside {e : Nat} (a : Nat) (bs : List Byte) (m : Memory) (hb : a + bs.length ≤ e) {i : Nat}
    (hi : i < bs.length) : some (((cells a bs).foldl (dmaByte e) m).byteAt (a + i)) = bs[i]? := by
  have h := byte?_dma_inside a bs m hb hi
  rw [List.getElem?_eq_getElem hi] at h ⊢
  rw [byteAt_known h]

/-! ## Loads -/

/-- A load of bytes that stand in memory. -/
theorem memLoad_holds {a n : Nat} {s : State} {bs : List Byte} (h : a + n ≤ s.cfg.memEnd) (hn : bs.length = n)
    (hr : holds (tick s) a bs) : memLoad a n s = .go bs { tick s with log := .load a n :: s.log } := by
  rw [memLoad_of h, read_eq.2 ⟨hn, fun i hi => hr i (by omega)⟩]

/-- A load of one dword of a completion entry. -/
theorem loadDword_holds {a : Nat} {s : State} {v : Word} (h : a + 4 ≤ s.cfg.memEnd)
    (hr : holds (tick s) a (leBytes 4 v.toNat)) :
    loadDword a s = .go v { tick s with log := .load a 4 :: s.log } := by
  rw [loadDword, bind_of (memLoad_holds h (by simp) hr), leNat_leBytes]
  congr 1
  apply BitVec.eq_of_toNat_eq; simpa using v.isLt

/-- A part of bytes that stand in memory. -/
theorem holds_part {s : State} {a off : Nat} {bs cs : List Byte} (h : holds s a bs)
    (hp : ∀ i, i < cs.length → off + i < bs.length ∧ bs[off + i]? = cs[i]?) : holds s (a + off) cs := by
  intro i hi
  obtain ⟨h1, h2⟩ := hp i hi
  rw [show a + off + i = a + (off + i) by omega, h _ h1, h2]

/-- The last two dwords of a completion entry. -/
theorem holds_dw3 {s : State} {a : Nat} {e : Cqe} (h : holds s a e.bytes) :
    holds s (a + 12) (leBytes 4 e.dw3.toNat) := by
  refine holds_part h fun i hi => ⟨by simp at hi ⊢; omega, ?_⟩
  simp only [Cqe.bytes]
  rw [List.getElem?_append_right (by simp)]
  simp

theorem holds_dw2 {s : State} {a : Nat} {e : Cqe} (h : holds s a e.bytes) :
    holds s (a + 8) (leBytes 4 e.dw2.toNat) := by
  refine holds_part h fun i hi => ⟨by simp at hi ⊢; omega, ?_⟩
  simp only [leBytes_length] at hi
  simp only [Cqe.bytes]
  rw [List.getElem?_append_left (by simp; omega), List.getElem?_append_right (by simp)]
  simp

/-! ## Fields of a completion entry -/

theorem cqeCid_dw3 (e : Cqe) : cqeCid e.dw3 = e.cid := by
  apply BitVec.eq_of_getLsbD_eq
  intro i hi
  have h1 : i < 32 := by omega
  have h2 : i < 17 := by omega
  have h3 : i < 28 := by omega
  simp [cqeCid, Cqe.dw3, hi, h1, h2, h3]

theorem cqeSqHead_dw2 (e : Cqe) : cqeSqHead e.dw2 = e.sqHead := by
  apply BitVec.eq_of_getLsbD_eq
  intro i hi
  have h1 : i < 32 := by omega
  simp [cqeSqHead, Cqe.dw2, hi, h1]

theorem cqeStatus_dw3 (e : Cqe) : (cqeStatus e.dw3).extractLsb' 1 11 = e.status := by
  apply BitVec.eq_of_getLsbD_eq
  intro i hi
  have h1 : 1 + i < 16 := by omega
  have h2 : 16 + (1 + i) < 32 := by omega
  have h3 : ¬ 16 + (1 + i) < 17 := by omega
  have h4 : 16 + (1 + i) < 28 := by omega
  have h5 : 16 + (1 + i) - 17 = i := by omega
  simp [cqeStatus, Cqe.dw3, h1, h2, h3, h4, h5]
  exact fun _ => hi

theorem cqeStatus_word (d : Word) : (cqeStatus d).setWidth 32 = d >>> 16 := by
  ext i hi
  simp [cqeStatus]
  intro h
  by_contra hn
  rw [BitVec.getLsbD_of_ge _ _ (by omega)] at h
  cases h

theorem cqeMatches_iff (p : BitVec 1) (cid : Half) (d : Word) :
    cqeMatches p cid d = true ↔ d.extractLsb' 16 1 = p ∧ d.extractLsb' 0 16 = cid := by
  have h : (cqeStatus d).extractLsb' 0 1 = d.extractLsb' 16 1 := by
    ext i hi
    obtain rfl : i = 0 := by omega
    simp [cqeStatus]
  simp [cqeMatches, cqeCid, h]

theorem cqePhase_dw3 (e : Cqe) : (cqeStatus e.dw3).extractLsb' 0 1 = e.phase := by
  apply BitVec.eq_of_getLsbD_eq
  intro i hi
  obtain rfl : i = 0 := by omega
  simp [cqeStatus, Cqe.dw3]

/-- An entry that answers the command is a match. -/
theorem matches_of {e : Cqe} {q : Qp} {cid : Half} (h : Answers e q cid) : cqeMatches q.phase cid e.dw3 = true := by
  unfold cqeMatches
  rw [cqePhase_dw3, cqeCid_dw3, h.phase, h.cid]
  simp

/-- An entry of another phase or another command is none. -/
theorem foreign_of {d : Word} {p : BitVec 1} {cid : Half}
    (h : d.extractLsb' 16 1 ≠ p ∨ d.extractLsb' 0 16 ≠ cid) : cqeMatches p cid d = false := by
  rw [Bool.eq_false_iff]
  intro hm
  obtain ⟨h1, h2⟩ := (cqeMatches_iff _ _ _).1 hm
  rcases h with h | h
  · exact h h1
  · exact h h2

/-! ## NVMe -/

/-- The state after the entry `e` has been consumed and the head doorbell written (44_nvme_engine.md R244). -/
def consumedState (c : NvmeCtx) (e : Cqe) (s : State) : State :=
  { s.wrote c.cqDoorbell ((ringNext c.qp.qSize c.qp.cqHead).setWidth 32) with
    qp := alSet s.qp c.q (c.qp.after e)
    log := wr32 c.cqDoorbell ((ringNext c.qp.qSize c.qp.cqHead).setWidth 32) :: s.log }

/-- The head doorbell's value, as a 32-bit write carries it. -/
theorem half_word (h : Half) : (h.setWidth 64 : Quad) = (h.setWidth 32 : Word).setWidth 64 := by
  apply BitVec.eq_of_toNat_eq; simp

/-- The consumption of an entry, whatever the devices do. -/
theorem consume_run {c : NvmeCtx} {e : Cqe} {s : State} (hd : c.cqDoorbell + 4 ≤ addrSpace)
    (hs : e.sqHead.toNat < c.qp.qSize) :
    consume c e.dw2 (cqeStatus e.dw3) s =
      if e.status = 0#11 then .go () (complete (consumedState c e (tick s)))
      else raiseDevice (e.dw3 >>> 16) (land (consumedState c e (tick s))) := by
  have h : consume c e.dw2 (cqeStatus e.dw3) s =
      if cqeFailed (cqeStatus e.dw3) then raiseDevice (e.dw3 >>> 16) (land (consumedState c e (tick s)))
      else .go () (complete (consumedState c e (tick s))) := by
    rw [consume, cqeSqHead_dw2, need_of _ _ (decide_eq_true hs), bind_go, bind_of (mmioWrite_of hd), half_word,
      cqeStatus_word, consumedState, ← wrote_log]
    rfl
  rw [h, cqeFailed, cqeStatus_dw3]
  by_cases h0 : e.status = 0#11 <;> simp [h0]

/-- A look that finds an old or foreign entry, where the fatal bit is not watched. -/
theorem pollRound_foreign {c : NvmeCtx} {d : Word} {n : Nat} {s : State} (hh : c.head + 16 ≤ s.cfg.memEnd)
    (hr : holds (tick s) (c.head + 12) (leBytes 4 d.toNat)) (hc : s.cfg.nvmeCheckCfs = false)
    (hf : d.extractLsb' 16 1 ≠ c.qp.phase ∨ d.extractLsb' 0 16 ≠ s.x.cid) :
    nvmePollRounds c (n + 1) s =
      nvmePollRounds c n ({ tick s with log := .load (c.head + 12) 4 :: s.log } : State).bumpIter := by
  have h1 := loadDword_holds (by omega) hr
  rw [nvmePollRounds, h1, bind_go, if_neg (by
    have := foreign_of hf
    simp [tick, this]), noMatch, if_neg (by simp [tick, hc]), bind_go]

/-- The same where the fatal bit is watched and is clear. -/
theorem pollRound_watched {c : NvmeCtx} {d csts : Word} {n : Nat} {s : State} (hh : c.head + 16 ≤ s.cfg.memEnd)
    (hr : holds (tick s) (c.head + 12) (leBytes 4 d.toNat)) (hc : s.cfg.nvmeCheckCfs = true)
    (hf : d.extractLsb' 16 1 ≠ c.qp.phase ∨ d.extractLsb' 0 16 ≠ s.x.cid) (hw : c.reg 0x1C + 4 ≤ addrSpace)
    (hv : Reads32 (tick (tick s)) (c.reg 0x1C) csts) (h0 : csts.getLsbD 1 = false) :
    nvmePollRounds c (n + 1) s = nvmePollRounds c n
      ({ tick (tick s) with
        log := rd32 (c.reg 0x1C) csts :: .load (c.head + 12) 4 :: s.log } : State).bumpIter := by
  have h1 := loadDword_holds (by omega) hr
  rw [nvmePollRounds, h1, bind_go, if_neg (by
    have := foreign_of hf
    simp [tick, this]), noMatch, if_pos (by simp [tick, hc]), bind_assoc, mmioRead_of hw, bind_go,
    busValue_known .w32 (by exact hv), afterRead_known .w32 (by exact hv), trunc_word]
  rw [if_neg (by simp at h0; simp [ctrlFatal, h0]), bind_go]
  rfl

/-- A look that finds the command's own entry. -/
theorem pollRound_own {c : NvmeCtx} {e : Cqe} {n : Nat} {s : State} (hh : c.head + 16 ≤ s.cfg.memEnd)
    (hd : c.cqDoorbell + 4 ≤ addrSpace) (hr : holds (tick s) c.head e.bytes) (hs : s.script.tail = [])
    (ha : Answers e c.qp s.x.cid) :
    nvmePollRounds c (n + 1) s =
      (let t := consumedState c e
        { tick s with log := .load (c.head + 8) 4 :: .load (c.head + 12) 4 :: s.log }
       if e.status = 0#11 then .go () (complete t) else raiseDevice (e.dw3 >>> 16) (land t)) := by
  have h1 := loadDword_holds (s := s) (by omega) (holds_dw3 hr)
  have hq : ({ tick s with log := .load (c.head + 12) 4 :: s.log } : State).script = [] := hs
  have h2 : loadDword (c.head + 8) { tick s with log := .load (c.head + 12) 4 :: s.log } = .go e.dw2
      { tick s with log := .load (c.head + 8) 4 :: .load (c.head + 12) 4 :: s.log } := by
    have := loadDword_holds (s := { tick s with log := .load (c.head + 12) 4 :: s.log }) (a := c.head + 8)
      (v := e.dw2) (by show _ ≤ s.cfg.memEnd; omega) (by rw [tick_quiet hq]; exact holds_dw2 hr)
    rw [tick_quiet hq] at this; exact this
  rw [nvmePollRounds, h1, bind_go, if_pos (by exact matches_of ha), bind_of h2, consume_run hd ha.sqHead,
    tick_quiet (by exact hs)]

/-- A look that finds an old or foreign entry while the devices' steps do nothing; where the fatal bit is watched, it is
clear (R245, R246). -/
theorem pollRound_miss {c : NvmeCtx} {d csts : Word} {n : Nat} {s : State} {rest : List DevAct}
    (hh : c.head + 16 ≤ s.cfg.memEnd) (hs : s.script = List.replicate (missSteps s.cfg) ({} : DevAct) ++ rest)
    (hr : holds s (c.head + 12) (leBytes 4 d.toNat))
    (hf : d.extractLsb' 16 1 ≠ c.qp.phase ∨ d.extractLsb' 0 16 ≠ s.x.cid)
    (hw : s.cfg.nvmeCheckCfs = true →
      c.reg 0x1C + 4 ≤ addrSpace ∧ Reads32 s (c.reg 0x1C) csts ∧ csts.getLsbD 1 = false) :
    nvmePollRounds c (n + 1) s =
      nvmePollRounds c n { s with
        x := { s.x with iter := s.x.iter + 1#32 }, script := rest, log := missTrace s.cfg c csts ++ s.log } := by
  cases hc : s.cfg.nvmeCheckCfs with
  | false =>
    rw [missSteps, hc, if_neg (by simp)] at hs
    have ht := tick_idle (s := s) hs
    rw [pollRound_foreign hh (d := d) (by rw [ht]; exact hr) hc hf, ht, missTrace, hc]
    rfl
  | true =>
    obtain ⟨h1, h2, h3⟩ := hw hc
    rw [missSteps, hc, if_pos rfl] at hs
    have ht : tick (tick s) = { s with script := rest } := by
      rw [tick_idle (s := s) (rest := {} :: rest) hs, tick_idle (rest := rest) rfl]
    rw [pollRound_watched hh (d := d) (by rw [tick_idle (s := s) (rest := {} :: rest) hs]; exact hr) hc hf h1
      (by rw [ht]; exact h2) h3, ht, missTrace, hc]
    rfl

theorem replicate_mul_succ (m k : Nat) (rest : List DevAct) :
    List.replicate (m * (k + 1)) ({} : DevAct) ++ rest
      = List.replicate m ({} : DevAct) ++ (List.replicate (m * k) ({} : DevAct) ++ rest) := by
  rw [← List.append_assoc, List.replicate_append_replicate, Nat.mul_succ, Nat.add_comm]

/-- An NVMe poll that finds an old or foreign entry for `k` looks, and then the command's own. -/
theorem nvmePollRounds_at {c : NvmeCtx} {old csts : Word} {e : Cqe} {data : List Host.Cell}
    (hd : c.cqDoorbell + 4 ≤ addrSpace) (k n : Nat) (s : State) (hh : c.head + 16 ≤ s.cfg.memEnd) (hk : k < n)
    (ha : Answers e c.qp s.x.cid)
    (hs : s.script = List.replicate (missSteps s.cfg * k) ({} : DevAct) ++ [{ mem := data ++ cells c.head e.bytes }])
    (h0 : 0 < k → holds s (c.head + 12) (leBytes 4 old.toNat) ∧
      (old.extractLsb' 16 1 ≠ c.qp.phase ∨ old.extractLsb' 0 16 ≠ s.x.cid) ∧
      (s.cfg.nvmeCheckCfs = true →
        c.reg 0x1C + 4 ≤ addrSpace ∧ Reads32 s (c.reg 0x1C) csts ∧ csts.getLsbD 1 = false)) :
    nvmePollRounds c n s =
      (let t := consumedState c e
        { s with
          x := { s.x with iter := s.x.iter + BitVec.ofNat 32 k }
          mem := (data ++ cells c.head e.bytes).foldl (dmaByte s.cfg.memEnd) s.mem
          script := []
          log := .load (c.head + 8) 4 :: .load (c.head + 12) 4 :: (repeated k (missTrace s.cfg c csts) ++ s.log) }
       if e.status = 0#11 then .go () (complete t) else raiseDevice (e.dw3 >>> 16) (land t)) := by
  induction k generalizing n s with
  | zero =>
    obtain ⟨m, rfl⟩ : ∃ m, n = m + 1 := ⟨n - 1, by omega⟩
    have ht : tick s =
        { s with script := [], mem := (data ++ cells c.head e.bytes).foldl (dmaByte s.cfg.memEnd) s.mem } := by
      rw [tick_act hs]; rfl
    rw [pollRound_own hh hd ?_ (by rw [hs]; rfl) ha, ht]
    · simp
    · rw [ht]
      intro i hi
      show some (Memory.byteAt (List.foldl (dmaByte s.cfg.memEnd) s.mem (data ++ cells c.head e.bytes)) _) = _
      rw [List.foldl_append]
      exact byteAt_dma_inside _ _ _ (by simpa using hh) hi
  | succ k ih =>
    obtain ⟨m, rfl⟩ : ∃ m, n = m + 1 := ⟨n - 1, by omega⟩
    obtain ⟨h1, h2, h3⟩ := h0 (by omega)
    rw [replicate_mul_succ] at hs
    rw [pollRound_miss hh hs h1 h2 h3, ih _ _ (by exact hh) (by omega) (by exact ha) rfl
      (fun _ => ⟨by exact h1, by exact h2, by exact h3⟩)]
    simp only [bump_add, repeated_succ]

/-- Steps of the devices look at neither the working registers nor the accesses. -/
theorem ticks_with (n : Nat) (s : State) (x : Regs) (l : List BusEvent) :
    ticks n { s with x := x, log := l } = { ticks n s with x := x, log := l } := by
  induction n generalizing s with
  | zero => rfl
  | succ n ih => exact ih (tick s)

theorem ticks_keep (n : Nat) (s : State) : (ticks n s).x = s.x ∧ (ticks n s).log = s.log ∧ (ticks n s).cfg = s.cfg := by
  induction n generalizing s with
  | zero => exact ⟨rfl, rfl, rfl⟩
  | succ n ih => exact ih (tick s)

/-- An NVMe poll that never finds the command's entry. -/
theorem nvmePollRounds_out {c : NvmeCtx} (n : Nat) (s : State) (d : Nat → Word) (hh : c.head + 16 ≤ s.cfg.memEnd)
    (hr : ∀ k, k < n → holds (ticks (k + 1) s) (c.head + 12) (leBytes 4 (d k).toNat))
    (hc : s.cfg.nvmeCheckCfs = false)
    (hf : ∀ k, k < n → (d k).extractLsb' 16 1 ≠ c.qp.phase ∨ (d k).extractLsb' 0 16 ≠ s.x.cid) :
    nvmePollRounds c n s = timeOut
      { ticks n s with
        x := { s.x with iter := s.x.iter + BitVec.ofNat 32 n }
        log := repeated n [.load (c.head + 12) 4] ++ s.log } := by
  induction n generalizing s d with
  | zero => simp [nvmePollRounds, ticks]
  | succ n ih =>
    rw [pollRound_foreign hh (d := d 0) (hr 0 (by omega)) hc (hf 0 (by omega))]
    refine Eq.trans (ih _ (fun k => d (k + 1)) ?_ ?_ ?_ ?_) ?_
    · exact hh
    rotate_left
    · exact hc
    · exact fun k hk => hf (k + 1) (by omega)
    · simp only [State.bumpIter, bump_add, ← repeated_succ n, ticks_with]
      rfl
    · intro k hk
      simp only [State.bumpIter, ticks_with]
      exact hr (k + 1) (by omega)

/-- The same where the fatal bit is watched and is clear at each look. -/
theorem nvmePollRounds_out_watched {c : NvmeCtx} (n : Nat) (s : State) (d v : Nat → Word)
    (hh : c.head + 16 ≤ s.cfg.memEnd)
    (hr : ∀ k, k < n → holds (ticks (2 * k + 1) s) (c.head + 12) (leBytes 4 (d k).toNat))
    (hc : s.cfg.nvmeCheckCfs = true)
    (hf : ∀ k, k < n → (d k).extractLsb' 16 1 ≠ c.qp.phase ∨ (d k).extractLsb' 0 16 ≠ s.x.cid)
    (hw : c.reg 0x1C + 4 ≤ addrSpace)
    (hv : ∀ k, k < n → Reads32 (ticks (2 * k + 2) s) (c.reg 0x1C) (v k) ∧ (v k).getLsbD 1 = false) :
    nvmePollRounds c n s = timeOut
      { ticks (2 * n) s with
        x := { s.x with iter := s.x.iter + BitVec.ofNat 32 n }
        log := ((List.range n).reverse.flatMap fun k => [rd32 (c.reg 0x1C) (v k), .load (c.head + 12) 4]) ++ s.log } := by
  induction n generalizing s d v with
  | zero => simp [nvmePollRounds, ticks]
  | succ n ih =>
    obtain ⟨hv0, h0⟩ := hv 0 (by omega)
    rw [pollRound_watched hh (d := d 0) (hr 0 (by omega)) hc (hf 0 (by omega)) hw hv0 h0]
    refine Eq.trans (ih _ (fun k => d (k + 1)) (fun k => v (k + 1)) ?_ ?_ ?_ ?_ ?_) ?_
    · exact hh
    rotate_left
    · exact hc
    · exact fun k hk => hf (k + 1) (by omega)
    rotate_left
    · rw [show 2 * (n + 1) = 2 * n + 1 + 1 by omega, List.range_succ_eq_map]
      simp only [State.bumpIter, bump_add, ticks_with, List.reverse_cons, List.flatMap_append, List.append_assoc,
        ← List.map_reverse, List.flatMap_map]
      rfl
    · intro k hk
      simp only [State.bumpIter, ticks_with]
      exact hr (k + 1) (by omega)
    · intro k hk
      simp only [State.bumpIter, ticks_with]
      exact hv (k + 1) (by omega)

theorem entryOn_of {s t : State} {dev : Byte} {adm : Bool} {c : NvmeCtx} (h : EntryOn s dev adm c)
    (h1 : t.dev = s.dev) (h2 : t.qp = s.qp) (h3 : t.nvme = s.nvme) (h4 : t.claim = s.claim)
    (h5 : t.x.slot = s.x.slot) : EntryOn t dev adm c := by
  refine ⟨?_, h4.trans h.claim, h5 ▸ h.inRange⟩
  have := h.queue
  unfold OnQueue at this ⊢
  rw [h1, h2, h3]; exact this

/-- NVME.BUILD, whatever the devices do (R207). -/
theorem nvmeBuildStep_run {s : State} {ident : Bool} {c : NvmeCtx} {adm : Bool} {len : Nat}
    (hs : EntryOn s s.x.dev adm c) (hi : s.x.isIdentify = ident) (hf : s.x.flg.getLsbD 2 = adm)
    (hl : len = transferLength (s.x.flg.getLsbD 1) s.x.cnt c.dev) (hp : PrpFits s ident c s.x.buf len) :
    nvmeBuildStep s = .go ()
      { (tick s).afterStore (c.qp.sqBase.toNat + 64 * s.x.slot.toNat)
          ((entryOf s.cfg c.dev s.x).bytes s.x.cmdb) with
        pc := .descriptorsBuilt
        x := { s.x with bytes := BitVec.ofNat 32 len }
        built := some (s.x.buf.toNat, len) } := by
  subst hl
  have h1 : prpStep s = .go () (s.prpBuilt (transferLength (s.x.flg.getLsbD 1) s.x.cnt c.dev)) := by
    rw [prpStep, nvmeSlot_of hs rfl hf, bind_go, transferBytes_eq, if_neg (by rw [tooLarge_false hp.maximum hp.onePage]; simp),
      bufferPremises_of hi hp.fits, bind_go]
    rfl
  have h2 : storeEntry s.x.buf (fun c => Sqe.bytes s.x.cmdb (s.sqe c))
      (s.prpBuilt (transferLength (s.x.flg.getLsbD 1) s.x.cnt c.dev)) = .go ()
        ((tick (s.prpBuilt (transferLength (s.x.flg.getLsbD 1) s.x.cnt c.dev))).afterStore (c.entry s.x.slot)
          (Sqe.bytes s.x.cmdb (s.sqe c))) := by
    rw [storeEntry]
    refine Eq.trans (bind_of (nvmeSlot_of (c := c) (adm := adm) (entryOn_of hs rfl rfl rfl rfl rfl) rfl hf)) ?_
    rw [nvmePremises_of (by exact hp.arena), bind_go, need_of _ _ (by simpa using hp.aligned), bind_go,
      bufferPremises_of (by exact hi) (by exact hp.fits), bind_go]
    exact memStore_of (by
      rw [sqe_length]; exact entry_fits hs.queue.2.2.2.1 hp.arena.2 hs.inRange)
  rw [nvmeBuildStep, bind_of h1, sqeStep]
  refine Eq.trans (bind_of h2) ?_
  rw [sqe_eq]
  rfl

/-- NVME.ISSUE, whatever the devices do (R242). -/
theorem nvmeIssueStep_run {s : State} {c : NvmeCtx} {adm : Bool} {b : Nat × Nat} (hs : EntryOn s s.x.dev adm c)
    (hf : s.x.flg.getLsbD 2 = adm) (ht : s.x.slot = c.qp.sqTail) (hb : s.built = some b)
    (hd : c.sqDoorbell + 4 ≤ addrSpace) :
    nvmeIssueStep s = .go ()
      { (tick s).wrote c.sqDoorbell ((ringNext c.qp.qSize c.qp.sqTail).setWidth 32) with
        pc := .issued
        qp := alSet s.qp c.q c.qp.advanced
        inflight := some { chan := .qp c.q, slot := s.x.slot, cid := s.x.cid, dataAt := b.1, dataLen := b.2 }
        pend := unordered (some b) s.pend
        log := wr32 c.sqDoorbell ((ringNext c.qp.qSize c.qp.sqTail).setWidth 32) :: .publish :: s.log } := by
  rw [nvmeIssueStep, nvmeSlot_of hs rfl hf, bind_go, need_of _ _ (by simpa using ht), bind_go, bind_of (mmioWrite_of hd),
    half_word]
  simp only [State.wrote, State.afterWrite, trunc_word, setTail, publish, markIssued, State.ringTag, hb]
  simp only [tick, hb, Option.getD_some]
  rfl

/-- NVME.POLL. -/
theorem nvmePollStep_eq {s : State} {c : NvmeCtx} {adm : Bool} (hs : EntryOn s s.x.dev adm c)
    (hf : s.x.flg.getLsbD 2 = adm) : nvmePollStep s = nvmePollRounds c s.cfg.pollBudget.toNat s.clearIter := by
  rw [nvmePollStep, nvmeSlot_of hs rfl hf, bind_go]

theorem alSet_ne_nil {α : Type} (l : List (Nat × α)) (k : Nat) (v : α) : (alSet l k v).isEmpty = false := by
  simp [alSet]

theorem isEmpty_of_alGet {α : Type} {l : List (Nat × α)} {k : Nat} {v : α} (h : alGet l k = some v) :
    l.isEmpty = false := by
  cases l with
  | nil => simp [alGet] at h
  | cons e l => rfl

/-- One NVMe command (44_nvme_engine.md R248). -/
theorem nvmeCmdStep_run {a : State} {ident : Bool} {c : NvmeCtx} {adm : Bool} {len : Nat} {csts : Word}
    {data : List Host.Cell} {e : Cqe} (hi : a.x.isIdentify = ident) (h : NvmeReady a ident a.x.dev adm a.x.buf len c csts) (hf : a.x.flg.getLsbD 2 = adm)
    (hl : len = transferLength (a.x.flg.getLsbD 1) a.x.cnt c.dev) (hs : a.script = nvmeScript c data e)
    (ha : Answers e c.qp c.nv.nextCid) (he : e.status = 0#11) :
    nvmeCmdStep a = .go () (nvmeDone c len csts data e a) := by
  obtain ⟨hd, hk, hq, hqp, hnv⟩ := h.queue
  -- ready check
  have h1 : rdychkStep a = .go () (settle
      { a with
        script := [{}, {}, { mem := data ++ cells c.head e.bytes }], log := rd32 (c.reg 0x1C) csts :: a.log }) := by
    rw [rdychkStep, nvmeCtx_of h.queue rfl hf, needOk_ok, bind_go,
      bind_of (mmioRead_word_idle (rest := [{}, {}, { mem := data ++ cells c.head e.bytes }]) h.status hs h.shows),
      if_pos (by simpa [ctrlReady] using h.ready)]
  -- allocation
  let c1 : NvmeCtx := { c with nv := { c.nv with nextCid := c.nv.nextCid + 1#16 } }
  let s1 : State :=
    { a with
      pc := .slotAllocated
      x := { a.x with cid := c.nv.nextCid, slot := c.qp.sqTail, val := c.qp.sqTail.setWidth 64 }
      nvme := a.cidTaken c
      claim := some (.qp c.q)
      built := none
      script := [{}, {}, { mem := data ++ cells c.head e.bytes }]
      log := rd32 (c.reg 0x1C) csts :: a.log }
  have h2 : nvmeAllocStep (settle
      { a with
        script := [{}, {}, { mem := data ++ cells c.head e.bytes }], log := rd32 (c.reg 0x1C) csts :: a.log }) =
      .go () s1 := by
    rw [nvmeAllocStep]
    refine Eq.trans (bind_of (needOk_of (nvmeCtx_of (c := c) (adm := adm) (by exact h.queue) rfl hf))) ?_
    rw [if_neg (by simpa [Qp.full] using h.notFull)]
    rfl
  have hon1 : EntryOn s1 a.x.dev adm c1 := by
    refine ⟨⟨hd, hk, hq, hqp, ?_⟩, rfl, h.tail⟩
    exact alGet_alSet_same _ _ _
  have hid : s1.idRegion = a.idRegion := by
    unfold State.idRegion
    rw [isEmpty_of_alGet hnv, show s1.nvme.isEmpty = false from alSet_ne_nil _ _ _]
  have hok : s1.arenaOk = true := by
    have h0 := h.fits.arena.2
    unfold State.arenaOk at h0 ⊢
    rw [hid]; exact h0
  have hb1 : BufferFits s1 ident a.x.buf.toNat len := by
    obtain ⟨h0, h1⟩ := h.fits.fits
    refine ⟨h0, ?_⟩
    unfold State.bufferApart at h1 ⊢
    rw [hid]; exact h1
  have hf1 : PrpFits s1 ident c1 a.x.buf len :=
    ⟨⟨h.fits.arena.1, hok⟩, h.fits.aligned, hb1, h.fits.maximum, h.fits.onePage⟩
  -- build
  have h3 := nvmeBuildStep_run (s := s1) (c := c1) hon1 hi hf hl hf1
  rw [tick_idle (s := s1) (rest := [{}, { mem := data ++ cells c.head e.bytes }]) rfl] at h3
  rw [nvmeCmdStep, bind_of h1, bind_of h2, bind_of h3]
  -- issue
  refine Eq.trans (bind_of (nvmeIssueStep_run (c := c1) (adm := adm) (b := (a.x.buf.toNat, len))
    (entryOn_of hon1 rfl rfl rfl rfl rfl) hf rfl rfl h.window.submission)) ?_
  rw [tick_idle (rest := [{ mem := data ++ cells c.head e.bytes }]) rfl]
  -- poll
  let c2 : NvmeCtx := { c1 with qp := c1.qp.advanced }
  refine Eq.trans (nvmePollStep_eq (c := c2) (adm := adm) ?_ hf) ?_
  · refine ⟨⟨hd, hk, hq, ?_, ?_⟩, rfl, h.tail⟩
    · exact alGet_alSet_same _ _ _
    · exact alGet_alSet_same _ _ _
  · refine Eq.trans (nvmePollRounds_at (c := c2) (old := 0#32) (csts := 0#32) (e := e) (data := data)
      h.window.completion 0 _ _ (by exact (head_fits hqp h.fits.arena.2 h.head : c.head + 16 ≤ a.cfg.memEnd)) ?_ ?_ rfl
      (fun h0 => absurd h0 (by omega))) ?_
    · exact Nat.pos_of_ne_zero fun h0 => h.pollBudget (BitVec.eq_of_toNat_eq h0)
    · exact ⟨ha.phase, ha.cid, ha.sqHead⟩
    · simp only [he, if_true, complete, consumedState, nvmeDone, State.clearIter, State.wrote, State.afterWrite, trunc_word, s1, c2, c1, nvmeTrace, unordered,
        State.afterStore, List.flatMap_cons, left_sequencer, List.nil_append, alSet_alSet, repeated_zero, sqe_length]
      rfl

end Sys2Proof.Laws
end

