-- ==== Sys2Proof/Laws/BringUp.lean ====
section
/-!
SUPPORT. The bring-up operations (47_system_ops.md) run step by step: the kind of a register in a window, writes to
registers that keep them, and the waits.
-/

namespace Sys2Proof.Laws

open Sys2Proof.Machine

/-! ## The kind of a register -/

theorem regKind_ahci {s : State} {a off : Nat} (h : s.ctrlAt? a = some (.hba off)) : s.regKind a = ahciRegKind off := by
  unfold State.regKind; rw [h]

theorem regKind_nvme {s : State} {a off : Nat} {n : Nvme} (h : s.ctrlAt? a = some (.nvme n off)) :
    s.regKind a = nvmeRegKind off := by
  unfold State.regKind; rw [h]

theorem alSet_head {α : Type} {e : Nat × α} {l : List (Nat × α)} {w : α} (hr : rising (e :: l) = true) :
    alSet (e :: l) e.1 w = (e.1, w) :: l := by
  obtain ⟨hr1, -⟩ := (rising_cons _ _).1 hr
  have h1 : (e :: l).filter (fun x => decide (x.1 < e.1)) = [] := by
    rw [List.filter_eq_nil_iff]
    intro x hx
    rcases List.mem_cons.1 hx with rfl | hx
    · simp
    · have := hr1 x hx; simp; omega
  have h2 : (e :: l).filter (fun x => decide (e.1 < x.1)) = l := by
    rw [List.filter_cons_of_neg (by simp), List.filter_eq_self]
    intro x hx
    have := hr1 x hx; simp; omega
  rw [alSet, h1, h2, List.nil_append]

theorem alSet_tail {α : Type} {e : Nat × α} {l : List (Nat × α)} {k : Nat} {w : α} (h : e.1 < k) :
    alSet (e :: l) k w = e :: alSet l k w := by
  unfold alSet
  rw [List.filter_cons_of_pos (by simpa using h), List.filter_cons_of_neg (by simp; omega)]; rfl

/-- A record replaced at its own index stands where the old one stood. -/
theorem map_alSet {α β : Type} {l : List (Nat × α)} {k : Nat} {v w : α} (f : Nat × α → β)
    (hr : rising l = true) (hg : alGet l k = some v) (hf : f (k, w) = f (k, v)) : (alSet l k w).map f = l.map f := by
  induction l with
  | nil => simp [alGet] at hg
  | cons e l ih =>
    have hr' := (rising_cons _ _).1 hr
    rw [alGet] at hg
    split at hg
    · rename_i hk
      cases hg
      subst hk
      rw [alSet_head hr, List.map_cons, List.map_cons, hf]
    · rw [alSet_tail (hr'.1 (k, v) (alGet_mem hg)), List.map_cons, List.map_cons, ih hr'.2 hg]

/-- The key that `nearest` picks depends on the keys alone. -/
theorem nearest_keys {α : Type} (a : Nat) {l m : List (Nat × α)} (h : l.map (·.1) = m.map (·.1)) :
    (nearest a l).map (·.1) = (nearest a m).map (·.1) := by
  induction l generalizing m with
  | nil =>
    cases m with
    | nil => rfl
    | cons => simp at h
  | cons e l ih =>
    cases m with
    | nil => simp at h
    | cons e' m =>
      simp only [List.map_cons, List.cons.injEq] at h
      obtain ⟨he, hl⟩ := h
      have := ih hl
      rw [nearest, nearest]
      rcases hn : nearest a l with _ | f <;> rcases hn' : nearest a m with _ | f' <;> rw [hn, hn'] at this <;>
        simp only [Option.map_none, Option.map_some, Option.some.injEq, reduceCtorEq] at this
      · dsimp only; rw [he]; split <;> simp [he]
      · dsimp only; rw [he, this]; split <;> simp [he, this]

theorem filter_keys {α : Type} (p : Nat × α → Bool) (l : List (Nat × α)) :
    (l.filter p).map (·.1)
      = (l.map fun e => (p e, e.1)).filterMap fun x => if x.1 then some x.2 else none := by
  induction l with
  | nil => rfl
  | cons e l ih => cases h : p e <;> simp [h, ih]

/-- Replacing the record of an HBA by one with the same base moves no register. -/
theorem ctrlAt_hba {s t : State} {h : Nat} {v w : Hba} (hr : rising s.hba = true) (hg : alGet s.hba h = some v)
    (hb : w.base = v.base) (ht : t.hba = alSet s.hba h w) (hn : t.nvme = s.nvme) (a : Nat) :
    t.ctrlAt? a = s.ctrlAt? a := by
  have h1 : t.hbaBases a = s.hbaBases a := by
    unfold State.hbaBases
    rw [ht, map_alSet _ hr hg (by simp only [hb])]
  have h2 : t.nvmeBases a = s.nvmeBases a := by unfold State.nvmeBases; rw [hn]
  unfold State.ctrlAt?
  rw [h1, h2]

theorem ctrlAt_same {s t : State} (hh : t.hba = s.hba) (hn : t.nvme = s.nvme) (a : Nat) : t.ctrlAt? a = s.ctrlAt? a := by
  unfold State.ctrlAt? State.hbaBases State.nvmeBases
  rw [hh, hn]

/-- Another stride in the record of a controller moves none of its registers below the doorbells. -/
theorem ctrlAt_nvme {s t : State} {h : Nat} {v w : Nvme} {off : Nat} (hr : rising s.nvme = true)
    (hg : alGet s.nvme h = some v) (hb : w.base = v.base) (hh : t.hba = s.hba) (ht : t.nvme = alSet s.nvme h w)
    (ho : off < 0x1000) (hs : s.ctrlAt? (v.base.toNat + off) = some (.nvme v off)) :
    ∃ n, t.ctrlAt? (v.base.toNat + off) = some (.nvme n off) := by
  have h1 : t.hbaBases (v.base.toNat + off) = s.hbaBases (v.base.toNat + off) := by unfold State.hbaBases; rw [hh]
  have hwin : ∀ n : Nvme, 0x1008 ≤ n.window := fun n => by unfold Nvme.window; omega
  have h2 : (t.nvmeBases (v.base.toNat + off)).map (·.1) = (s.nvmeBases (v.base.toNat + off)).map (·.1) := by
    unfold State.nvmeBases
    rw [filter_keys, filter_keys, List.map_map, List.map_map, ht]
    refine congrArg _ (map_alSet _ hr hg ?_)
    have := hwin v
    have := hwin w
    simp only [Function.comp, hb, Prod.mk.injEq, and_true, decide_eq_decide]
    omega
  have h3 := nearest_keys (v.base.toNat + off) h2
  unfold State.ctrlAt? at hs ⊢
  rw [h1]
  generalize nearest (v.base.toNat + off) (t.nvmeBases (v.base.toNat + off)) = y at h3 ⊢
  generalize nearest (v.base.toNat + off) (s.nvmeBases (v.base.toNat + off)) = z at h3 hs
  generalize nearest (v.base.toNat + off) (s.hbaBases (v.base.toNat + off)) = x at hs ⊢
  cases y with
  | none => cases z <;> cases x <;> simp at h3 hs
  | some y =>
    cases z with
    | none => simp at h3
    | some z =>
      simp only [Option.map_some, Option.some.injEq] at h3
      cases x with
      | none =>
        simp only [Option.some.injEq, Ctrl.nvme.injEq] at hs ⊢
        exact ⟨y.2, rfl, by rw [h3]; exact hs.2⟩
      | some x =>
        dsimp only at hs ⊢
        rw [h3]
        split at hs
        · cases hs
        · rename_i hc
          simp only [Option.some.injEq, Ctrl.nvme.injEq] at hs
          rw [if_neg hc, hs.2]
          exact ⟨_, rfl⟩

/-! ## Writes to registers that keep them -/

/-- The devices' next step, if any, does nothing. -/
theorem tick_still {s : State} (hq : ∀ act ∈ s.script.take 1, act = {}) : tick s = { s with script := s.script.drop 1 } := by
  cases hs : s.script with
  | nil => rw [tick_quiet hs]; cases s; simp only at hs; subst hs; rfl
  | cons e l =>
    have he : e = {} := hq e (by simp [hs])
    subst he
    exact tick_idle hs

/-- The same of the steps after the first. -/
theorem still_drop {n : Nat} {l : List DevAct} (h : ∀ act ∈ l.take (n + 1), act = {}) :
    ∀ act ∈ (l.drop 1).take n, act = {} := fun a ha => by
  rw [List.take_drop] at ha
  exact h a (by rw [Nat.add_comm]; exact List.mem_of_mem_drop ha)

theorem still_one {n : Nat} {l : List DevAct} (h : ∀ act ∈ l.take (n + 1), act = {}) : ∀ act ∈ l.take 1, act = {} :=
  fun a ha => h a (List.take_subset_take_left _ (by omega) ha)

/-- What a write leaves in a register that keeps what is written. -/
theorem afterWrite_stored {w : Width} {a : Nat} {v : Quad} {s : State} (hk : s.regKind a = .stored) :
    s.afterWrite w a v = { s with regs := alSet s.regs a (w.trunc v), log := .wr w a (w.trunc v) :: s.log } := by
  have hd : s.writeDraws a = false := by rw [State.writeDraws, hk]; rfl
  simp only [State.afterWrite, hd, hk]
  rfl

theorem mmioWrite_stored {w : Width} {a : Nat} {v : Quad} {s : State} (hq : s.script = [])
    (h : a + w.bytes ≤ addrSpace) (hk : s.regKind a = .stored) :
    mmioWrite w a v s = .go () { s with regs := alSet s.regs a (w.trunc v), log := .wr w a (w.trunc v) :: s.log } := by
  rw [mmioWrite_quiet hq h, afterWrite_stored hk]

theorem mmioWrite_stored_idle {w : Width} {a : Nat} {v : Quad} {s : State} {rest : List DevAct}
    (hq : s.script = {} :: rest) (h : a + w.bytes ≤ addrSpace) (hk : s.regKind a = .stored) :
    mmioWrite w a v s = .go ()
      { s with script := rest, regs := alSet s.regs a (w.trunc v), log := .wr w a (w.trunc v) :: s.log } := by
  rw [mmioWrite_idle hq h, afterWrite_stored (by exact hk)]

/-- A write to `PxCMD` whose content is known: `FR` and `CR` stay, the other bits are those written. -/
theorem mmioWrite_portCmd {a : Nat} {v old : Word} {s : State} (hq : ∀ act ∈ s.script.take 1, act = {})
    (h : a + 4 ≤ addrSpace) (hk : s.regKind a = .portCmd) (ho : Reads32 s a old) :
    mmioWrite .w32 a (v.setWidth 64) s = .go ()
      { s with
        script := s.script.drop 1
        regs := alSet s.regs a (((v &&& 0xFFFF3FFF#32) ||| (old &&& 0xC000#32)).setWidth 64)
        log := wr32 a v :: s.log } := by
  have hb : ∀ x y : Word, (x.setWidth 64 &&& ~~~cmdRunMask) ||| (y.setWidth 64 &&& cmdRunMask)
      = ((x &&& 0xFFFF3FFF#32) ||| (y &&& 0xC000#32)).setWidth 64 := by
    intro x y
    have h1 : ∀ z : Word, z.setWidth 64 &&& cmdRunMask = (z &&& 0xC000#32).setWidth 64 := by
      intro z; simp [cmdRunMask, BitVec.setWidth_and]
    have h2 : ∀ z : Word, z.setWidth 64 &&& ~~~cmdRunMask = (z &&& 0xFFFF3FFF#32).setWidth 64 := by
      intro z
      have : (z.setWidth 64 : Quad) = z.setWidth 64 &&& 0xFFFFFFFF#64 := by
        apply BitVec.eq_of_toNat_eq
        simp only [BitVec.toNat_and, BitVec.toNat_setWidth]
        have := z.isLt
        rw [Nat.mod_eq_of_lt (by omega)]
        exact (Nat.and_two_pow_sub_one_of_lt_two_pow this).symm
      rw [this, BitVec.and_assoc]
      simp [cmdRunMask, BitVec.setWidth_and]
    rw [h1, h2, BitVec.setWidth_or]
  have hr : Reads32 { s with script := s.script.drop 1 } a old := ho
  rw [mmioWrite_of h, tick_still hq]
  refine congrArg (Flow.go ()) ((wrote_known v hr).trans ?_)
  rw [show ({ s with script := s.script.drop 1 } : State).regKind a = .portCmd from hk]
  simp only [writeReg, hb]

/-! ## Waits -/

/-- A wait that its first look ends while the devices take no step. -/
theorem waitFor_first {a : Nat} {done : Quad → Bool} {e : Err} {b : Word} {s : State} {v : Word}
    (ha : a + 4 ≤ addrSpace) (hq : s.script = []) (hr : Reads32 s a v) (hd : done (v.setWidth 64) = true)
    (hb : b ≠ 0#32) :
    waitFor a done e b s = .go () { s with x := { s.x with iter := 0#32 }, log := rd32 a v :: s.log } := by
  have hn : b.toNat = (b.toNat - 1) + 1 := by
    have : b.toNat ≠ 0 := fun h => hb (BitVec.eq_of_toNat_eq h)
    omega
  rw [waitFor, hn, waitRounds, bind_of (mmioRead_word ha (s := s.clearIter) hq hr), if_pos hd]
  rfl

/-- The same while the devices' step does nothing. -/
theorem waitFor_first_idle {a : Nat} {done : Quad → Bool} {e : Err} {b : Word} {s : State} {v : Word}
    {rest : List DevAct} (ha : a + 4 ≤ addrSpace) (hq : s.script = {} :: rest) (hr : Reads32 s a v)
    (hd : done (v.setWidth 64) = true) (hb : b ≠ 0#32) :
    waitFor a done e b s = .go ()
      { s with x := { s.x with iter := 0#32 }, script := rest, log := rd32 a v :: s.log } := by
  have hn : b.toNat = (b.toNat - 1) + 1 := by
    have : b.toNat ≠ 0 := fun h => hb (BitVec.eq_of_toNat_eq h)
    omega
  rw [waitFor, hn, waitRounds, bind_of (mmioRead_word_idle ha (s := s.clearIter) hq hr), if_pos hd]
  rfl

/-- A wait that no look ends while the devices take no step. -/
theorem waitFor_out {a : Nat} {done : Quad → Bool} {e : Err} {b : Word} {s : State} {v : Word}
    (ha : a + 4 ≤ addrSpace) (hq : s.script = []) (hr : Reads32 s a v) (hd : done (v.setWidth 64) = false) :
    waitFor a done e b s = .stop (raised e .idle
      { s with x := { s.x with iter := b }, log := repeated b.toNat [rd32 a v] ++ s.log }) := by
  rw [waitFor, waitRounds_out ha hd b.toNat s.clearIter hq hr]
  show Flow.stop (raised e .idle { s with x := { s.x with iter := 0#32 + BitVec.ofNat 32 b.toNat }, log := _ }) = _
  rw [ofNat_budget]
  rfl

/-! ## Zero-filling -/

/-- The block stores that fill the ranges with zeros, as entries of the list of unordered stores. -/
def zeroPends (rs : List (Nat × Nat)) : List PendStore := (rs.map fun r => ⟨false, r.1, r.2⟩).reverse

/-- The state after zero-filling the ranges in order. -/
def afterZeros (s : State) (rs : List (Nat × Nat)) : State :=
  { s with
    mem := zeroed rs s.mem, pend := zeroPends rs ++ s.pend, log := (storesOf rs).reverse ++ s.log }

theorem afterZeros_cons (s : State) (a n : Nat) (rs : List (Nat × Nat)) :
    afterZeros (s.afterStore a (zeros n)) rs = afterZeros s ((a, n) :: rs) := by
  simp [afterZeros, State.afterStore, zeroed, zeroPends, storesOf]

theorem afterZeros_append (s : State) (rs ts : List (Nat × Nat)) :
    afterZeros (afterZeros s rs) ts = afterZeros s (rs ++ ts) := by
  simp [afterZeros, zeroed, zeroPends, storesOf]

/-- The zero stores are the sequencer's: `Publish()` orders them. -/
theorem unordered_zeros (rs : List (Nat × Nat)) (l : List PendStore) :
    (zeroPends rs ++ l).filter (fun q => q.byHost) = l.filter (fun q => q.byHost) := by
  have : (zeroPends rs).filter (fun q => q.byHost) = [] := ?_
  · rw [List.filter_append, this, List.nil_append]
  rw [List.filter_eq_nil_iff]
  intro p hp
  simp only [zeroPends, List.mem_reverse, List.mem_map] at hp
  obtain ⟨r, -, rfl⟩ := hp
  simp

/-- The command tables of a port, filled with zeros while the devices take no step. -/
theorem zeroTables_run (n : Nat) (l : List Quad) (s : State) (hq : s.script = [])
    (hf : ∀ t ∈ l, t.toNat + n ≤ s.cfg.memEnd) :
    zeroTables n l s = .go () (afterZeros s (l.map fun t => (t.toNat, n))) := by
  induction l generalizing s with
  | nil => rfl
  | cons t l ih =>
    rw [zeroTables, bind_of (memStore_quiet hq (by simpa using hf t (by simp))),
      ih (s.afterStore t.toNat (zeros n)) hq (fun u hu => by exact hf u (by simp [hu])), afterZeros_cons]
    rfl

/-- A block store while the devices' next step, if any, does nothing. -/
theorem memStore_still {a : Nat} {bs : List Byte} {s : State} (hq : ∀ act ∈ s.script.take 1, act = {})
    (h : a + bs.length ≤ s.cfg.memEnd) :
    memStore a bs s = .go () { s.afterStore a bs with script := s.script.drop 1 } := by
  rw [memStore_of h, tick_still hq]
  rfl

/-- The rings of the queue pairs, filled with zeros and at their reset state, while the devices' steps, if any, do
nothing. -/
theorem zeroRings_still (es : List (Nat × Qp)) (s : State) (hq : ∀ act ∈ s.script.take (2 * es.length), act = {})
    (hf : ∀ e ∈ es, e.2.sqBase.toNat + 64 * e.2.qSize ≤ s.cfg.memEnd ∧
      e.2.cqBase.toNat + 16 * e.2.qSize ≤ s.cfg.memEnd) :
    zeroRings es s = .go ()
      { afterZeros s (ringRanges es) with
        script := s.script.drop (2 * es.length), qp := freshRings s.cfg es s.qp } := by
  induction es generalizing s with
  | nil => rfl
  | cons e es ih =>
    obtain ⟨h1, h2⟩ := hf e (by simp)
    have hn : 2 * (e :: es).length = 1 + (1 + 2 * es.length) := by simp; omega
    rw [hn] at hq ⊢
    have q1 : ∀ act ∈ s.script.take 1, act = {} := fun a ha => hq a (List.take_subset_take_left _ (by omega) ha)
    have q2 : ∀ act ∈ (s.script.drop 1).take (1 + 2 * es.length), act = {} := fun a ha =>
      hq a (by rw [List.take_drop] at ha; exact List.mem_of_mem_drop ha)
    have q3 : ∀ act ∈ ((s.script.drop 1).drop 1).take (2 * es.length), act = {} := fun a ha =>
      q2 a (by rw [List.take_drop] at ha; exact List.mem_of_mem_drop ha)
    rw [zeroRings, bind_of (memStore_still q1 (by simpa using h1)),
      bind_of (memStore_still (s := { s.afterStore e.2.sqBase.toNat (zeros (64 * e.2.qSize)) with script := _ })
        (fun a ha => q2 a (List.take_subset_take_left _ (by omega) ha)) (by simpa using h2))]
    refine Eq.trans (ih _ ?_ ?_) ?_
    · exact q3
    · exact fun u hu => hf u (by simp [hu])
    simp [afterZeros, State.afterStore, zeroed, zeroPends, storesOf, ringRanges, freshRings, Qp.fresh, ← Nat.add_assoc]

/-- The same with one device step for each store. -/
theorem zeroRings_run (es : List (Nat × Qp)) (s : State) (rest : List DevAct)
    (hq : s.script = List.replicate (2 * es.length) ({} : DevAct) ++ rest)
    (hf : ∀ e ∈ es, e.2.sqBase.toNat + 64 * e.2.qSize ≤ s.cfg.memEnd ∧
      e.2.cqBase.toNat + 16 * e.2.qSize ≤ s.cfg.memEnd) :
    zeroRings es s = .go ()
      { afterZeros s (ringRanges es) with script := rest, qp := freshRings s.cfg es s.qp } := by
  rw [zeroRings_still es s (by rw [hq, List.take_left' (by simp)]; exact fun a ha => List.eq_of_mem_replicate ha) hf, hq,
    List.drop_left' (by simp)]

/-- The same while the devices take no step. -/
theorem zeroRings_quiet (es : List (Nat × Qp)) (s : State) (hq : s.script = [])
    (hf : ∀ e ∈ es, e.2.sqBase.toNat + 64 * e.2.qSize ≤ s.cfg.memEnd ∧
      e.2.cqBase.toNat + 16 * e.2.qSize ≤ s.cfg.memEnd) :
    zeroRings es s = .go () { afterZeros s (ringRanges es) with qp := freshRings s.cfg es s.qp } := by
  rw [zeroRings_still es s (by simp [hq]) hf]
  cases s; simp only at hq; subst hq; rw [List.drop_nil]; rfl

/-- port registers in window -/
theorem regKind_port {s : State} {c : AhciCtx} (hw : HbaWindow s c) {off : Nat} (ho : off < 0x80) {t : State} (ht : t.hba = s.hba)
    (hn : t.nvme = s.nvme) :
    t.regKind (c.portReg off) = ahciRegKind (0x100 + 0x80 * c.port.port.toNat + off) := by
  apply regKind_ahci
  rw [ctrlAt_same ht hn]
  have := hw.2 (0x100 + 0x80 * c.port.port.toNat + off) (by have := c.port.port.isLt; unfold ahciWindow; omega)
  rw [← this]; congr 1
  unfold AhciCtx.portReg AhciCtx.block; omega

theorem ahciRegKind_mod (n off : Nat) (ho : off < 0x80) : ahciRegKind (0x100 + 0x80 * n + off) = ahciRegKind (0x100 + off) := by
  unfold ahciRegKind
  rw [if_neg (by omega), if_neg (by omega)]
  have : (0x100 + 0x80 * n + off - 0x100) % 0x80 = (0x100 + off - 0x100) % 0x80 := by omega
  rw [this]

theorem portWindow_fits {s : State} {c : AhciCtx} (hw : HbaWindow s c) {off : Nat} (ho : off + 4 ≤ 0x80) : c.portReg off + 4 ≤ addrSpace := by
  have := hw.1
  have := c.port.port.isLt
  unfold AhciCtx.portReg AhciCtx.block
  unfold ahciWindow at *
  omega

theorem regKind_pxcmd {s : State} {c : AhciCtx} (hw : HbaWindow s c) {t : State} (ht : t.hba = s.hba)
    (hn : t.nvme = s.nvme) : t.regKind (c.portReg 0x18) = .portCmd := by
  rw [regKind_port hw (by omega) ht hn, ahciRegKind_mod _ _ (by omega)]; rfl

theorem regKind_bases {s : State} {c : AhciCtx} (hw : HbaWindow s c) {t : State} (ht : t.hba = s.hba)
    (hn : t.nvme = s.nvme) :
   t.regKind (c.portReg 0x00) = .stored ∧ t.regKind (c.portReg 0x04) = .stored ∧ t.regKind (c.portReg 0x08) = .stored ∧ t.regKind (c.portReg 0x0C) = .stored := by
  refine ⟨?_, ?_, ?_, ?_⟩ <;> (rw [regKind_port hw (by omega) ht hn, ahciRegKind_mod _ _ (by omega)]; rfl)

theorem and_word (v : Word) (m : Quad) (m' : Word) (h : m = m'.setWidth 64) : v.setWidth 64 &&& m = (v &&& m').setWidth 64 := by
  subst h; simp [BitVec.setWidth_and]
theorem or_word (v : Word) (m : Quad) (m' : Word) (h : m = m'.setWidth 64) : v.setWidth 64 ||| m = (v ||| m').setWidth 64 := by
  subst h; simp [BitVec.setWidth_or]

/-- `port_stop` up to its wait, while the devices' steps, if any, do nothing (R305). -/
theorem portStop_run {c : AhciCtx} {cmd : Word} {s0 s : State} (hw : HbaWindow s0 c) (hh : s.hba = s0.hba)
    (hn : s.nvme = s0.nvme) (hq : ∀ act ∈ s.script.take 3, act = {}) (hr : Reads32 s (c.portReg 0x18) cmd) :
    portStop c s = waitFor (c.portReg 0x18) enginesStopped .portHung s.cfg.resetBudget
      { s with
        script := s.script.drop 3
        regs := alSet s.regs (c.portReg 0x18) ((cmd &&& 0xFFFFFFEE#32).setWidth 64)
        log := wr32 (c.portReg 0x18) (cmd &&& 0xFFFFFFEE#32) :: wr32 (c.portReg 0x18) (cmd &&& 0xFFFFFFFE#32) ::
          rd32 (c.portReg 0x18) cmd :: s.log } := by
  have hbb := portWindow_fits hw (off := 0x18) (by omega)
  have h1 : mmioRead .w32 (c.portReg 0x18) s = .go (cmd.setWidth 64)
      { s with script := s.script.drop 1, log := rd32 (c.portReg 0x18) cmd :: s.log } := by
    have hv : alGet ({ s with script := s.script.drop 1 } : State).regs (c.portReg 0x18) = some (cmd.setWidth 64) := hr
    rw [mmioRead_of hbb, tick_still (still_one hq), busValue_known .w32 hv, afterRead_known .w32 hv, trunc_word]
    rfl
  rw [portStop, bind_of h1, and_word cmd 0xFFFFFFFE#64 0xFFFFFFFE#32 rfl, and_word cmd 0xFFFFFFEE#64 0xFFFFFFEE#32 rfl]
  have e1 : (cmd &&& 0xFFFFFFFE#32 &&& 0xFFFF3FFF#32) ||| (cmd &&& 0xC000#32) = cmd &&& 0xFFFFFFFE#32 := by
    rw [BitVec.and_assoc, ← BitVec.and_or_distrib_left]; rfl
  have e2 : (cmd &&& 0xFFFFFFEE#32 &&& 0xFFFF3FFF#32) ||| (cmd &&& 0xFFFFFFFE#32 &&& 0xC000#32)
      = cmd &&& 0xFFFFFFEE#32 := by
    rw [BitVec.and_assoc, BitVec.and_assoc, ← BitVec.and_or_distrib_left]; rfl
  rw [bind_of (mmioWrite_portCmd (old := cmd) (by exact still_one (still_drop hq)) hbb
    (regKind_pxcmd hw (by exact hh) (by exact hn)) (by exact hr)), e1]
  rw [bind_of (mmioWrite_portCmd (old := cmd &&& 0xFFFFFFFE#32) (by exact still_drop (still_drop hq)) hbb
    (regKind_pxcmd hw (by exact hh) (by exact hn)) (by exact alGet_alSet_same _ _ _)), e2]
  simp only [alSet_alSet, List.drop_drop]

/-- The same while the devices take no step. -/
theorem portStop_quiet {c : AhciCtx} {cmd : Word} {s0 s : State} (hw : HbaWindow s0 c) (hh : s.hba = s0.hba)
    (hn : s.nvme = s0.nvme) (hq : s.script = []) (hr : Reads32 s (c.portReg 0x18) cmd) :
    portStop c s = waitFor (c.portReg 0x18) enginesStopped .portHung s.cfg.resetBudget
      { s with
        regs := alSet s.regs (c.portReg 0x18) ((cmd &&& 0xFFFFFFEE#32).setWidth 64)
        log := wr32 (c.portReg 0x18) (cmd &&& 0xFFFFFFEE#32) :: wr32 (c.portReg 0x18) (cmd &&& 0xFFFFFFFE#32) ::
          rd32 (c.portReg 0x18) cmd :: s.log } := by
  rw [portStop_run hw hh hn (by simp [hq]) hr]
  simp [hq]

/-- `port_stop` of a port that stops (R305). -/
theorem portStop_stops {c : AhciCtx} {cmd stopped : Word} {k : Nat} {s0 s : State} (hw : HbaWindow s0 c)
    (hh : s.hba = s0.hba) (hn : s.nvme = s0.nvme) (h : PortStops s c cmd stopped k) :
    portStop c s = .go ()
      { s with
        x := { s.x with iter := BitVec.ofNat 32 k }
        regs := alSet s.regs (c.portReg 0x18) (stopped.setWidth 64)
        script := []
        log := rd32 (c.portReg 0x18) stopped ::
          (repeated k [rd32 (c.portReg 0x18) (cmd &&& 0xFFFFFFEE#32)] ++
            wr32 (c.portReg 0x18) (cmd &&& 0xFFFFFFEE#32) :: wr32 (c.portReg 0x18) (cmd &&& 0xFFFFFFFE#32) ::
            rd32 (c.portReg 0x18) cmd :: s.log) } := by
  have hbb := portWindow_fits hw (off := 0x18) (by omega)
  have hstop : enginesStopped (stopped.setWidth 64) = true := by
    rw [enginesStopped, word_setWidth, h.clear]; rfl
  rcases h.course with ⟨hs, rfl, rfl⟩ | hs
  · rw [portStop_run hw hh hn (by simp [hs]) h.shows]
    refine (waitFor_first hbb (by simp [hs]) (by exact alGet_alSet_same _ _ _) hstop
      (fun h0 => by have := h.budget; rw [h0] at this; simp at this)).trans ?_
    simp [hs]
  · rw [portStop_run hw hh hn ?_ h.shows, waitFor]
    · refine (waitRounds_at (v0 := cmd &&& 0xFFFFFFEE#32) (v := stopped) (rest := []) hbb hstop k _ _ h.budget ?_ ?_).trans ?_
      · show s.script.drop 3 = _
        rw [hs, Nat.add_comm, ← List.replicate_append_replicate, List.append_assoc, List.drop_left' (by simp)]
      · refine fun hk => ⟨alGet_alSet_same _ _ _, ?_⟩
        rw [enginesStopped, word_setWidth, BitVec.and_assoc, show (0xFFFFFFEE#32 &&& 0x0000C000#32) = 0xC000#32 from rfl]
        simpa using h.running hk
      · simp [State.clearIter]
    · rw [hs, Nat.add_comm, ← List.replicate_append_replicate, List.append_assoc, List.take_left' (by simp)]
      exact fun a ha => List.eq_of_mem_replicate ha

theorem writeBases_run {c : AhciCtx} {s0 s : State} (hw : HbaWindow s0 c) (hh : s.hba = s0.hba) (hn : s.nvme = s0.nvme) (hq : s.script = []) :
    writeBases c s = .go ()
      { s with
        regs := alSet (alSet (alSet (alSet s.regs (c.portReg 0x00) ((lo32 c.port.clb).setWidth 64))
          (c.portReg 0x04) ((hi32 c.port.clb).setWidth 64)) (c.portReg 0x08) ((lo32 c.port.fb).setWidth 64))
          (c.portReg 0x0C) ((hi32 c.port.fb).setWidth 64)
        log := wr32 (c.portReg 0x0C) (hi32 c.port.fb) :: wr32 (c.portReg 0x08) (lo32 c.port.fb) ::
          wr32 (c.portReg 0x04) (hi32 c.port.clb) :: wr32 (c.portReg 0x00) (lo32 c.port.clb) :: s.log } := by
  rw [writeBases, bind_of (mmioWrite_stored (by exact hq) (portWindow_fits hw (by omega)) (regKind_bases hw (by exact hh) (by exact hn)).1),
   bind_of (mmioWrite_stored (by exact hq) (portWindow_fits hw (by omega)) (regKind_bases hw (by exact hh) (by exact hn)).2.1),
   bind_of (mmioWrite_stored (by exact hq) (portWindow_fits hw (by omega)) (regKind_bases hw (by exact hh) (by exact hn)).2.2.1),
   mmioWrite_stored (by exact hq) (portWindow_fits hw (by omega)) (regKind_bases hw (by exact hh) (by exact hn)).2.2.2]
  simp only [trunc_word]
  rfl

theorem portStart_run {c : AhciCtx} {cmd : Word} {s0 s : State} (hw : HbaWindow s0 c) (hh : s.hba = s0.hba) (hn : s.nvme = s0.nvme) (hq : s.script = [])
    (hr : Reads32 s (c.portReg 0x18) cmd) (hc : cmd &&& 0xC000#32 = 0#32) :
    portStart c s = .go ()
      { s with regs := alSet s.regs (c.portReg 0x18) ((cmd ||| 0x11#32).setWidth 64)
               log := wr32 (c.portReg 0x18) (cmd ||| 0x11#32) :: wr32 (c.portReg 0x18) (cmd ||| 0x10#32) :: rd32 (c.portReg 0x18) cmd :: s.log } := by
  have hbb := portWindow_fits hw (off := 0x18) (by omega)
  have e0 : cmd &&& 0xFFFF3FFF#32 = cmd := by
    have : cmd = (cmd &&& 0xFFFF3FFF#32) ||| (cmd &&& 0xC000#32) := by
      rw [← BitVec.and_or_distrib_left]; exact (BitVec.and_allOnes (x := cmd)).symm
    rw [hc] at this; simpa using this.symm
  have f : ∀ m : Word, m &&& 0xFFFF3FFF#32 = m → ((cmd ||| m) &&& 0xFFFF3FFF#32) = cmd ||| m := by
    intro m hm; rw [BitVec.and_or_distrib_right, e0, hm]
  rw [portStart, bind_of (mmioRead_word hbb hq hr), or_word cmd 0x10#64 0x10#32 rfl, or_word cmd 0x11#64 0x11#32 rfl]
  rw [bind_of (mmioWrite_portCmd (old := cmd) (by simp [hq]) hbb (regKind_pxcmd hw (by exact hh) (by exact hn)) (by exact hr)), f _ rfl, hc]
  rw [mmioWrite_portCmd (old := cmd ||| 0x10#32) (by simp [hq]) hbb (regKind_pxcmd hw (by exact hh) (by exact hn)) (by rw [BitVec.or_zero]; exact alGet_alSet_same _ _ _), f _ rfl]
  dsimp only
  rw [alSet_alSet, BitVec.and_or_distrib_right, hc]
  simp [hq]

/-- PORT.INIT of a port that stops (R304, R305, R307). -/
theorem portInitStep_run {s0 s : State} {c : AhciCtx} {cmd stopped : Word} {k : Nat} {dev : Byte} (hw : HbaWindow s0 c)
    (hh : s.hba = s0.hba) (hn : s.nvme = s0.nvme) (hon : OnPort s dev c) (ha : PortArena s c)
    (hct : c.hba.nSlots.toNat ≤ c.port.ct.length) (h : PortStops s c cmd stopped k) :
    portInitStep c s = .go () (portReady c cmd stopped k s) := by
  rw [portInitStep, ahciPremises_of ha, bind_go, need_of _ _ (by simpa using hct), bind_go,
    bind_of (portStop_stops hw hh hn h)]
  refine (bind_of (memStore_quiet rfl (by simpa using clb_fits hon ha.2))).trans ?_
  refine (bind_of (memStore_quiet rfl (by simpa using fb_fits hon ha.2))).trans ?_
  refine (bind_of (zeroTables_run _ _ _ rfl (fun t ht => by exact table_fits hon ha.2 (List.mem_of_mem_take ht)))).trans ?_
  refine (bind_of (writeBases_run hw (by exact hh) (by exact hn) rfl)).trans ?_
  refine (bind_of (portStart_run (cmd := stopped) hw (by exact hh) (by exact hn) rfl ?_ h.clear)).trans ?_
  · show alGet (alSet (alSet (alSet (alSet (alSet s.regs _ _) _ _) _ _) _ _) _ _) _ = _
    have e : ∀ o, o ≠ 0x18 → c.portReg 0x18 ≠ c.portReg o := by unfold AhciCtx.portReg; intros; omega
    rw [alGet_alSet_other _ _ _ (e _ (by omega)), alGet_alSet_other _ _ _ (e _ (by omega)), alGet_alSet_other _ _ _ (e _ (by omega)), alGet_alSet_other _ _ _ (e _ (by omega)), alGet_alSet_same]
  · refine congrArg (Flow.go ()) ?_
    simp only [afterZeros_cons]
    simp only [settle, forget, afterZeros, portReady]
    simp only [State.mk.injEq]
    refine ⟨trivial, rfl, rfl, rfl, rfl, rfl, rfl, ?_, ?_, trivial, ?_, ?_, rfl, ?_, rfl, rfl, rfl, rfl, rfl, ?_, rfl⟩
    · have e : ∀ {o}, o ≠ 0x18 → ∀ (l : List (Nat × Quad)) (v w : Quad),
          alSet (alSet l (c.portReg 0x18) v) (c.portReg o) w = alSet (alSet l (c.portReg o) w) (c.portReg 0x18) v :=
        fun ho l v w => alSet_comm l v w (by unfold AhciCtx.portReg; omega)
      rw [portRegs]
      dsimp only [publish]
      rw [e (by omega), e (by omega), e (by omega), e (by omega), alSet_alSet]
    · rfl
    · rfl
    · rfl
    · rw [publish_none_pend]; exact unordered_zeros _ _
    · simp [portTrace, publish, portRanges, tableBytes, repeated_reverse]

theorem regKind_ctrl {s t : State} {c : NvmeCtx} {w : Nvme} (hw : NvmeWindow s c) (hr : rising s.nvme = true)
    (hg : alGet s.nvme c.qp.ctrl = some c.nv) (hb : w.base = c.nv.base) (hh : t.hba = s.hba)
    (ht : t.nvme = alSet s.nvme c.qp.ctrl w) {off : Nat} (ho : off < 0x1000) : t.regKind (c.reg off) = nvmeRegKind off := by
  obtain ⟨n, hn⟩ := ctrlAt_nvme hr hg hb hh ht ho (hw.2 off ho)
  exact regKind_nvme hn

/-- The first wait of NVME.INIT, on a controller that is disabled after some looks (R308): besides the accesses, at most the
content of `CSTS` changes. -/
theorem waitDisabled_run {c : NvmeCtx} {d : Disabling} {act : DevAct} {s0 s : State} {rest : List DevAct}
    (ha : c.reg 0x1C + 4 ≤ addrSpace) (h : Disables s0 c d act) (hr : Reads32 s (c.reg 0x1C) d.csts)
    (hb : s.cfg = s0.cfg) (hs : s.script = List.replicate d.looks ({} : DevAct) ++ act :: rest) :
    ∃ regs, waitFor (c.reg 0x1C) (fun v => !ctrlReady v) .controllerNotReady s.cfg.resetBudget s = .go ()
        { s with
          x := { s.x with iter := BitVec.ofNat 32 d.looks }
          regs := regs
          script := rest
          log := rd32 (c.reg 0x1C) d.off :: (repeated d.looks [rd32 (c.reg 0x1C) d.csts] ++ s.log) } ∧
      alGet regs (c.reg 0x1C) = some (d.off.setWidth 64) ∧
      ∀ w, alSet regs (c.reg 0x1C) w = alSet s.regs (c.reg 0x1C) w := by
  have hoff : (fun v => !ctrlReady v) (d.off.setWidth 64) = true := by simpa [ctrlReady] using h.clear
  have hn := h.budget
  rw [← hb] at hn
  rcases h.course with ⟨rfl, h0, he⟩ | rfl
  · refine ⟨s.regs, ?_, by rw [he]; exact hr, fun _ => rfl⟩
    rw [h0, List.replicate_zero, List.nil_append] at hs
    rw [waitFor_first_idle ha hs (by rw [he]; exact hr) hoff (fun h1 => by rw [h1] at hn; simp at hn), h0]
    simp
  · refine ⟨alSet s.regs (c.reg 0x1C) (d.off.setWidth 64), ?_, alGet_alSet_same _ _ _, fun _ => alSet_alSet _ _ _ _⟩
    rw [waitFor, waitRounds_at (v0 := d.csts) (v := d.off) (rest := rest) ha hoff d.looks _ s.clearIter hn hs
      (fun hk => ⟨hr, by simpa [ctrlReady] using h.ready hk⟩)]
    simp [State.clearIter]

theorem freshRings_ctrl (p : Params) (es l : List (Nat × Qp)) (h : ∀ e ∈ es, (alGet l e.1).map Qp.ctrl = some e.2.ctrl) (q : Nat) :
    (alGet (freshRings p es l) q).map Qp.ctrl = (alGet l q).map Qp.ctrl := by
  induction es generalizing l with
  | nil => rfl
  | cons e es ih =>
    have key : ∀ q, (alGet (alSet l e.1
        { e.2 with sqTail := 0#16, sqHead := 0#16, cqHead := 0#16, phase := p.phaseInit, started := true }) q).map Qp.ctrl = (alGet l q).map Qp.ctrl := by
      intro q
      by_cases hq : q = e.1
      · subst hq; rw [alGet_alSet_same, h e (by simp)]; rfl
      · rw [alGet_alSet_other _ _ _ hq]
    show (alGet (freshRings p es _) q).map Qp.ctrl = _
    rw [ih _ (fun u hu => by rw [key]; exact h u (by simp [hu])), key]

end Sys2Proof.Laws
end

