-- ==== Sys2Proof/Laws/Frame.lean ====
section
/-!
SUPPORT. What no part of an operation changes: the parameters, the config records, the config fields of the records that
hold state too, the operand registers, the last response; and the leaked set outside the bring-up operations.
-/

namespace Sys2Proof.Laws

open Sys2Proof.Machine

/-- The operand registers and the operation register of both states agree. -/
structure SameOperands (x y : Regs) : Prop where
  op : y.op = x.op
  dev : y.dev = x.dev
  cnt : y.cnt = x.cnt
  arg : y.arg = x.arg
  lba : y.lba = x.lba
  buf : y.buf = x.buf

theorem SameOperands.refl (x : Regs) : SameOperands x x := ⟨rfl, rfl, rfl, rfl, rfl, rfl⟩

theorem SameOperands.trans {x y z : Regs} (h : SameOperands x y) (g : SameOperands y z) : SameOperands x z :=
  ⟨g.op.trans h.op, g.dev.trans h.dev, g.cnt.trans h.cnt, g.arg.trans h.arg, g.lba.trans h.lba, g.buf.trans h.buf⟩

/-- What no part of any operation changes. -/
structure Fixed (s t : State) : Prop where
  cfg : t.cfg = s.cfg
  port : t.port = s.port
  dev : t.dev = s.dev
  inputs : t.inputs = s.inputs
  rsp : t.rsp = s.rsp
  nrsp : t.nrsp = s.nrsp
  operands : SameOperands s.x t.x

/-- The config fields of a queue-pair record. -/
def qpConfig (q : Qp) : Nat × Half × Quad × Quad × Nat := (q.ctrl, q.qid, q.sqBase, q.cqBase, q.qSize)

/-- The config of a controller record: the fields that no operation changes, and `STRIDE`. -/
abbrev NvmeConfig := (Quad × Nat × BitVec 4) × BitVec 4

/-- That view of a controller record. -/
def nvmeConfig (n : Nvme) : NvmeConfig := ((n.base, n.mdts, n.mps), n.dstrd)

/-- The view `f` of the record at each key agrees in both lists. -/
def SameAt {α β : Type} (f : α → β) (l m : List (Nat × α)) : Prop := ∀ k, (alGet m k).map f = (alGet l k).map f

theorem SameAt.refl {α β : Type} (f : α → β) (l : List (Nat × α)) : SameAt f l l := fun _ => rfl

theorem SameAt.of_eq {α β : Type} {f : α → β} {l m : List (Nat × α)} (h : m = l) : SameAt f l m := h ▸ .refl f l

theorem SameAt.trans {α β : Type} {f : α → β} {l m n : List (Nat × α)} (h : SameAt f l m) (g : SameAt f m n) :
    SameAt f l n := fun k => (g k).trans (h k)

/-- Setting a record keeps the view where the new record has the view of the old one. -/
theorem SameAt.set {α β : Type} {f : α → β} {l : List (Nat × α)} {k : Nat} {v : α}
    (h : (alGet l k).map f = some (f v)) : SameAt f l (alSet l k v) := fun j => by
  by_cases hj : j = k
  · subst hj; rw [alGet_alSet_same, h]; rfl
  · rw [alGet_alSet_other l k v hj]

/-- Each record the first list holds, the second holds too, with the same view. -/
theorem SameAt.get {α β : Type} {f : α → β} {l m : List (Nat × α)} (h : SameAt f l m) {k : Nat} {o : α}
    (ho : alGet l k = some o) : ∃ n, alGet m k = some n ∧ f n = f o := by
  have hk := h k
  rw [ho] at hk
  exact Option.map_eq_some_iff.1 hk

/-- What no part of a command, of an access or of the decoder changes besides: the HBA records, the config fields of
queue-pair and controller records, `STRIDE` among them, and no leaked entry goes. -/
structure Local (s t : State) : Prop extends Fixed s t where
  hba : t.hba = s.hba
  leaked : ∀ e ∈ s.leaked, e ∈ t.leaked
  nvme : SameAt nvmeConfig s.nvme t.nvme
  qp : SameAt qpConfig s.qp t.qp

/-- The view `f` of the HBA records, the view `g` of the config of the controller records, and the config of the queue
pairs are as before: what the bring-up operations keep too, each for its own views. -/
structure Records {β γ : Type} (f : Hba → β) (g : NvmeConfig → γ) (s t : State) : Prop where
  hba : SameAt f s.hba t.hba
  nvme : SameAt (fun n => g (nvmeConfig n)) s.nvme t.nvme
  qp : SameAt qpConfig s.qp t.qp

section Records
variable {β γ : Type} {f : Hba → β} {g : NvmeConfig → γ}

theorem Records.refl (s : State) : Records f g s s := ⟨.refl _ _, .refl _ _, .refl _ _⟩

theorem Records.trans {s t u : State} (h : Records f g s t) (k : Records f g t u) : Records f g s u :=
  ⟨h.hba.trans k.hba, h.nvme.trans k.nvme, h.qp.trans k.qp⟩

theorem Local.records {s t : State} (h : Local s t) : Records f g s t :=
  ⟨.of_eq h.hba, fun k => by simpa [Option.map_map, Function.comp_def] using congrArg (Option.map g) (h.nvme k), h.qp⟩

end Records

theorem Fixed.refl (s : State) : Fixed s s := ⟨rfl, rfl, rfl, rfl, rfl, rfl, .refl _⟩

theorem Fixed.trans {s t u : State} (h : Fixed s t) (g : Fixed t u) : Fixed s u :=
  ⟨g.cfg.trans h.cfg, g.port.trans h.port, g.dev.trans h.dev, g.inputs.trans h.inputs, g.rsp.trans h.rsp,
    g.nrsp.trans h.nrsp, h.operands.trans g.operands⟩

theorem Local.refl (s : State) : Local s s := ⟨.refl s, rfl, fun _ h => h, .refl _ _, .refl _ _⟩

theorem Local.trans {s t u : State} (h : Local s t) (g : Local t u) : Local s u :=
  ⟨h.toFixed.trans g.toFixed, g.hba.trans h.hba, fun e he => g.leaked e (h.leaked e he),
    h.nvme.trans g.nvme, h.qp.trans g.qp⟩

theorem Touch.operands {s t : State} (h : Touch s t) : SameOperands s.x t.x := by
  have h1 := congrArg Regs.op h.x
  have h2 := congrArg Regs.dev h.x
  have h3 := congrArg Regs.cnt h.x
  have h4 := congrArg Regs.arg h.x
  have h5 := congrArg Regs.lba h.x
  have h6 := congrArg Regs.buf h.x
  exact ⟨h1, h2, h3, h4, h5, h6⟩

theorem Touch.local {s t : State} (h : Touch s t) : Local s t :=
  ⟨⟨h.cfg, h.port, h.dev, h.inputs, h.rsp, h.nrsp, h.operands⟩, h.hba, fun _ he => h.leaked ▸ he,
    .of_eq h.nvme, .of_eq h.qp⟩

theorem local_raised (e : Err) (p : Pc) (s : State) : Local s (raised e p s) :=
  ⟨⟨rfl, rfl, rfl, rfl, rfl, rfl, ⟨rfl, rfl, rfl, rfl, rfl, rfl⟩⟩, rfl, fun _ h => h, .refl _ _, .refl _ _⟩

/-- A part stays local on every way it can end. -/
abbrev StaysLocal {α : Type} (s : State) (m : Flow α) : Prop := Ends m (fun _ t => Local s t) (Local s)

theorem StaysLocal.bind {α β : Type} {s : State} {m : Flow α} {k : α → State → Flow β} (hm : StaysLocal s m)
    (hk : ∀ a t, StaysLocal t (k a t)) : StaysLocal s (m.bind k) :=
  Ends.bind hm fun a t h => (hk a t).mono (fun _ _ g => h.trans g) fun _ g => h.trans g

/-- The same where the rest needs to know that the first part was local. -/
theorem StaysLocal.then {α β : Type} {s : State} {m : Flow α} {k : α → State → Flow β} (hm : StaysLocal s m)
    (hk : ∀ a t, Local s t → StaysLocal t (k a t)) : StaysLocal s (m.bind k) :=
  Ends.bind hm fun a t h => (hk a t h).mono (fun _ _ g => h.trans g) fun _ g => h.trans g

theorem local_go {α : Type} {s t : State} (a : α) (h : Local s t) : StaysLocal s (.go a t) := ends_go h

theorem local_need (ok : Bool) (r : Refusal) (s : State) : StaysLocal s (need ok r s) := ends_need fun _ => .refl s

theorem local_needOk {α : Type} (e : Except Refusal α) (s : State) : StaysLocal s (needOk e s) :=
  ends_needOk fun _ _ => .refl s

theorem local_mmioRead (w : Width) (a : Nat) (s : State) : StaysLocal s (mmioRead w a s) :=
  (ends_mmioRead w a s).mono (fun _ _ h => h.1.local) fun _ h => h

theorem local_mmioWrite (w : Width) (a : Nat) (v : Quad) (s : State) : StaysLocal s (mmioWrite w a v s) :=
  (ends_mmioWrite w a v s).mono (fun _ _ h => h.1.local) fun _ h => h

theorem local_memStore (a : Nat) (bs : List Byte) (s : State) : StaysLocal s (memStore a bs s) :=
  (ends_memStore a bs s).mono (fun _ _ h => h.1.local) fun _ h => h

theorem local_memLoad (a n : Nat) (s : State) : StaysLocal s (memLoad a n s) :=
  (ends_memLoad a n s).mono (fun _ _ h => h.1.local) fun _ h => h

theorem local_loadBytes (a n : Nat) (s : State) : StaysLocal s (loadBytes a n s) :=
  (ends_loadBytes a n s).mono (fun _ _ h => h.1.local) fun _ h => h

theorem local_loadField (p w n : Nat) (s : State) : StaysLocal s (loadField p w n s) :=
  (ends_loadField p w n s).mono (fun _ _ h => h.1.local) fun _ h => h

theorem local_storeBytes (a : Nat) (bs : List Byte) (s : State) : StaysLocal s (storeBytes a bs s) :=
  (ends_storeBytes a bs s).mono (fun _ _ h => h.local) fun _ h => h

theorem local_waitFor (a : Nat) (done : Quad → Bool) (e : Err) (b : Word) (s : State) :
    StaysLocal s (waitFor a done e b s) :=
  (ends_waitFor a done e b s).mono (fun _ _ h => h.local) fun _ ⟨_, hu, ht⟩ => ht ▸ hu.local.trans (local_raised ..)

theorem local_publish (b : Option (Nat × Nat)) (s : State) : Local s (publish b s) := (touch_publish b s).local

/-- A change of `pc`, claim, `built`, in-flight entry, and of the result registers. -/
theorem local_control (s : State) (pc : Pc) (x : Regs) (claim : Option Chan) (built : Option (Nat × Nat))
    (inflight : Option Tag) (hx : SameOperands s.x x) : Local s { s with pc, x, claim, built, inflight } :=
  ⟨⟨rfl, rfl, rfl, rfl, rfl, rfl, hx⟩, rfl, fun _ h => h, .refl _ _, .refl _ _⟩

/-- A change of the position state of a queue pair. -/
theorem local_qp (s : State) {q : Nat} {r : Qp} (h : (alGet s.qp q).map qpConfig = some (qpConfig r)) :
    Local s { s with qp := alSet s.qp q r } :=
  ⟨⟨rfl, rfl, rfl, rfl, rfl, rfl, .refl _⟩, rfl, fun _ h => h, .refl _ _, .set h⟩

theorem local_leak (s : State) : Local s (leak s) :=
  ⟨⟨rfl, rfl, rfl, rfl, rfl, rfl, .refl _⟩, rfl, fun _ h => List.mem_append_left _ h, .refl _ _, .refl _ _⟩

theorem local_setVal (s : State) (v : Quad) : Local s (s.setVal v) :=
  local_control s _ _ _ _ _ ⟨rfl, rfl, rfl, rfl, rfl, rfl⟩

theorem local_raiseDevice {s t : State} (raw : Word) (h : Local s t) :
    StaysLocal s (raiseDevice raw t : Flow Unit) :=
  ends_stop (h.trans ((local_control t t.pc { t.x with raw := raw } t.claim t.built t.inflight
    ⟨rfl, rfl, rfl, rfl, rfl, rfl⟩).trans (local_raised .deviceError .deviceError _)))

/-! ## The parts of a command -/

theorem local_ahciSlot (s : State) : StaysLocal s (ahciSlot s) :=
  (ends_ahciSlot s).mono (fun _ _ h => h.1 ▸ .refl s) fun _ h => h

theorem local_nvmeSlot (s : State) : StaysLocal s (nvmeSlot s) :=
  (ends_nvmeSlot s).mono (fun _ _ h => h.1 ▸ .refl s) fun _ h => h

theorem local_ahciAllocStep (s : State) : StaysLocal s (ahciAllocStep s) := by
  refine (ends_ahciAllocStep s).mono ?_ ?_
  · rintro - t ⟨c, u, _, _, k, -, hu, -, -, rfl⟩
    exact hu.local.trans (local_control u _ _ _ _ _ ⟨rfl, rfl, rfl, rfl, rfl, rfl⟩)
  · rintro t ⟨c, u, _, _, -, hu, -, -, rfl⟩
    exact hu.local.trans (local_raised ..)

theorem local_nvmeAllocStep (s : State) : StaysLocal s (nvmeAllocStep s) := by
  refine (ends_nvmeAllocStep s).mono ?_ ?_
  · rintro - t ⟨c, hc, -, rfl⟩
    have hn : alGet s.nvme c.qp.ctrl = some c.nv := (nvmeCtxOf_eq_ok.1 hc).2.2.2.2
    exact ⟨⟨rfl, rfl, rfl, rfl, rfl, rfl, ⟨rfl, rfl, rfl, rfl, rfl, rfl⟩⟩, rfl, fun _ h => h,
      .set (by rw [hn]; rfl), .refl _ _⟩
  · rintro t ⟨c, -, -, rfl⟩; exact local_raised ..

theorem local_prdtStep (s : State) : StaysLocal s (prdtStep s) := by
  refine (ends_prdtStep s).mono ?_ ?_
  · rintro - t ⟨c, u, -, -, hu, -, rfl⟩
    exact hu.local.trans (local_control u _ _ _ _ _ ⟨rfl, rfl, rfl, rfl, rfl, rfl⟩)
  · rintro t ⟨c, -, -, rfl⟩; exact local_raised ..

theorem local_fisStep (s : State) : StaysLocal s (fisStep s) :=
  (ends_fisStep s).mono (fun _ _ ⟨_, _, h, _⟩ => h.local) fun _ h => h

theorem local_hdrStep (s : State) : StaysLocal s (hdrStep s) :=
  (ends_hdrStep s).mono (fun _ _ ⟨_, _, h, _⟩ => h.local) fun _ h => h

theorem local_ahciBuildStep (s : State) : StaysLocal s (ahciBuildStep s) := by
  unfold ahciBuildStep
  refine (local_prdtStep s).bind fun _ t => ?_
  refine (local_fisStep t).bind fun _ u => ?_
  refine (local_hdrStep u).bind fun _ v => ?_
  exact local_go _ (local_control v _ _ _ _ _ ⟨rfl, rfl, rfl, rfl, rfl, rfl⟩)

theorem local_prpStep (s : State) : StaysLocal s (prpStep s) := by
  refine (ends_prpStep s).mono ?_ ?_
  · rintro - t ⟨c, -, -, rfl⟩
    exact local_control s _ _ _ _ _ ⟨rfl, rfl, rfl, rfl, rfl, rfl⟩
  · rintro t ⟨c, -, -, rfl⟩; exact local_raised ..

theorem local_sqeStep (s : State) : StaysLocal s (sqeStep s) :=
  (ends_sqeStep s).mono (fun _ _ ⟨_, _, h, _⟩ => h.local) fun _ h => h

theorem local_nvmeBuildStep (s : State) : StaysLocal s (nvmeBuildStep s) := by
  unfold nvmeBuildStep
  refine (local_prpStep s).bind fun _ t => ?_
  refine (local_sqeStep t).bind fun _ u => ?_
  exact local_go _ (local_control u _ _ _ _ _ (.refl _))

theorem local_ahciIssueStep (s : State) : StaysLocal s (ahciIssueStep s) := by
  unfold ahciIssueStep
  refine (local_ahciSlot s).bind fun c t => ?_
  refine (local_waitFor _ _ _ _ t).bind fun _ u => ?_
  refine Ends.bind ((local_mmioWrite _ _ _ _).mono (fun _ _ h => (local_publish _ u).trans h)
    fun _ h => (local_publish _ u).trans h) fun _ v h => ?_
  exact ends_go (h.trans (local_control v _ _ _ _ _ (.refl _)))

theorem local_complete (s : State) : Local s (complete s) := local_control s _ _ _ _ _ (.refl _)

theorem local_land (s : State) : Local s (land s) := local_control s _ _ _ _ _ (.refl _)

theorem local_timeOut (s : State) : StaysLocal s (timeOut s) := ends_stop ((local_leak s).trans (local_raised ..))

theorem local_ahciPollRounds (c : AhciCtx) (n : Nat) (s : State) : StaysLocal s (ahciPollRounds c n s) := by
  induction n generalizing s with
  | zero => exact local_timeOut s
  | succ n ih =>
    rw [ahciPollRounds]
    refine (local_mmioRead _ _ s).bind fun ci t => ?_
    refine (local_mmioRead _ _ t).bind fun e u => ?_
    refine ends_ite (fun _ => local_raiseDevice _ (local_land u)) fun _ => ?_
    refine ends_ite (fun _ => local_go _ (local_complete u)) fun _ => ?_
    have h := (touch_bumpIter u).local
    exact (ih u.bumpIter).mono (fun _ _ g => h.trans g) fun _ g => h.trans g

theorem local_ahciPollStep (s : State) : StaysLocal s (ahciPollStep s) := by
  unfold ahciPollStep
  refine (local_ahciSlot s).bind fun c t => ?_
  have h := (touch_clearIter t).local
  exact (local_ahciPollRounds _ _ t.clearIter).mono (fun _ _ g => h.trans g) fun _ g => h.trans g

theorem local_ahciCmdStep (s : State) : StaysLocal s (ahciCmdStep s) := by
  unfold ahciCmdStep
  refine (local_ahciAllocStep s).bind fun _ t => ?_
  refine (local_ahciBuildStep t).bind fun _ u => ?_
  exact (local_ahciIssueStep u).bind fun _ v => local_ahciPollStep v

theorem local_settle (s : State) : Local s (settle s) := local_control s _ _ _ _ _ (.refl _)

theorem local_rdychkStep (s : State) : StaysLocal s (rdychkStep s) := by
  unfold rdychkStep
  refine (local_needOk _ s).bind fun c t => ?_
  refine (local_mmioRead _ _ t).bind fun v u => ?_
  exact ends_ite (fun _ => local_go _ (local_settle u)) fun _ => ends_stop (local_raised ..)

theorem local_setTail (c : NvmeCtx) (i : Half) (s : State) (h : (alGet s.qp c.q).map qpConfig = some (qpConfig c.qp)) :
    Local s (setTail c i s) := local_qp s h

/-- The config of the queue pair that NVME.ISSUE and NVME.POLL work on. -/
theorem qpConfig_of_slot {s : State} {c : NvmeCtx} (h : HoldsEntry s c) :
    (alGet s.qp c.q).map qpConfig = some (qpConfig c.qp) := by
  rw [(nvmeCtxOf_eq_ok.1 h.1).2.2.2.1]; rfl

theorem local_nvmeIssueStep (s : State) : StaysLocal s (nvmeIssueStep s) := by
  unfold nvmeIssueStep
  refine (ends_nvmeSlot s).bind ?_
  rintro c t ⟨rfl, hc⟩
  refine (ends_need (Q := fun _ u => u = t) fun _ => rfl).bind ?_
  rintro - u rfl
  have hq := qpConfig_of_slot hc
  have hp := local_publish u.built u
  have h := hp.trans (local_setTail c (ringNext c.qp.qSize c.qp.sqTail) _ ((hp.qp c.q).trans hq))
  refine Ends.bind ((local_mmioWrite _ _ _ _).mono (fun _ _ g => h.trans g) fun _ g => h.trans g) fun _ v h => ?_
  exact ends_go (h.trans (local_control v _ _ _ _ _ (.refl _)))

theorem local_consume (c : NvmeCtx) (d2 : Word) (st : Half) (s : State)
    (hq : (alGet s.qp c.q).map qpConfig = some (qpConfig c.qp)) : StaysLocal s (consume c d2 st s) := by
  unfold consume
  refine (ends_need (Q := fun _ t => t = s) fun _ => rfl).bind ?_
  rintro - t rfl
  have h : Local t { t with qp := alSet t.qp c.q (consumed c.qp (cqeSqHead d2)) } := local_qp t hq
  refine Ends.bind ((local_mmioWrite _ _ _ _).mono (fun _ _ g => h.trans g) fun _ g => h.trans g) fun _ v h => ?_
  refine ends_ite (fun _ => ?_) fun _ => ends_go (h.trans (local_complete v))
  exact local_raiseDevice _ (h.trans (local_land v))

theorem local_noMatch (c : NvmeCtx) (s : State) : StaysLocal s (noMatch c s) := by
  unfold noMatch
  refine ends_ite (fun _ => ?_) fun _ => local_go _ (touch_bumpIter s).local
  refine (local_mmioRead _ _ s).bind fun v t => ?_
  exact ends_ite (fun _ => local_raiseDevice _ (local_leak t)) fun _ => local_go _ (touch_bumpIter t).local

theorem local_loadDword (a : Nat) (s : State) : StaysLocal s (loadDword a s) :=
  (local_memLoad a 4 s).bind fun _ t => local_go _ (.refl t)

theorem local_nvmePollRounds (c : NvmeCtx) (n : Nat) (s : State)
    (hq : (alGet s.qp c.q).map qpConfig = some (qpConfig c.qp)) : StaysLocal s (nvmePollRounds c n s) := by
  induction n generalizing s with
  | zero => exact local_timeOut s
  | succ n ih =>
    rw [nvmePollRounds]
    refine (local_loadDword _ s).then fun d3 t h => ?_
    refine ends_ite (fun _ => ?_) fun _ => ?_
    · exact (local_loadDword _ t).then fun d2 u g => local_consume _ _ _ u (((h.trans g).qp c.q).trans hq)
    · exact (local_noMatch c t).then fun _ u g => ih u (((h.trans g).qp c.q).trans hq)

theorem local_nvmePollStep (s : State) : StaysLocal s (nvmePollStep s) := by
  unfold nvmePollStep
  refine (ends_nvmeSlot s).bind ?_
  rintro c t ⟨rfl, hc⟩
  have h := (touch_clearIter t).local
  exact (local_nvmePollRounds _ _ t.clearIter ((h.qp c.q).trans (qpConfig_of_slot hc))).mono
    (fun _ _ g => h.trans g) fun _ g => h.trans g

theorem local_nvmeCmdStep (s : State) : StaysLocal s (nvmeCmdStep s) := by
  unfold nvmeCmdStep
  refine (local_rdychkStep s).bind fun _ t => ?_
  refine (local_nvmeAllocStep t).bind fun _ u => ?_
  refine (local_nvmeBuildStep u).bind fun _ v => ?_
  exact (local_nvmeIssueStep v).bind fun _ w => local_nvmePollStep w

/-! ## The decoder -/

theorem local_loadWords (p w n : Nat) (s : State) : StaysLocal s (loadWords p w n s) :=
  (local_loadBytes _ _ s).bind fun _ t => local_go _ (.refl t)

theorem local_loadBit (p : Nat) (b : BitPos) (s : State) : StaysLocal s (loadBit p b s) :=
  (local_loadWords _ _ _ s).bind fun _ t => local_go _ (.refl t)

theorem local_capStep (p : Nat) (s : State) : StaysLocal s (capStep p s) := by
  unfold capStep
  refine (local_loadBit _ _ s).bind fun b t => ?_
  exact ends_ite (fun _ => (local_loadWords _ _ _ t).bind fun _ u => local_go _ (local_setVal u _))
    fun _ => (local_loadWords _ _ _ t).bind fun _ u => local_go _ (local_setVal u _)

theorem local_secszStep (p : Nat) (s : State) : StaysLocal s (secszStep p s) := by
  unfold secszStep
  refine (local_loadWords _ _ _ s).bind fun b t => ?_
  exact ends_ite (fun _ => (local_loadWords _ _ _ t).bind fun _ u => local_go _ (local_setVal u _))
    fun _ => local_go _ (local_setVal t _)

theorem local_raiseHere (e : Err) (s : State) : StaysLocal s (raiseHere e s : Flow Unit) :=
  ends_stop (local_control s _ _ _ _ _ ⟨rfl, rfl, rfl, rfl, rfl, rfl⟩)

theorem local_payloadPremises (p : Nat) (s : State) : StaysLocal s (payloadPremises p s) :=
  (local_need _ _ s).bind fun _ t => local_need _ _ t

theorem local_idPremises (p out n : Nat) (s : State) : StaysLocal s (idPremises p out n s) :=
  (local_payloadPremises _ s).bind fun _ t => (local_need _ _ t).bind fun _ t => local_need _ _ t

theorem local_idStrStep (p len w0 n out : Nat) (s : State) : StaysLocal s (idStrStep p len w0 n out s) := by
  unfold idStrStep
  refine ends_ite (fun _ => ?_) fun _ => local_raiseHere _ s
  refine (local_idPremises _ _ _ s).bind fun _ t => ?_
  refine (local_loadField _ _ _ t).bind fun str u => ?_
  exact (local_storeBytes _ _ u).bind fun _ v => local_go _ (local_setVal v _)

theorem local_idCapStep (p len : Nat) (s : State) : StaysLocal s (idCapStep p len s) := by
  unfold idCapStep
  refine ends_ite (fun _ => ?_) fun _ => local_raiseHere _ s
  refine (local_payloadPremises _ s).bind fun _ t => ?_
  exact (local_capStep p t).bind fun _ u => local_go _ (.refl u)

theorem local_idSecszStep (p len : Nat) (s : State) : StaysLocal s (idSecszStep p len s) := by
  unfold idSecszStep
  refine ends_ite (fun _ => ?_) fun _ => local_raiseHere _ s
  refine (local_payloadPremises _ s).bind fun _ t => ?_
  exact (local_secszStep p t).bind fun _ u => local_go _ (.refl u)

theorem local_loadIdentity (p : Nat) (s : State) : StaysLocal s (loadIdentity p s) := by
  unfold loadIdentity
  refine (local_loadField _ _ _ s).bind fun _ t => ?_
  refine (local_loadField _ _ _ t).bind fun _ t => ?_
  refine (local_loadField _ _ _ t).bind fun _ t => ?_
  refine (local_capStep p t).bind fun _ t => ?_
  refine (local_secszStep p t).bind fun _ t => ?_
  refine (local_loadBit _ _ t).bind fun _ t => ?_
  refine (local_loadBit _ _ t).bind fun _ t => ?_
  refine (local_loadBit _ _ t).bind fun _ t => ?_
  exact (local_loadBit _ _ t).bind fun _ t => local_go _ (.refl t)

theorem local_idDecodeStep (p len out : Nat) (s : State) : StaysLocal s (idDecodeStep p len out s) := by
  unfold idDecodeStep
  refine ends_ite (fun _ => ?_) fun _ => local_raiseHere _ s
  refine (local_idPremises _ _ _ s).bind fun _ t => ?_
  refine (local_need _ _ t).bind fun _ t => ?_
  exact (local_loadIdentity p t).bind fun d u => local_storeBytes _ _ u

/-! ## Bring-up: only `Fixed` -/

/-- A part keeps what is fixed on every way it can end. -/
abbrev StaysFixed {α : Type} (s : State) (m : Flow α) : Prop := Ends m (fun _ t => Fixed s t) (Fixed s)

theorem StaysFixed.bind {α β : Type} {s : State} {m : Flow α} {k : α → State → Flow β} (hm : StaysFixed s m)
    (hk : ∀ a t, StaysFixed t (k a t)) : StaysFixed s (m.bind k) :=
  Ends.bind hm fun a t h => (hk a t).mono (fun _ _ g => h.trans g) fun _ g => h.trans g

theorem StaysLocal.fixed {α : Type} {s : State} {m : Flow α} (h : StaysLocal s m) : StaysFixed s m :=
  h.mono (fun _ _ g => g.toFixed) fun _ g => g.toFixed

theorem StaysFixed.after {α : Type} {s t : State} {m : Flow α} (h : Fixed s t) (g : StaysFixed t m) :
    StaysFixed s m :=
  g.mono (fun _ _ g => h.trans g) fun _ g => h.trans g

theorem fixed_setHba (h : Nat) (r : Hba) (s : State) : Fixed s (setHba h r s) :=
  ⟨rfl, rfl, rfl, rfl, rfl, rfl, .refl _⟩

theorem fixed_forget (p : Chan → Bool) (s : State) : Fixed s (forget p s) :=
  ⟨rfl, rfl, rfl, rfl, rfl, rfl, .refl _⟩

theorem fixed_setStride (c : NvmeCtx) (v : Quad) (s : State) : Fixed s (setStride c v s) :=
  ⟨rfl, rfl, rfl, rfl, rfl, rfl, .refl _⟩

theorem fixed_ahciInitStep (s : State) : StaysFixed s (ahciInitStep s) := by
  unfold ahciInitStep
  refine (local_needOk _ s).fixed.bind fun c s => ?_
  refine (local_need _ _ s).fixed.bind fun _ s => ?_
  refine ((local_mmioWrite _ _ _ _).fixed.after (fixed_setHba _ _ s)).bind fun _ s => ?_
  refine (local_mmioWrite _ _ _ s).fixed.bind fun _ s => ?_
  refine (local_waitFor _ _ _ _ s).fixed.bind fun _ s => ?_
  refine (local_mmioWrite _ _ _ s).fixed.bind fun _ s => ?_
  refine (local_mmioRead _ _ s).fixed.bind fun _ s => ?_
  refine (local_mmioRead _ _ s).fixed.bind fun _ s => ?_
  exact ends_go ((fixed_setHba _ _ s).trans ((fixed_forget _ _).trans
    ((local_setVal _ _).toFixed.trans (local_settle _).toFixed)))

theorem local_portStop (c : AhciCtx) (s : State) : StaysLocal s (portStop c s) := by
  unfold portStop
  refine (local_mmioRead _ _ s).bind fun _ s => ?_
  refine (local_mmioWrite _ _ _ s).bind fun _ s => ?_
  refine (local_mmioWrite _ _ _ s).bind fun _ s => ?_
  exact local_waitFor _ _ _ _ s

theorem local_portStart (c : AhciCtx) (s : State) : StaysLocal s (portStart c s) := by
  unfold portStart
  refine (local_mmioRead _ _ s).bind fun _ s => ?_
  refine (local_mmioWrite _ _ _ s).bind fun _ s => ?_
  exact local_mmioWrite _ _ _ s

theorem local_zeroTables (n : Nat) (ts : List Quad) (s : State) : StaysLocal s (zeroTables n ts s) := by
  induction ts generalizing s with
  | nil => exact local_go _ (.refl s)
  | cons t ts ih =>
    rw [zeroTables]
    exact (local_memStore _ _ s).bind fun _ s => ih s

theorem local_writeBases (c : AhciCtx) (s : State) : StaysLocal s (writeBases c s) := by
  unfold writeBases
  refine (local_mmioWrite _ _ _ s).bind fun _ s => ?_
  refine (local_mmioWrite _ _ _ s).bind fun _ s => ?_
  refine (local_mmioWrite _ _ _ s).bind fun _ s => ?_
  exact local_mmioWrite _ _ _ s

theorem local_ahciPremises (c : AhciCtx) (s : State) : StaysLocal s (c.premises s) :=
  (local_need _ _ s).bind fun _ t => local_need _ _ t

theorem fixed_portInitStep (c : AhciCtx) (s : State) : StaysFixed s (portInitStep c s) := by
  unfold portInitStep
  refine (local_ahciPremises c s).fixed.bind fun _ s => ?_
  refine (local_need _ _ s).fixed.bind fun _ s => ?_
  refine (local_portStop c s).fixed.bind fun _ s => ?_
  refine (local_memStore _ _ s).fixed.bind fun _ s => ?_
  refine (local_memStore _ _ s).fixed.bind fun _ s => ?_
  refine (local_zeroTables _ _ s).fixed.bind fun _ s => ?_
  refine (local_writeBases c s).fixed.bind fun _ s => ?_
  refine ((local_portStart c _).fixed.after (local_publish none s).toFixed).bind fun _ s => ?_
  exact ends_go ((fixed_forget _ s).trans (local_settle _).toFixed)

theorem fixed_zeroRings (qs : List (Nat × Qp)) (s : State) : StaysFixed s (zeroRings qs s) := by
  induction qs generalizing s with
  | nil => exact (local_go () (.refl s)).fixed
  | cons e qs ih =>
    rw [zeroRings]
    refine (local_memStore _ _ s).fixed.bind fun _ s => ?_
    refine (local_memStore _ _ s).fixed.bind fun _ s => ?_
    have h : Fixed s { s with qp := alSet s.qp e.1 (e.2.fresh s.cfg.phaseInit) } :=
      ⟨rfl, rfl, rfl, rfl, rfl, rfl, .refl _⟩
    exact (ih _).after h

theorem local_nvmeInitPremises (c : NvmeCtx) (s : State) : StaysLocal s (nvmeInitPremises c s) :=
  (local_need _ _ s).bind fun _ s => (local_need _ _ s).bind fun _ s => local_need _ _ s

theorem fixed_nvmeInitStep (s : State) : StaysFixed s (nvmeInitStep s) := by
  unfold nvmeInitStep
  refine (local_needOk _ s).fixed.bind fun c s => ?_
  refine (local_nvmeInitPremises c s).fixed.bind fun _ s => ?_
  refine (local_mmioRead _ _ s).fixed.bind fun cap s => ?_
  refine ((local_mmioRead _ _ _).fixed.after (fixed_setStride c cap s)).bind fun cc s => ?_
  refine (local_mmioWrite _ _ _ s).fixed.bind fun _ s => ?_
  refine (local_waitFor _ _ _ _ s).fixed.bind fun _ s => ?_
  refine (fixed_zeroRings _ s).bind fun _ s => ?_
  refine (local_mmioWrite _ _ _ s).fixed.bind fun _ s => ?_
  refine (local_mmioWrite _ _ _ s).fixed.bind fun _ s => ?_
  refine (local_mmioWrite _ _ _ s).fixed.bind fun _ s => ?_
  refine ((local_mmioWrite _ _ _ _).fixed.after (local_publish none s).toFixed).bind fun _ s => ?_
  refine (local_waitFor _ _ _ _ s).fixed.bind fun _ s => ?_
  exact ends_go ((fixed_forget _ s).trans (local_settle _).toFixed)

/-! ## Bring-up: the records -/

/-- A part keeps the records on every way it can end. -/
abbrev StaysRecords {α β γ : Type} (f : Hba → β) (g : NvmeConfig → γ) (s : State)
    (m : Flow α) : Prop :=
  Ends m (fun _ t => Records f g s t) (Records f g s)

section BringUp
variable {β γ : Type} {f : Hba → β} {g : NvmeConfig → γ}

theorem StaysLocal.records {α : Type} {s : State} {m : Flow α} (h : StaysLocal s m) : StaysRecords f g s m :=
  h.mono (fun _ _ k => k.records) fun _ k => k.records

theorem StaysRecords.after {α : Type} {s t : State} {m : Flow α} (h : Records f g s t) (k : StaysRecords f g t m) :
    StaysRecords f g s m :=
  k.mono (fun _ _ k => h.trans k) fun _ k => h.trans k

/-- A local part, after a part that kept the records. -/
theorem StaysRecords.next {α α' : Type} {s t : State} {m : Flow α} {k : α → State → Flow α'} (h : Records f g s t)
    (hm : StaysLocal t m) (hk : ∀ a u, Records f g s u → StaysRecords f g s (k a u)) :
    StaysRecords f g s (m.bind k) :=
  Ends.bind (StaysRecords.after h hm.records) hk

theorem records_setHba {h : Nat} {r : Hba} {s : State} (hr : (alGet s.hba h).map f = some (f r)) :
    Records f g s (setHba h r s) := ⟨.set hr, .refl _ _, .refl _ _⟩

theorem records_forget (p : Chan → Bool) (s : State) : Records f g s (forget p s) :=
  ⟨.refl _ _, .refl _ _, .refl _ _⟩

theorem records_ahciInitStep (s : State) : StaysRecords Hba.base id s (ahciInitStep s) := by
  unfold ahciInitStep
  refine (ends_needOk (Q := fun c t => s.hbaCtx = .ok c ∧ t = s) fun c hc => ⟨hc, rfl⟩).bind ?_
  rintro c t ⟨hc, rfl⟩
  have hb : (alGet t.hba c.port.hba).map Hba.base = some c.hba.base := by
    obtain ⟨d, -, -, -, -, hh⟩ := hbaCtx_eq_ok.1 hc
    rw [hh]; rfl
  refine StaysRecords.next (.refl t) (local_need _ _ t) fun _ u h => ?_
  have h := h.trans (records_setHba (r := { c.hba with ready := false }) ((h.hba _).trans hb))
  refine StaysRecords.next h (local_mmioWrite _ _ _ _) fun _ u h => ?_
  refine StaysRecords.next h (local_mmioWrite _ _ _ u) fun _ u h => ?_
  refine StaysRecords.next h (local_waitFor _ _ _ _ u) fun _ u h => ?_
  refine StaysRecords.next h (local_mmioWrite _ _ _ u) fun _ u h => ?_
  refine StaysRecords.next h (local_mmioRead _ _ u) fun cap u h => ?_
  refine StaysRecords.next h (local_mmioRead _ _ u) fun pi u h => ?_
  have h := h.trans (records_setHba (r := c.hba.enabled cap pi) ((h.hba _).trans hb))
  exact ends_go (h.trans ((records_forget _ _).trans ((local_setVal _ _).records.trans (local_settle _).records)))

theorem records_portInitStep (c : AhciCtx) (s : State) : StaysRecords f g s (portInitStep c s) := by
  unfold portInitStep
  refine StaysRecords.next (.refl s) (local_ahciPremises c s) fun _ t h => ?_
  refine StaysRecords.next h (local_need _ _ t) fun _ t h => ?_
  refine StaysRecords.next h (local_portStop c t) fun _ t h => ?_
  refine StaysRecords.next h (local_memStore _ _ t) fun _ t h => ?_
  refine StaysRecords.next h (local_memStore _ _ t) fun _ t h => ?_
  refine StaysRecords.next h (local_zeroTables _ _ t) fun _ t h => ?_
  refine StaysRecords.next h (local_writeBases c t) fun _ t h => ?_
  refine StaysRecords.next (h.trans (local_publish none t).records) (local_portStart c _) fun _ t h => ?_
  exact ends_go (h.trans ((records_forget _ t).trans (local_settle _).records))

theorem records_zeroRings (qs : List (Nat × Qp)) (s : State)
    (hq : ∀ e ∈ qs, (alGet s.qp e.1).map qpConfig = some (qpConfig e.2)) : StaysRecords f g s (zeroRings qs s) := by
  induction qs generalizing s with
  | nil => exact (local_go () (.refl s)).records
  | cons e qs ih =>
    rw [zeroRings]
    refine StaysRecords.next (.refl s) (local_memStore _ _ s) fun _ t h => ?_
    refine StaysRecords.next h (local_memStore _ _ t) fun _ u h => ?_
    have hu : ∀ e' ∈ e :: qs, (alGet u.qp e'.1).map qpConfig = some (qpConfig e'.2) := fun e' he =>
      (h.qp e'.1).trans (hq e' he)
    have hr := local_qp u (r := e.2.fresh u.cfg.phaseInit) (hu e (List.mem_cons_self ..))
    exact StaysRecords.after (h.trans hr.records)
      (ih _ fun e' he => (hr.qp e'.1).trans (hu e' (List.mem_cons_of_mem _ he)))

end BringUp

theorem nvmeInitPremises_go {c : NvmeCtx} {s t : State} (h : nvmeInitPremises c s = .go () t) : t = s := by
  simp only [nvmeInitPremises, bind_eq_go, need_eq_go] at h
  obtain ⟨-, _, ⟨-, rfl⟩, -, _, ⟨-, rfl⟩, -, rfl⟩ := h
  rfl

/-- What holds from the start of NVME.INIT to the zero-fill: the queue-pair records are untouched. -/
structure SameRings (s t : State) : Prop where
  records : Records id Prod.fst s t
  qp : t.qp = s.qp

theorem SameRings.touch {s t u : State} (h : SameRings s t) (g : Touch t u) : SameRings s u :=
  ⟨h.records.trans g.local.records, g.qp.trans h.qp⟩

/-- A part that only touches keeps it, and where the part ends the operation the records are kept. -/
theorem SameRings.part {α : Type} {s t : State} {m : Flow α} (h : SameRings s t)
    (g : Ends m (fun _ u => Touch t u) (Local t)) : Ends m (fun _ u => SameRings s u) (Records id Prod.fst s) :=
  g.mono (fun _ _ g => h.touch g) fun _ g => h.records.trans g.records

theorem records_nvmeInitStep (s : State) (hs : rising s.qp = true) : StaysRecords id Prod.fst s (nvmeInitStep s) := by
  unfold nvmeInitStep
  refine (ends_needOk (Q := fun c t => s.nvmeCtxOf true = .ok c ∧ t = s) fun c hc => ⟨hc, rfl⟩).bind ?_
  rintro c t ⟨hc, rfl⟩
  have hn : (alGet t.nvme c.qp.ctrl).map (fun n => (nvmeConfig n).1) = some (nvmeConfig c.nv).1 := by
    rw [(nvmeCtxOf_eq_ok.1 hc).2.2.2.2]; rfl
  have hp : Ends (nvmeInitPremises c t) (fun _ u => Touch t u) (Local t) := by
    cases h : nvmeInitPremises c t with
    | go a u => exact ends_go (nvmeInitPremises_go h ▸ Touch.refl t)
    | stop u => simp [nvmeInitPremises, bind_eq_stop] at h
    | refuse r => exact ends_refuse
  have h : SameRings t t := ⟨.refl t, rfl⟩
  refine Ends.bind (h.part hp) fun _ u h => ?_
  refine Ends.bind (h.part ((ends_mmioRead _ _ u).mono (fun _ _ g => g.1) fun _ g => g)) fun cap v h => ?_
  have hset : Records id Prod.fst v (setStride c cap v) := ⟨.refl _ _, .set ((h.records.nvme _).trans hn), .refl _ _⟩
  have h : SameRings t (setStride c cap v) := ⟨h.records.trans hset, h.qp⟩
  refine Ends.bind (h.part ((ends_mmioRead _ _ _).mono (fun _ _ g => g.1) fun _ g => g)) fun cc u h => ?_
  refine Ends.bind (h.part ((ends_mmioWrite _ _ _ u).mono (fun _ _ g => g.1) fun _ g => g)) fun _ u h => ?_
  refine Ends.bind (h.part ((ends_waitFor _ _ _ _ u).mono (fun _ _ g => g)
    fun _ ⟨_, hv, ht⟩ => ht ▸ hv.local.trans (local_raised ..))) fun _ u h => ?_
  have hz : ∀ e ∈ u.qpsOf c.qp.ctrl, (alGet u.qp e.1).map qpConfig = some (qpConfig e.2) := fun e he => by
    rw [alGet_of_mem (h.qp ▸ hs) (List.mem_filter.1 he).1]; rfl
  refine Ends.bind (StaysRecords.after h.records (records_zeroRings _ u hz)) fun _ u h => ?_
  refine StaysRecords.next h (local_mmioWrite _ _ _ u) fun _ u h => ?_
  refine StaysRecords.next h (local_mmioWrite _ _ _ u) fun _ u h => ?_
  refine StaysRecords.next h (local_mmioWrite _ _ _ u) fun _ u h => ?_
  refine StaysRecords.next (h.trans (local_publish none u).records) (local_mmioWrite _ _ _ _) fun _ u h => ?_
  refine StaysRecords.next h (local_waitFor _ _ _ _ u) fun _ u h => ?_
  exact ends_go (h.trans ((records_forget _ u).trans (local_settle _).records))

end Sys2Proof.Laws
end

