-- ==== Sys2Proof/Laws/Keep.lean ====
section
/-!
SUPPORT. The invariant of Safety.lean, part by part: the canonical forms, and the control state between two
accesses; which parts of an operation keep it.
-/

namespace Sys2Proof.Laws

open Sys2Proof.Machine

/-- The part of `Inv` that speaks of stored data. -/
structure Canon (s : State) : Prop where
  memory : Memory.wf s.mem = true
  regs : rising s.regs = true
  hba : rising s.hba = true
  port : rising s.port = true
  nvme : rising s.nvme = true
  qp : rising s.qp = true
  dev : rising s.dev = true
  rings : ∀ e ∈ s.qp, e.2.ok
  response : s.rsp.res.toNat ≤ 9

theorem Canon.touch {s t : State} (h : Canon s) (g : Touch s t) : Canon t where
  memory := g.wf h.memory
  regs := g.regs h.regs
  hba := g.hba ▸ h.hba
  port := g.port ▸ h.port
  nvme := g.nvme ▸ h.nvme
  qp := g.qp ▸ h.qp
  dev := g.dev ▸ h.dev
  rings := g.qp ▸ h.rings
  response := g.rsp ▸ h.response

/-- Outside the window between the issue write and the end of the poll. -/
structure Calm (s : State) : Prop where
  canon : Canon s
  inflight : s.inflight = none
  notIssued : s.pc ≠ .issued
  claimed : s.pc = .slotAllocated ∨ s.pc = .descriptorsBuilt → s.claim.isSome = true

/-- Inside it. -/
structure Busy (s : State) : Prop where
  canon : Canon s
  inflight : s.inflight.isSome = true
  issued : s.pc = .issued
  claimed : s.claim.isSome = true

/-- What a part of an operation may go on in. -/
def Mid (s : State) : Prop := Calm s ∨ Busy s

theorem Calm.touch {s t : State} (h : Calm s) (g : Touch s t) : Calm t where
  canon := h.canon.touch g
  inflight := g.inflight ▸ h.inflight
  notIssued := g.pc ▸ h.notIssued
  claimed := by rw [g.pc, g.claim]; exact h.claimed

theorem Busy.touch {s t : State} (h : Busy s) (g : Touch s t) : Busy t where
  canon := h.canon.touch g
  inflight := g.inflight ▸ h.inflight
  issued := g.pc ▸ h.issued
  claimed := g.claim ▸ h.claimed

/-- The invariant, by the two kinds of moment. -/
theorem inv_iff {s : State} : Inv s ↔ Mid s ∧ s.x.res.toNat ≤ 9 := by
  constructor
  · intro h
    refine ⟨?_, h.result⟩
    have hc : Canon s := ⟨h.memory, h.regs, h.hba, h.port, h.nvme, h.qp, h.dev, h.rings, h.response⟩
    by_cases hp : s.pc = .issued
    · exact .inr ⟨hc, h.flight.2 hp, hp, h.claimed (.inr (.inr hp))⟩
    · refine .inl ⟨hc, ?_, hp, fun hq => h.claimed (hq.elim .inl (fun x => .inr (.inl x)))⟩
      cases hi : s.inflight with
      | none => rfl
      | some t => exact absurd (h.flight.1 (by simp [hi])) hp
  · rintro ⟨h, hr⟩
    rcases h with h | h
    · refine ⟨h.canon.memory, h.canon.regs, h.canon.hba, h.canon.port, h.canon.nvme, h.canon.qp, h.canon.dev,
        h.canon.rings, ?_, ?_, hr, h.canon.response⟩
      · simp [h.inflight, h.notIssued]
      · rintro (hp | hp | hp)
        · exact h.claimed (.inl hp)
        · exact h.claimed (.inr hp)
        · exact absurd hp h.notIssued
    · refine ⟨h.canon.memory, h.canon.regs, h.canon.hba, h.canon.port, h.canon.nvme, h.canon.qp, h.canon.dev,
        h.canon.rings, ?_, fun _ => h.claimed, hr, h.canon.response⟩
      simp [h.inflight, h.issued]

/-! ## The end of an operation -/

/-- What an operation may end in with an error. -/
def Ended (s : State) : Prop := Mid s ∧ s.x.res.toNat ≤ 9

theorem Err.code_le (e : Err) : e.code.toNat ≤ 9 := by cases e <;> decide

theorem mid_x {s : State} (h : Mid s) (x : Regs) : Mid { s with x := x } := by
  rcases h with h | h
  · exact .inl ⟨⟨h.canon.memory, h.canon.regs, h.canon.hba, h.canon.port, h.canon.nvme, h.canon.qp, h.canon.dev,
      h.canon.rings, h.canon.response⟩, h.inflight, h.notIssued, h.claimed⟩
  · exact .inr ⟨⟨h.canon.memory, h.canon.regs, h.canon.hba, h.canon.port, h.canon.nvme, h.canon.qp, h.canon.dev,
      h.canon.rings, h.canon.response⟩, h.inflight, h.issued, h.claimed⟩

theorem mid_respond {s : State} (v : Bool) (h : Mid s) (hr : s.x.res.toNat ≤ 9) : Mid (respond v s) := by
  rcases h with h | h
  · exact .inl ⟨⟨h.canon.memory, h.canon.regs, h.canon.hba, h.canon.port, h.canon.nvme, h.canon.qp, h.canon.dev,
      h.canon.rings, hr⟩, h.inflight, h.notIssued, h.claimed⟩
  · exact .inr ⟨⟨h.canon.memory, h.canon.regs, h.canon.hba, h.canon.port, h.canon.nvme, h.canon.qp, h.canon.dev,
      h.canon.rings, hr⟩, h.inflight, h.issued, h.claimed⟩

theorem inv_succeed {s : State} (v : Bool) (h : Mid s) : Inv (succeed v s) :=
  inv_iff.2 ⟨mid_respond v (mid_x h _) (Nat.zero_le 9), Nat.zero_le 9⟩

theorem inv_respond {s : State} (v : Bool) (h : Ended s) : Inv (respond v s) :=
  inv_iff.2 ⟨mid_respond v h.1 h.2, h.2⟩

/-- An operation whose body keeps the invariant part by part keeps it. -/
theorem inv_operation {i : Instr} {pcOk v : Bool} {m : Flow Unit} {t : State} (h : Ends m (fun _ => Mid) Ended)
    (ht : operation i pcOk v m = .next t) : Inv t := by
  rcases h.next ht with ⟨s, hs, rfl⟩ | ⟨s, hs, rfl⟩
  · exact inv_succeed v hs
  · exact inv_respond false hs

/-! ## Errors -/

theorem calm_x {s : State} (h : Calm s) (x : Regs) : Calm { s with x := x } :=
  ⟨⟨h.canon.memory, h.canon.regs, h.canon.hba, h.canon.port, h.canon.nvme, h.canon.qp, h.canon.dev,
      h.canon.rings, h.canon.response⟩, h.inflight, h.notIssued, h.claimed⟩

theorem ended_raised {s : State} (e : Err) (p : Pc) (hc : Canon s) (hi : s.inflight = none)
    (hp : p = .idle ∨ p = .timedOut ∨ p = .deviceError) : Ended (raised e p s) := by
  refine ⟨.inl ⟨⟨hc.memory, hc.regs, hc.hba, hc.port, hc.nvme, hc.qp, hc.dev, hc.rings, hc.response⟩, hi, ?_, ?_⟩,
    Err.code_le e⟩
  · rcases hp with rfl | rfl | rfl <;> simp [raised]
  · rcases hp with rfl | rfl | rfl <;> simp [raised]

theorem Calm.raisedIdle {s : State} (h : Calm s) (e : Err) : Ended (raised e .idle s) :=
  ended_raised e .idle h.canon h.inflight (.inl rfl)

/-- An error that leaves `pc` where it is. -/
theorem Mid.raisedHere {s : State} (h : Mid s) (e : Err) : Ended { s with x := { s.x with res := e.code } } :=
  ⟨mid_x h _, Err.code_le e⟩

theorem canon_x {s : State} (h : Canon s) (x : Regs) : Canon { s with x := x } :=
  ⟨h.memory, h.regs, h.hba, h.port, h.nvme, h.qp, h.dev, h.rings, h.response⟩

/-- DeviceError after the in-flight entry has been taken back. -/
theorem ends_raiseDevice {s : State} {Q : Unit → State → Prop} (raw : Word) (hc : Canon s) (hi : s.inflight = none) :
    Ends (raiseDevice raw s) Q Ended :=
  ends_stop (ended_raised (s := { s with x := { s.x with raw := raw } }) .deviceError .deviceError (canon_x hc _) hi
    (.inr (.inr rfl)))

theorem canon_leak {s : State} (h : Canon s) : Canon (leak s) :=
  ⟨h.memory, h.regs, h.hba, h.port, h.nvme, h.qp, h.dev, h.rings, h.response⟩

theorem canon_land {s : State} (h : Canon s) : Canon (land s) :=
  ⟨h.memory, h.regs, h.hba, h.port, h.nvme, h.qp, h.dev, h.rings, h.response⟩

theorem ends_timeOut {s : State} {Q : Unit → State → Prop} (h : Canon s) : Ends (timeOut s) Q Ended :=
  ends_stop (ended_raised .commandTimeout .timedOut (canon_leak h) rfl (.inr (.inl rfl)))

/-! ## Ring positions -/

theorem ringNext_lt {q : Nat} (i : Half) (h : 2 ≤ q) (h2 : q ≤ 65536) : (ringNext q i).toNat < q := by
  unfold ringNext
  have h1 : (i.toNat + 1) % q < q := Nat.mod_lt _ (by omega)
  rw [BitVec.toNat_ofNat]
  exact Nat.lt_of_le_of_lt (Nat.mod_le _ _) h1

theorem ringNext_toNat {q : Nat} (i : Half) (h : 2 ≤ q) (h2 : q ≤ 65536) :
    (ringNext q i).toNat = (i.toNat + 1) % q := by
  unfold ringNext
  have h1 : (i.toNat + 1) % q < q := Nat.mod_lt _ (by omega)
  rw [BitVec.toNat_ofNat, Nat.mod_eq_of_lt (by omega)]

theorem canon_setQp {s : State} {q : Nat} {r : Qp} (h : Canon s) (hr : r.ok) :
    Canon { s with qp := alSet s.qp q r } := by
  refine ⟨h.memory, h.regs, h.hba, h.port, h.nvme, rising_alSet _ _ h.qp, h.dev, ?_, h.response⟩
  intro e he
  rcases mem_alSet he with rfl | he
  · exact hr
  · exact h.rings e he

/-- The queue pair an NVMe request works on has its positions in its rings. -/
theorem ring_ok {s : State} {adm : Bool} {c : NvmeCtx} (h : Canon s) (hc : s.nvmeCtxOf adm = .ok c) : c.qp.ok :=
  h.rings (c.q, c.qp) (alGet_mem (nvmeCtxOf_eq_ok.1 hc).2.2.2.1)

theorem canon_setTail {s : State} {c : NvmeCtx} (h : Canon s) (hq : c.qp.ok) :
    Canon (setTail c (ringNext c.qp.qSize c.qp.sqTail) s) := by
  obtain ⟨h1, h2, h3, h4, h5⟩ := hq
  exact canon_setQp h ⟨h1, h2, ringNext_lt _ h1 h2, h4, h5⟩

theorem consumed_ok {q : Qp} {sqHead : Half} (hq : q.ok) (hs : sqHead.toNat < q.qSize) : (consumed q sqHead).ok := by
  obtain ⟨h1, h2, h3, h4, h5⟩ := hq
  exact ⟨h1, h2, h3, hs, ringNext_lt _ h1 h2⟩

theorem fresh_ok {q : Qp} (p : BitVec 1) (hq : q.ok) : (q.fresh p).ok := by
  obtain ⟨h1, h2, -, -, -⟩ := hq
  exact ⟨h1, h2, Nat.lt_of_lt_of_le (by simp [Qp.fresh]) h1, Nat.lt_of_lt_of_le (by simp [Qp.fresh]) h1,
    Nat.lt_of_lt_of_le (by simp [Qp.fresh]) h1⟩

/-! ## The parts of a command -/

theorem keeps_ahciAllocStep {s : State} (h : Calm s) :
    Ends (ahciAllocStep s) (fun _ t => Calm t ∧ t.pc = .slotAllocated) Ended := by
  refine (ends_ahciAllocStep s).mono ?_ ?_
  · rintro - t ⟨c, u, _, _, k, -, hu, -, -, rfl⟩
    have g := h.touch hu
    exact ⟨⟨⟨g.canon.memory, g.canon.regs, g.canon.hba, g.canon.port, g.canon.nvme, g.canon.qp, g.canon.dev,
      g.canon.rings, g.canon.response⟩, g.inflight, by simp, fun _ => rfl⟩, rfl⟩
  · rintro t ⟨c, u, _, _, -, hu, -, -, rfl⟩
    exact (h.touch hu).raisedIdle _

theorem keeps_nvmeAllocStep {s : State} (h : Calm s) :
    Ends (nvmeAllocStep s) (fun _ t => Calm t ∧ t.pc = .slotAllocated) Ended := by
  refine (ends_nvmeAllocStep s).mono ?_ ?_
  · rintro - t ⟨c, -, -, rfl⟩
    exact ⟨⟨⟨h.canon.memory, h.canon.regs, h.canon.hba, h.canon.port, rising_alSet _ _ h.canon.nvme, h.canon.qp,
      h.canon.dev, h.canon.rings, h.canon.response⟩, h.inflight, by simp, fun _ => rfl⟩, rfl⟩
  · rintro t ⟨c, -, -, rfl⟩
    exact h.raisedIdle _

theorem Calm.prdtBuilt {s : State} (h : Calm s) : Calm s.prdtBuilt :=
  ⟨⟨h.canon.memory, h.canon.regs, h.canon.hba, h.canon.port, h.canon.nvme, h.canon.qp, h.canon.dev,
      h.canon.rings, h.canon.response⟩, h.inflight, h.notIssued, h.claimed⟩

theorem keeps_prdtStep {s : State} (h : Calm s) : Ends (prdtStep s) (fun _ => Calm) Ended := by
  refine (ends_prdtStep s).mono ?_ ?_
  · rintro - t ⟨c, u, -, -, hu, -, rfl⟩
    exact (h.touch hu).prdtBuilt
  · rintro t ⟨c, -, -, rfl⟩
    exact h.raisedIdle _

theorem keeps_fisStep {s : State} {E : State → Prop} (h : Calm s) : Ends (fisStep s) (fun _ => Calm) E :=
  (ends_fisStep s).mono (fun _ _ ⟨_, _, hu, _⟩ => h.touch hu) fun _ h => h

theorem keeps_hdrStep {s : State} {E : State → Prop} (h : Calm s) :
    Ends (hdrStep s) (fun _ t => Calm t ∧ t.claim.isSome = true) E :=
  (ends_hdrStep s).mono (fun _ _ ⟨_, hc, hu, _⟩ => ⟨h.touch hu, by rw [hu.claim, hc.claim]; rfl⟩) fun _ h => h

/-- The structures stand: `pc` is DescriptorsBuilt. -/
theorem Calm.built {s : State} (h : Calm s) (hc : s.claim.isSome = true) : Calm { s with pc := .descriptorsBuilt } :=
  ⟨⟨h.canon.memory, h.canon.regs, h.canon.hba, h.canon.port, h.canon.nvme, h.canon.qp, h.canon.dev,
      h.canon.rings, h.canon.response⟩, h.inflight, by simp, fun _ => hc⟩

theorem keeps_ahciBuildStep {s : State} (h : Calm s) : Ends (ahciBuildStep s) (fun _ => Calm) Ended := by
  unfold ahciBuildStep
  refine (keeps_prdtStep h).bind fun _ t h => ?_
  refine (keeps_fisStep h).bind fun _ t h => ?_
  refine (keeps_hdrStep h).bind fun _ t h => ?_
  exact ends_go (calm_x (h.1.built h.2) _)

theorem Calm.prpBuilt {s : State} (h : Calm s) (n : Nat) : Calm (s.prpBuilt n) :=
  ⟨⟨h.canon.memory, h.canon.regs, h.canon.hba, h.canon.port, h.canon.nvme, h.canon.qp, h.canon.dev,
      h.canon.rings, h.canon.response⟩, h.inflight, h.notIssued, h.claimed⟩

theorem keeps_prpStep {s : State} (h : Calm s) : Ends (prpStep s) (fun _ => Calm) Ended := by
  refine (ends_prpStep s).mono ?_ ?_
  · rintro - t ⟨c, -, -, rfl⟩; exact h.prpBuilt _
  · rintro t ⟨c, -, -, rfl⟩; exact h.raisedIdle _

theorem keeps_sqeStep {s : State} {E : State → Prop} (h : Calm s) :
    Ends (sqeStep s) (fun _ t => Calm t ∧ t.claim.isSome = true) E :=
  (ends_sqeStep s).mono (fun _ _ ⟨_, hc, hu, _⟩ => ⟨h.touch hu, by rw [hu.claim, hc.claim]; rfl⟩) fun _ h => h

theorem keeps_nvmeBuildStep {s : State} (h : Calm s) : Ends (nvmeBuildStep s) (fun _ => Calm) Ended := by
  unfold nvmeBuildStep
  refine (keeps_prpStep h).bind fun _ t h => ?_
  refine (keeps_sqeStep h).bind fun _ t h => ?_
  exact ends_go (h.1.built h.2)

/-- The issue write has been made. -/
theorem Canon.issued {s : State} (h : Canon s) (hc : s.claim.isSome = true) (t : Tag) : Busy (markIssued t s) :=
  ⟨⟨h.memory, h.regs, h.hba, h.port, h.nvme, h.qp, h.dev, h.rings, h.response⟩, rfl, rfl, hc⟩

theorem keeps_ahciIssueStep {s : State} (h : Calm s) : Ends (ahciIssueStep s) (fun _ => Busy) Ended := by
  unfold ahciIssueStep
  refine (ends_ahciSlot s).bind ?_
  rintro c t ⟨rfl, hc⟩
  refine ((ends_waitFor _ _ _ _ t).mono (fun _ _ g => g) ?_).bind ?_
  · rintro _ ⟨u, hu, rfl⟩; exact (h.touch hu).raisedIdle _
  · rintro - u hu
    refine (ends_mmioWrite _ _ _ _).bind ?_
    rintro - v ⟨hv, -⟩
    have g := hu.trans ((touch_publish _ _).trans hv)
    exact ends_go ((h.touch g).canon.issued (by rw [g.claim, hc.claim]; rfl) _)

theorem Busy.complete {s : State} (h : Canon s) : Calm (complete s) :=
  ⟨⟨h.memory, h.regs, h.hba, h.port, h.nvme, h.qp, h.dev, h.rings, h.response⟩, rfl, by simp, by simp⟩

theorem keeps_ahciPollRounds (c : AhciCtx) (n : Nat) {s : State} (h : Canon s) :
    Ends (ahciPollRounds c n s) (fun _ => Calm) Ended := by
  induction n generalizing s with
  | zero => exact ends_timeOut h
  | succ n ih =>
    rw [ahciPollRounds]
    refine (ends_mmioRead _ _ s).bind fun ci t ht => ?_
    refine (ends_mmioRead _ _ t).bind fun e u hu => ?_
    have g := h.touch (ht.1.trans hu.1)
    refine ends_ite (fun _ => ends_raiseDevice _ (canon_land g) rfl) fun _ => ?_
    refine ends_ite (fun _ => ends_go (Busy.complete g)) fun _ => ?_
    exact ih (g.touch (touch_bumpIter u))

theorem keeps_ahciPollStep {s : State} (h : Canon s) : Ends (ahciPollStep s) (fun _ => Calm) Ended := by
  unfold ahciPollStep
  refine (ends_ahciSlot s).bind ?_
  rintro c t ⟨rfl, -⟩
  exact keeps_ahciPollRounds _ _ (h.touch (touch_clearIter t))

theorem keeps_ahciCmdStep {s : State} (h : Calm s) : Ends (ahciCmdStep s) (fun _ => Calm) Ended := by
  unfold ahciCmdStep
  refine (keeps_ahciAllocStep h).bind fun _ t h => ?_
  refine (keeps_ahciBuildStep h.1).bind fun _ t h => ?_
  refine (keeps_ahciIssueStep h).bind fun _ t h => ?_
  exact keeps_ahciPollStep h.canon

theorem Calm.settle {s : State} (h : Calm s) : Calm (settle s) :=
  ⟨⟨h.canon.memory, h.canon.regs, h.canon.hba, h.canon.port, h.canon.nvme, h.canon.qp, h.canon.dev,
      h.canon.rings, h.canon.response⟩, h.inflight, by simp, by simp⟩

theorem keeps_rdychkStep {s : State} (h : Calm s) : Ends (rdychkStep s) (fun _ => Calm) Ended := by
  unfold rdychkStep
  refine (ends_needOk (Q := fun c t => t = s) fun c hc => rfl).bind ?_
  rintro c t rfl
  refine (ends_mmioRead _ _ t).bind fun v u hu => ?_
  exact ends_ite (fun _ => ends_go (h.touch hu.1).settle) fun _ => ends_stop ((h.touch hu.1).raisedIdle _)

theorem keeps_nvmeIssueStep {s : State} (h : Calm s) : Ends (nvmeIssueStep s) (fun _ => Busy) Ended := by
  unfold nvmeIssueStep
  refine (ends_nvmeSlot s).bind ?_
  rintro c t ⟨rfl, hc⟩
  refine (ends_need (Q := fun _ u => u = t) fun _ => rfl).bind ?_
  rintro - u rfl
  refine (ends_mmioWrite _ _ _ _).bind ?_
  rintro - v ⟨hv, -⟩
  have g : Canon (setTail c (ringNext c.qp.qSize c.qp.sqTail) (publish u.built u)) :=
    canon_setTail (h.canon.touch (touch_publish _ _)) (ring_ok h.canon hc.ctx)
  refine ends_go ((g.touch hv).issued ?_ _)
  rw [hv.claim]; simp [hc.claim]

theorem keeps_consume {s : State} {c : NvmeCtx} (d2 : Word) (st : Half) (h : Canon s) (hq : c.qp.ok) :
    Ends (consume c d2 st s) (fun _ => Calm) Ended := by
  unfold consume
  refine (ends_need (Q := fun _ u => (cqeSqHead d2).toNat < c.qp.qSize ∧ u = s) fun hk =>
    ⟨by simpa using hk, rfl⟩).bind ?_
  rintro - u ⟨hk, rfl⟩
  refine (ends_mmioWrite _ _ _ _).bind ?_
  rintro - v ⟨hv, -⟩
  have g := (canon_setQp (q := c.q) h (consumed_ok hq hk)).touch hv
  exact ends_ite (fun _ => ends_raiseDevice _ (canon_land g) rfl) fun _ => ends_go (Busy.complete g)

/-- A round without a matching entry only reads, or ends with DeviceError. -/
theorem keeps_noMatch {s : State} (c : NvmeCtx) (h : Canon s) :
    Ends (noMatch c s) (fun _ t => Touch s t) Ended := by
  unfold noMatch
  refine ends_ite (fun _ => ?_) fun _ => ends_go (touch_bumpIter s)
  refine (ends_mmioRead _ _ s).bind fun v t ht => ?_
  refine ends_ite (fun _ => ends_raiseDevice _ (canon_leak (h.touch ht.1)) rfl) fun _ => ?_
  exact ends_go (ht.1.trans (touch_bumpIter t))

theorem ends_loadDword (a : Nat) (s : State) {E : State → Prop} :
    Ends (loadDword a s) (fun _ t => Touch s t) E :=
  (ends_memLoad a 4 s).bind fun _ _ ht => ends_go ht.1

theorem keeps_nvmePollRounds (c : NvmeCtx) (n : Nat) {s : State} (h : Canon s) (hq : c.qp.ok) :
    Ends (nvmePollRounds c n s) (fun _ => Calm) Ended := by
  induction n generalizing s with
  | zero => exact ends_timeOut h
  | succ n ih =>
    rw [nvmePollRounds]
    refine (ends_loadDword _ s).bind fun d3 t ht => ?_
    refine ends_ite (fun _ => ?_) fun _ => ?_
    · refine (ends_loadDword _ t).bind fun d2 u hu => ?_
      exact keeps_consume _ _ ((h.touch ht).touch hu) hq
    · refine (keeps_noMatch c (h.touch ht)).bind fun _ u hu => ?_
      exact ih ((h.touch ht).touch hu)

theorem keeps_nvmePollStep {s : State} (h : Canon s) : Ends (nvmePollStep s) (fun _ => Calm) Ended := by
  unfold nvmePollStep
  refine (ends_nvmeSlot s).bind ?_
  rintro c t ⟨rfl, hc⟩
  exact keeps_nvmePollRounds _ _ (h.touch (touch_clearIter t)) (ring_ok h hc.ctx)

theorem keeps_nvmeCmdStep {s : State} (h : Calm s) : Ends (nvmeCmdStep s) (fun _ => Calm) Ended := by
  unfold nvmeCmdStep
  refine (keeps_rdychkStep h).bind fun _ t h => ?_
  refine (keeps_nvmeAllocStep h).bind fun _ t h => ?_
  refine (keeps_nvmeBuildStep h.1).bind fun _ t h => ?_
  refine (keeps_nvmeIssueStep h).bind fun _ t h => ?_
  exact keeps_nvmePollStep h.canon

/-! ## The decoder -/

/-- A part that leaves `pc`, the records and the commands alone but for `VAL`. -/
theorem ends_loadWords (p w n : Nat) (s : State) {E : State → Prop} :
    Ends (loadWords p w n s) (fun _ t => Touch s t) E :=
  (ends_loadBytes _ _ s).bind fun _ _ ht => ends_go ht.1

theorem ends_loadBit (p : Nat) (b : BitPos) (s : State) {E : State → Prop} :
    Ends (loadBit p b s) (fun _ t => Touch s t) E :=
  (ends_loadWords _ _ _ s).bind fun _ _ ht => ends_go ht

theorem Mid.touch {s t : State} (h : Mid s) (g : Touch s t) : Mid t :=
  h.elim (fun h => .inl (h.touch g)) fun h => .inr (h.touch g)

theorem Mid.setVal {s : State} (h : Mid s) (v : Quad) : Mid (s.setVal v) := mid_x h _

theorem keeps_capStep (p : Nat) {s : State} {E : State → Prop} (h : Mid s) :
    Ends (capStep p s) (fun _ => Mid) E := by
  unfold capStep
  refine (ends_loadBit _ _ s).bind fun b t ht => ?_
  refine ends_ite (fun _ => ?_) fun _ => ?_
  · exact (ends_loadWords _ _ _ t).bind fun v u hu => ends_go (((h.touch ht).touch hu).setVal _)
  · exact (ends_loadWords _ _ _ t).bind fun v u hu => ends_go (((h.touch ht).touch hu).setVal _)

theorem keeps_secszStep (p : Nat) {s : State} {E : State → Prop} (h : Mid s) :
    Ends (secszStep p s) (fun _ => Mid) E := by
  unfold secszStep
  refine (ends_loadWords _ _ _ s).bind fun b t ht => ?_
  refine ends_ite (fun _ => ?_) fun _ => ?_
  · exact (ends_loadWords _ _ _ t).bind fun v u hu => ends_go (((h.touch ht).touch hu).setVal _)
  · exact ends_go ((h.touch ht).setVal _)

theorem ends_payloadPremises (p : Nat) (s : State) {E : State → Prop} :
    Ends (payloadPremises p s)
      (fun _ t => t = s ∧ p + 512 ≤ s.cfg.memEnd ∧ s.received.all (disjoint (p, 512)) = true) E := by
  unfold payloadPremises
  refine (ends_need (Q := fun _ u => p + 512 ≤ s.cfg.memEnd ∧ u = s) fun h => ⟨by simpa using h, rfl⟩).bind ?_
  rintro - u ⟨hp, rfl⟩
  exact ends_need fun h => ⟨rfl, hp, h⟩

theorem ends_idPremises (p out n : Nat) (s : State) {E : State → Prop} :
    Ends (idPremises p out n s)
      (fun _ t => t = s ∧ p + 512 ≤ s.cfg.memEnd ∧ s.received.all (disjoint (p, 512)) = true ∧
        s.outputApart out n = true ∧ out + n ≤ s.cfg.memEnd)
      E := by
  unfold idPremises
  refine (ends_payloadPremises p s).bind ?_
  rintro - t ⟨rfl, hp, hd⟩
  refine (ends_need (Q := fun _ u => t.outputApart out n = true ∧ u = t) fun h => ⟨h, rfl⟩).bind ?_
  rintro - u ⟨ho, rfl⟩
  exact ends_need fun h => ⟨rfl, hp, hd, ho, by simpa using h⟩

theorem keeps_idStrStep (p len w0 n out : Nat) {s : State} (h : Mid s) :
    Ends (idStrStep p len w0 n out s) (fun _ => Mid) Ended := by
  unfold idStrStep
  refine ends_ite (fun _ => ?_) fun _ => ends_stop (h.raisedHere _)
  refine (ends_idPremises _ _ _ s).bind ?_
  rintro - t ⟨rfl, -⟩
  refine (ends_loadField _ _ _ t).bind fun str u hu => ?_
  refine (ends_storeBytes _ _ u).bind fun _ v hv => ?_
  exact ends_go (((h.touch hu.1).touch hv).setVal _)

theorem keeps_idCapStep (p len : Nat) {s : State} (h : Mid s) :
    Ends (idCapStep p len s) (fun _ => Mid) Ended := by
  unfold idCapStep
  refine ends_ite (fun _ => ?_) fun _ => ends_stop (h.raisedHere _)
  refine (ends_payloadPremises p s).bind ?_
  rintro - t ⟨rfl, -⟩
  exact (keeps_capStep p h).bind fun _ u hu => ends_go hu

theorem keeps_idSecszStep (p len : Nat) {s : State} (h : Mid s) :
    Ends (idSecszStep p len s) (fun _ => Mid) Ended := by
  unfold idSecszStep
  refine ends_ite (fun _ => ?_) fun _ => ends_stop (h.raisedHere _)
  refine (ends_payloadPremises p s).bind ?_
  rintro - t ⟨rfl, -⟩
  exact (keeps_secszStep p h).bind fun _ u hu => ends_go hu

theorem keeps_loadIdentity (p : Nat) {s : State} {E : State → Prop} (h : Mid s) :
    Ends (loadIdentity p s) (fun _ => Mid) E := by
  unfold loadIdentity
  refine (ends_loadField _ _ _ s).bind fun _ t ht => ?_
  refine (ends_loadField _ _ _ t).bind fun _ u hu => ?_
  refine (ends_loadField _ _ _ u).bind fun _ v hv => ?_
  have h := ((h.touch ht.1).touch hu.1).touch hv.1
  refine (keeps_capStep p h).bind fun _ t h => ?_
  refine (keeps_secszStep p h).bind fun _ t h => ?_
  refine (ends_loadBit _ _ t).bind fun _ u hu => ?_
  have h := h.touch hu
  refine (ends_loadBit _ _ u).bind fun _ t hu => ?_
  have h := h.touch hu
  refine (ends_loadBit _ _ t).bind fun _ u hu => ?_
  have h := h.touch hu
  exact (ends_loadBit _ _ u).bind fun _ t hu => ends_go (h.touch hu)

theorem keeps_idDecodeStep (p len out : Nat) {s : State} (h : Mid s) :
    Ends (idDecodeStep p len out s) (fun _ => Mid) Ended := by
  unfold idDecodeStep
  refine ends_ite (fun _ => ?_) fun _ => ends_stop (h.raisedHere _)
  refine (ends_idPremises _ _ _ s).bind ?_
  rintro - t ⟨rfl, -⟩
  refine (ends_need (Q := fun _ u => u = t) fun _ => rfl).bind ?_
  rintro - t rfl
  refine (keeps_loadIdentity p h).bind fun d u hu => ?_
  exact (ends_storeBytes _ _ u).mono (fun _ v hv => hu.touch hv) fun _ h => h

/-! ## Bring-up -/

theorem Calm.setHba {s : State} (h : Calm s) (i : Nat) (r : Hba) : Calm (setHba i r s) :=
  ⟨⟨h.canon.memory, h.canon.regs, rising_alSet _ _ h.canon.hba, h.canon.port, h.canon.nvme, h.canon.qp, h.canon.dev,
      h.canon.rings, h.canon.response⟩, h.inflight, h.notIssued, h.claimed⟩

theorem Calm.setStride {s : State} (h : Calm s) (c : NvmeCtx) (v : Quad) : Calm (setStride c v s) :=
  ⟨⟨h.canon.memory, h.canon.regs, h.canon.hba, h.canon.port, rising_alSet _ _ h.canon.nvme, h.canon.qp, h.canon.dev,
      h.canon.rings, h.canon.response⟩, h.inflight, h.notIssued, h.claimed⟩

theorem Calm.forget {s : State} (h : Calm s) (p : Chan → Bool) : Calm (forget p s) :=
  ⟨⟨h.canon.memory, h.canon.regs, h.canon.hba, h.canon.port, h.canon.nvme, h.canon.qp, h.canon.dev,
      h.canon.rings, h.canon.response⟩, by simp [h.inflight], h.notIssued, h.claimed⟩

/-- A wait inside an operation that has no command in flight. -/
theorem keeps_waitFor (a : Nat) (done : Quad → Bool) (e : Err) (b : Word) {s : State} (h : Calm s) :
    Ends (waitFor a done e b s) (fun _ => Calm) Ended := by
  refine (ends_waitFor a done e b s).mono (fun _ _ g => h.touch g) ?_
  rintro _ ⟨u, hu, rfl⟩; exact (h.touch hu).raisedIdle _

theorem keeps_mmioWrite (w : Width) (a : Nat) (v : Quad) {s : State} {E : State → Prop} (h : Calm s) :
    Ends (mmioWrite w a v s) (fun _ => Calm) E :=
  (ends_mmioWrite _ _ _ s).mono (fun _ _ g => h.touch g.1) fun _ h => h

theorem keeps_mmioRead (w : Width) (a : Nat) {s : State} {E : State → Prop} (h : Calm s) :
    Ends (mmioRead w a s) (fun _ => Calm) E :=
  (ends_mmioRead _ _ s).mono (fun _ _ g => h.touch g.1) fun _ h => h

theorem keeps_memStore (a : Nat) (bs : List Byte) {s : State} {E : State → Prop} (h : Calm s) :
    Ends (memStore a bs s) (fun _ => Calm) E :=
  (ends_memStore _ _ s).mono (fun _ _ g => h.touch g.1) fun _ h => h

theorem keeps_ahciInitStep {s : State} (h : Calm s) : Ends (ahciInitStep s) (fun _ => Calm) Ended := by
  unfold ahciInitStep
  refine (ends_needOk (Q := fun c t => t = s) fun c hc => rfl).bind ?_
  rintro c t rfl
  refine (ends_need (Q := fun _ u => u = t) fun _ => rfl).bind ?_
  rintro - u rfl
  refine (keeps_mmioWrite _ _ _ (h.setHba _ _)).bind fun _ t h => ?_
  refine (keeps_mmioWrite _ _ _ h).bind fun _ t h => ?_
  refine (keeps_waitFor _ _ _ _ h).bind fun _ t h => ?_
  refine (keeps_mmioWrite _ _ _ h).bind fun _ t h => ?_
  refine (keeps_mmioRead _ _ h).bind fun cap t h => ?_
  refine (keeps_mmioRead _ _ h).bind fun pi t h => ?_
  exact ends_go (calm_x ((h.setHba _ _).forget _) _).settle

theorem keeps_portStop (c : AhciCtx) {s : State} (h : Calm s) : Ends (portStop c s) (fun _ => Calm) Ended := by
  unfold portStop
  refine (keeps_mmioRead _ _ h).bind fun v t h => ?_
  refine (keeps_mmioWrite _ _ _ h).bind fun _ t h => ?_
  refine (keeps_mmioWrite _ _ _ h).bind fun _ t h => ?_
  exact keeps_waitFor _ _ _ _ h

theorem keeps_portStart (c : AhciCtx) {s : State} {E : State → Prop} (h : Calm s) :
    Ends (portStart c s) (fun _ => Calm) E := by
  unfold portStart
  refine (keeps_mmioRead _ _ h).bind fun v t h => ?_
  refine (keeps_mmioWrite _ _ _ h).bind fun _ t h => ?_
  exact keeps_mmioWrite _ _ _ h

theorem keeps_zeroTables (n : Nat) (ts : List Quad) {s : State} {E : State → Prop} (h : Calm s) :
    Ends (zeroTables n ts s) (fun _ => Calm) E := by
  induction ts generalizing s with
  | nil => exact ends_go h
  | cons t ts ih =>
    rw [zeroTables]
    exact (keeps_memStore _ _ h).bind fun _ u h => ih h

theorem keeps_writeBases (c : AhciCtx) {s : State} {E : State → Prop} (h : Calm s) :
    Ends (writeBases c s) (fun _ => Calm) E := by
  unfold writeBases
  refine (keeps_mmioWrite _ _ _ h).bind fun _ t h => ?_
  refine (keeps_mmioWrite _ _ _ h).bind fun _ t h => ?_
  refine (keeps_mmioWrite _ _ _ h).bind fun _ t h => ?_
  exact keeps_mmioWrite _ _ _ h

theorem keeps_portInitStep (c : AhciCtx) {s : State} (h : Calm s) :
    Ends (portInitStep c s) (fun _ => Calm) Ended := by
  unfold portInitStep
  refine (ends_ahciPremises c s).bind ?_
  rintro - t ⟨rfl, -, -⟩
  refine (ends_need (Q := fun _ u => u = t) fun _ => rfl).bind ?_
  rintro - u rfl
  refine (keeps_portStop c h).bind fun _ t h => ?_
  refine (keeps_memStore _ _ h).bind fun _ t h => ?_
  refine (keeps_memStore _ _ h).bind fun _ t h => ?_
  refine (keeps_zeroTables _ _ h).bind fun _ t h => ?_
  refine (keeps_writeBases c h).bind fun _ t h => ?_
  refine (keeps_portStart c (h.touch (touch_publish none t))).bind fun _ t h => ?_
  exact ends_go (h.forget _).settle

theorem keeps_zeroRings (qs : List (Nat × Qp)) {s : State} {E : State → Prop} (h : Calm s) (hq : ∀ e ∈ qs, e.2.ok) :
    Ends (zeroRings qs s) (fun _ => Calm) E := by
  induction qs generalizing s with
  | nil => exact ends_go h
  | cons e qs ih =>
    rw [zeroRings]
    refine (keeps_memStore _ _ h).bind fun _ t h => ?_
    refine (keeps_memStore _ _ h).bind fun _ u h => ?_
    refine ih ?_ (fun e he => hq e (List.mem_cons_of_mem _ he))
    have hc := canon_setQp (q := e.1) h.canon (fresh_ok u.cfg.phaseInit (hq e (List.mem_cons_self ..)))
    exact ⟨hc, h.inflight, h.notIssued, h.claimed⟩

theorem keeps_nvmeInitStep {s : State} (h : Calm s) : Ends (nvmeInitStep s) (fun _ => Calm) Ended := by
  unfold nvmeInitStep
  refine (ends_needOk (Q := fun c t => t = s) fun c hc => rfl).bind ?_
  rintro c t rfl
  have hp : Ends (nvmeInitPremises c t) (fun _ u => u = t) Ended := by
    unfold nvmeInitPremises
    refine (ends_need (Q := fun _ u => u = t) fun _ => rfl).bind ?_
    rintro - u rfl
    refine (ends_need (Q := fun _ v => v = u) fun _ => rfl).bind ?_
    rintro - v rfl
    exact ends_need fun _ => rfl
  refine hp.bind ?_
  rintro - u rfl
  refine (keeps_mmioRead _ _ h).bind fun cap t h => ?_
  refine (keeps_mmioRead _ _ (h.setStride c cap)).bind fun cc t h => ?_
  refine (keeps_mmioWrite _ _ _ h).bind fun _ t h => ?_
  refine (keeps_waitFor _ _ _ _ h).bind fun _ t h => ?_
  have hq : ∀ e ∈ t.qpsOf c.qp.ctrl, e.2.ok := fun e he => h.canon.rings e (List.mem_of_mem_filter he)
  refine (keeps_zeroRings _ h hq).bind fun _ t h => ?_
  refine (keeps_mmioWrite _ _ _ h).bind fun _ t h => ?_
  refine (keeps_mmioWrite _ _ _ h).bind fun _ t h => ?_
  refine (keeps_mmioWrite _ _ _ h).bind fun _ t h => ?_
  refine (keeps_mmioWrite _ _ _ (h.touch (touch_publish none t))).bind fun _ t h => ?_
  refine (keeps_waitFor _ _ _ _ h).bind fun _ t h => ?_
  exact ends_go (h.forget _).settle

end Sys2Proof.Laws
end

