-- ==== Sys2Proof/Laws/Results.lean ====
section
/-!
SUPPORT. Where `pc` and `RAW` stand after each part of an operation, and which errors the part can end with.
-/

namespace Sys2Proof.Laws

open Sys2Proof.Machine

/-- `pc` is in `P`, and `RAW` is `w`. -/
structure At (P : Pc → Prop) (w : Word) (s : State) : Prop where
  pc : P s.pc
  raw : s.x.raw = w

/-- `RAW` is `w`, whatever `pc` is. -/
abbrev Any (w : Word) (s : State) : Prop := At (fun _ => True) w s

/-- One of the errors `L` has been reported, with `pc` where that error leaves it; only DeviceError writes `RAW`. -/
structure Erred (L : List Err) (w : Word) (t : State) : Prop where
  code : ∃ e ∈ L, t.x.res = e.code ∧ t.pc = e.leaves ∧ (e ≠ .deviceError → t.x.raw = w)

/-- The part goes on with `pc` in `P` and `RAW` as it was; it ends only with one of the errors `L`. -/
structure Control {α : Type} (m : Flow α) (P : Pc → Prop) (w : Word) (L : List Err) : Prop where
  ends : Ends m (fun _ t => At P w t) (Erred L w)

theorem reported_zero (p : Pc) : reported 0#8 p := by
  refine ⟨by decide, ?_, ?_, ?_⟩
  · rintro (h | h | h | h | h | h) <;> exact absurd h (by decide)
  · intro h; exact absurd h (by decide)
  · intro h; exact absurd h (by decide)

/-- What an error leaves is what its code reports. -/
theorem reported_leaves (e : Err) : reported e.code e.leaves := by
  cases e <;> refine ⟨by decide, ?_, ?_, ?_⟩ <;>
    (rintro (h | h | h | h | h | h) <;> first | rfl | exact absurd h (by decide))

theorem code_ne_zero (e : Err) : e.code ≠ 0#8 := by cases e <;> decide

/-- Different errors have different codes. -/
theorem code_inj {e f : Err} (h : e.code = f.code) : e = f := by
  cases e <;> cases f <;> first | rfl | exact absurd h (by decide)

variable {P : Pc → Prop} {w : Word} {L : List Err}

theorem At.any {s : State} (h : At P w s) : Any w s := ⟨trivial, h.raw⟩

theorem any (s : State) : Any s.x.raw s := ⟨trivial, rfl⟩

theorem Control.bind {α β : Type} {m : Flow α} {k : α → State → Flow β} {P' : Pc → Prop} (h : Control m P w L)
    (hk : ∀ a t, At P w t → Control (k a t) P' w L) : Control (m.bind k) P' w L :=
  ⟨h.ends.bind fun a t g => (hk a t g).ends⟩

theorem Control.more {α : Type} {m : Flow α} {L' : List Err} (h : Control m P w L) (hl : ∀ e ∈ L, e ∈ L') :
    Control m P w L' :=
  ⟨h.ends.mono (fun _ _ g => g) fun _ ⟨⟨e, he, g⟩⟩ => ⟨⟨e, hl e he, g⟩⟩⟩

theorem control_ite {α : Type} {c : Prop} [Decidable c] {m n : Flow α} (hm : Control m P w L)
    (hn : Control n P w L) : Control (if c then m else n) P w L := by
  split
  · exact hm
  · exact hn

theorem control_go {α : Type} {a : α} {s : State} (h : At P w s) : Control (.go a s) P w L := ⟨ends_go h⟩

/-- An error raised, with `pc` where it leaves it. -/
theorem control_raise {α : Type} (e : Err) (p : Pc) {s : State} (hp : p = e.leaves) (he : e ∈ L)
    (h : s.x.raw = w) : Control (raise e p s : Flow α) P w L :=
  ⟨ends_stop ⟨⟨e, he, rfl, hp, fun _ => h⟩⟩⟩

theorem control_timeOut {s : State} (he : Err.commandTimeout ∈ L) (h : s.x.raw = w) : Control (timeOut s) P w L :=
  control_raise _ _ rfl he h

theorem control_raiseDevice (raw : Word) (s : State) (he : Err.deviceError ∈ L) :
    Control (raiseDevice raw s : Flow Unit) P w L :=
  ⟨ends_stop ⟨⟨_, he, rfl, rfl, fun hn => absurd rfl hn⟩⟩⟩

theorem Touch.raw {s t : State} (h : Touch s t) : t.x.raw = s.x.raw := by
  have := congrArg Regs.raw h.x; exact this

theorem At.touch {s t : State} (h : At P w s) (g : Touch s t) : At P w t := ⟨g.pc ▸ h.pc, g.raw.trans h.raw⟩

theorem control_touch {α : Type} {m : Flow α} {s : State} {Q : α → State → Prop}
    (h : Ends m (fun a t => Touch s t ∧ Q a t) fun _ => False) (hp : At P w s) : Control m P w L :=
  ⟨h.mono (fun _ _ g => hp.touch g.1) fun _ g => g.elim⟩

theorem control_waitFor (a : Nat) (done : Quad → Bool) (e : Err) (b : Word) {s : State} (hl : e.leaves = .idle)
    (he : e ∈ L) (hp : At P w s) : Control (waitFor a done e b s) P w L :=
  ⟨(ends_waitFor a done e b s).mono (fun _ _ h => hp.touch h)
    fun _ ⟨_, hu, ht⟩ => ⟨⟨e, he, ht ▸ rfl, by rw [ht, hl]; rfl, fun _ => by rw [ht]; exact hu.raw.trans hp.raw⟩⟩⟩

theorem control_mmioRead (wd : Width) (a : Nat) {s : State} (hp : At P w s) : Control (mmioRead wd a s) P w L :=
  control_touch (ends_mmioRead wd a s) hp

theorem control_mmioWrite (wd : Width) (a : Nat) (v : Quad) {s : State} (hp : At P w s) :
    Control (mmioWrite wd a v s) P w L :=
  control_touch (ends_mmioWrite wd a v s) hp

theorem control_memStore (a : Nat) (bs : List Byte) {s : State} (hp : At P w s) : Control (memStore a bs s) P w L :=
  control_touch (ends_memStore a bs s) hp

theorem control_memLoad (a n : Nat) {s : State} (hp : At P w s) : Control (memLoad a n s) P w L :=
  control_touch (ends_memLoad a n s) hp

theorem control_loadBytes (a n : Nat) {s : State} (hp : At P w s) : Control (loadBytes a n s) P w L :=
  control_touch (ends_loadBytes a n s) hp

theorem control_loadField (p wd n : Nat) {s : State} (hp : At P w s) : Control (loadField p wd n s) P w L :=
  control_touch (ends_loadField p wd n s) hp

theorem control_storeBytes (a : Nat) (bs : List Byte) {s : State} (hp : At P w s) :
    Control (storeBytes a bs s) P w L :=
  control_touch ((ends_storeBytes a bs s).mono (fun _ _ h => ⟨h, trivial⟩) fun _ h => h) hp

theorem control_need (ok : Bool) (r : Refusal) {s : State} (hp : At P w s) : Control (need ok r s) P w L :=
  ⟨ends_need fun _ => hp⟩

theorem control_needOk {α : Type} (e : Except Refusal α) {s : State} (hp : At P w s) :
    Control (needOk e s) P w L :=
  ⟨ends_needOk fun _ _ => hp⟩

theorem control_ahciSlot {s : State} (hp : At P w s) : Control (ahciSlot s) P w L :=
  ⟨(ends_ahciSlot (E := fun _ => False) s).mono (fun _ _ h => h.1 ▸ hp) fun _ h => h.elim⟩

theorem control_nvmeSlot {s : State} (hp : At P w s) : Control (nvmeSlot s) P w L :=
  ⟨(ends_nvmeSlot (E := fun _ => False) s).mono (fun _ _ h => h.1 ▸ hp) fun _ h => h.elim⟩

/-! ## The parts of a command -/

theorem control_ahciAllocStep {s : State} (he : Err.noFreeSlot ∈ L) (h : Any w s) :
    Control (ahciAllocStep s) (· = .slotAllocated) w L := by
  refine ⟨(ends_ahciAllocStep s).mono ?_ ?_⟩
  · rintro - t ⟨c, u, _, _, k, -, hu, -, -, rfl⟩; exact ⟨rfl, hu.raw.trans h.raw⟩
  · rintro t ⟨c, u, _, _, -, hu, -, -, rfl⟩
    exact ⟨⟨_, he, rfl, rfl, fun _ => hu.raw.trans h.raw⟩⟩

theorem control_nvmeAllocStep {s : State} (he : Err.noFreeSlot ∈ L) (h : Any w s) :
    Control (nvmeAllocStep s) (· = .slotAllocated) w L := by
  refine ⟨(ends_nvmeAllocStep s).mono ?_ ?_⟩
  · rintro - t ⟨c, -, -, rfl⟩; exact ⟨rfl, h.raw⟩
  · rintro t ⟨c, -, -, rfl⟩; exact ⟨⟨_, he, rfl, rfl, fun _ => h.raw⟩⟩

theorem control_prdtStep {s : State} (he : Err.tooManyDescriptors ∈ L) (hp : At P w s) :
    Control (prdtStep s) P w L := by
  refine ⟨(ends_prdtStep s).mono ?_ ?_⟩
  · rintro - t ⟨c, u, -, -, hu, -, rfl⟩; exact ⟨hu.pc ▸ hp.pc, hu.raw.trans hp.raw⟩
  · rintro t ⟨c, -, -, rfl⟩; exact ⟨⟨_, he, rfl, rfl, fun _ => hp.raw⟩⟩

theorem control_fisStep {s : State} (hp : At P w s) : Control (fisStep s) P w L :=
  ⟨(ends_fisStep (E := fun _ => False) s).mono (fun _ _ ⟨_, _, hu, _⟩ => hp.touch hu) fun _ h => h.elim⟩

theorem control_hdrStep {s : State} (hp : At P w s) : Control (hdrStep s) P w L :=
  ⟨(ends_hdrStep (E := fun _ => False) s).mono (fun _ _ ⟨_, _, hu, _⟩ => hp.touch hu) fun _ h => h.elim⟩

theorem control_ahciBuildStep {s : State} (he : Err.tooManyDescriptors ∈ L) (h : Any w s) :
    Control (ahciBuildStep s) (· = .descriptorsBuilt) w L := by
  unfold ahciBuildStep
  refine (control_prdtStep he h).bind fun _ t h => ?_
  refine (control_fisStep h).bind fun _ u h => ?_
  exact (control_hdrStep h).bind fun _ v h => control_go ⟨rfl, h.raw⟩

theorem control_prpStep {s : State} (he : Err.transferTooLarge ∈ L) (hp : At P w s) :
    Control (prpStep s) P w L := by
  refine ⟨(ends_prpStep s).mono ?_ ?_⟩
  · rintro - t ⟨c, -, -, rfl⟩; exact ⟨hp.pc, hp.raw⟩
  · rintro t ⟨c, -, -, rfl⟩; exact ⟨⟨_, he, rfl, rfl, fun _ => hp.raw⟩⟩

theorem control_sqeStep {s : State} (hp : At P w s) : Control (sqeStep s) P w L :=
  ⟨(ends_sqeStep (E := fun _ => False) s).mono (fun _ _ ⟨_, _, hu, _⟩ => hp.touch hu) fun _ h => h.elim⟩

theorem control_nvmeBuildStep {s : State} (he : Err.transferTooLarge ∈ L) (h : Any w s) :
    Control (nvmeBuildStep s) (· = .descriptorsBuilt) w L := by
  unfold nvmeBuildStep
  refine (control_prpStep he h).bind fun _ t h => ?_
  exact (control_sqeStep h).bind fun _ v h => control_go ⟨rfl, h.raw⟩

theorem control_ahciIssueStep {s : State} (he : Err.portHung ∈ L) (h : Any w s) :
    Control (ahciIssueStep s) (· = .issued) w L := by
  unfold ahciIssueStep
  refine (control_ahciSlot h).bind fun c t h => ?_
  refine (control_waitFor _ _ .portHung _ rfl he h).bind fun _ u h => ?_
  exact (control_mmioWrite _ _ _ (h.touch (touch_publish _ _))).bind fun _ v h => control_go ⟨rfl, h.raw⟩

theorem control_ahciPollRounds (c : AhciCtx) (n : Nat) {s : State} (he : Err.commandTimeout ∈ L)
    (hd : Err.deviceError ∈ L) (h : Any w s) : Control (ahciPollRounds c n s) (· = .completed) w L := by
  induction n generalizing s with
  | zero => exact control_timeOut he h.raw
  | succ n ih =>
    rw [ahciPollRounds]
    refine (control_mmioRead _ _ h).bind fun ci t h => ?_
    refine (control_mmioRead _ _ h).bind fun e u h => ?_
    refine control_ite (control_raiseDevice _ _ hd) ?_
    exact control_ite (control_go ⟨rfl, h.raw⟩) (ih (h.touch (touch_bumpIter u)))

theorem control_ahciPollStep {s : State} (he : Err.commandTimeout ∈ L) (hd : Err.deviceError ∈ L) (h : Any w s) :
    Control (ahciPollStep s) (· = .completed) w L := by
  unfold ahciPollStep
  exact (control_ahciSlot h).bind fun c t h => control_ahciPollRounds _ _ he hd (h.touch (touch_clearIter t))

/-- The errors of AHCI.CMD (43_ahci_engine.md R221). -/
theorem control_ahciCmdStep {s : State} (h : Any w s)
    (hl : ∀ e ∈ [Err.noFreeSlot, .tooManyDescriptors, .portHung, .deviceError, .commandTimeout], e ∈ L) :
    Control (ahciCmdStep s) (· = .completed) w L := by
  unfold ahciCmdStep
  refine (control_ahciAllocStep (hl _ (by decide)) h).bind fun _ t h => ?_
  refine (control_ahciBuildStep (hl _ (by decide)) h.any).bind fun _ u h => ?_
  refine (control_ahciIssueStep (hl _ (by decide)) h.any).bind fun _ v h => ?_
  exact control_ahciPollStep (hl _ (by decide)) (hl _ (by decide)) h.any

theorem control_rdychkStep {s : State} (he : Err.controllerNotReady ∈ L) (h : Any w s) :
    Control (rdychkStep s) (· = .idle) w L := by
  unfold rdychkStep
  refine (control_needOk _ h).bind fun c t h => ?_
  refine (control_mmioRead _ _ h).bind fun v u h => ?_
  exact control_ite (control_go ⟨rfl, h.raw⟩) (control_raise _ _ rfl he h.raw)

theorem control_nvmeIssueStep {s : State} (h : Any w s) : Control (nvmeIssueStep s) (· = .issued) w L := by
  unfold nvmeIssueStep
  refine (control_nvmeSlot h).bind fun c t h => ?_
  refine (control_need _ _ h).bind fun _ u h => ?_
  exact (control_mmioWrite (P := fun _ => True) _ _ _ (by exact ⟨trivial, h.raw⟩)).bind fun _ v h => control_go ⟨rfl, h.raw⟩

theorem control_consume (c : NvmeCtx) (d2 : Word) (st : Half) {s : State} (hd : Err.deviceError ∈ L)
    (h : Any w s) : Control (consume c d2 st s) (· = .completed) w L := by
  unfold consume
  refine (control_need _ _ h).bind fun _ t h => ?_
  refine (control_mmioWrite (P := fun _ => True) _ _ _ (by exact ⟨trivial, h.raw⟩)).bind fun _ v h => ?_
  exact control_ite (control_raiseDevice _ _ hd) (control_go ⟨rfl, by exact h.raw⟩)

theorem control_noMatch (c : NvmeCtx) {s : State} (hd : Err.deviceError ∈ L) (hp : At P w s) :
    Control (noMatch c s) P w L := by
  unfold noMatch
  refine control_ite ?_ (control_go (hp.touch (touch_bumpIter s)))
  refine (control_mmioRead _ _ hp).bind fun v t ht => ?_
  exact control_ite (control_raiseDevice _ _ hd) (control_go (ht.touch (touch_bumpIter t)))

theorem control_loadDword (a : Nat) {s : State} (hp : At P w s) : Control (loadDword a s) P w L :=
  (control_memLoad a 4 hp).bind fun _ _ h => control_go h

theorem control_nvmePollRounds (c : NvmeCtx) (n : Nat) {s : State} (he : Err.commandTimeout ∈ L)
    (hd : Err.deviceError ∈ L) (h : Any w s) : Control (nvmePollRounds c n s) (· = .completed) w L := by
  induction n generalizing s with
  | zero => exact control_timeOut he h.raw
  | succ n ih =>
    rw [nvmePollRounds]
    refine (control_loadDword _ h).bind fun d3 t h => ?_
    refine control_ite ?_ ?_
    · exact (control_loadDword _ h).bind fun d2 u h => control_consume c _ _ hd h
    · exact (control_noMatch c hd h).bind fun _ u h => ih h

theorem control_nvmePollStep {s : State} (he : Err.commandTimeout ∈ L) (hd : Err.deviceError ∈ L) (h : Any w s) :
    Control (nvmePollStep s) (· = .completed) w L := by
  unfold nvmePollStep
  exact (control_nvmeSlot h).bind fun c t h => control_nvmePollRounds _ _ he hd (h.touch (touch_clearIter t))

/-- The errors of NVME.CMD (44_nvme_engine.md R248). -/
theorem control_nvmeCmdStep {s : State} (h : Any w s)
    (hl : ∀ e ∈ [Err.controllerNotReady, .noFreeSlot, .transferTooLarge, .deviceError, .commandTimeout], e ∈ L) :
    Control (nvmeCmdStep s) (· = .completed) w L := by
  unfold nvmeCmdStep
  refine (control_rdychkStep (hl _ (by decide)) h).bind fun _ t h => ?_
  refine (control_nvmeAllocStep (hl _ (by decide)) h.any).bind fun _ u h => ?_
  refine (control_nvmeBuildStep (hl _ (by decide)) h.any).bind fun _ v h => ?_
  refine (control_nvmeIssueStep h.any).bind fun _ x h => ?_
  exact control_nvmePollStep (hl _ (by decide)) (hl _ (by decide)) h.any

/-! ## The decoder, on a payload that is neither null nor short -/

theorem control_loadWords (p wd n : Nat) {s : State} (hp : At P w s) : Control (loadWords p wd n s) P w L :=
  (control_loadBytes _ _ hp).bind fun _ _ h => control_go h

theorem control_loadBit (p : Nat) (b : BitPos) {s : State} (hp : At P w s) : Control (loadBit p b s) P w L :=
  (control_loadWords _ _ _ hp).bind fun _ _ h => control_go h

theorem control_capStep (p : Nat) {s : State} (hp : At P w s) : Control (capStep p s) P w L := by
  unfold capStep
  refine (control_loadBit _ _ hp).bind fun b t h => ?_
  exact control_ite ((control_loadWords _ _ _ h).bind fun _ u h => control_go ⟨h.pc, h.raw⟩)
    ((control_loadWords _ _ _ h).bind fun _ u h => control_go ⟨h.pc, h.raw⟩)

theorem control_secszStep (p : Nat) {s : State} (hp : At P w s) : Control (secszStep p s) P w L := by
  unfold secszStep
  refine (control_loadWords _ _ _ hp).bind fun b t h => ?_
  exact control_ite ((control_loadWords _ _ _ h).bind fun _ u h => control_go ⟨h.pc, h.raw⟩)
    (control_go ⟨h.pc, h.raw⟩)

theorem control_payloadPremises (p : Nat) {s : State} (hp : At P w s) : Control (payloadPremises p s) P w L :=
  (control_need _ _ hp).bind fun _ _ h => control_need _ _ h

theorem control_idPremises (p out n : Nat) {s : State} (hp : At P w s) : Control (idPremises p out n s) P w L :=
  (control_payloadPremises p hp).bind fun _ _ h => (control_need _ _ h).bind fun _ _ h => control_need _ _ h

theorem control_loadIdentity (p : Nat) {s : State} (hp : At P w s) : Control (loadIdentity p s) P w L := by
  unfold loadIdentity
  refine (control_loadField _ _ _ hp).bind fun _ t h => ?_
  refine (control_loadField _ _ _ h).bind fun _ t h => ?_
  refine (control_loadField _ _ _ h).bind fun _ t h => ?_
  refine (control_capStep p h).bind fun _ t h => ?_
  refine (control_secszStep p h).bind fun _ t h => ?_
  refine (control_loadBit _ _ h).bind fun _ t h => ?_
  refine (control_loadBit _ _ h).bind fun _ t h => ?_
  refine (control_loadBit _ _ h).bind fun _ t h => ?_
  exact (control_loadBit _ _ h).bind fun _ t h => control_go h

/-! ## Bring-up -/

theorem control_sigClassStep {s : State} (hp : At P w s) : Control (sigClassStep s) P w L := by
  unfold sigClassStep
  refine (control_needOk _ hp).bind fun c t h => ?_
  refine (control_mmioRead _ _ h).bind fun v u h => ?_
  refine control_ite ?_ (control_go ⟨h.pc, h.raw⟩)
  exact (control_mmioRead _ _ h).bind fun g x h => control_go ⟨h.pc, h.raw⟩

theorem control_ahciInitStep {s : State} (he : Err.controllerNotReady ∈ L) (h : Any w s) :
    Control (ahciInitStep s) (· = .idle) w L := by
  unfold ahciInitStep
  refine (control_needOk _ h).bind fun c t h => ?_
  refine (control_need _ _ h).bind fun _ t h => ?_
  refine (control_mmioWrite (P := fun _ => True) _ _ _ (by exact ⟨trivial, h.raw⟩)).bind fun _ t h => ?_
  refine (control_mmioWrite _ _ _ h).bind fun _ t h => ?_
  refine (control_waitFor _ _ .controllerNotReady _ rfl he h).bind fun _ t h => ?_
  refine (control_mmioWrite _ _ _ h).bind fun _ t h => ?_
  refine (control_mmioRead _ _ h).bind fun _ t h => ?_
  exact (control_mmioRead _ _ h).bind fun _ t h => control_go ⟨rfl, h.raw⟩

theorem control_portStop (c : AhciCtx) {s : State} (he : Err.portHung ∈ L) (h : At P w s) :
    Control (portStop c s) P w L := by
  unfold portStop
  refine (control_mmioRead _ _ h).bind fun _ t h => ?_
  refine (control_mmioWrite _ _ _ h).bind fun _ t h => ?_
  refine (control_mmioWrite _ _ _ h).bind fun _ t h => ?_
  exact control_waitFor _ _ .portHung _ rfl he h

theorem control_portStart (c : AhciCtx) {s : State} (h : At P w s) : Control (portStart c s) P w L := by
  unfold portStart
  refine (control_mmioRead _ _ h).bind fun _ t h => ?_
  refine (control_mmioWrite _ _ _ h).bind fun _ t h => ?_
  exact control_mmioWrite _ _ _ h

theorem control_zeroTables (n : Nat) (ts : List Quad) {s : State} (h : At P w s) :
    Control (zeroTables n ts s) P w L := by
  induction ts generalizing s with
  | nil => exact control_go h
  | cons t ts ih =>
    rw [zeroTables]
    exact (control_memStore _ _ h).bind fun _ u h => ih h

theorem control_writeBases (c : AhciCtx) {s : State} (h : At P w s) : Control (writeBases c s) P w L := by
  unfold writeBases
  refine (control_mmioWrite _ _ _ h).bind fun _ t h => ?_
  refine (control_mmioWrite _ _ _ h).bind fun _ t h => ?_
  refine (control_mmioWrite _ _ _ h).bind fun _ t h => ?_
  exact control_mmioWrite _ _ _ h

theorem control_premises (c : AhciCtx) {s : State} (h : At P w s) : Control (c.premises s) P w L :=
  (control_need _ _ h).bind fun _ _ h => control_need _ _ h

theorem control_portInitStep (c : AhciCtx) {s : State} (he : Err.portHung ∈ L) (h : Any w s) :
    Control (portInitStep c s) (· = .idle) w L := by
  unfold portInitStep
  refine (control_premises c h).bind fun _ t h => ?_
  refine (control_need _ _ h).bind fun _ t h => ?_
  refine (control_portStop c he h).bind fun _ t h => ?_
  refine (control_memStore _ _ h).bind fun _ t h => ?_
  refine (control_memStore _ _ h).bind fun _ t h => ?_
  refine (control_zeroTables _ _ h).bind fun _ t h => ?_
  refine (control_writeBases c h).bind fun _ t h => ?_
  exact (control_portStart c (h.touch (touch_publish _ _))).bind fun _ t h => control_go ⟨rfl, h.raw⟩

theorem control_zeroRings (qs : List (Nat × Qp)) {s : State} (h : At P w s) : Control (zeroRings qs s) P w L := by
  induction qs generalizing s with
  | nil => exact control_go h
  | cons e qs ih =>
    rw [zeroRings]
    refine (control_memStore _ _ h).bind fun _ t h => ?_
    exact (control_memStore _ _ h).bind fun _ t h => ih ⟨h.pc, h.raw⟩

theorem control_nvmeInitPremises (c : NvmeCtx) {s : State} (h : At P w s) :
    Control (nvmeInitPremises c s) P w L :=
  (control_need _ _ h).bind fun _ _ h => (control_need _ _ h).bind fun _ _ h => control_need _ _ h

theorem control_nvmeInitStep {s : State} (he : Err.controllerNotReady ∈ L) (h : Any w s) :
    Control (nvmeInitStep s) (· = .idle) w L := by
  unfold nvmeInitStep
  refine (control_needOk _ h).bind fun c t h => ?_
  refine (control_nvmeInitPremises c h).bind fun _ t h => ?_
  refine (control_mmioRead _ _ h).bind fun cap t h => ?_
  refine (control_mmioRead (P := fun _ => True) _ _ (by exact ⟨trivial, h.raw⟩)).bind fun cc t h => ?_
  refine (control_mmioWrite _ _ _ h).bind fun _ t h => ?_
  refine (control_waitFor _ _ .controllerNotReady _ rfl he h).bind fun _ t h => ?_
  refine (control_zeroRings _ h).bind fun _ t h => ?_
  refine (control_mmioWrite _ _ _ h).bind fun _ t h => ?_
  refine (control_mmioWrite _ _ _ h).bind fun _ t h => ?_
  refine (control_mmioWrite _ _ _ h).bind fun _ t h => ?_
  refine (control_mmioWrite _ _ _ (h.touch (touch_publish _ _))).bind fun _ t h => ?_
  refine (control_waitFor _ _ .controllerNotReady _ rfl he h).bind fun _ t h => ?_
  exact control_go ⟨rfl, h.raw⟩

end Sys2Proof.Laws
end

