-- ==== Sys2Proof/Tests/Slice0.lean ====
section
/-!
SUPPORT. Tests: words written out from 30_encoding.md and 95_test_vectors.md, an ill-formed term for each static
check, one or two single steps for each instruction, and for each statement a state that meets its hypotheses. The
expected results are those of 95_test_vectors.md (V and P numbers) or hand calculation from the rule named.
-/

namespace Sys2Proof.Tests

open Sys2Proof Sys2Proof.Machine

set_option maxRecDepth 100000

/-! ## Words -/

/-- A record given as dwords, first dword at the lowest address. -/
def dwords (l : List Nat) : List Byte := l.flatMap (leBytes 4)

/-- The eight dwords `DW0 DW1 DW2 DW3 DW4 DW5 0 0` of a request. -/
def req (d0 d1 d2 d3 d4 d5 : Nat) : List Byte := dwords [d0, d1, d2, d3, d4, d5, 0, 0]

/-- V1, V2, V3, V4, V5. -/
theorem test_decode_register_io :
    decode (req 0x00000001 0x138 0 0 0xFEBF0000 0) = .ok (.rd32 { arg := 0x138#32, buf := 0xFEBF0000#64 }) ∧
    decode (req 0x00000002 0 0 0 0xFEB00000 0) = .ok (.rd64 { buf := 0xFEB00000#64 }) ∧
    decode (req 0x00000003 0x138 1 0xFFFFFFFF 0xFEBF0000 0)
      = .ok (.wr32 { arg := 0x138#32, lba := 0xFFFFFFFF00000001#64, buf := 0xFEBF0000#64 }) ∧
    decode (req 0x00000004 0x28 0x300000 0 0xFEB00000 0)
      = .ok (.wr64 { arg := 0x28#32, lba := 0x300000#64, buf := 0xFEB00000#64 }) ∧
    decode (req 0x00000005 0 0 0 0 0) = .ok (.publish {}) := by decide

/-- V10, V16, V19. -/
theorem test_decode_allocators :
    decode (req 0x00000010 0 0 0 0 0) = .ok (.ahciAlloc {}) ∧
    decode (req 0x00000111 0 0 0 0 0) = .ok (.nvmeAlloc { dev := 1#8 }) ∧
    decode (req 0x00000111 0x800 0 0 0 0) = .ok (.nvmeAlloc { dev := 1#8, arg := 0x800#32 }) := by decide

/-- V23, V32, and the others from R112. -/
theorem test_decode_builders :
    decode (req 0x00280020 0 0 0 0x200000 0) = .ok (.prdtBuild { cnt := 40#16, buf := 0x200000#64 }) ∧
    decode (req 0x01020021 0x25 0x56789ABC 0x1234 0 0)
      = .ok (.fisBuild { cnt := 0x102#16, arg := 0x25#32, lba := 0x123456789ABC#64 }) ∧
    decode (req 0x00000022 0x100 0 0 0 0) = .ok (.hdrBuild { arg := 0x100#32 }) ∧
    decode (req 0x00010023 0x135 0x64 0 0x200000 0)
      = .ok (.ahciBuild { cnt := 1#16, arg := 0x135#32, lba := 0x64#64, buf := 0x200000#64 }) ∧
    decode (req 0x00080124 0 0 0 0x200000 0) = .ok (.prpBuild { dev := 1#8, cnt := 8#16, buf := 0x200000#64 }) ∧
    decode (req 0x00080125 2 0x64 1 0x200000 0)
      = .ok (.sqeBuild { dev := 1#8, cnt := 8#16, arg := 2#32, lba := 0x100000064#64, buf := 0x200000#64 }) ∧
    decode (req 0x10000126 0xC06 1 0 0x210000 0)
      = .ok (.nvmeBuild { dev := 1#8, cnt := 4096#16, arg := 0xC06#32, lba := 1#64, buf := 0x210000#64 }) := by decide

/-- V40, V43, V49. -/
theorem test_decode_ahci_engine :
    decode (req 0x00000030 0 0 0 0 0) = .ok (.ahciIssue {}) ∧
    decode (req 0x00000031 0 0 0 0 0) = .ok (.ahciPoll {}) ∧
    decode (req 0x00010032 0x25 0x64 0 0x200000 0)
      = .ok (.ahciCmd { cnt := 1#16, arg := 0x25#32, lba := 100#64, buf := 0x200000#64 }) := by decide

/-- V52, V50, V53; NVME.CMD from R112. -/
theorem test_decode_nvme_engine :
    decode (req 0x00000140 0 0 0 0 0) = .ok (.nvmeRdychk { dev := 1#8 }) ∧
    decode (req 0x00000141 0 0 0 0 0) = .ok (.nvmeIssue { dev := 1#8 }) ∧
    decode (req 0x00000142 0 0 0 0 0) = .ok (.nvmePoll { dev := 1#8 }) ∧
    decode (req 0x00080143 0x102 0x64 0 0x200000 2)
      = .ok (.nvmeCmd { dev := 1#8, cnt := 8#16, arg := 0x102#32, lba := 100#64, buf := 0x200200000#64 }) := by decide

/-- V57, P1, P5. -/
theorem test_decode_blocks :
    decode (req 0x00010050 0 0x32000 0 0x200000 0)
      = .ok (.readBlocks { cnt := 1#16, lba := 204800#64, buf := 0x200000#64 }) ∧
    decode (req 0x00010051 0 0x64 0 0x200000 0)
      = .ok (.writeBlocks { cnt := 1#16, lba := 100#64, buf := 0x200000#64 }) ∧
    decode (req 0x00000052 0 0x220000 0 0x210000 0)
      = .ok (.identify { lba := 0x220000#64, buf := 0x210000#64 }) := by decide

/-- V60, V65; ID.SECSZ and ID.DECODE from R112. -/
theorem test_decode_decoder :
    decode (req 0x02000060 0x141B 0x220000 0 0x210000 0)
      = .ok (.idStr { cnt := 512#16, arg := 0x141B#32, lba := 0x220000#64, buf := 0x210000#64 }) ∧
    decode (req 0x02000061 0 0 0 0x210000 0) = .ok (.idCap { cnt := 512#16, buf := 0x210000#64 }) ∧
    decode (req 0x02000062 0 0 0 0x210000 0) = .ok (.idSecsz { cnt := 512#16, buf := 0x210000#64 }) ∧
    decode (req 0x02000063 0 0x220000 0 0x210000 0)
      = .ok (.idDecode { cnt := 512#16, lba := 0x220000#64, buf := 0x210000#64 }) := by decide

/-- V80, V83, P2; the others from R112. -/
theorem test_decode_system :
    decode (req 0x00000070 0x010601 0 0 0 0) = .ok (.probe { arg := 0x010601#32 }) ∧
    decode (req 0x00000071 0 0 0 0 0) = .ok (.sigClass {}) ∧
    decode (req 0x00000072 0 0 0 0 0) = .ok (.ahciInit {}) ∧
    decode (req 0x00000073 0 0 0 0 0) = .ok (.portInit {}) ∧
    decode (req 0x00000074 0 0 0 0 0) = .ok (.portReset {}) ∧
    decode (req 0x00000175 0 0 0 0 0) = .ok (.nvmeInit { dev := 1#8 }) := by decide

/-- The FIS of V30, V31, V33. -/
theorem test_decode_fis :
    decodeStruct .h2dFis [0x27#8, 0x80#8, 0x25#8, 0#8, 100#8, 0#8, 0#8, 0x40#8, 0#8, 0#8, 0#8, 0#8, 1#8, 0#8,
        0#8, 0#8, 0#8, 0#8, 0#8, 0#8]
      = some (.fisReadDmaExt { flags := 0x80#8, noLba := false, lba := 100#48, cnt := 1#16 }) ∧
    decodeStruct .h2dFis [0x27#8, 0x80#8, 0x35#8, 0#8, 100#8, 0#8, 0#8, 0x40#8, 0#8, 0#8, 0#8, 0#8, 1#8, 0#8,
        0#8, 0#8, 0#8, 0#8, 0#8, 0#8]
      = some (.fisWriteDmaExt { flags := 0x80#8, noLba := false, lba := 100#48, cnt := 1#16 }) ∧
    decodeStruct .h2dFis [0x27#8, 0x80#8, 0xEC#8, 0#8, 0#8, 0#8, 0#8, 0#8, 0#8, 0#8, 0#8, 0#8, 1#8, 0#8,
        0#8, 0#8, 0#8, 0#8, 0#8, 0#8]
      = some (.fisIdentifyDevice { flags := 0x80#8, noLba := true, lba := 0#48, cnt := 1#16 }) := by decide

/-- The submission entries of V39 (and its write twin, R128) and V39c. -/
theorem test_decode_sqe :
    decodeStruct .sqe (dwords [0x00070002, 1, 0, 0, 0, 0, 0x200000, 0, 0, 0, 7, 0x64, 1, 0, 0, 0])
      = some (.sqeRead
          { cid := 7#16, nsid := 1#32, prp1 := 0x200000#64, cdw10 := 7#32, cdw11 := 0x64#32, cdw12 := 1#32 }) ∧
    decodeStruct .sqe (dwords [0x00070001, 1, 0, 0, 0, 0, 0x200000, 0, 0, 0, 7, 0x64, 1, 0, 0, 0])
      = some (.sqeWrite
          { cid := 7#16, nsid := 1#32, prp1 := 0x200000#64, cdw10 := 7#32, cdw11 := 0x64#32, cdw12 := 1#32 }) ∧
    decodeStruct .sqe (dwords [6, 0, 0, 0, 0, 0, 0x210000, 0, 0, 0, 1, 0, 0, 0, 0, 0])
      = some (.sqeIdentify
          { cid := 0#16, nsid := 0#32, prp1 := 0x210000#64, cdw10 := 1#32, cdw11 := 0#32, cdw12 := 0#32 }) := by
  decide

/-- V36, V29's first entry, V54. -/
theorem test_decode_hdr_prdt_cqe :
    decodeStruct .cmdHdr (dwords [0x00020045, 0, 0x101300, 0, 0, 0, 0, 0])
      = some (.cmdHdr { write := 1#1, prdtl := 2#16, ctba := 0x101300#64 }) ∧
    decodeStruct .prdt (dwords [0xFFFFE000, 0, 0, 0x1FFF])
      = some (.prdtEntry { dba := 0xFFFFE000#64, dbc := 8191#22, last := 0#1 }) ∧
    decodeStruct .cqe (dwords [0, 0, 0x00010000, 0x00050005])
      = some (.cqe
          { cdw0 := 0#32, rsvd := 0#32, sqHead := 0#16, sqId := 1#16, cid := 5#16, phase := 1#1, status := 2#11,
            high := 0#4 }) := by decide

/-- R113: a short record, a reserved dword, an unlisted code; reserved structure bits (R115, R118, R120). -/
theorem test_decode_refuses :
    decode ((req 1 0 0 0 0 0).take 31) = .error .badLength ∧
    decode (req 1 0 0 0 0 0 ++ [0#8]) = .error .badLength ∧
    decode (dwords [1, 0, 0, 0, 0, 0, 1, 0]) = .error .reservedDword ∧
    decode (dwords [1, 0, 0, 0, 0, 0, 0, 0x80000000]) = .error .reservedDword ∧
    decode (req 0x06 0 0 0 0 0) = .error (.unknownOpc 0x06#8) ∧
    decode (req 0xFF 0 0 0 0 0) = .error (.unknownOpc 0xFF#8) ∧
    decodeStruct .cmdHdr (dwords [0x00020085, 0, 0x101300, 0, 0, 0, 0, 0]) = none ∧
    decodeStruct .prdt (dwords [0, 0, 0, 0x00400000]) = none ∧
    decodeStruct .h2dFis (zeros 20) = none := by decide

/-! ## Static checks: one ill-formed request for each -/

/-- R75: neither the offset nor the base may be misaligned. -/
theorem test_defect_misaligned : (Instr.rd32 { arg := 0x13A#32 }).defect? = some .misaligned ∧
    (Instr.wr64 { arg := 0x2C#32 }).defect? = some .misaligned ∧
    (Instr.rd32 { buf := 0xFEBF0004#64 }).defect? = some .misaligned := by decide
theorem test_defect_addressWrap :
    (Instr.wr32 { arg := 8#32, buf := 0xFFFFFFFFFFFFFFF8#64 }).defect? = some .addressWrap ∧
    (Instr.wr32 { arg := 4#32, buf := 0xFFFFFFFFFFFFFFF8#64 }).defect? = none ∧
    (Instr.rd64 { arg := 8#32, buf := 0xFFFFFFFFFFFFFFF8#64 }).defect? = some .addressWrap ∧
    (Instr.rd64 { arg := 8#32, buf := 0xFFFFFFFFFFFFFFF0#64 }).defect? = none := by decide
theorem test_defect_argReserved : (Instr.ahciAlloc { arg := 0x2000#32 }).defect? = some .argReserved ∧
    (Instr.ahciAlloc { arg := 0x1FFF#32 }).defect? = none ∧
    (Instr.probe { arg := 0x1000000#32 }).defect? = some .argReserved := by decide
theorem test_defect_countZero : (Instr.prdtBuild {}).defect? = some .countZero ∧
    (Instr.nvmeCmd { arg := 2#32 }).defect? = some .countZero ∧
    (Instr.nvmeCmd { arg := 0x402#32 }).defect? = none ∧
    (Instr.readBlocks {}).defect? = some .countZero := by decide
theorem test_defect_lbaTooWide :
    (Instr.ahciCmd { cnt := 1#16, lba := 0x1000000000000#64 }).defect? = some .lbaTooWide ∧
    (Instr.ahciCmd { cnt := 1#16, lba := 0xFFFFFFFFFFFF#64 }).defect? = none := by decide
theorem test_defect_strBounds :
    (Instr.idStr { cnt := 512#16, buf := 1#64, arg := 0x151B#32 }).defect? = some .strBounds ∧
    (Instr.idStr { cnt := 512#16, buf := 1#64, arg := 0x001B#32 }).defect? = some .strBounds ∧
    (Instr.idStr { cnt := 512#16, buf := 1#64, arg := 0x02FF#32 }).defect? = some .strBounds ∧
    (Instr.idStr { cnt := 512#16, buf := 1#64, arg := 0x01FF#32 }).defect? = none := by decide
theorem test_defect_refused :
    exec (.rd32 { arg := 0x13A#32 }) State.reset = .refused (.illFormed .misaligned) := rfl

/-! ## A small machine: one AHCI port with two slots, one NVMe controller with an admin and an I/O queue pair -/

def hba0 : Hba := { base := 0xFEBF0000#64, nSlots := 2#6, pi := 1#32, ready := true }
def port0 : Port := { clb := 0x100000#64, fb := 0x100400#64, ct := [0x101000#64, 0x101100#64] }
def nvme0 : Nvme := { base := 0xFEB00000#64, mdts := 131072, nextCid := 5#16 }
def admin0 : Qp := { sqBase := 0x302000#64, cqBase := 0x303000#64, qSize := 16, started := true }
/-- The I/O pair of P3: the last position of a ring of four. -/
def io1 : Qp :=
  { qid := 1#16, sqBase := 0x300000#64, cqBase := 0x301000#64, qSize := 4, sqTail := 3#16, sqHead := 3#16
    cqHead := 3#16, started := true }
def dev1 : Dev :=
  { kind := .nvme, ch := 1, admin := 0, nsid := 1#32, capacity := 2097152#64, blockBytes := 512 }

/-- The machine after bring-up: `CSTS` 1, `PxCMD` stopped, `PxTFD` 0x50, `PxSIG`, `PxSSTS`, `PxSACT` and `PxCI` 0. -/
def base : State :=
  { hba := [(0, hba0)]
    port := [(0, port0)]
    nvme := [(0, nvme0)]
    qp := [(0, admin0), (1, io1)]
    dev := [(0, { ch := 0, capacity := 204800#64 }), (1, dev1)]
    regs := [(0xFEB0001C, 1#64), (0xFEBF0118, 0#64), (0xFEBF011C, 0x50#64), (0xFEBF0124, 0x101#64),
      (0xFEBF0128, 0x113#64), (0xFEBF0134, 0#64), (0xFEBF0138, 0#64)]
    cfg := { busyBudget := 3#32, pollBudget := 3#32, resetBudget := 3#32 } }

/-- The contexts of the two devices. -/
def portCtx : AhciCtx := { p := 0, port := port0, hba := hba0 }
def ioCtx : NvmeCtx := { q := 1, qp := io1, nv := nvme0, dev := dev1 }
def adminCtx : NvmeCtx := { q := 0, qp := admin0, nv := nvme0, dev := dev1 }

/-- `s` with the register at `a` holding `v`. -/
def withReg (a v : Nat) (s : State) : State := { s with regs := alSet s.regs a (BitVec.ofNat 64 v) }
/-- A step of the devices that gives the register at `a` the value `v`; one that does nothing. -/
def sets (a v : Nat) : DevAct := { regs := [(a, some (BitVec.ofNat 64 v))] }
def idle : DevAct := {}

/-- A slot of the port, or a position of the I/O ring, held in each state of a command. -/
def slotHeld : State := { base with pc := .slotAllocated, claim := some (.port 0), x := { slot := 1#16 } }
def portBuilt : State := { slotHeld with pc := .descriptorsBuilt, built := some (0x200000, 512) }
def portIssued : State :=
  { portBuilt with
    pc := .issued, inflight := some { chan := .port 0, slot := 1#16, cid := 0#16, dataAt := 0x200000, dataLen := 512 } }
def entryHeld : State :=
  { base with pc := .slotAllocated, claim := some (.qp 1), x := { dev := 1#8, slot := 3#16, cid := 5#16 } }
def ringBuilt : State := { entryHeld with pc := .descriptorsBuilt, built := some (0x200000, 512) }
def ringIssued : State :=
  { ringBuilt with
    pc := .issued, inflight := some { chan := .qp 1, slot := 3#16, cid := 5#16, dataAt := 0x200000, dataLen := 512 } }

/-- One instruction, and what it shows of the state it leaves. -/
def after {α : Type} (i : Instr) (s : State) (f : State → α) : Option α := (nextOf (exec i s)).map f

/-- `n` bytes of memory. -/
def bytesAt (a n : Nat) (s : State) : List Byte := s.mem.read a n

/-- The accesses, oldest first. -/
def trace (s : State) : List BusEvent := s.log.reverse

/-! ## Single steps -/

/-- V1. -/
theorem test_rd32 : after (.rd32 { arg := 0x138#32, buf := 0xFEBF0000#64 }) (withReg 0xFEBF0138 1 base)
    (fun t => (t.x.res, t.pc, t.x.val, trace t)) = some (0#8, .idle, 1#64, [.rd .w32 0xFEBF0138 1#64]) := by decide
/-- V7: `CAP` is 64 bits wide. -/
theorem test_rd32_width : exec (.rd32 { buf := 0xFEB00000#64 }) base = .refused .wrongWidth := rfl
/-- R167, R78: a 64-bit access that takes in `CC`, `CSTS` or a doorbell; half of `CAP`; the registers at their widths;
and a second controller in the doorbell range of the first. -/
theorem test_width :
    (base.widthOk .w64 0xFEB00010, base.widthOk .w64 0xFEB00014, base.widthOk .w64 0xFEB00018,
      base.widthOk .w64 0xFEB01000, base.widthOk .w32 0xFEB00002, base.widthOk .w32 0xFEB00004)
      = (false, false, false, false, false, false) ∧
    (base.widthOk .w32 0xFEB00014, base.widthOk .w64 0xFEB00028, base.widthOk .w32 0xFEB01004,
      base.widthOk .w32 0xFEBF0138, base.widthOk .w64 0xFEBF0138) = (true, true, true, true, false) ∧
    (({ base with nvme := [(0, nvme0), (1, { nvme0 with base := 0xFEB04000#64 })] } : State).widthOk .w64 0xFEB04000)
      = true := by decide
/-- R320, U11: a load of bytes that nothing has written goes on, with free values. -/
theorem test_load_unwritten : ∃ bs t, memLoad 0x210000 512 base = .go bs t := ⟨_, _, rfl⟩
/-- R7: a device may step between the two bytes of a word of a payload. -/
theorem test_load_word :
    (match loadWords 0x210000 0 1
        { base with mem := cells 0x210000 [1#8, 2#8], script := [{}, { mem := [(0x210001, 3#8)] }] } with
      | .go v t => (v, trace t)
      | _ => (0, [])) = (0x0301, [.load 0x210000 1, .load 0x210001 1]) := by decide
/-- V2. -/
theorem test_rd64 : after (.rd64 { buf := 0xFEB00000#64 }) (withReg 0xFEB00000 0x000000200F0103FF base)
    (fun t => (t.x.val, trace t)) = some (0x000000200F0103FF#64, [.rd .w64 0xFEB00000 0x000000200F0103FF#64]) := by
  decide
/-- V3. -/
theorem test_wr32 : after (.wr32 { arg := 0x138#32, lba := 0xFFFFFFFF00000001#64, buf := 0xFEBF0000#64 }) base
    (fun t => (t.x.res, trace t)) = some (0#8, [.wr .w32 0xFEBF0138 1#64]) := by decide
/-- V4. -/
theorem test_wr64 : after (.wr64 { arg := 0x28#32, lba := 0x300000#64, buf := 0xFEB00000#64 }) base
    (fun t => (trace t, alGet t.regs 0xFEB00028))
      = some ([.wr .w64 0xFEB00028 0x300000#64], some 0x300000#64) := by decide
/-- V5. -/
theorem test_publish : after (.publish {}) { base with pend := [⟨false, 0x101000, 128⟩] }
    (fun t => (t.x.res, t.pend, t.regs)) = some (0#8, [], base.regs) := by decide

/-- R88: what a `Publish()` leaves of the host's stores: the bytes outside the buffer, on either side of it. -/
theorem test_publish_splits :
    (publish (some (0x200000, 512))
        { base with pend := [⟨true, 0x1FFF00, 4096⟩, ⟨true, 0x200000, 512⟩, ⟨false, 0x100000, 32⟩, ⟨true, 0x300000, 4⟩] }).pend
      = [⟨true, 0x1FFF00, 256⟩, ⟨true, 0x200200, 3328⟩, ⟨true, 0x300000, 4⟩] := by decide
/-- R10: a record once loaded keeps its parameters; its other values may be loaded anew. -/
theorem test_keeps :
    hostEvent (.loadQp 1 { io1 with qSize := 8 }) base = .refused .hostDuty ∧
    hostEvent (.loadNvme 0 { nvme0 with mdts := 4096 }) base = .refused .hostDuty ∧
    (nextOf (hostEvent (.loadDev 0 { ch := 0, capacity := 1#64 }) base)).isSome = true ∧
    hostEvent (.loadDev 1 { dev1 with capacity := 0#64, blockBytes := 4096 }) base = .refused .hostDuty ∧
    (nextOf (hostEvent (.loadDev 1 dev1) { base with dev := [(1, { dev1 with capacity := 0#64, blockBytes := 0 })] })).isSome
      = true ∧
    hostEvent (.loadDev 2 { dev1 with blockBytes := 0 }) base = .refused .parameterRange :=
  ⟨rfl, rfl, by decide, rfl, by decide, rfl⟩
/-- R94: the completion ring of a queue pair in use is the device's; R85: there is no memory behind its end. -/
theorem test_hostStore :
    hostStore 0x301000 [0#8] base = .refused .hostDuty ∧
    hostStore 0x1000 [0#8] { base with cfg := { memBytes := 0x1000 } } = .refused .absentMemory ∧
    (nextOf (hostStore 0x301040 [0#8] base)).isSome = true := ⟨rfl, rfl, by decide⟩
/-- R94: the rings that NVME.INIT has filled are the device's with every position at its reset value; those of a record
loaded anew are the host's. An output of the decoder goes into no completion ring, started or not. -/
theorem test_ring_owner :
    (hostStore 0x303000 [0#8] { base with qp := [(0, admin0)] } = .refused .hostDuty) ∧
    ((nextOf (hostStore 0x303000 [0#8] (base.withQp 0 admin0))).isSome = true ∧
      (alGet (base.withQp 0 admin0).qp 0).map Qp.started = some false ∧ (admin0.fresh 1#1).started = true) ∧
    (base.withQp 0 admin0).outputApart 0x303000 96 = false := ⟨rfl, by decide, by decide⟩

/-- 43_ahci_engine.md R215: the received-FIS area takes no store of the host and no output, and is read as no payload. -/
theorem test_received :
    hostStore 0x100400 [0#8] base = .refused .hostDuty ∧
    exec (.idStr { cnt := 512#16, arg := 0x0100#32, lba := 0x1004FE#64, buf := 0x210000#64 }) base = .refused .overlap ∧
    exec (.idCap { cnt := 512#16, buf := 0x1004FF#64 }) base = .refused .overlap := ⟨rfl, rfl, rfl⟩

/-- V10: 32 slots, three in use. -/
theorem test_ahciAlloc :
    after (.ahciAlloc {}) (withReg 0xFEBF0138 7 { base with hba := [(0, { hba0 with nSlots := 32#6 })] })
      (fun t => (t.x.res, t.pc, t.x.slot, t.x.val, trace t))
      = some (0#8, .slotAllocated, 3#16, 3#64, [.rd .w32 0xFEBF0134 0#64, .rd .w32 0xFEBF0138 7#64]) := by decide
/-- V13: all slots in use. -/
theorem test_ahciAlloc_full :
    after (.ahciAlloc {}) (withReg 0xFEBF0134 0xFF { base with hba := [(0, { hba0 with nSlots := 8#6 })] })
      (fun t => (t.rsp.res, t.rsp.pc)) = some (1#8, 0#3) := by decide
/-- V16. -/
theorem test_nvmeAlloc :
    after (.nvmeAlloc { dev := 1#8 })
      { base with nvme := [(0, { nvme0 with nextCid := 0xFFFF#16 })], qp := [(1, { io1 with sqHead := 1#16 })] }
      (fun t => (t.x.slot, t.x.cid, t.x.val, (alGet t.nvme 0).map Nvme.nextCid, (alGet t.qp 1).map Qp.sqTail))
      = some (3#16, 0xFFFF#16, 3#64, some 0#16, some 3#16) := by decide
/-- V18. -/
theorem test_nvmeAlloc_full :
    after (.nvmeAlloc { dev := 1#8 }) { base with qp := [(1, { io1 with sqHead := 0#16 })] }
      (fun t => (t.x.res, t.pc, t.nvme)) = some (1#8, .idle, [(0, nvme0)]) := by decide

/-- V22. -/
theorem test_prdtBuild :
    after (.prdtBuild { cnt := 17#16, buf := 0x200000#64 }) slotHeld (fun t => (t.x.val, bytesAt 0x101180 32 t))
      = some (2#64, dwords [0x00200000, 0, 0, 0x00001FFF, 0x00202000, 0, 0, 0x800001FF]) := by decide
/-- V25: nothing is stored. -/
theorem test_prdtBuild_many :
    after (.prdtBuild { cnt := 129#16, buf := 0x200000#64 }) slotHeld (fun t => (t.x.res, t.pc, t.mem))
      = some (2#8, .idle, []) := by decide
/-- V32. -/
theorem test_fisBuild :
    after (.fisBuild { cnt := 0x102#16, arg := 0x25#32, lba := 0x123456789ABC#64 }) slotHeld
      (fun t => bytesAt 0x101100 22 t)
      = some ([0x27#8, 0x80#8, 0x25#8, 0#8, 0xBC#8, 0x9A#8, 0x78#8, 0x40#8, 0x56#8, 0x34#8, 0x12#8, 0#8, 2#8, 1#8,
          0#8, 0#8, 0#8, 0#8, 0#8, 0#8, 0#8, 0#8]) := by decide
/-- V36, for slot 1. -/
theorem test_hdrBuild :
    after (.hdrBuild { arg := 0x100#32 }) { slotHeld with built := some (0, 512), x := { slot := 1#16, nprd := 2#16 } }
      (bytesAt 0x100020 32) = some (dwords [0x00020045, 0, 0x101100, 0, 0, 0, 0, 0]) := by decide
/-- The descriptors of P1 step 1. -/
theorem test_ahciBuild :
    after (.ahciBuild { cnt := 1#16, arg := 0x135#32, lba := 100#64, buf := 0x200000#64 })
      { slotHeld with x := { slot := 0#16 } }
      (fun t => (t.pc, bytesAt 0x101080 16 t, bytesAt 0x101000 16 t, bytesAt 0x100000 16 t))
      = some (.descriptorsBuilt, dwords [0x00200000, 0, 0, 0x800001FF],
          dwords [0x00358027, 0x40000064, 0, 1], dwords [0x00010045, 0, 0x00101000, 0]) := by decide
/-- V38b. -/
theorem test_prpBuild :
    after (.prpBuild { dev := 1#8, cnt := 1#16, buf := 0x200E00#64 }) entryHeld (fun t => (t.x.res, t.x.bytes, t.mem))
      = some (0#8, 512#32, []) := by decide
/-- V38c. -/
theorem test_prpBuild_page :
    after (.prpBuild { dev := 1#8, cnt := 2#16, buf := 0x200E00#64 }) entryHeld (fun t => (t.x.res, t.pc))
      = some (3#8, .idle) := by decide
/-- V39. -/
theorem test_sqeBuild :
    after (.sqeBuild { dev := 1#8, cnt := 8#16, arg := 2#32, lba := 0x100000064#64, buf := 0x200000#64 })
      { entryHeld with x := { slot := 3#16, cid := 7#16 } } (bytesAt 0x3000C0 64)
      = some (dwords [0x00070002, 1, 0, 0, 0, 0, 0x200000, 0, 0, 0, 7, 0x64, 1, 0, 0, 0]) := by decide
/-- V39b: the other layout. -/
theorem test_sqeBuild_std :
    after (.sqeBuild { dev := 1#8, cnt := 8#16, arg := 2#32, lba := 0x100000064#64, buf := 0x200000#64 })
      { entryHeld with cfg := { nvmeRwLayout := .stdLayout } } (bytesAt 0x3000E8 12)
      = some (dwords [0x64, 1, 7]) := by decide
/-- V39c. -/
theorem test_nvmeBuild :
    after (.nvmeBuild { dev := 1#8, cnt := 4096#16, arg := 0xC06#32, lba := 1#64, buf := 0x210000#64 })
      { entryHeld with claim := some (.qp 0), x := { slot := 0#16 } } (fun t => (t.pc, bytesAt 0x302000 64 t))
      = some (.descriptorsBuilt, dwords [6, 0, 0, 0, 0, 0, 0x210000, 0, 0, 0, 1, 0, 0, 0, 0, 0]) := by decide

/-- V40b, for slot 1: two looks see the port busy. -/
theorem test_ahciIssue :
    after (.ahciIssue {})
      { portBuilt with script := [sets 0xFEBF011C 0x80, sets 0xFEBF011C 0x58, sets 0xFEBF011C 0x50] }
      (fun t => (t.rsp.res, t.rsp.pc, t.x.iter, trace t))
      = some (0#8, 3#3, 2#32, [.rd .w32 0xFEBF011C 0x80#64, .rd .w32 0xFEBF011C 0x58#64, .rd .w32 0xFEBF011C 0x50#64,
          .publish, .wr .w32 0xFEBF0138 2#64]) := by decide
/-- R49: the issued bit of a `PxCI` whose content is unknown reads 1. -/
theorem test_ahciIssue_unknown : ∃ t v,
    exec (.ahciIssue {}) { portBuilt with regs := portBuilt.regs.take 6 } = .next t ∧
    alGet t.regs 0xFEBF0138 = some v ∧ v.getLsbD 1 = true ∧ t.draws = portBuilt.draws + 1 :=
  ⟨_, _, rfl, rfl, by rw [BitVec.getLsbD_or]; exact Bool.or_true _, rfl⟩
/-- V41. -/
theorem test_ahciIssue_busy :
    after (.ahciIssue {}) (withReg 0xFEBF011C 0x80 portBuilt) (fun t => (t.rsp.res, t.rsp.pc, t.log.length))
      = some (4#8, 0#3, 3) := by decide
/-- V43, for slot 1. -/
theorem test_ahciPoll :
    after (.ahciPoll {})
      { withReg 0xFEBF0138 2 (withReg 0xFEBF011C 0xD0 portIssued) with
        script := [idle, idle, idle, sets 0xFEBF011C 0x58, sets 0xFEBF0138 0, sets 0xFEBF011C 0x50] }
      (fun t => (t.rsp.res, t.rsp.pc, t.x.iter, t.inflight, t.log.length)) = some (0#8, 4#3, 2#32, none, 6) := by decide
/-- V46: the error has priority over the completion. -/
theorem test_ahciPoll_error :
    after (.ahciPoll {}) (withReg 0xFEBF011C 0x451 portIssued) (fun t => (t.rsp.res, t.rsp.pc, t.rsp.raw))
      = some (6#8, 6#3, 0x451#32) := by decide
/-- V49. -/
theorem test_ahciCmd :
    after (.ahciCmd { cnt := 1#16, arg := 0x25#32, lba := 100#64, buf := 0x200000#64 }) base
      (fun t => (t.rsp.res, t.rsp.pc, t.x.slot, t.leaked.length)) = some (5#8, 5#3, 0#16, 1) ∧
    after (.ahciCmd { cnt := 1#16, arg := 0x25#32, lba := 100#64, buf := 0x200000#64 })
      { base with script := List.replicate 7 idle ++ [sets 0xFEBF0138 0] }
      (fun t => (t.rsp.res, t.rsp.pc, bytesAt 0x100000 4 t)) = some (0#8, 4#3, dwords [0x00010005]) := by decide

/-- V52. -/
theorem test_nvmeRdychk :
    after (.nvmeRdychk { dev := 1#8 }) (withReg 0xFEB0001C 3 base) (fun t => (t.rsp.res, t.rsp.pc, t.log.length))
      = some (0#8, 0#3, 1) ∧
    after (.nvmeRdychk { dev := 1#8 }) (withReg 0xFEB0001C 2 base) (fun t => (t.rsp.res, t.rsp.pc)) = some (9#8, 0#3) := by
  decide
/-- V50: the tail wraps. -/
theorem test_nvmeIssue :
    after (.nvmeIssue { dev := 1#8 }) ringBuilt
      (fun t => (t.rsp.res, t.rsp.pc, (alGet t.qp 1).map Qp.sqTail, trace t))
      = some (0#8, 3#3, some 0#16, [.publish, .wr .w32 0xFEB01008 0#64]) := by decide
/-- V50b. -/
theorem test_nvmeIssue_admin :
    after (.nvmeIssue { dev := 1#8, arg := 0x800#32 })
      { ringBuilt with claim := some (.qp 0), x := { slot := 0#16 } } trace
      = some [.publish, .wr .w32 0xFEB01000 1#64] := by decide
/-- V53: the head wraps and the phase flips. -/
theorem test_nvmePoll :
    after (.nvmePoll { dev := 1#8 }) { ringIssued with mem := cells 0x301038 (dwords [0x00010000, 0x00010005]) }
      (fun t => (t.rsp.res, t.rsp.pc, alGet t.qp 1, t.log.head?))
      = some (0#8, 4#3, some { io1 with sqHead := 0#16, cqHead := 0#16, phase := 0#1 },
          some (.wr .w32 0xFEB0100C 0#64)) := by decide
/-- V54: the entry is consumed, and then reported. -/
theorem test_nvmePoll_status :
    after (.nvmePoll { dev := 1#8 }) { ringIssued with mem := cells 0x301038 (dwords [0x00010000, 0x00050005]) }
      (fun t => (t.rsp.res, t.rsp.pc, t.rsp.raw, (alGet t.qp 1).map Qp.cqHead)) = some (6#8, 6#3, 5#32, some 0#16) := by
  decide
/-- P3 step 1, as NVME.CMD. -/
theorem test_nvmeCmd :
    after (.nvmeCmd { dev := 1#8, cnt := 8#16, arg := 2#32, lba := 0x64#64, buf := 0x200000#64 })
      { base with script := List.replicate 3 idle ++ [{ mem := cells 0x301038 (dwords [0x00010000, 0x00010005]) }] }
      (fun t => (t.rsp.res, t.rsp.pc, bytesAt 0x3000C0 4 t, (alGet t.nvme 0).map Nvme.nextCid))
      = some (0#8, 4#3, dwords [0x00050002], some 6#16) := by decide

/-- V57. -/
theorem test_readBlocks_range :
    after (.readBlocks { cnt := 1#16, lba := 204800#64, buf := 0x200000#64 }) base
      (fun t => (t.rsp.res, t.rsp.pc, t.log)) = some (8#8, 0#3, []) := by decide
/-- P3 step 1. -/
theorem test_readBlocks :
    after (.readBlocks { dev := 1#8, cnt := 8#16, lba := 0x64#64, buf := 0x200000#64 })
      { base with script := List.replicate 3 idle ++ [{ mem := cells 0x301038 (dwords [0x00010000, 0x00010005]) }] }
      (fun t => (t.rsp.res, t.rsp.pc, bytesAt 0x3000C0 64 t))
      = some (0#8, 4#3, dwords [0x00050002, 1, 0, 0, 0, 0, 0x200000, 0, 0, 0, 7, 0x64, 0, 0, 0, 0]) := by decide
/-- P1 step 1, completed at the first look. -/
theorem test_writeBlocks :
    after (.writeBlocks { cnt := 1#16, lba := 100#64, buf := 0x200000#64 })
      { base with script := List.replicate 7 idle ++ [sets 0xFEBF0138 0] }
      (fun t => (t.rsp.res, t.rsp.pc, bytesAt 0x101000 16 t, bytesAt 0x100000 16 t))
      = some (0#8, 4#3, dwords [0x00358027, 0x40000064, 0, 1], dwords [0x00010045, 0, 0x00101000, 0]) := by
  decide
/-- R131: an LBA of 2^48 is refused at acceptance, before a slot is looked for. -/
theorem test_readBlocks_lba :
    exec (.readBlocks { cnt := 1#16, lba := 0x1000000000000#64, buf := 0x200000#64 })
      (withReg 0xFEBF0138 3 { base with dev := [(0, { ch := 0, capacity := 0xFFFFFFFFFFFFFFFF#64 })] })
      = .refused (.illFormed .lbaTooWide) := rfl
/-- P2 step 1: the port never leaves busy. -/
theorem test_writeBlocks_hung :
    after (.writeBlocks { cnt := 1#16, buf := 0x200000#64 }) (withReg 0xFEBF011C 0x80 base)
      (fun t => (t.rsp.res, t.rsp.pc, t.x.iter, alGet t.regs 0xFEBF0138)) = some (4#8, 0#3, 3#32, some 0#64) := by decide
/-- V59. -/
theorem test_identify_null :
    after (.identify { lba := 0x220000#64 }) base (fun t => (t.rsp.res, t.rsp.pc, t.log)) = some (7#8, 0#3, []) := by
  decide
/-- V59b: the admin entry of V39c, with identifier 5. -/
theorem test_identify_nvme :
    after (.identify { dev := 1#8, arg := 1#32, buf := 0x210000#64 })
      { base with script := List.replicate 3 idle ++ [{ mem := cells 0x303008 (dwords [0x00000001, 0x00010005]) }] }
      (fun t => (t.rsp.res, t.rsp.pc, bytesAt 0x302000 64 t))
      = some (0#8, 4#3, dwords [0x00050006, 0, 0, 0, 0, 0, 0x210000, 0, 0, 0, 1, 0, 0, 0, 0, 0]) := by decide

/-- V60. -/
theorem test_idStr :
    after (.idStr { cnt := 512#16, arg := 0x141B#32, lba := 0x220000#64, buf := 0x210000#64 })
      { base with
        mem := cells 0x210036 (dwords [0x4D555145, 0x41522048, 0x49534444] ++ [0x20#8, 0x4B#8] ++ List.replicate 26 0x20#8) }
      (fun t => (t.x.val, bytesAt 0x220000 40 t))
      = some (13#64, (dwords [0x554D4551, 0x52414820, 0x53494444] ++ 0x4B#8 :: zeros 27)) := by decide
/-- R281: the field is read before the first store, of each word the high byte first, so the output may lie over it. -/
theorem test_idStr_over :
    after (.idStr { cnt := 512#16, arg := 0x0200#32, lba := 0x210001#64, buf := 0x210000#64 })
      { base with mem := cells 0x210000 [0x42#8, 0x41#8, 0x20#8, 0x43#8] }
      (fun t => (t.x.res, t.x.val, bytesAt 0x210000 5 t, trace t))
      = some (0#8, 3#64, [0x42#8, 0x41#8, 0x42#8, 0x43#8, 0#8],
          [.load 0x210001 1, .load 0x210000 1, .load 0x210003 1, .load 0x210002 1,
            .store 0x210001 1, .store 0x210002 1, .store 0x210003 1, .store 0x210004 1]) := by
  decide
/-- V63b: a zero byte stops the trim. -/
theorem test_idStr_zero :
    after (.idStr { cnt := 512#16, arg := 0x0417#32, lba := 0x220000#64, buf := 0x210000#64 })
      { base with mem := cells 0x21002E (dwords [0x20204142, 0x20202000]) } (fun t => (t.x.val, bytesAt 0x220000 8 t))
      = some (6#64, dwords [0x20204241, 0x00000020]) := by decide
/-- V65. -/
theorem test_idCap :
    after (.idCap { cnt := 512#16, buf := 0x210000#64 })
      { base with mem := cells 0x2100A6 [0x00#8, 0x74#8] ++ cells 0x2100C8 (dwords [0x00032000, 0]) }
      (fun t => (t.x.res, t.x.val)) = some (0#8, 204800#64) := by decide
/-- V67: clamped. -/
theorem test_idCap_clamp :
    after (.idCap { cnt := 512#16, buf := 0x210000#64 })
      { base with mem := cells 0x2100A6 [0x00#8, 0x04#8] ++ cells 0x2100C8 (dwords [0, 1]) } (fun t => t.x.val)
      = some 0xFFFFFFFF#64 := by decide
/-- V68. -/
theorem test_idSecsz :
    after (.idSecsz { cnt := 512#16, buf := 0x210000#64 })
      { base with mem := cells 0x2100D4 [0x00#8, 0x90#8] ++ cells 0x2100EA (dwords [0x1000]) } (fun t => t.x.val)
      = some 4096#64 := by decide
/-- V68c: bit 15 alone. -/
theorem test_idSecsz_default :
    after (.idSecsz { cnt := 512#16, buf := 0x210000#64 })
      { base with mem := cells 0x2100D4 [0x00#8, 0x80#8] } (fun t => t.x.val) = some 512#64 := by decide
/-- The payload of P5, but for the words that are zero and not looked at. -/
def payload5 : Memory :=
  cells 0x210014 (dwords [0x3030514D, 0x31203030, 0x20202020, 0x20202020, 0x20202020])
    ++ cells 0x21002E (dwords [0x352B322E, 0x20202020])
    ++ cells 0x210036 (dwords [0x4D555145, 0x41522048, 0x49534444] ++ [0x20#8, 0x4B#8] ++ List.replicate 26 0x20#8)
    ++ cells 0x210098 (zeros 2) ++ cells 0x2100A4 (zeros 2 ++ [0x00#8, 0x74#8])
    ++ cells 0x2100C8 (dwords [0x00032000, 0]) ++ cells 0x2100D4 [0x03#8, 0x60#8] ++ cells 0x210152 (zeros 2)
/-- P5. -/
theorem test_idDecode :
    after (.idDecode { cnt := 512#16, lba := 0x220000#64, buf := 0x210000#64 }) { base with mem := payload5 }
      (fun t => (t.x.res, bytesAt 0x220000 96 t))
      = some (0#8,
          (dwords [0x554D4551, 0x52414820, 0x53494444] ++ 0x4B#8 :: zeros 27
            ++ dwords [0x30304D51, 0x00313030] ++ zeros 12
            ++ dwords [0x2B352E32, 0] ++ [0x0D#8, 0x07#8, 0x04#8, 0x01#8]
            ++ dwords [0x00032000, 0, 0x200, 0, 0, 0])) := by decide

/-- V80 to V82. -/
theorem test_probe :
    after (.probe { arg := 0x010601#32 }) base (fun t => t.x.val) = some 1#64 ∧
    after (.probe { arg := 0x010802#32 }) base (fun t => t.x.val) = some 2#64 ∧
    after (.probe { arg := 0x010600#32 }) base (fun t => t.x.val) = some 0#64 := by decide
/-- V84, V88. -/
theorem test_sigClass :
    after (.sigClass {}) (withReg 0xFEBF0124 0xEB140101 base) (fun t => (t.x.val, t.log.length)) = some (2#64, 2) ∧
    after (.sigClass {}) (withReg 0xFEBF0128 0 base) (fun t => (t.x.val, t.log.length)) = some (0#64, 1) := by decide
/-- V89. -/
theorem test_ahciInit :
    after (.ahciInit {})
      (withReg 0xFEBF0000 0xC0141F05 (withReg 0xFEBF000C 0x3F
        { base with script := [idle, idle, idle, sets 0xFEBF0004 0x80000000] }))
      (fun t => (t.x.res, t.x.val, (alGet t.hba 0).map Hba.nSlots, trace t))
      = some (0#8, 0x3F#64, some 32#6,
          [.wr .w32 0xFEBF0004 0x80000000#64, .wr .w32 0xFEBF0004 0x80000001#64, .rd .w32 0xFEBF0004 0x80000001#64,
            .rd .w32 0xFEBF0004 0x80000000#64, .wr .w32 0xFEBF0004 0x80000000#64, .rd .w32 0xFEBF0000 0xC0141F05#64,
            .rd .w32 0xFEBF000C 0x3F#64]) := by decide
/-- V90. -/
theorem test_portInit :
    after (.portInit {}) (withReg 0xFEBF0118 0xC011 { base with script := [idle, idle, idle, sets 0xFEBF0118 0] })
      (fun t => (t.x.res, (trace t).filter (fun e => match e with | .store _ _ => false | _ => true)))
      = some (0#8, [.rd .w32 0xFEBF0118 0xC011#64, .wr .w32 0xFEBF0118 0xC010#64, .wr .w32 0xFEBF0118 0xC000#64,
          .rd .w32 0xFEBF0118 0#64, .wr .w32 0xFEBF0100 0x100000#64, .wr .w32 0xFEBF0104 0#64,
          .wr .w32 0xFEBF0108 0x100400#64, .wr .w32 0xFEBF010C 0#64, .publish, .rd .w32 0xFEBF0118 0#64,
          .wr .w32 0xFEBF0118 0x10#64, .wr .w32 0xFEBF0118 0x11#64]) := by decide
/-- V90b, with three looks. -/
theorem test_portReset_hung :
    after (.portReset {}) (withReg 0xFEBF0118 0xC000 base) (fun t => (t.rsp.res, t.rsp.pc, t.log.length, t.mem))
      = some (4#8, 0#3, 6, []) := by decide
/-- P2 step 3: the leaked command is forgotten. -/
theorem test_portReset :
    after (.portReset {})
      { base with
        pc := .timedOut
        leaked := [{ chan := .port 0, slot := 0#16, cid := 0#16, dataAt := 0x200000, dataLen := 512 }] }
      (fun t => (t.x.res, t.pc, t.leaked, bytesAt 0x1011FF 1 t, t.mem.byte? 0x101200)) = some (0#8, .idle, [], [0#8], none) := by decide
/-- V91, with admin rings of 16 and the ready bit as the looks of V91 see it. -/
theorem test_nvmeInit :
    after (.nvmeInit { dev := 1#8 })
      (withReg 0xFEB00000 0x000000200F0103FF (withReg 0xFEB00014 0x00460001
        { base with qp := [(0, admin0)], script := List.replicate 4 idle ++ [sets 0xFEB0001C 0] ++ List.replicate 7 idle ++
            [sets 0xFEB0001C 1] }))
      (fun t => (t.x.res, trace t))
      = some (0#8, [.rd .w64 0xFEB00000 0x000000200F0103FF#64, .rd .w32 0xFEB00014 0x00460001#64,
          .wr .w32 0xFEB00014 0x00460000#64, .rd .w32 0xFEB0001C 1#64, .rd .w32 0xFEB0001C 0#64,
          .store 0x302000 1024, .store 0x303000 256, .wr .w32 0xFEB00024 0x000F000F#64,
          .wr .w64 0xFEB00028 0x302000#64, .wr .w64 0xFEB00030 0x303000#64, .publish,
          .wr .w32 0xFEB00014 0x00460001#64, .rd .w32 0xFEB0001C 0#64, .rd .w32 0xFEB0001C 1#64]) := by decide

/-- R83, R84, R120: the rows at their places. -/
theorem test_fis_rows :
    after (.fisReadDmaExt { flags := 0x80#8, noLba := false, lba := 100#48, cnt := 1#16 }) slotHeld (bytesAt 0x101100 16)
      = some (dwords [0x00258027, 0x40000064, 0, 1]) ∧
    after (.fisWriteDmaExt { flags := 0x80#8, noLba := false, lba := 100#48, cnt := 1#16 }) slotHeld (bytesAt 0x101100 4)
      = some (dwords [0x00358027]) ∧
    after (.fisIdentifyDevice { flags := 0x80#8, noLba := true, lba := 0#48, cnt := 1#16 }) slotHeld (bytesAt 0x101100 8)
      = some (dwords [0x00EC8027, 0]) := by decide
theorem test_cmdHdr_row :
    after (.cmdHdr { write := 1#1, prdtl := 2#16, ctba := 0x101100#64 }) slotHeld (bytesAt 0x100020 12)
      = some (dwords [0x00020045, 0, 0x101100]) := by decide
/-- R76, R77: a header that names a misaligned table, or another than the slot's. -/
theorem test_cmdHdr_table :
    exec (.cmdHdr { write := 1#1, prdtl := 2#16, ctba := 0x101101#64 }) slotHeld = .refused .misalignedStructure ∧
    exec (.cmdHdr { write := 1#1, prdtl := 2#16, ctba := 0x101000#64 }) slotHeld = .refused .notEmitted := ⟨rfl, rfl⟩
theorem test_prdtEntry_row :
    after (.prdtEntry { dba := 0x202000#64, dbc := 511#22, last := 1#1 })
      { slotHeld with x := { slot := 1#16, buf := 0x200000#64 } } (bytesAt 0x101190 16)
      = some (dwords [0x202000, 0, 0, 0x800001FF]) := by decide
theorem test_sqe_rows :
    let e : Sqe := { cid := 5#16, nsid := 1#32, prp1 := 0x200000#64, cdw10 := 7#32, cdw11 := 0x64#32, cdw12 := 0#32 }
    after (.sqeRead e) entryHeld (bytesAt 0x3000C0 8) = some (dwords [0x00050002, 1]) ∧
    after (.sqeWrite e) entryHeld (bytesAt 0x3000C0 8) = some (dwords [0x00050001, 1]) ∧
    after (.sqeIdentify e) entryHeld (bytesAt 0x3000C0 8) = some (dwords [0x00050006, 1]) ∧
    exec (.sqeIdentify { e with prp1 := 0x200004#64 }) entryHeld = .refused .misalignedStructure :=
  ⟨by decide, by decide, by decide, rfl⟩
/-- V53 and V56 as single looks. -/
theorem test_cqe_row :
    let e : Cqe :=
      { cdw0 := 0#32, rsvd := 0#32, sqHead := 0#16, sqId := 1#16, cid := 5#16, phase := 1#1, status := 0#11, high := 0#4 }
    after (.cqe e) ringIssued (fun t => (t.pc, (alGet t.qp 1).map Qp.cqHead)) = some (.completed, some 0#16) ∧
    after (.cqe { e with cid := 4#16 }) ringIssued (fun t => (t.pc, t.x.iter, t.log)) = some (.issued, 1#32, []) := by
  decide

/-! ## Witnesses: for each statement with hypotheses, states and operands that meet all of them -/

theorem witness_DecodeEncode : (Instr.rd32 {}).isOperation = true ∧
    (Instr.fisReadDmaExt ⟨0#8, false, 0#48, 0#16⟩).structFormat? = some .h2dFis ∧
    (Instr.sqeRead ⟨0#16, 0#32, 0#64, 0#32, 0#32, 0#32⟩).structFormat? = some .sqe ∧
    (Instr.cmdHdr ⟨1#1, 0xFFFF#16, 0xFFFFFFFFFFFFFFFF#64⟩).structFormat? = some .cmdHdr ∧
    (Instr.prdtEntry ⟨0#64, 0x3FFFFF#22, 1#1⟩).structFormat? = some .prdt ∧
    (Instr.cqe ⟨0#32, 0#32, 0#16, 0#16, 0#16, 0#1, 0x7FF#11, 0#4⟩).structFormat? = some .cqe :=
  ⟨rfl, rfl, rfl, rfl, rfl, rfl⟩

theorem witness_EncodeDecode :
    decode (req 0x75 0xFFFFFFFF 0 0 0 0xFFFFFFFF) = .ok (.nvmeInit { arg := 0xFFFFFFFF#32, buf := 0xFFFFFFFF00000000#64 }) ∧
    decodeStruct .prdt (dwords [0, 0, 0, 0x803FFFFF]) = some (.prdtEntry ⟨0#64, 0x3FFFFF#22, 1#1⟩) := by decide

/-- A length below and above 32; a reserved dword; an unlisted code; a listed one. -/
theorem witness_DecodeRefusals : (zeros 31).length ≠ 32 ∧ (zeros 33).length ≠ 32 ∧
    ((dwords [1, 0, 0, 0, 0, 0, 0, 1]).length = 32 ∧ field (dwords [1, 0, 0, 0, 0, 0, 0, 1]) 24 8 ≠ 0) ∧
    ((req 0 0 0 0 0 0).length = 32 ∧ field (req 0 0 0 0 0 0) 24 8 = 0 ∧
      field (req 0 0 0 0 0 0) 0 1 ∉ operationCodes) ∧
    (field (req 0x175 0 0 0 0 0) 24 8 = 0 ∧ field (req 0x175 0 0 0 0 0) 0 1 ∈ operationCodes) := by decide

/-- The least and the greatest byte count; the first and the last entry of two; the first and the last slot. -/
theorem witness_EmittedDwords : ((1 ≤ 1 ∧ 1 ≤ 4194304) ∧ (1 ≤ 4194304 ∧ 4194304 ≤ 4194304)) ∧
    ((prdtOf 0#64 17)[0]?.isSome = true ∧ (prdtOf 0#64 17)[1]?.isSome = true) ∧
    ((0#16 : Half).toNat < 32 ∧ (31#16 : Half).toNat < 32) := by decide

theorem witness_StepRunsRequest :
    (({ base with inputs := [.request (req 5 0 0 0 0 0)] } : State).inputs = .request (req 5 0 0 0 0 0) :: [] ∧
      decode (req 5 0 0 0 0 0) = .ok (.publish {})) ∧
    decode (req 6 0 0 0 0 0) = .error (.unknownOpc 6#8) ∧ base.inputs = [] ∧
    decodeTableWord 8 0x75 = some (.nvmeInit {}) ∧ decodeTableWord 256 0x75 = some (.nvmeInit {}) :=
  ⟨⟨rfl, by decide⟩, by decide, rfl, by decide, by decide⟩

/-- The machine after bring-up meets the invariant, and so does one with a command in flight. -/
theorem inv_base : Inv base where
  memory := by decide
  regs := by decide
  hba := by decide
  port := by decide
  nvme := by decide
  qp := by decide
  dev := by decide
  rings := by
    intro e he
    simp only [base, List.mem_cons, List.not_mem_nil, or_false] at he
    rcases he with rfl | rfl <;> (unfold Qp.ok; decide)
  flight := by decide
  claimed := by intro h; simp [Pc.inCommand, base] at h
  result := by decide
  response := by decide
theorem inv_issued : Inv ringIssued :=
  { inv_base with
    flight := by decide
    claimed := fun _ => rfl
    result := by decide }

theorem witness_StepKeepsInvariant : (Inv base ∧ ∃ t, step { base with inputs := [.devices] } = .next t) ∧
    Inv ringIssued ∧ ∃ t, step { ringIssued with inputs := [.request (req 5 0 0 0 0 0)] } = .next t :=
  ⟨⟨inv_base, _, rfl⟩, inv_issued, _, rfl⟩

/-- A request that goes on, in success and in each kind of error. -/
theorem witness_next : (∃ t, exec (.publish {}) base = .next t) ∧
    (∃ t, exec (.identify {}) base = .next t ∧ t.x.res = Err.invalidIdentifyPayload.code) ∧
    (∃ t, exec (.idCap {}) base = .next t ∧ t.x.res = Err.invalidIdentifyPayload.code) ∧
    (∃ t, exec (.ahciPoll {}) (withReg 0xFEBF011C 1 portIssued) = .next t ∧ t.x.res = Err.deviceError.code) ∧
    (∃ t, exec (.probe { arg := 0x010601#32 }) base = .next t ∧ returnsValue (.probe { arg := 0x010601#32 }) = true ∧
      t.x.res = 0#8) ∧
    (∃ t, exec (.cqe ⟨0#32, 0#32, 0#16, 0#16, 0#16, 0#1, 0#11, 0#4⟩) ringIssued = .next t) :=
  ⟨⟨_, rfl⟩, ⟨_, rfl, rfl⟩, ⟨_, rfl, rfl⟩, ⟨_, rfl, rfl⟩, ⟨_, rfl, rfl, rfl⟩, ⟨_, rfl⟩⟩

theorem witness_ResultCodes : (∃ t, exec (.readBlocks { cnt := 1#16 }) { base with dev := [(0, { capacity := 0#64 })] } =
      .next t) ∧ namesDevice (.readBlocks {}) = true ∧ alGet base.dev 0 = some { ch := 0, capacity := 204800#64 } ∧
    alGet base.dev 1 = some dev1 ∧ isCommand (.readBlocks {}) = true ∧
    (∃ t, exec (.nvmeRdychk { dev := 1#8 }) base = .next t) := ⟨⟨_, rfl⟩, rfl, rfl, rfl, rfl, _, rfl⟩

/-- R30, R39: the slot count of a record that AHCI.INIT has still to fill in. -/
theorem test_hba_slots : Hba.slotsOk {} = true ∧ Hba.slotsOk { nSlots := 32#6 } = true ∧
    Hba.slotsOk { nSlots := 33#6 } = false ∧ Hba.slotsOk { pi := 1#32 } = false := by decide

theorem witness_LeakOutlivesCommands :
    (∃ t, exec (.publish {}) { base with leaked := [⟨.port 0, 0#16, 0#16, 0, 0⟩] } = .next t) ∧
    bringsUp (.publish {}) = false := ⟨⟨_, rfl⟩, rfl⟩

/-- A device whose record gives no capacity yet (70_reset_and_hazards.md R370; log 8). -/
def noCapacity : State := { base with dev := [(0, {})] }
theorem test_noCapacity : after (.readBlocks { cnt := 1#16 }) noCapacity (fun t => (t.x.res, t.log)) = some (8#8, []) := by
  decide

theorem witness_IllegalRequestsRefused :
    (Instr.readBlocks {}).defect? = some .countZero ∧
    (namesDevice (.identify { dev := 9#8 }) = true ∧ alGet base.dev 9 = none) ∧
    (kindFor (.nvmeAlloc {}) = some .nvme ∧ alGet base.dev 0 = some { ch := 0, capacity := 204800#64 }) ∧
    (runsIn (.prdtBuild {}) base.pc = false ∧ runsIn (.rd32 {}) slotHeld.pc = false) ∧
    base.pc.free = true ∧ (1#16 : Half) ≠ 0#16 ∧ alGet noCapacity.dev 0 = some {} ∧ ({} : Dev).capacity = 0#64 := by
  decide

/-- A 64-bit access to a port register, to `CC` and to the last doorbell; a 32-bit access to `CAP` and to `ACQ`. -/
theorem witness_OtherWidth :
    ((Instr.rd64 { arg := 0x138#32, buf := 0xFEBF0000#64 }).WellFormed ∧ OtherWidth base .w64 0xFEBF0138) ∧
    ((Instr.wr64 { arg := 8#32, buf := 0xFEB00000#64 }).WellFormed ∧ OtherWidth base .w64 0xFEB00008) ∧
    OtherWidth base .w64 0xFEB01004 ∧ OtherWidth base .w64 (0xFEB01004 + 8 * 65535) ∧
    ((Instr.rd32 { buf := 0xFEB00000#64 }).WellFormed ∧ OtherWidth base .w32 0xFEB00000) ∧
    ((Instr.wr32 { arg := 0x30#32, buf := 0xFEB00000#64 }).WellFormed ∧ OtherWidth base .w32 0xFEB00030) :=
  ⟨⟨rfl, .inl ⟨_, rfl, rfl⟩⟩, ⟨rfl, .inr ⟨_, _, rfl, .inr ⟨rfl, .inl (by decide)⟩⟩⟩,
    .inr ⟨_, _, rfl, .inr ⟨rfl, .inr ⟨0, .inr (by decide)⟩⟩⟩, .inr ⟨_, _, rfl, .inr ⟨rfl, .inr ⟨65535, .inr (by decide)⟩⟩⟩,
    ⟨rfl, .inr ⟨_, _, rfl, .inl ⟨rfl, by decide⟩⟩⟩, rfl, .inr ⟨_, _, rfl, .inl ⟨rfl, by decide⟩⟩⟩

/-- Records that an operation changes, and records that a host loads again. -/
theorem witness_OperandsAndParameters :
    (Inv base ∧ (∃ t, exec (.nvmeAlloc { dev := 1#8 }) base = .next t) ∧ alGet base.qp 1 = some io1 ∧
      alGet base.nvme 0 = some nvme0 ∧ alGet base.hba 0 = some hba0) ∧
    (∃ t, step { base with inputs := [.loadQp 1 { io1 with sqBase := 0x400000#64 }] } = .next t) ∧
    (∃ t, step { base with inputs := [.loadNvme 0 nvme0] } = .next t) ∧
    (∃ t, step { base with inputs := [.loadHba 0 { hba0 with pi := 3#32 }] } = .next t) ∧
    (∃ t, step { base with inputs := [.loadPort 0 { port0 with clb := 0x100800#64 }] } = .next t) ∧
    (∃ t, step { base with inputs := [.loadDev 1 { dev1 with nsid := 2#32 }] } = .next t) ∧
    nvme0.mdts ≠ 0 ∧ hba0.nSlots ≠ 0#6 ∧ port0.ct ≠ [] ∧ dev1.blockBytes ≠ 0 :=
  ⟨⟨inv_base, ⟨_, rfl⟩, rfl, rfl, rfl⟩, ⟨_, rfl⟩, ⟨_, rfl⟩, ⟨_, rfl⟩, ⟨_, rfl⟩, ⟨_, rfl⟩, by decide, by decide, by decide,
    by decide⟩

theorem witness_OtherChannelsUntouched : Inv base ∧ (∃ t, exec (.sigClass {}) base = .next t) ∧
    (∃ t, exec (.nvmeAlloc { dev := 1#8 }) { base with qp := [(0, admin0), (1, { io1 with sqHead := 0#16 })] } = .next t) ∧
    alGet base.port 0 = some port0 ∧ 1 ≠ port0.hba ∧ alGet base.qp dev1.admin = some admin0 ∧
    0 ≠ queueOf (.nvmeAlloc { dev := 1#8 }) { dev := 1#8 } dev1 ∧
    1 ≠ queueOf (.identify { dev := 1#8, buf := 0x210000#64 }) { dev := 1#8, buf := 0x210000#64 } dev1 := by
  refine ⟨inv_base, ⟨_, rfl⟩, ⟨_, rfl⟩, rfl, by decide, rfl, by decide, by decide⟩

/-! ### Register I/O, allocators -/

/-- Both widths at a register of known content and at the last place of the address space. -/
theorem witness_MmioAccessesComplete : base.pc.free = true ∧
    ((Instr.rd32 { arg := 0x138#32, buf := 0xFEBF0000#64 }).WellFormed ∧ base.widthOk .w32 0xFEBF0138 = true ∧
      alGet (tick base).regs 0xFEBF0138 = some 0#64) ∧
    (Instr.wr32 { arg := 4#32, buf := 0xFFFFFFFFFFFFFFF8#64 }).WellFormed ∧ base.widthOk .w32 0xFFFFFFFFFFFFFFFC = true ∧
    ((Instr.rd64 { arg := 0x28#32, buf := 0xFEB00000#64 }).WellFormed ∧ base.widthOk .w64 0xFEB00028 = true) ∧
    (Instr.wr64 { buf := 0xFFFFFFFFFFFFFFF8#64 }).WellFormed ∧ base.widthOk .w64 0xFFFFFFFFFFFFFFF8 = true ∧
    base.regKind 0xFEBF0004 = .stored ∧ base.regKind 0xFEBF011C = .readOnly ∧
    base.regKind 0xFEBF0138 = .commandIssue := by decide

theorem onPort_base : OnPort base 0#8 portCtx := ⟨⟨_, rfl, rfl, rfl, rfl, rfl⟩, rfl⟩
theorem onQueue_base : OnQueue base 1#8 false ioCtx := ⟨rfl, rfl, rfl, rfl, rfl⟩
theorem onAdmin_base : OnQueue base 1#8 true adminCtx := ⟨rfl, rfl, rfl, rfl, rfl⟩

/-- The lowest slot, and the highest of two. -/
theorem lowest_zero : LowestFree portCtx 0#32 0#32 0 := ⟨by decide, by decide, rfl, by decide⟩
theorem lowest_last : LowestFree portCtx 1#32 0#32 1 := ⟨by decide, by decide, rfl, by decide⟩

theorem witness_AhciAllocCompletes :
    (base.pc.free = true ∧ (Instr.ahciAlloc {}).WellFormed ∧ Quiet base ∧ OnPort base 0#8 portCtx ∧
      portCtx.block + 0x80 ≤ addrSpace ∧ Reads32 base (portCtx.portReg 0x34) 0#32 ∧
      Reads32 base (portCtx.portReg 0x38) 0#32 ∧ LowestFree portCtx 0#32 0#32 0) ∧
    Reads32 (withReg 0xFEBF0134 1 base) (portCtx.portReg 0x34) 1#32 ∧ LowestFree portCtx 1#32 0#32 1 :=
  ⟨⟨rfl, rfl, rfl, onPort_base, by decide, rfl, rfl, lowest_zero⟩, rfl, lowest_last⟩

theorem witness_NvmeAllocCompletes :
    base.pc.free = true ∧ (Instr.nvmeAlloc { dev := 1#8 }).WellFormed ∧ OnQueue base 1#8 false ioCtx ∧
    ringNext ioCtx.qp.qSize ioCtx.qp.sqTail ≠ ioCtx.qp.sqHead ∧
    (Instr.nvmeAlloc { dev := 1#8, arg := 0x800#32 }).WellFormed ∧ OnQueue base 1#8 true adminCtx :=
  ⟨rfl, rfl, onQueue_base, by decide, rfl, onAdmin_base⟩

theorem witness_NoFreeSlotExactly :
    (OnPort base 0#8 portCtx ∧ (∃ t, exec (.ahciAlloc {}) base = .next t ∧ t.x.res = 0#8) ∧
      ∃ t, exec (.ahciAlloc {}) (withReg 0xFEBF0138 3 base) = .next t ∧ t.x.res = Err.noFreeSlot.code) ∧
    OnQueue base 1#8 false ioCtx ∧ (∃ t, exec (.nvmeAlloc { dev := 1#8 }) base = .next t ∧ t.x.res = 0#8) ∧
    ∃ t, exec (.nvmeAlloc { dev := 1#8 }) { base with qp := [(1, { io1 with sqHead := 0#16 })] } = .next t ∧
      t.x.res = Err.noFreeSlot.code :=
  ⟨⟨onPort_base, ⟨_, rfl, rfl⟩, _, rfl, rfl⟩, onQueue_base, ⟨_, rfl, rfl⟩, _, rfl, rfl⟩

/-! ### Builders -/

theorem slotOn_held : SlotOn slotHeld 0#8 portCtx 0x101100#64 := ⟨onPort_base, rfl, by decide, rfl⟩
theorem slotOn_built : SlotOn portBuilt 0#8 portCtx 0x101100#64 := ⟨onPort_base, rfl, by decide, rfl⟩
theorem slotOn_issued : SlotOn portIssued 0#8 portCtx 0x101100#64 := ⟨onPort_base, rfl, by decide, rfl⟩
theorem portArena_held : PortArena slotHeld portCtx := ⟨by decide, by decide⟩
/-- One sector, and as many as the table holds; a buffer that ends just below a region. -/
theorem prdtFits_one : PrdtFits slotHeld false portCtx 0xFFE00#64 1#16 :=
  ⟨portArena_held, by decide, ⟨by decide, by decide⟩, by decide⟩
theorem prdtFits_all : PrdtFits slotHeld false portCtx 0x200000#64 128#16 :=
  ⟨portArena_held, by decide, ⟨by decide, by decide⟩, by decide⟩

theorem witness_PrdtCoversTransfer : 1 ≤ 1 ∧ 1 ≤ 65535 ∧ 65535 ≤ 65535 ∧ (prdtOf 0#64 40)[2]?.isSome = true := by decide

theorem witness_PrdtBuildCompletes : slotHeld.pc = .slotAllocated ∧
    (Instr.prdtBuild { cnt := 1#16, buf := 0xFFE00#64 }).WellFormed ∧ SlotOn slotHeld 0#8 portCtx 0x101100#64 ∧
    PrdtFits slotHeld false portCtx 0xFFE00#64 1#16 ∧ (Instr.prdtBuild { cnt := 128#16, buf := 0x200000#64 }).WellFormed ∧
    PrdtFits slotHeld false portCtx 0x200000#64 128#16 := ⟨rfl, rfl, slotOn_held, prdtFits_one, rfl, prdtFits_all⟩

theorem witness_FisHdrBuildComplete : slotHeld.pc = .slotAllocated ∧ SlotOn slotHeld 0#8 portCtx 0x101100#64 ∧
    portCtx.hba.nSlots.toNat ≤ 32 ∧ PortArena slotHeld portCtx ∧
    (Instr.fisBuild { cnt := 1#16, lba := 0xFFFFFFFFFFFF#64 }).WellFormed ∧ (Instr.hdrBuild {}).WellFormed ∧
    ({ slotHeld with built := some (0x200000, 512) } : State).built.isSome = true :=
  ⟨rfl, slotOn_held, by decide, portArena_held, rfl, rfl, rfl⟩

theorem witness_AhciBuildCompletes : slotHeld.pc = .slotAllocated ∧
    (Instr.ahciBuild { cnt := 128#16, lba := 0xFFFFFFFFFFFF#64, buf := 0x200000#64 }).WellFormed ∧ Quiet slotHeld ∧
    SlotOn slotHeld 0#8 portCtx 0x101100#64 ∧ portCtx.hba.nSlots.toNat ≤ 32 ∧
    PrdtFits slotHeld false portCtx 0x200000#64 128#16 := ⟨rfl, rfl, rfl, slotOn_held, by decide, prdtFits_all⟩

theorem witness_TooManyDescriptorsExactly :
    (∃ t, exec (.prdtBuild { cnt := 1#16, buf := 0x200000#64 }) slotHeld = .next t) ∧
    (∃ t, exec (.ahciBuild { cnt := 129#16, buf := 0x200000#64 }) slotHeld = .next t) ∧
    slotHeld.pc = .slotAllocated ∧ SlotOn slotHeld 0#8 portCtx 0x101100#64 ∧
    slotHeld.cfg.prdtCap < ((129#16 : Half).toNat + 15) / 16 ∧
    (Instr.prdtBuild { cnt := 129#16 }).WellFormed ∧ (Instr.ahciBuild { cnt := 129#16 }).WellFormed :=
  ⟨⟨_, rfl⟩, ⟨_, rfl⟩, rfl, slotOn_held, by decide, rfl, rfl⟩

theorem entryOn_held : EntryOn entryHeld 1#8 false ioCtx := ⟨⟨rfl, rfl, rfl, rfl, rfl⟩, rfl, by decide⟩
theorem entryOn_issued : EntryOn ringIssued 1#8 false ioCtx := ⟨⟨rfl, rfl, rfl, rfl, rfl⟩, rfl, by decide⟩
theorem ringArena_held : RingArena entryHeld ioCtx := ⟨by decide, by decide⟩
/-- A block that ends at the end of its page, and a whole page. -/
theorem prpFits_last : PrpFits entryHeld false ioCtx 0x200E00#64 512 :=
  ⟨ringArena_held, by decide, ⟨by decide, by decide⟩, by decide, by decide⟩
theorem prpFits_page : PrpFits entryHeld false ioCtx 0x200000#64 4096 :=
  ⟨ringArena_held, by decide, ⟨by decide, by decide⟩, by decide, by decide⟩

/-- The last block of a page, a byte range of any alignment that ends with its page, the lowest aligned buffer. -/
theorem witness_PrpSqeBuildComplete : entryHeld.pc = .slotAllocated ∧ EntryOn entryHeld 1#8 false ioCtx ∧
    ((Instr.prpBuild { dev := 1#8, cnt := 1#16, buf := 0x200E00#64 }).WellFormed ∧
      PrpFits entryHeld false ioCtx 0x200E00#64 (transferLength false 1#16 ioCtx.dev)) ∧
    ((Instr.prpBuild { dev := 1#8, cnt := 511#16, arg := 0x400#32, buf := 0x200E01#64 }).WellFormed ∧
      BufferFits entryHeld false (0x200E01#64 : Quad).toNat (transferLength true 511#16 ioCtx.dev) ∧
      transferLength true 511#16 ioCtx.dev ≤ ioCtx.nv.mdts ∧
      (0x200E01#64 : Quad).toNat % ioCtx.nv.pageBytes + transferLength true 511#16 ioCtx.dev ≤ ioCtx.nv.pageBytes) ∧
    (Instr.sqeBuild { dev := 1#8, cnt := 1#16, buf := 4#64 }).WellFormed ∧ RingArena entryHeld ioCtx ∧
    (4#64 : Quad).toNat % 4 = 0 ∧
    BufferFits entryHeld false (4#64 : Quad).toNat (transferLength false 1#16 ioCtx.dev) :=
  ⟨rfl, entryOn_held, ⟨rfl, prpFits_last⟩, ⟨rfl, ⟨by decide, by decide⟩, by decide, by decide⟩, rfl, ringArena_held, rfl,
    by decide, by decide⟩

theorem witness_EmittedStructures :
    ((entryOf {} dev1 { cnt := 1#16 }).cdw10 = 0#32 ∧ 1 ≤ ({ cnt := 1#16 } : Regs).cnt.toNat ∧
      ({} : Params).nvmeRwLayout = .docLayout ∧ ({ nvmeRwLayout := .stdLayout } : Params).nvmeRwLayout = .stdLayout) ∧
    ({} : Regs).flg.getLsbD 1 = false ∧ ({ flg := 2#4 } : Regs).flg.getLsbD 1 = true := by decide

theorem witness_NvmeBuildCompletes : entryHeld.pc = .slotAllocated ∧
    (Instr.nvmeBuild { dev := 1#8, cnt := 8#16, buf := 0x200000#64 }).WellFormed ∧ EntryOn entryHeld 1#8 false ioCtx ∧
    PrpFits entryHeld false ioCtx 0x200000#64 (transferLength false 8#16 ioCtx.dev) :=
  ⟨rfl, rfl, entryOn_held, prpFits_page⟩

theorem witness_TransferTooLargeExactly : EntryOn entryHeld 1#8 false ioCtx ∧
    (∃ t, exec (.prpBuild { dev := 1#8, cnt := 8#16, buf := 0x200000#64 }) entryHeld = .next t ∧ t.x.res = 0#8) ∧
    (∃ t, exec (.nvmeBuild { dev := 1#8, cnt := 9#16, buf := 0x200000#64 }) entryHeld = .next t ∧
      t.x.res = Err.transferTooLarge.code) ∧
    entryHeld.pc = .slotAllocated ∧
    (ioCtx.nv.mdts < transferLength false 65535#16 ioCtx.dev ∧
      (Instr.prpBuild { dev := 1#8, cnt := 65535#16, buf := 0x200000#64 }).WellFormed) ∧
    ioCtx.nv.pageBytes < (0x200E01#64 : Quad).toNat % ioCtx.nv.pageBytes + transferLength false 1#16 ioCtx.dev ∧
    (Instr.nvmeBuild { dev := 1#8, cnt := 1#16, buf := 0x200E01#64 }).WellFormed :=
  ⟨entryOn_held, ⟨_, rfl, rfl⟩, ⟨_, rfl, rfl⟩, rfl, ⟨by decide, rfl⟩, by decide, rfl⟩

/-! ### AHCI engine -/

theorem portWindow_built : PortWindow portBuilt portCtx := ⟨by decide, by decide, by decide, by decide⟩
theorem portWindow_issued : PortWindow portIssued portCtx := ⟨by decide, by decide, by decide, by decide⟩

/-- No wait, and the longest wait that still succeeds. -/
theorem witness_AhciIssueCompletes : portBuilt.pc = .descriptorsBuilt ∧ (Instr.ahciIssue {}).WellFormed ∧
    SlotOn portBuilt 0#8 portCtx 0x101100#64 ∧ PortWindow portBuilt portCtx ∧ portBuilt.built = some (0x200000, 512) ∧
    (0 < portBuilt.cfg.busyBudget.toNat ∧ 2 < portBuilt.cfg.busyBudget.toNat) ∧
    (Reads32 (withReg 0xFEBF011C 0x80 portBuilt) (portCtx.portReg portBuilt.cfg.ahciBusyOff) 0x80#32 ∧
      0x80#32 &&& portBuilt.cfg.ahciBusyMask ≠ 0#32) ∧ 0x50#32 &&& portBuilt.cfg.ahciBusyMask = 0#32 ∧
    ({ portBuilt with script := [idle, idle, sets 0xFEBF011C 0x50] } : State).script
      = List.replicate 2 ({} : DevAct)
        ++ [{ regs := [(portCtx.portReg portBuilt.cfg.ahciBusyOff, some ((0x50#32).setWidth 64))] }] :=
  ⟨rfl, rfl, slotOn_built, portWindow_built, rfl, by decide, ⟨rfl, by decide⟩, rfl, rfl⟩

theorem witness_AhciBudgets : (Quiet portBuilt ∧ SlotOn portBuilt 0#8 portCtx 0x101100#64 ∧ PortWindow portBuilt portCtx ∧
      portBuilt.pc = .descriptorsBuilt ∧
      Reads32 (withReg 0xFEBF011C 8 portBuilt) (portCtx.portReg portBuilt.cfg.ahciBusyOff) 8#32 ∧
      8#32 &&& portBuilt.cfg.ahciBusyMask ≠ 0#32) ∧
    Quiet portIssued ∧ SlotOn portIssued 0#8 portCtx 0x101100#64 ∧ PortWindow portIssued portCtx ∧
    portIssued.pc = .issued ∧ (Instr.ahciPoll {}).WellFormed ∧
    Reads32 (withReg 0xFEBF0138 2 portIssued) (portCtx.portReg 0x38) 2#32 ∧
    Reads32 portIssued (portCtx.portReg portIssued.cfg.ahciErrOff) 0x50#32 ∧
    (2#32).getLsbD portIssued.x.slot.toNat = true ∧ 0x50#32 &&& portIssued.cfg.ahciErrMask = 0#32 :=
  ⟨⟨rfl, slotOn_built, portWindow_built, rfl, rfl, by decide⟩, rfl, slotOn_issued, portWindow_issued, rfl, rfl, rfl, rfl,
    rfl, rfl⟩

theorem witness_AhciPollCompletes : portIssued.pc = .issued ∧ (Instr.ahciPoll {}).WellFormed ∧
    SlotOn portIssued 0#8 portCtx 0x101100#64 ∧ PortWindow portIssued portCtx ∧ portIssued.x.slot.toNat < 32 ∧
    (0 < portIssued.cfg.pollBudget.toNat ∧ 2 < portIssued.cfg.pollBudget.toNat) ∧
    Reads32 (withReg 0xFEBF0138 2 portIssued) (portCtx.portReg 0x38) 2#32 ∧
    (2#32).getLsbD portIssued.x.slot.toNat = true ∧ (1#32).getLsbD portIssued.x.slot.toNat = false ∧
    Reads32 portIssued (portCtx.portReg portIssued.cfg.ahciErrOff) 0x50#32 ∧
    0x50#32 &&& portIssued.cfg.ahciErrMask = 0#32 ∧
    ({ portIssued with script := [idle, idle, idle, idle, sets 0xFEBF0138 1] } : State).script
      = List.replicate (2 * 2) ({} : DevAct) ++ [{ regs := [(portCtx.portReg 0x38, some ((1#32).setWidth 64))] }] :=
  ⟨rfl, rfl, slotOn_issued, portWindow_issued, by decide, by decide, rfl, rfl, rfl, rfl, rfl, rfl⟩

/-- With the slot's bit set and with it clear. -/
theorem witness_AhciPollDeviceError : portIssued.pc = .issued ∧ (Instr.ahciPoll {}).WellFormed ∧ Quiet portIssued ∧
    SlotOn portIssued 0#8 portCtx 0x101100#64 ∧ PortWindow portIssued portCtx ∧ portIssued.cfg.pollBudget ≠ 0#32 ∧
    Reads32 portIssued (portCtx.portReg 0x38) 0#32 ∧
    Reads32 (withReg 0xFEBF0138 2 portIssued) (portCtx.portReg 0x38) 2#32 ∧
    Reads32 (withReg 0xFEBF011C 0x451 portIssued) (portCtx.portReg portIssued.cfg.ahciErrOff) 0x451#32 ∧
    0x451#32 &&& portIssued.cfg.ahciErrMask ≠ 0#32 :=
  ⟨rfl, rfl, rfl, slotOn_issued, portWindow_issued, by decide, rfl, rfl, rfl, by decide⟩

/-- What the port shows in `base`. -/
def view0 : PortView := { sact := 0#32, ci := 0#32, busy := 0x50#32, err := 0x50#32 }
theorem ahciReady_base {dev : Byte} {cnt : Half} {buf : Quad} {l : List DevAct} (hd : dev = 0#8)
    {ident : Bool} (hf : PrdtFits base ident portCtx buf cnt) :
    AhciReady { base with script := l } ident dev cnt buf portCtx 0 0x101000#64 view0 := by
  subst hd
  have h : PortWindow base portCtx := ⟨by decide, by decide, by decide, by decide⟩
  have hb : base.cfg.busyBudget ≠ 0#32 ∧ base.cfg.pollBudget ≠ 0#32 := by decide
  have hi : view0.busy &&& base.cfg.ahciBusyMask = 0#32 ∧ view0.err &&& base.cfg.ahciErrMask = 0#32 := by decide
  exact ⟨onPort_base, ⟨h.block, h.busy, h.error, h.apart⟩, ⟨rfl, rfl, rfl, rfl⟩, lowest_zero, rfl,
    ⟨hf.arena, hf.even, hf.fits, hf.room⟩, hi.1, hi.2, hb.1, hb.2⟩
theorem prdtFits_base : PrdtFits base false portCtx 0x200000#64 128#16 :=
  ⟨⟨by decide, by decide⟩, by decide, ⟨by decide, by decide⟩, by decide⟩

theorem witness_AhciCmdCompletes : base.pc.free = true ∧
    (Instr.ahciCmd { cnt := 128#16, arg := 0x25#32, buf := 0x200000#64 }).WellFormed ∧
    AhciReady { base with script := ahciScript portCtx [(0x200000, 7#8)] 0#32 } false 0#8 128#16 0x200000#64 portCtx 0
      0x101000#64 view0 ∧ (0#32).getLsbD 0 = false :=
  ⟨rfl, rfl, ahciReady_base rfl prdtFits_base, rfl⟩

/-! ### NVMe engine -/

theorem witness_ReadyCheckBothWays : base.pc.free = true ∧ (Instr.nvmeRdychk { dev := 1#8 }).WellFormed ∧ Quiet base ∧
    OnQueue base 1#8 false ioCtx ∧ ioCtx.reg 0x1C + 4 ≤ addrSpace ∧ Reads32 base (ioCtx.reg 0x1C) 1#32 ∧
    Reads32 (withReg 0xFEB0001C 2 base) (ioCtx.reg 0x1C) 2#32 :=
  ⟨rfl, rfl, rfl, onQueue_base, by decide, rfl, rfl⟩

theorem witness_NvmeIssueCompletes : ringBuilt.pc = .descriptorsBuilt ∧ (Instr.nvmeIssue { dev := 1#8 }).WellFormed ∧
    EntryOn ringBuilt 1#8 false ioCtx ∧ ringBuilt.x.slot = ioCtx.qp.sqTail ∧ ringBuilt.built = some (0x200000, 512) ∧
    ioCtx.sqDoorbell + 4 ≤ addrSpace := ⟨rfl, rfl, ⟨⟨rfl, rfl, rfl, rfl, rfl⟩, rfl, by decide⟩, rfl, rfl, by decide⟩

/-- The bytes that memory lists stand in it. -/
theorem holds_cells {s : State} {a : Nat} {bs : List Byte} (h : s.mem = cells a bs) : holds s a bs := by
  intro i hi
  have hb : bs[i]? = some bs[i] := List.getElem?_eq_getElem hi
  have hk : s.mem.byte? (a + i) = some bs[i] := by
    unfold Memory.byte?
    rw [h, Laws.alGet_cells, if_pos (by omega), Nat.add_sub_cancel_left, hb]
  rw [Laws.byteAt_known hk, hb]

/-- The answer to command 5: success, and a failure with status field 2. -/
def answer : Cqe :=
  { cdw0 := 0#32, rsvd := 0#32, sqHead := 0#16, sqId := 1#16, cid := 5#16, phase := 1#1, status := 0#11, high := 0#4 }
def failure : Cqe := { answer with status := 2#11 }

/-- The entry of another command, and then the command's own with the old phase. -/
def foreign (k : Nat) : Word := if k = 0 then 0x00010004#32 else 0x00000005#32
def foreignSeen : State :=
  { ringIssued with
    script := [{ mem := cells (ioCtx.head + 12) (leBytes 4 0x00010004) },
      { mem := cells (ioCtx.head + 12) (leBytes 4 0x00000005) }] }
/-- The same with the fatal bit looked at after each entry. -/
def foreignFatal : State :=
  { foreignSeen with
    cfg := { foreignSeen.cfg with nvmeCheckCfs := true }
    script := [{ mem := cells (ioCtx.head + 12) (leBytes 4 0x00010004) }, {},
      { mem := cells (ioCtx.head + 12) (leBytes 4 0x00000005) }] }

/-- Without and with the fatal bit watched; no look that misses, and as many as still succeed. -/
theorem witness_NvmePollCompletes : ringIssued.pc = .issued ∧ (Instr.nvmePoll { dev := 1#8 }).WellFormed ∧
    EntryOn ringIssued 1#8 false ioCtx ∧ ioCtx.cqDoorbell + 4 ≤ addrSpace ∧ ioCtx.head + 16 ≤ ringIssued.cfg.memEnd ∧
    ringIssued.cfg.nvmeCheckCfs = false ∧
    (foreignFatal.cfg.nvmeCheckCfs = true ∧ EntryOn foreignFatal 1#8 false ioCtx ∧ ioCtx.reg 0x1C + 4 ≤ addrSpace ∧
      Reads32 foreignFatal (ioCtx.reg 0x1C) 1#32 ∧ (1#32 : Word).getLsbD 1 = false ∧
      ({ foreignFatal with script := [idle, idle, idle, idle, { mem := cells ioCtx.head answer.bytes }] } : State).script
        = List.replicate (missSteps foreignFatal.cfg * 2) ({} : DevAct) ++ [{ mem := cells ioCtx.head answer.bytes }]) ∧
    (0 < ringIssued.cfg.pollBudget.toNat ∧ 2 < ringIssued.cfg.pollBudget.toNat) ∧
    holds { ringIssued with mem := cells (ioCtx.head + 12) (leBytes 4 0x00000005) } (ioCtx.head + 12)
      (leBytes 4 (0x00000005#32).toNat) ∧ (0x00000005#32).extractLsb' 16 1 ≠ ioCtx.qp.phase ∧
    Answers answer ioCtx.qp 5#16 ∧ answer.status = 0#11 :=
  ⟨rfl, rfl, entryOn_issued, by decide, by decide, rfl,
    ⟨rfl, ⟨⟨rfl, rfl, rfl, rfl, rfl⟩, rfl, by decide⟩, by decide, rfl, rfl, rfl⟩, by decide, holds_cells rfl, by decide,
    ⟨rfl, rfl, by decide⟩, rfl⟩

theorem witness_NvmePollDeviceErrors :
    (ringIssued.pc = .issued ∧ (Instr.nvmePoll { dev := 1#8 }).WellFormed ∧ Quiet ringIssued ∧
      EntryOn ringIssued 1#8 false ioCtx ∧ ringIssued.cfg.pollBudget ≠ 0#32 ∧
      ioCtx.head + 16 ≤ ringIssued.cfg.memEnd) ∧
    (ioCtx.cqDoorbell + 4 ≤ addrSpace ∧ holds { ringIssued with mem := cells ioCtx.head failure.bytes } ioCtx.head failure.bytes ∧
      Answers failure ioCtx.qp 5#16 ∧ failure.status ≠ 0#11) ∧
    holds { ringIssued with mem := cells (ioCtx.head + 12) (leBytes 4 0) } (ioCtx.head + 12) (leBytes 4 (0#32).toNat) ∧
    (0#32).extractLsb' 16 1 ≠ ioCtx.qp.phase ∧ ({ nvmeCheckCfs := true } : Params).nvmeCheckCfs = true ∧
    ioCtx.reg 0x1C + 4 ≤ addrSpace ∧ Reads32 (withReg 0xFEB0001C 3 ringIssued) (ioCtx.reg 0x1C) 3#32 ∧
    (3#32).getLsbD 1 = true :=
  ⟨⟨rfl, rfl, rfl, entryOn_issued, by decide, by decide⟩, ⟨by decide, holds_cells rfl, ⟨rfl, rfl, by decide⟩, by decide⟩,
    holds_cells rfl, by decide, rfl, by decide, rfl, rfl⟩

theorem witness_NvmePollForeignEntry : foreignSeen.pc = .issued ∧ (Instr.nvmePoll { dev := 1#8 }).WellFormed ∧
    EntryOn foreignSeen 1#8 false ioCtx ∧ ioCtx.head + 16 ≤ foreignSeen.cfg.memEnd ∧
    (∀ k, k < foreignSeen.cfg.pollBudget.toNat →
      (foreign k).extractLsb' 16 1 ≠ ioCtx.qp.phase ∨ (foreign k).extractLsb' 0 16 ≠ foreignSeen.x.cid) ∧
    (foreignSeen.cfg.nvmeCheckCfs = false ∧ ∀ k, k < foreignSeen.cfg.pollBudget.toNat →
      holds (ticks (k + 1) foreignSeen) (ioCtx.head + 12) (leBytes 4 (foreign k).toNat)) ∧
    EntryOn foreignFatal 1#8 false ioCtx ∧ foreignFatal.cfg.nvmeCheckCfs = true ∧ ioCtx.reg 0x1C + 4 ≤ addrSpace ∧
    ∀ k, k < foreignFatal.cfg.pollBudget.toNat →
      holds (ticks (2 * k + 1) foreignFatal) (ioCtx.head + 12) (leBytes 4 (foreign k).toNat) ∧
      Reads32 (ticks (2 * k + 2) foreignFatal) (ioCtx.reg 0x1C) 1#32 ∧ (1#32 : Word).getLsbD 1 = false := by
  refine ⟨rfl, rfl, ⟨⟨rfl, rfl, rfl, rfl, rfl⟩, rfl, by decide⟩, by decide, by decide, ⟨rfl, ?_⟩,
    ⟨⟨rfl, rfl, rfl, rfl, rfl⟩, rfl, by decide⟩, rfl, by decide, ?_⟩
  · unfold holds; decide
  · unfold holds Reads32; decide

theorem nvmeReady_io {len : Nat} {buf : Quad} {l : List DevAct} (hf : PrpFits base false ioCtx buf len) :
    NvmeReady { base with script := l } false 1#8 false buf len ioCtx 1#32 :=
  ⟨onQueue_base, ⟨by decide, by decide⟩, by decide, rfl, rfl, by decide, by decide, by decide, by decide,
    ⟨hf.arena, hf.aligned, hf.fits, hf.maximum, hf.onePage⟩, (by decide : base.cfg.pollBudget ≠ 0#32)⟩
theorem nvmeReady_admin {len : Nat} {buf : Quad} {l : List DevAct} (hf : PrpFits base true adminCtx buf len) :
    NvmeReady { base with script := l } true 1#8 true buf len adminCtx 1#32 :=
  ⟨onAdmin_base, ⟨by decide, by decide⟩, by decide, rfl, rfl, by decide, by decide, by decide, by decide,
    ⟨hf.arena, hf.aligned, hf.fits, hf.maximum, hf.onePage⟩, (by decide : base.cfg.pollBudget ≠ 0#32)⟩
theorem prpFits_io : PrpFits base false ioCtx 0x200000#64 4096 :=
  ⟨⟨by decide, by decide⟩, by decide, ⟨by decide, by decide⟩, by decide, by decide⟩
theorem prpFits_admin : PrpFits base true adminCtx 0x210000#64 4096 :=
  ⟨⟨by decide, by decide⟩, by decide, ⟨by decide, by decide⟩, by decide, by decide⟩

theorem witness_NvmeCmdCompletes : base.pc.free = true ∧
    (Instr.nvmeCmd { dev := 1#8, cnt := 8#16, arg := 2#32, buf := 0x200000#64 }).WellFormed ∧
    NvmeReady { base with script := nvmeScript ioCtx [(0x200000, 7#8)] answer } false 1#8 false 0x200000#64
      (transferLength false 8#16 ioCtx.dev) ioCtx 1#32 ∧ Answers answer ioCtx.qp ioCtx.nv.nextCid ∧
    answer.status = 0#11 := ⟨rfl, rfl, nvmeReady_io prpFits_io, ⟨rfl, rfl, by decide⟩, rfl⟩

/-! ### Block interface -/

/-- The last sectors of the device. -/
theorem witness_BlocksOnAhci : base.pc.free = true ∧ 128#16 ≠ (0#16 : Half) ∧
    (204672#64 : Quad).toNat < 281474976710656 ∧ alGet base.dev 0 = some { ch := 0, capacity := 204800#64 } ∧
    (204672#64 : Quad).toNat + (128#16 : Half).toNat ≤ (204800#64 : Quad).toNat ∧
    AhciReady { base with script := ahciScript portCtx [] 0#32 } false 0#8 128#16 0x200000#64 portCtx 0 0x101000#64 view0 ∧
    (0#32).getLsbD 0 = false :=
  ⟨rfl, by decide, by decide, rfl, by decide, ahciReady_base rfl prdtFits_base, rfl⟩

theorem witness_BlocksOnNvme : base.pc.free = true ∧ 8#16 ≠ (0#16 : Half) ∧
    ioCtx.dev.capacity = 2097152#64 ∧ (2097144#64 : Quad).toNat + (8#16 : Half).toNat ≤ (2097152#64 : Quad).toNat ∧
    NvmeReady { base with script := nvmeScript ioCtx [] answer } false 1#8 false 0x200000#64
      ((8#16 : Half).toNat * ioCtx.dev.blockBytes) ioCtx 1#32 ∧ Answers answer ioCtx.qp ioCtx.nv.nextCid ∧
    answer.status = 0#11 := ⟨rfl, by decide, rfl, by decide, nvmeReady_io prpFits_io, ⟨rfl, rfl, by decide⟩, rfl⟩

theorem witness_IdentifyOnAhci : base.pc.free = true ∧ 0x200000#64 ≠ (0#64 : Quad) ∧
    AhciReady { base with script := ahciScript portCtx (cells 0x200000 (zeros 512)) 0#32 } true 0#8 1#16 0x200000#64 portCtx
      0 0x101000#64 view0 ∧ (zeros 512).length = 512 ∧ (0#32).getLsbD 0 = false ∧
    (0x200200#64 : Quad).toNat + 96 ≤ base.cfg.memEnd ∧ disjoint (0x200000, 512) (0x200200, 96) = true ∧
    base.outputApart (0x200200#64 : Quad).toNat 96 = true :=
  ⟨rfl, by decide, ahciReady_base rfl ⟨prdtFits_base.arena, by decide, ⟨by decide, by decide⟩, by decide⟩,
    by simp [zeros], rfl, by decide, by decide, by decide⟩

theorem witness_IdentifyOnNvme : base.pc.free = true ∧ 0x210000#64 ≠ (0#64 : Quad) ∧
    (0x210000#64 : Quad).toNat % adminCtx.nv.pageBytes = 0 ∧
    NvmeReady { base with script := nvmeScript adminCtx [] answer } true 1#8 true 0x210000#64 base.cfg.nvmeIdBytes.toNat
      adminCtx 1#32 ∧ Answers answer adminCtx.qp adminCtx.nv.nextCid ∧ answer.status = 0#11 :=
  ⟨rfl, by decide, by decide, nvmeReady_admin prpFits_admin, ⟨rfl, rfl, by decide⟩, rfl⟩

theorem witness_OutOfRangeExactly : alGet base.dev 0 = some { ch := 0, capacity := 204800#64 } ∧
    (∃ t, exec (.writeBlocks { cnt := 1#16, lba := 204799#64, buf := 0x200000#64 }) (withReg 0xFEBF011C 0x80 base) = .next t ∧
      t.x.res ≠ Err.outOfRange.code) ∧
    (∃ t, exec (.readBlocks { cnt := 1#16, lba := 0xFFFFFFFFFFFFFFFF#64 }) base = .next t) ∧
    base.pc.free = true ∧ (1#16 : Half) ≠ 0#16 ∧
    (204800#64 : Quad).toNat < (204800#64 : Quad).toNat + (1#16 : Half).toNat :=
  ⟨rfl, ⟨_, rfl, by decide⟩, ⟨_, rfl⟩, rfl, by decide, by decide⟩

/-! ### Decoder -/

/-- A payload of zeros at 0x210000. -/
def zeroPayload : State := { base with mem := cells 0x210000 (zeros 512) }
theorem payload_zero : PayloadAt zeroPayload 0x210000 (zeros 512) :=
  ⟨by decide, by simp [zeros], holds_cells rfl, by decide, by decide⟩

/-- The shortest and the longest field, the last one of the payload, outputs before it and over it. -/
theorem witness_IdStrCompletes : 512 ≤ (512#16 : Half).toNat ∧ Quiet zeroPayload ∧
    ((0xFF#32 : Word) ||| 0x100#32).extractLsb' 0 8 = 255#8 ∧ 255 + 1 ≤ 256 ∧
    PayloadAt zeroPayload 0x210000 (zeros 512) ∧ OutputAt zeroPayload 0x20FFFE (2 * 1) ∧ 236 + 20 ≤ 256 ∧
    OutputAt zeroPayload 0x2101FF (2 * 20) :=
  ⟨by decide, rfl, by decide, by decide, payload_zero, ⟨by decide, by decide⟩, by decide, ⟨by decide, by decide⟩⟩

theorem witness_StringDecoding : [0x42#8, 0x41#8].length = 2 * 1 ∧ ([] : List Byte).length = 2 * 0 ∧
    0 < strLen [0x42#8, 0x41#8] ∧ strLen [0x20#8, 0x20#8] = 0 := by decide

theorem witness_IdCapSecszComplete : 512 ≤ (512#16 : Half).toNat ∧ Quiet zeroPayload ∧
    PayloadAt zeroPayload 0x210000 (zeros 512) := ⟨by decide, rfl, payload_zero⟩

theorem witness_IdDecodeCompletes : 512 ≤ (512#16 : Half).toNat ∧ Quiet zeroPayload ∧
    PayloadAt zeroPayload 0x210000 (zeros 512) ∧ OutputAt zeroPayload 0x210200 96 ∧
    disjoint (0x210000, 512) (0x210200, 96) = true :=
  ⟨by decide, rfl, payload_zero, ⟨by decide, by decide⟩, by decide⟩

theorem witness_InvalidPayload : (511#16 : Half).toNat < 512 ∧
    (512 ≤ (512#16 : Half).toNat ∧ 0x210000#64 ≠ (0#64 : Quad) ∧
      ∃ t, exec (.idStr { cnt := 512#16, arg := 0x0100#32, lba := 0x220000#64, buf := 0x210000#64 })
        { base with mem := cells 0x210000 (zeros 2) } = .next t) ∧
    base.pc.free = true ∧ alGet base.dev 1 = some dev1 ∧
    (∃ t, exec (.identify { dev := 1#8, buf := 0x210800#64 }) base = .next t) :=
  ⟨by decide, ⟨by decide, by decide, _, rfl⟩, rfl, rfl, _, rfl⟩

/-! ### System operations -/

theorem witness_ProbeCompletes : (0xFFFFFF#32 : Word).toNat < 16777216 ∧ (0x010601#32 : Word).toNat < 16777216 ∧
    16777216 ≤ (0x01000000#32 : Word).toNat := by decide

/-- With a device and without one. -/
theorem witness_SigClassCompletes : Quiet base ∧ OnPort base 0#8 portCtx ∧ portCtx.block + 0x80 ≤ addrSpace ∧
    Reads32 base (portCtx.portReg 0x28) 0x113#32 ∧ Reads32 base (portCtx.portReg 0x24) 0x101#32 ∧
    Reads32 (withReg 0xFEBF0128 0 base) (portCtx.portReg 0x28) 0#32 ∧
    Reads32 (withReg 0xFEBF0128 0 base) (portCtx.portReg 0x24) 0x101#32 :=
  ⟨rfl, onPort_base, by decide, rfl, rfl, rfl, rfl⟩

theorem hbaWindow_base : HbaWindow base portCtx := by
  have hb : portCtx.hba.base.toNat = 0xFEBF0000 ∧ hba0.base.toNat = 0xFEBF0000 ∧ nvme0.base.toNat = 0xFEB00000 := by decide
  have hw : nvme0.window = 0x81000 := by decide
  refine ⟨by decide, fun off h => ?_⟩
  unfold ahciWindow at h
  simp only [State.ctrlAt?, State.hbaBases, State.nvmeBases, base, List.map_cons, List.map_nil, List.filter_cons,
    List.filter_nil, hb.1, hb.2.1, hb.2.2, hw, ahciWindow]
  rw [if_pos (decide_eq_true (by omega)), if_neg (by rw [decide_eq_true_iff]; omega)]
  simp only [nearest]
  rw [if_pos (by omega)]
  simp only [Nat.add_sub_cancel_left]

theorem nvmeWindow_base : NvmeWindow base adminCtx := by
  have hb : adminCtx.nv.base.toNat = 0xFEB00000 ∧ hba0.base.toNat = 0xFEBF0000 ∧ nvme0.base.toNat = 0xFEB00000 := by decide
  have hw : nvme0.window = 0x81000 := by decide
  refine ⟨by decide, fun off h => ?_⟩
  simp only [State.ctrlAt?, State.hbaBases, State.nvmeBases, base, List.map_cons, List.map_nil, List.filter_cons,
    List.filter_nil, hb.1, hb.2.1, hb.2.2, hw, ahciWindow]
  rw [if_pos (decide_eq_true (by omega)), if_pos (decide_eq_true (by omega))]
  simp only [nearest]
  rw [if_neg (by omega), if_pos (by omega)]
  simp only [Nat.add_sub_cancel_left]
  rfl

theorem witness_AhciInitCompletes : base.pc.free = true ∧ OnHba base 0#8 portCtx ∧ base.inflight = none ∧
    rising base.hba = true ∧ HbaWindow base portCtx ∧
    Reads32 (withReg 0xFEBF0000 0xC0141F05 base) (portCtx.hbaReg 0x00) 0xC0141F05#32 ∧
    Reads32 (withReg 0xFEBF000C 0x3F base) (portCtx.hbaReg 0x0C) 0x3F#32 ∧ (0x80000000#32 : Word).getLsbD 0 = false ∧
    (0 < base.cfg.resetBudget.toNat ∧ 2 < base.cfg.resetBudget.toNat) ∧
    ({ base with script := [idle, idle, sets 0xFEBF0004 0x80000000] } : State).script
      = List.replicate (0 + 2) ({} : DevAct)
        ++ [{ regs := [(portCtx.hbaReg 0x04, some ((0x80000000#32 : Word).setWidth 64))] }] :=
  ⟨rfl, onPort_base.1, rfl, by decide, hbaWindow_base, rfl, rfl, rfl, by decide, rfl⟩

/-- A port that is stopped and devices that take no step; one that stops at the last look the budget leaves. -/
theorem witness_PortInitCompletes : base.pc.free = true ∧ OnPort base 0#8 portCtx ∧
    PortArena base portCtx ∧ HbaWindow base portCtx ∧ portCtx.hba.nSlots.toNat ≤ portCtx.port.ct.length ∧
    PortStops base portCtx 0#32 0#32 0 ∧
    PortStops { withReg 0xFEBF0118 0xC011 base with script := List.replicate 5 idle ++ [sets 0xFEBF0118 0] } portCtx
      0xC011#32 0#32 2 ∧
    portCtx.hba.ready = true ∧ base.inUse (.port portCtx.p) = false :=
  ⟨rfl, onPort_base, ⟨by decide, by decide⟩, hbaWindow_base, by decide,
    ⟨rfl, .inl ⟨rfl, rfl, rfl⟩, by decide, rfl, by decide⟩, ⟨rfl, .inr rfl, by decide, rfl, by decide⟩, rfl, rfl⟩

/-- The registers of the controller known, with `CSTS.RDY` clear. -/
def ctrlKnown : State := withReg 0xFEB00000 0x000000200F0103FF (withReg 0xFEB00014 0x00460001 (withReg 0xFEB0001C 0 base))
/-- A controller that is not ready from the start, and one that is ready for as many looks as the budget leaves before the
last. -/
theorem witness_NvmeInitCompletes : ctrlKnown.pc.free = true ∧ OnQueue ctrlKnown 1#8 true adminCtx ∧
    rising ctrlKnown.nvme = true ∧ rising ctrlKnown.qp = true ∧ NvmeWindow ctrlKnown adminCtx ∧
    2 ≤ adminCtx.qp.qSize ∧ adminCtx.qp.qSize ≤ 4096 ∧
    (∀ e ∈ ctrlKnown.qpsOf adminCtx.qp.ctrl, e.2.aligned adminCtx.nv.pageBytes = true) ∧ ctrlKnown.arenaOk = true ∧
    alGet ctrlKnown.regs (adminCtx.reg 0x00) = some 0x000000200F0103FF#64 ∧
    Reads32 ctrlKnown (adminCtx.reg 0x14) 0x00460001#32 ∧ Disables ctrlKnown adminCtx ⟨0#32, 0#32, 0⟩ {} ∧
    Disables (withReg 0xFEB0001C 1 ctrlKnown) adminCtx ⟨1#32, 0#32, 2⟩ (sets 0xFEB0001C 0) ∧
    2 < ctrlKnown.cfg.resetBudget.toNat ∧ (1#32 : Word).getLsbD 0 = true ∧
    ({ ctrlKnown with
        script := List.replicate 5 idle ++ [sets 0xFEB0001C 0] ++ List.replicate 10 idle ++ [sets 0xFEB0001C 1] } : State).script
      = List.replicate (3 + 2) ({} : DevAct) ++ sets 0xFEB0001C 0 ::
        (List.replicate (4 + 2 * (ctrlKnown.qpsOf adminCtx.qp.ctrl).length + 2) ({} : DevAct)
          ++ [{ regs := [(adminCtx.reg 0x1C, some ((1#32 : Word).setWidth 64))] }]) :=
  ⟨rfl, onAdmin_base, by decide, by decide, nvmeWindow_base, by decide, by decide, by decide, by decide, rfl, rfl,
    ⟨rfl, .inl ⟨rfl, rfl, rfl⟩, by decide, rfl, by decide⟩, ⟨rfl, .inr rfl, by decide, rfl, by decide⟩, by decide, rfl,
    rfl⟩

theorem witness_BringUpFailures :
    (base.pc.free = true ∧ Quiet base ∧ OnHba base 0#8 portCtx ∧ base.inflight = none ∧ rising base.hba = true ∧
      HbaWindow base portCtx) ∧
    (OnPort base 0#8 portCtx ∧ PortArena base portCtx ∧ portCtx.hba.nSlots.toNat ≤ portCtx.port.ct.length ∧
      Reads32 (withReg 0xFEBF0118 0x4000 base) (portCtx.portReg 0x18) 0x4000#32 ∧
      0x4000#32 &&& 0xC000#32 ≠ (0#32 : Word) ∧ portCtx.hba.ready = true ∧ base.inUse (.port portCtx.p) = false) ∧
    (Quiet ctrlKnown ∧ OnQueue ctrlKnown 1#8 true adminCtx ∧ NvmeWindow ctrlKnown adminCtx ∧
      Reads32 (withReg 0xFEB0001C 1 ctrlKnown) (adminCtx.reg 0x1C) 1#32 ∧ (1#32 : Word).getLsbD 0 = true) ∧
    Reads32 ctrlKnown (adminCtx.reg 0x1C) 0#32 ∧ (0#32 : Word).getLsbD 0 = false ∧
    Reads32 ctrlKnown (adminCtx.reg 0x14) 0x00460001#32 ∧
    alGet ctrlKnown.regs (adminCtx.reg 0x00) = some 0x000000200F0103FF#64 ∧ ctrlKnown.cfg.resetBudget ≠ 0#32 :=
  ⟨⟨rfl, rfl, onPort_base.1, rfl, by decide, hbaWindow_base⟩,
    ⟨onPort_base, ⟨by decide, by decide⟩, by decide, rfl, by decide, rfl, rfl⟩,
    ⟨rfl, onAdmin_base, nvmeWindow_base, rfl, rfl⟩, rfl, rfl, rfl, rfl, by decide⟩

/-! ### Structure rows -/

/-- A command of eight blocks. -/
def entryEight : State := { entryHeld with x := { entryHeld.x with cnt := 8#16 } }

/-- The last entry that the table of eight holds, and a buffer that ends at the end of memory. -/
theorem witness_StructureRows :
    (slotHeld.pc = .slotAllocated ∧ SlotOn slotHeld slotHeld.x.dev portCtx 0x101100#64 ∧ portCtx.hba.nSlots.toNat ≤ 32 ∧
      PortArena slotHeld portCtx ∧ (CmdHdr.ctba { write := 1#1, prdtl := 2#16, ctba := 0x101100#64 } = 0x101100#64) ∧
      (CmdHdr.ctba { write := 1#1, prdtl := 2#16, ctba := 0x101101#64 } ≠ 0x101100#64) ∧
      0xE000#64 = slotHeld.x.buf + BitVec.ofNat 64 (8192 * 7) ∧
      slotHeld.x.buf.toNat + 8192 * 7 < addrSpace ∧ 7 < slotHeld.cfg.prdtCap ∧ (0xE000#64 : Quad).toNat % 2 = 0 ∧
      ((8191#22 : BitVec 22).toNat + 1) % 2 = 0 ∧
      BufferFits slotHeld slotHeld.x.isIdentify (0xE000#64 : Quad).toNat ((8191#22 : BitVec 22).toNat + 1)) ∧
    entryEight.pc = .slotAllocated ∧ EntryOn entryEight entryEight.x.dev (entryEight.x.flg.getLsbD 2) ioCtx ∧
    RingArena entryEight ioCtx ∧ (0xFFFFFFFFFFFFF000#64 : Quad).toNat % 4 = 0 ∧
    (0xFFFFFFFFFFFFF000#64 : Quad).toNat % ioCtx.nv.pageBytes = 0 ∧
    BufferFits entryEight entryEight.x.isIdentify (0xFFFFFFFFFFFFF000#64 : Quad).toNat
      (transferLength (entryEight.x.flg.getLsbD 1) entryEight.x.cnt ioCtx.dev) ∧
    (0xFFFFFFFFFFFFEFFC#64 : Quad).toNat % 4 = 0 ∧ (0xFFFFFFFFFFFFEFFC#64 : Quad).toNat % ioCtx.nv.pageBytes ≠ 0 ∧
    BufferFits entryEight entryEight.x.isIdentify (0xFFFFFFFFFFFFEFFC#64 : Quad).toNat
      (transferLength (entryEight.x.flg.getLsbD 1) entryEight.x.cnt ioCtx.dev) :=
  ⟨⟨rfl, slotOn_held, by decide, portArena_held, rfl, by decide, by decide, by decide, by decide, by decide, by decide,
      by decide, by decide⟩, rfl, ⟨⟨rfl, rfl, rfl, rfl, rfl⟩, rfl, by decide⟩, ringArena_held, by decide, by decide,
    ⟨by decide, by decide⟩, by decide, by decide, by decide, by decide⟩

theorem witness_CompletionRow : ringIssued.pc = .issued ∧
    EntryOn ringIssued ringIssued.x.dev (ringIssued.x.flg.getLsbD 2) ioCtx ∧
    (ioCtx.cqDoorbell + 4 ≤ addrSpace ∧ Answers answer ioCtx.qp ringIssued.x.cid ∧ answer.status = 0#11) ∧
    (Answers failure ioCtx.qp ringIssued.x.cid ∧ failure.status ≠ 0#11) ∧
    (({ answer with sqHead := 4#16 } : Cqe).phase = ioCtx.qp.phase ∧
      ioCtx.qp.qSize ≤ ({ answer with sqHead := 4#16 } : Cqe).sqHead.toNat) ∧
    (ringIssued.cfg.nvmeCheckCfs = false ∧ ({ answer with cid := 4#16 } : Cqe).cid ≠ ringIssued.x.cid ∧
      ({ answer with phase := 0#1 } : Cqe).phase ≠ ioCtx.qp.phase) ∧
    (foreignFatal.cfg.nvmeCheckCfs = true ∧ ioCtx.reg 0x1C + 4 ≤ addrSpace) ∧
    (Reads32 (tick (withReg 0xFEB0001C 3 foreignFatal)) (ioCtx.reg 0x1C) 3#32 ∧ (3#32 : Word).getLsbD 1 = true) ∧
    Reads32 (tick foreignFatal) (ioCtx.reg 0x1C) 1#32 ∧ (1#32 : Word).getLsbD 1 = false :=
  ⟨rfl, entryOn_issued, ⟨by decide, ⟨rfl, rfl, by decide⟩, rfl⟩, ⟨⟨rfl, rfl, by decide⟩, by decide⟩, ⟨rfl, by decide⟩,
    ⟨rfl, by decide, by decide⟩, ⟨rfl, by decide⟩, ⟨rfl, rfl⟩, rfl, rfl⟩

end Sys2Proof.Tests
end

/-!
SUPPORT. The dwords that the engine emits (30_encoding.md R116, R119, R122), and the proof of O6.
-/

namespace Sys2Proof.Proofs

open Sys2Proof Sys2Proof.Machine

/-! ## Command Header DW0 (30_encoding.md R116) -/

/-- The header of the current command carries the working registers `WR` and `NPRD`, whatever table it names. -/
theorem cmdHdr_dw0 (s : State) (table : Quad) :
    (s.cmdHdr table).dw0 = 5#32 ||| (s.x.wr.setWidth 32 <<< 6) ||| (s.x.nprd.setWidth 32 <<< 16) := rfl

/-- The worked values of R116. -/
theorem cmdHdr_dw0_worked :
    CmdHdr.dw0 { write := 0#1, prdtl := 1#16, ctba := 0#64 } = 0x00010005#32 ∧
    CmdHdr.dw0 { write := 1#1, prdtl := 1#16, ctba := 0#64 } = 0x00010045#32 ∧
    CmdHdr.dw0 { write := 0#1, prdtl := 8#16, ctba := 0#64 } = 0x00080005#32 ∧
    CmdHdr.dw0 { write := 1#1, prdtl := 64#16, ctba := 0#64 } = 0x00400045#32 := by decide

/-! ## DW3 of a PRDT entry and its `I` bit (30_encoding.md R119) -/

/-- The byte counts of R119 are those whose count minus one fits the 22 bits of `DBC`: none of it is cut off. -/
theorem prdtEntry_dw3_of_byteCount (a : Quad) (n : Nat) (last : BitVec 1) (hpos : 1 ≤ n) (hmax : n ≤ 4194304) :
    PrdtEntry.dw3 { dba := a, dbc := BitVec.ofNat 22 (n - 1), last := last }
      = BitVec.ofNat 32 (n - 1) ||| (last.setWidth 32 <<< 31) := by
  have hfits : n - 1 < 2 ^ 22 := by omega
  have hdbc : (BitVec.ofNat 22 (n - 1)).setWidth 32 = BitVec.ofNat 32 (n - 1) :=
    BitVec.setWidth_ofNat_of_le_of_lt (by decide) hfits
  rw [PrdtEntry.dw3, hdbc]

/-- The worked values of R119. -/
theorem prdtEntry_dw3_worked :
    PrdtEntry.dw3 { dba := 0#64, dbc := BitVec.ofNat 22 (8192 - 1), last := 0#1 } = 0x00001FFF#32 ∧
    PrdtEntry.dw3 { dba := 0#64, dbc := BitVec.ofNat 22 (8192 - 1), last := 1#1 } = 0x80001FFF#32 ∧
    PrdtEntry.dw3 { dba := 0#64, dbc := BitVec.ofNat 22 (512 - 1), last := 1#1 } = 0x800001FF#32 ∧
    PrdtEntry.dw3 { dba := 0#64, dbc := BitVec.ofNat 22 (4194304 - 1), last := 1#1 } = 0x803FFFFF#32 := by decide

/-- What stands at place `i` of the table for `cnt` sectors: entry `i`, and nothing behind the last entry. -/
theorem prdtOf_getElem?_eq_some_iff (buf : Quad) (cnt i : Nat) (e : PrdtEntry) :
    (prdtOf buf cnt)[i]? = some e ↔ i < prdtCount cnt ∧ prdtEntryOf buf cnt (prdtCount cnt) i = e := by
  simp [prdtOf, List.getElem?_eq_some_iff]

theorem prdtEntryOf_last_eq_one_iff (buf : Quad) (cnt n i : Nat) :
    (prdtEntryOf buf cnt n i).last = 1#1 ↔ i + 1 = n := by
  unfold prdtEntryOf
  split
  case isTrue hlast => exact iff_of_true rfl hlast
  case isFalse hlast => exact iff_of_false (show 0#1 ≠ 1#1 by decide) hlast

/-- The `I` bit stands in the last entry of a table and in no other. -/
theorem prdtOf_last_eq_one_iff (buf : Quad) (cnt i : Nat) (e : PrdtEntry) (hat : (prdtOf buf cnt)[i]? = some e) :
    e.last = 1#1 ↔ i + 1 = prdtCount cnt := by
  obtain ⟨-, rfl⟩ := (prdtOf_getElem?_eq_some_iff buf cnt i e).mp hat
  exact prdtEntryOf_last_eq_one_iff buf cnt (prdtCount cnt) i

/-! ## The `PxCI` write value (30_encoding.md R122) -/

/-- For a slot of the port the shift in 32 bits loses nothing, so the value is a power of two. -/
theorem ciValue_eq_twoPow (slot : Half) (hslot : slot.toNat < 32) : ciValue slot = BitVec.twoPow 64 slot.toNat := by
  refine BitVec.eq_of_toNat_eq ?_
  calc (ciValue slot).toNat
      = (BitVec.twoPow 32 slot.toNat).toNat := by
        rw [ciValue, ← BitVec.twoPow_eq, BitVec.toNat_setWidth_of_le (by decide)]
    _ = 2 ^ slot.toNat := BitVec.toNat_twoPow_of_lt hslot
    _ = (BitVec.twoPow 64 slot.toNat).toNat := (BitVec.toNat_twoPow_of_lt (by omega)).symm

theorem ciValue_eq_ofNat (slot : Half) (hslot : slot.toNat < 32) :
    ciValue slot = BitVec.ofNat 64 (2 ^ slot.toNat) := by
  rw [ciValue_eq_twoPow slot hslot]
  exact BitVec.eq_of_toNat_eq (by rw [BitVec.toNat_twoPow, BitVec.toNat_ofNat])

/-- Exactly one bit is set, the slot's own. -/
theorem ciValue_getLsbD_iff (slot : Half) (hslot : slot.toNat < 32) (j : Nat) :
    (ciValue slot).getLsbD j = true ↔ j = slot.toNat := by
  have hwidth : slot.toNat < 64 := by omega
  rw [ciValue_eq_twoPow slot hslot, BitVec.getLsbD_twoPow]
  simp [hwidth, eq_comm]

/-- The worked values of R122. -/
theorem ciValue_worked :
    ciValue 0#16 = 0x00000001#64 ∧ ciValue 5#16 = 0x00000020#64 ∧ ciValue 31#16 = 0x80000000#64 := by decide

/-- Settles O6: one lemma above for each rule, with its worked values. -/
theorem emittedDwords : Obligations.EmittedDwords :=
  ⟨⟨cmdHdr_dw0, cmdHdr_dw0_worked⟩,
    ⟨prdtEntry_dw3_of_byteCount, prdtOf_last_eq_one_iff, prdtEntry_dw3_worked⟩,
    ⟨fun slot hslot => ⟨ciValue_eq_ofNat slot hslot, ciValue_getLsbD_iff slot hslot⟩, ciValue_worked⟩⟩

end Sys2Proof.Proofs

/-!
SUPPORT. The PRDT covers the transfer exactly (42_descriptor_builder.md R193), and the proof of O23.
-/

namespace Sys2Proof.Proofs

open Sys2Proof Sys2Proof.Machine Sys2Proof.Laws

/-! ## The bytes one entry covers (R191) -/

theorem prdtSpan_of_lt {cnt n i : Nat} (hinner : i + 1 < n) : prdtSpan cnt n i = 8192 := by
  rw [prdtSpan, if_neg (Nat.ne_of_lt hinner), chunkBytes]

theorem prdtSpan_of_last {cnt n i : Nat} (hlast : i + 1 = n) : prdtSpan cnt n i = 512 * cnt - 8192 * i := by
  rw [prdtSpan, if_pos hlast, sectorBytes, chunkBytes]
  omega

/-- The last entry of a table covers at least one sector, and no entry more than 16 of them. -/
theorem prdtSpan_bounds {cnt i : Nat} (hi : i < prdtCount cnt) :
    512 ≤ prdtSpan cnt (prdtCount cnt) i ∧ prdtSpan cnt (prdtCount cnt) i ≤ 8192 := by
  rcases Nat.lt_or_eq_of_le (Nat.succ_le_of_lt hi) with hinner | hlast
  · rw [prdtSpan_of_lt hinner]
    omega
  · rw [prdtSpan_of_last hlast]
    rw [prdtCount_eq] at hlast
    omega

/-- No bit of the byte count is cut off in the 22 bits of `DBC` (30_encoding.md R119). -/
theorem prdtEntryOf_byteCount (buf : Quad) {cnt i : Nat} (hi : i < prdtCount cnt) :
    (prdtEntryOf buf cnt (prdtCount cnt) i).dbc.toNat + 1 = prdtSpan cnt (prdtCount cnt) i := by
  obtain ⟨hlow, hhigh⟩ := prdtSpan_bounds hi
  have hfits : prdtSpan cnt (prdtCount cnt) i - 1 < 2 ^ 22 := by omega
  rw [prdtEntryOf, BitVec.toNat_ofNat, Nat.mod_eq_of_lt hfits]
  omega

theorem prdtEntryOf_last_of_lt (buf : Quad) (cnt : Nat) {n i : Nat} (hinner : i + 1 < n) :
    (prdtEntryOf buf cnt n i).last = 0#1 := if_neg (Nat.ne_of_lt hinner)

/-! ## The whole table -/

/-- The inner entries cover 8192 bytes each, and the last covers what is left of the transfer. -/
theorem prdtSpan_sum {cnt : Nat} (hcnt : 1 ≤ cnt) :
    ((List.range (prdtCount cnt)).map (prdtSpan cnt (prdtCount cnt))).sum = 512 * cnt := by
  obtain ⟨m, hm⟩ : ∃ m, prdtCount cnt = m + 1 := ⟨prdtCount cnt - 1, by rw [prdtCount_eq]; omega⟩
  have hinner : (List.range m).map (prdtSpan cnt (m + 1)) = List.replicate m 8192 := by
    refine List.eq_replicate_iff.mpr ⟨by simp, fun b hb => ?_⟩
    obtain ⟨i, hi, rfl⟩ := List.mem_map.mp hb
    exact prdtSpan_of_lt (Nat.succ_lt_succ (List.mem_range.mp hi))
  have hroom : 8192 * m ≤ 512 * cnt := by rw [prdtCount_eq] at hm; omega
  rw [hm, List.range_succ, List.map_append, List.sum_append, hinner, List.sum_replicate, List.map_singleton,
    List.sum_singleton, prdtSpan_of_last rfl, smul_eq_mul]
  omega

theorem prdtOf_byteCounts_sum (buf : Quad) {cnt : Nat} (hcnt : 1 ≤ cnt) :
    ((prdtOf buf cnt).map fun e => e.dbc.toNat + 1).sum = 512 * cnt := by
  rw [← prdtSpan_sum hcnt, prdtOf, List.map_map]
  exact congrArg List.sum
    (List.map_congr_left fun i hi => prdtEntryOf_byteCount buf (List.mem_range.mp hi))

/-- What stands at each place: the address of its chunk, the bytes it covers, and `I` in the last alone. -/
theorem prdtOf_entry {buf : Quad} {cnt i : Nat} {e : PrdtEntry} (hat : (prdtOf buf cnt)[i]? = some e) :
    e.dba = buf + BitVec.ofNat 64 (8192 * i) ∧
      (i + 1 < prdtCount cnt → e.dbc.toNat + 1 = 8192 ∧ e.last = 0#1) ∧
      (i + 1 = prdtCount cnt → 512 ≤ e.dbc.toNat + 1 ∧ e.dbc.toNat + 1 ≤ 8192 ∧ e.last = 1#1) := by
  obtain ⟨hi, rfl⟩ := (prdtOf_getElem?_eq_some_iff buf cnt i e).mp hat
  have hcount := prdtEntryOf_byteCount buf hi
  obtain ⟨hlow, hhigh⟩ := prdtSpan_bounds hi
  refine ⟨?address, fun hinner => ⟨?innerBytes, ?innerBit⟩, fun hlast => ?last⟩
  case address => rw [prdtEntryOf, chunkBytes, Nat.mul_comm]
  case innerBytes => rw [hcount, prdtSpan_of_lt hinner]
  case innerBit => exact prdtEntryOf_last_of_lt buf cnt hinner
  case last =>
    rw [hcount]
    exact ⟨hlow, hhigh, (prdtEntryOf_last_eq_one_iff buf cnt (prdtCount cnt) i).mpr hlast⟩

/-- Settles O23: the number of entries, the sum over them, and each entry by its place. -/
theorem prdtCoversTransfer : Obligations.PrdtCoversTransfer := by
  intro buf cnt hcnt _
  rw [← prdtCount_eq]
  exact ⟨prdtOf_length buf cnt, prdtOf_byteCounts_sum buf hcnt, fun _ _ hat => prdtOf_entry hat⟩

end Sys2Proof.Proofs

/-!
SUPPORT. When the builders report TooManyDescriptors (42_descriptor_builder.md R192), and the proof of O27.
-/

namespace Sys2Proof.Proofs

open Sys2Proof Sys2Proof.Machine Sys2Proof.Laws

theorem exec_prdtBuild (r : Request) (s : State) : exec (.prdtBuild r) s =
    operation (.prdtBuild r) s.pc.isSlotAllocated true (prdtStep (s.acceptedMicro 0x20#8 r)) := rfl

theorem exec_ahciBuild (r : Request) (s : State) : exec (.ahciBuild r) s =
    operation (.ahciBuild r) s.pc.isSlotAllocated true (ahciBuildStep (s.acceptedMicro 0x23#8 r)) := rfl

/-- The command of `s` needs more PRDT entries than a table holds: the condition of R192. -/
def needsTooMany (s : State) : Prop := prdtLimit s.cfg < prdtCount s.x.cnt.toNat

/-- For a request the condition is the one R192 writes out, as 65535 sectors need no more than 4096 entries. -/
theorem needsTooMany_acceptedMicro (op : Byte) (r : Request) (s : State) :
    needsTooMany (s.acceptedMicro op r) ↔ s.cfg.prdtCap < (r.cnt.toNat + 15) / 16 :=
  prdtLimit_lt s.cfg r.cnt

/-! ## Which way a builder ends -/

/-- An operation that raises `e` where `cond` holds, and succeeds where it does not, reports `e` exactly there. -/
theorem res_eq_code_iff_of_ends {i : Instr} {pcOk v : Bool} {m : Flow Unit} {t : State} {e : Err} {cond : Prop}
    (hm : Ends m (fun _ _ => ¬ cond) fun u => cond ∧ u.x.res = e.code) (ht : operation i pcOk v m = .next t) :
    t.x.res = e.code ↔ cond := by
  rcases hm.next ht with ⟨u, hnot, rfl⟩ | ⟨u, ⟨hcond, hres⟩, rfl⟩
  · exact iff_of_false (code_ne_zero e).symm hnot
  · exact iff_of_true hres hcond

theorem ends_prdtStep_needsTooMany (s : State) :
    Ends (prdtStep s) (fun _ _ => ¬ needsTooMany s)
      fun u => needsTooMany s ∧ u.x.res = Err.tooManyDescriptors.code := by
  refine (ends_prdtStep s).mono ?_ ?_
  · rintro - t ⟨c, u, -, hle, -⟩
    exact Nat.not_lt.mpr hle
  · rintro t ⟨c, -, hlt, rfl⟩
    exact ⟨hlt, rfl⟩

/-- FIS.BUILD and HDR.BUILD raise no error, so AHCI.BUILD ends as PRDT.BUILD does. -/
theorem ends_ahciBuildStep_needsTooMany (s : State) :
    Ends (ahciBuildStep s) (fun _ _ => ¬ needsTooMany s)
      fun u => needsTooMany s ∧ u.x.res = Err.tooManyDescriptors.code := by
  unfold ahciBuildStep
  refine (ends_prdtStep_needsTooMany s).bind fun _ t hnot => ?_
  refine (ends_fisStep t).bind fun _ u _ => ?_
  refine (ends_hdrStep u).bind fun _ v _ => ?_
  exact ends_go hnot

/-! ## The state a refused table leaves -/

/-- The error comes before any store: only `pc`, the claim and `RES` change. -/
theorem prdtStep_tooMany {s : State} {c : AhciCtx} {table : Quad} (hslot : SlotOn s s.x.dev c table)
    (hover : needsTooMany s) : prdtStep s = .stop (raised .tooManyDescriptors .idle s) := by
  unfold needsTooMany at hover
  rw [prdtStep, ahciSlot_of hslot rfl, bind_go, if_pos hover, raise_eq]

theorem ahciBuildStep_tooMany {s : State} {c : AhciCtx} {table : Quad} (hslot : SlotOn s s.x.dev c table)
    (hover : needsTooMany s) : ahciBuildStep s = .stop (raised .tooManyDescriptors .idle s) := by
  rw [ahciBuildStep, prdtStep_tooMany hslot hover, bind_stop]

/-- The response of a builder whose body ends so, in terms of the state before the request was accepted. -/
theorem operation_tooMany {i : Instr} {op : Byte} {r : Request} {s : State} {m : Flow Unit} {v : Bool}
    (hpc : s.pc = .slotAllocated) (hwf : i.WellFormed)
    (hm : m = .stop (raised .tooManyDescriptors .idle (s.acceptedMicro op r))) :
    operation i s.pc.isSlotAllocated v m = .next (respond false
      { s with pc := .idle, claim := none, x := { loadedMicro op r s.x with res := 2#8 } }) := by
  rw [operation_wf hwf (by rw [hpc]; rfl), hm, endOp_stop]
  rfl

/-- Settles O27: both builders by which way their PRDT part ends, and by the state it ends in. -/
theorem tooManyDescriptorsExactly : Obligations.TooManyDescriptorsExactly := by
  intro r s t
  refine ⟨?reported, fun c table hpc hslot hcap => ?nothingStored⟩
  case reported =>
    rintro (hprdt | hahci)
    · rw [exec_prdtBuild] at hprdt
      rw [res_eq_code_iff_of_ends (ends_prdtStep_needsTooMany _) hprdt, needsTooMany_acceptedMicro]
    · rw [exec_ahciBuild] at hahci
      rw [res_eq_code_iff_of_ends (ends_ahciBuildStep_needsTooMany _) hahci, needsTooMany_acceptedMicro]
  case nothingStored =>
    have hover (op : Byte) := (needsTooMany_acceptedMicro op r s).mpr hcap
    refine ⟨fun hwf => ?_, fun hwf => ?_⟩
    · rw [exec_prdtBuild]
      exact operation_tooMany hpc hwf (prdtStep_tooMany (slotOn_accepted _ r hslot) (hover _))
    · rw [exec_ahciBuild]
      exact operation_tooMany hpc hwf (ahciBuildStep_tooMany (slotOn_accepted _ r hslot) (hover _))

end Sys2Proof.Proofs

/-!
SUPPORT. When a block operation reports OutOfRange (45_block_api.md R265), and the proof of O47.
-/

namespace Sys2Proof.Proofs

open Sys2Proof Sys2Proof.Machine Sys2Proof.Laws

theorem exec_readBlocks (r : Request) (s : State) : exec (.readBlocks r) s =
    operation (.readBlocks r) s.pc.free false
      (blockStep 0#1 s.cfg.ataCmdRead s.cfg.nvmeOpcRead (s.accepted 0x50#8 r)) := rfl

theorem exec_writeBlocks (r : Request) (s : State) : exec (.writeBlocks r) s =
    operation (.writeBlocks r) s.pc.free false
      (blockStep 1#1 s.cfg.ataCmdWrite s.cfg.nvmeOpcWrite (s.accepted 0x51#8 r)) := rfl

/-- A block operation is well formed when it names at least one block (30_encoding.md R131). -/
theorem firstDefect_cntOk {r : Request} (hcnt : r.cnt ≠ 0#16) :
    firstDefect [(r.cntOk, .countZero)] = none := by
  have hok : r.cntOk = true := bne_iff_ne.mpr hcnt
  rw [firstDefect, hok]
  rfl

/-! ## The range check -/

/-- The sum the check forms is over natural numbers, so it does not wrap. -/
theorem outOfRange_accepted {capacity : Quad} (op : Byte) (r : Request) (s : State) :
    outOfRange capacity (s.accepted op r).x = true ↔ capacity.toNat < r.lba.toNat + r.cnt.toNat :=
  decide_eq_true_iff

theorem device_accepted {s : State} {r : Request} {d : Dev} (op : Byte) (hdev : alGet s.dev r.dev.toNat = some d) :
    (s.accepted op r).device = .ok d := device_eq_ok.mpr hdev

section BlockStep

variable {s : State} {d : Dev} (wr : BitVec 1) (ata opc : Byte)

/-- Above the capacity nothing is accessed: only `pc`, the claim and `RES` change. -/
theorem blockStep_outOfRange (hdev : s.device = .ok d) (hover : outOfRange d.capacity s.x = true) :
    blockStep wr ata opc s = .stop (raised .outOfRange .idle s) := by
  rw [blockStep, hdev, needOk_ok, bind_go, if_pos hover, raise_eq]

/-- Within the capacity only the engine of the device can report an error. -/
theorem control_blockStep_inRange (hdev : s.device = .ok d) (hin : ¬ outOfRange d.capacity s.x = true) :
    Control (blockStep wr ata opc s) (· = .completed) s.x.raw (ahciErrors ++ nvmeErrors) := by
  rw [blockStep, hdev, needOk_ok, bind_go, if_neg hin]
  cases d.kind with
  | ahci =>
    refine (control_need _ _ (any s)).bind fun _ t ht => ?_
    exact control_ahciCmdStep ⟨trivial, ht.raw⟩ fun _ he => List.mem_append_left nvmeErrors he
  | nvme => exact control_nvmeCmdStep ⟨trivial, rfl⟩ fun _ he => List.mem_append_right ahciErrors he

/-! ## Which error is reported -/

/-- A part that can end only with the errors `L` does not report an error outside `L`. -/
theorem ends_res_ne_of_control {α : Type} {m : Flow α} {P : Pc → Prop} {w : Word} {L : List Err} {e : Err}
    (hm : Control m P w L) (he : e ∉ L) : Ends m (fun _ _ => True) fun u => u.x.res ≠ e.code := by
  refine hm.ends.mono (fun _ _ _ => trivial) ?_
  rintro u ⟨f, hf, hres, -, -⟩ hcode
  have hef : f = e := code_inj (hres.symm.trans hcode)
  exact he (hef ▸ hf)

/-- The range check decides whether OutOfRange is reported, as the engines do not report it. -/
theorem ends_blockStep_outOfRange (hdev : s.device = .ok d) :
    Ends (blockStep wr ata opc s) (fun _ _ => ¬ outOfRange d.capacity s.x = true)
      fun u => u.x.res = Err.outOfRange.code ↔ outOfRange d.capacity s.x = true := by
  by_cases hover : outOfRange d.capacity s.x = true
  case pos =>
    rw [blockStep_outOfRange wr ata opc hdev hover]
    exact ends_stop (iff_of_true rfl hover)
  case neg =>
    have hengine := ends_res_ne_of_control (control_blockStep_inRange wr ata opc hdev hover)
      (show Err.outOfRange ∉ ahciErrors ++ nvmeErrors by decide)
    exact hengine.mono (fun _ _ _ => hover) fun _ hne => iff_of_false hne hover

/-- The same of the response of the operation whose body it is. -/
theorem res_eq_outOfRange_iff {i : Instr} {pcOk v : Bool} {t : State} (hdev : s.device = .ok d)
    (ht : operation i pcOk v (blockStep wr ata opc s) = .next t) :
    t.x.res = Err.outOfRange.code ↔ outOfRange d.capacity s.x = true := by
  rcases (ends_blockStep_outOfRange wr ata opc hdev).next ht with ⟨u, hin, rfl⟩ | ⟨u, hiff, rfl⟩
  · exact iff_of_false (code_ne_zero _).symm hin
  · exact hiff

/-- The response above the capacity, in terms of the state before the request was accepted. -/
theorem operation_outOfRange {i : Instr} {op : Byte} {r : Request} (hwf : i.WellFormed) (hpc : s.pc.free = true)
    (hdev : alGet s.dev r.dev.toNat = some d) (hover : d.capacity.toNat < r.lba.toNat + r.cnt.toNat) :
    operation i s.pc.free false (blockStep wr ata opc (s.accepted op r)) = .next (respond false
      { s with pc := .idle, claim := none, x := { loaded op r s.x with res := 8#8 } }) := by
  rw [operation_wf hwf hpc, blockStep_outOfRange wr ata opc (device_accepted op hdev)
    ((outOfRange_accepted op r s).mpr hover), endOp_stop]
  rfl

end BlockStep

/-- Settles O47: for both operations the range check decides, and it comes before any access. -/
theorem outOfRangeExactly : Obligations.OutOfRangeExactly := by
  intro r s d hdev
  refine ⟨fun t => ?reported, fun hpc hcnt hover => ?nothingAccessed⟩
  case reported =>
    rintro (hread | hwrite)
    · rw [exec_readBlocks] at hread
      rw [res_eq_outOfRange_iff _ _ _ (device_accepted _ hdev) hread, outOfRange_accepted]
    · rw [exec_writeBlocks] at hwrite
      rw [res_eq_outOfRange_iff _ _ _ (device_accepted _ hdev) hwrite, outOfRange_accepted]
  case nothingAccessed =>
    have hwf := firstDefect_cntOk hcnt
    rw [exec_readBlocks, exec_writeBlocks]
    exact ⟨operation_outOfRange _ _ _ hwf hpc hdev hover, operation_outOfRange _ _ _ hwf hpc hdev hover⟩

end Sys2Proof.Proofs

/-!
SUPPORT. Requests and structures as bytes (30_encoding.md sections 1 to 3), and the proofs of O1 to O5.
-/

namespace Sys2Proof.Proofs

open Sys2Proof Sys2Proof.Machine Sys2Proof.Laws

/-! ## Operations and their codes (30_encoding.md R112) -/

/-- An operation stands in the table of R112 under the code that its request carries. -/
theorem encode_eq_bytes_of_request {i : Instr} {r : Request} (h : i.request? = some r) :
    ∃ opc, opc < 256 ∧ encode i = r.bytes opc ∧ opcInstr opc r = some i := by
  cases i <;> cases h <;> exact ⟨_, by decide, rfl, rfl⟩

/-- The table names each operation by the code it is encoded with. -/
theorem encode_of_opcInstr {opc : Nat} {r : Request} {i : Instr} (h : opcInstr opc r = some i) :
    encode i = r.bytes opc := by
  unfold opcInstr at h
  split at h <;> cases h <;> rfl

/-- The table has an entry at each of the 34 codes. -/
theorem opcInstr_isSome_of_mem {opc : Nat} (r : Request) (h : opc ∈ operationCodes) :
    (opcInstr opc r).isSome = true := by
  simp only [operationCodes, List.mem_cons, List.not_mem_nil, or_false] at h
  rcases h with rfl | rfl | rfl | rfl | rfl | rfl | rfl | rfl | rfl | rfl | rfl | rfl | rfl | rfl | rfl | rfl | rfl |
    rfl | rfl | rfl | rfl | rfl | rfl | rfl | rfl | rfl | rfl | rfl | rfl | rfl | rfl | rfl | rfl | rfl <;> rfl

/-- It has no other entry. -/
theorem mem_of_opcInstr {opc : Nat} {r : Request} {i : Instr} (h : opcInstr opc r = some i) :
    opc ∈ operationCodes := by
  unfold opcInstr at h
  split at h
  all_goals first | cases h; done | simp [operationCodes]

/-- Settles O1: every operation is encoded with a code that the table maps back to it. -/
theorem decodeEncodeRequest : Obligations.DecodeEncodeRequest := by
  intro i hi
  obtain ⟨r, hr⟩ := Option.isSome_iff_exists.mp hi
  obtain ⟨opc, hopc, henc, htab⟩ := encode_eq_bytes_of_request hr
  rw [henc]
  exact decode_bytes hopc htab

/-! ## Bytes from their fields -/

/-- The fields of the sizes `ns`, one behind the other from `off` on, as bytes. -/
def fieldBytes (bs : List Byte) : Nat → List Nat → List Byte
  | _, [] => []
  | off, n :: ns => leBytes n (field bs off n) ++ fieldBytes bs (off + n) ns

/-- Fields up to the end of a record are the record from there on. -/
theorem fieldBytes_eq_drop {bs : List Byte} {ns : List Nat} {off : Nat} (h : off + ns.sum = bs.length) :
    fieldBytes bs off ns = bs.drop off := by
  induction ns generalizing off with
  | nil => exact (List.drop_eq_nil_of_le (Nat.le_of_eq h.symm)).symm
  | cons n ns ih =>
    rw [List.sum_cons] at h
    rw [fieldBytes, leBytes_field (by omega), ih (by omega), ← List.drop_drop, List.take_append_drop]

/-- All fields of a record are the record. -/
theorem fieldBytes_all {bs : List Byte} {ns : List Nat} (h : ns.sum = bs.length) : fieldBytes bs 0 ns = bs := by
  rw [fieldBytes_eq_drop (by omega), List.drop_zero]

/-- Zero bytes as a field that reads 0. -/
theorem zeros_eq_leBytes_field {bs : List Byte} {off n : Nat} (h : field bs off n = 0) :
    zeros n = leBytes n (field bs off n) := by
  rw [h, leBytes_zero]

/-- A field fits the register of its own size. -/
theorem toNat_ofNat_field (bs : List Byte) (off n : Nat) {w : Nat} (hw : 256 ^ n ≤ 2 ^ w) :
    (BitVec.ofNat w (field bs off n)).toNat = field bs off n := by
  rw [BitVec.toNat_ofNat, Nat.mod_eq_of_lt (Nat.lt_of_lt_of_le (field_lt bs off n) hw)]

/-- The decoded fields of 32 bytes whose reserved dwords are zero encode back to the bytes. -/
theorem bytes_decodeFields {bs : List Byte} (hlen : bs.length = 32) (hres : field bs 24 8 = 0) :
    (decodeFields bs).bytes (field bs 0 1) = bs := by
  unfold Request.bytes decodeFields
  rw [toNat_ofNat_field _ _ _ (by decide), toNat_ofNat_field _ _ _ (by decide), toNat_ofNat_field _ _ _ (by decide),
    toNat_ofNat_field _ _ _ (by decide), toNat_ofNat_field _ _ _ (by decide), zeros_eq_leBytes_field hres]
  refine Eq.trans ?_ (fieldBytes_all (ns := [1, 1, 2, 4, 8, 8, 8]) hlen.symm)
  simp [fieldBytes]

/-- What decodes as a request: 32 bytes, reserved dwords zero, a code of the table. -/
theorem decode_eq_ok {bs : List Byte} {i : Instr} :
    decode bs = .ok i ↔
      bs.length = 32 ∧ field bs 24 8 = 0 ∧ opcInstr (field bs 0 1) (decodeFields bs) = some i := by
  unfold decode
  by_cases hlen : bs.length = 32 <;> by_cases hres : field bs 24 8 = 0 <;>
    cases htab : opcInstr (field bs 0 1) (decodeFields bs) <;> simp [hlen, hres]

theorem encode_of_decode {bs : List Byte} {i : Instr} (h : decode bs = .ok i) : encode i = bs := by
  obtain ⟨hlen, hres, htab⟩ := decode_eq_ok.mp h
  rw [encode_of_opcInstr htab, bytes_decodeFields hlen hres]

/-- Settles O4: the three tests of the decoder in their order. -/
theorem decodeRefusals : Obligations.DecodeRefusals := by
  intro bs
  refine ⟨fun hlen => ?length, fun hlen hres => ?reserved, fun hlen hres hopc => ?unlisted,
    fun hlen hres hopc => ?listed⟩
  case length => rw [decode, if_pos hlen]
  case reserved => rw [decode, if_neg (not_not_intro hlen), if_pos hres]
  case unlisted =>
    have htab : opcInstr (field bs 0 1) (decodeFields bs) = none :=
      Option.eq_none_iff_forall_ne_some.mpr fun i hi => hopc (mem_of_opcInstr hi)
    simp [decode, hlen, hres, htab]
  case listed =>
    obtain ⟨i, hi⟩ := Option.isSome_iff_exists.mp (opcInstr_isSome_of_mem (decodeFields bs) hopc)
    exact ⟨i, hi, decode_eq_ok.mpr ⟨hlen, hres, hi⟩⟩

/-- Settles O5: the decoders evaluated on the written words. -/
theorem decodeWrittenWords : Obligations.DecodeWrittenWords := by
  unfold Obligations.DecodeWrittenWords
  decide

end Sys2Proof.Proofs

/-!
SUPPORT. The structures of the operation table as bytes (30_encoding.md sections 2 and 3), and the proofs of O2 and O3.
-/

namespace Sys2Proof.Proofs

open Sys2Proof Sys2Proof.Machine Sys2Proof.Laws

/-! ## Dwords put together from fields -/

/-- Fields that share no bit add up. -/
theorem toNat_or_setWidth_shiftLeft {a : Word} {m k : Nat} (b : BitVec m) (ha : a.toNat < 2 ^ k) (hm : m + k ≤ 32) :
    (a ||| (b.setWidth 32 <<< k)).toNat = a.toNat + 2 ^ k * b.toNat := by
  have hb : b.toNat < 2 ^ m := b.isLt
  have hfit : b.toNat * 2 ^ k < 2 ^ 32 :=
    calc b.toNat * 2 ^ k < 2 ^ m * 2 ^ k := Nat.mul_lt_mul_of_pos_right hb (Nat.two_pow_pos k)
      _ = 2 ^ (m + k) := (Nat.pow_add 2 m k).symm
      _ ≤ 2 ^ 32 := Nat.pow_le_pow_right (by decide) hm
  have hb32 : b.toNat < 2 ^ 32 :=
    Nat.lt_of_le_of_lt (Nat.le_mul_of_pos_right _ (Nat.two_pow_pos k)) hfit
  rw [BitVec.toNat_or, BitVec.toNat_shiftLeft, BitVec.toNat_setWidth, Nat.mod_eq_of_lt hb32, Nat.shiftLeft_eq,
    Nat.mod_eq_of_lt hfit, ← Nat.shiftLeft_eq, Nat.or_comm, ← Nat.shiftLeft_add_eq_or_of_lt ha, Nat.shiftLeft_eq]
  ring

theorem cmdHdr_dw0_toNat (h : CmdHdr) : h.dw0.toNat = 5 + 64 * h.write.toNat + 65536 * h.prdtl.toNat := by
  have hw := h.write.isLt
  have hlow : (5#32 ||| (h.write.setWidth 32 <<< 6)).toNat = 5 + 64 * h.write.toNat :=
    toNat_or_setWidth_shiftLeft h.write (by decide) (by decide)
  rw [CmdHdr.dw0, toNat_or_setWidth_shiftLeft _ (by rw [hlow]; omega) (by decide), hlow]
  omega

theorem prdtEntry_dw3_toNat (e : PrdtEntry) : e.dw3.toNat = e.dbc.toNat + 2147483648 * e.last.toNat := by
  have hd := e.dbc.isLt
  have hlow : (e.dbc.setWidth 32).toNat = e.dbc.toNat := BitVec.toNat_setWidth_of_le (by decide)
  rw [PrdtEntry.dw3, toNat_or_setWidth_shiftLeft _ (by rw [hlow]; omega) (by decide), hlow]
  omega

theorem cqe_dw2_toNat (e : Cqe) : e.dw2.toNat = e.sqHead.toNat + 65536 * e.sqId.toNat := by
  have hs := e.sqHead.isLt
  have hlow : (e.sqHead.setWidth 32).toNat = e.sqHead.toNat := BitVec.toNat_setWidth_of_le (by decide)
  rw [Cqe.dw2, toNat_or_setWidth_shiftLeft _ (by rw [hlow]; omega) (by decide), hlow]
  omega

theorem cqe_dw3_toNat (e : Cqe) :
    e.dw3.toNat = e.cid.toNat + 65536 * (e.phase.toNat + 2 * e.status.toNat + 4096 * e.high.toNat) := by
  have hc := e.cid.isLt
  have hp := e.phase.isLt
  have hs := e.status.isLt
  have h0 : (e.cid.setWidth 32).toNat = e.cid.toNat := BitVec.toNat_setWidth_of_le (by decide)
  have h1 : (e.cid.setWidth 32 ||| (e.phase.setWidth 32 <<< 16)).toNat = e.cid.toNat + 65536 * e.phase.toNat := by
    rw [toNat_or_setWidth_shiftLeft _ (by rw [h0]; omega) (by decide), h0]
    omega
  have h2 : (e.cid.setWidth 32 ||| (e.phase.setWidth 32 <<< 16) ||| (e.status.setWidth 32 <<< 17)).toNat
      = e.cid.toNat + 65536 * e.phase.toNat + 131072 * e.status.toNat := by
    rw [toNat_or_setWidth_shiftLeft _ (by rw [h1]; omega) (by decide), h1]
    omega
  rw [Cqe.dw3, toNat_or_setWidth_shiftLeft _ (by rw [h2]; omega) (by decide), h2]
  omega

/-! ## The fields of the encoded structures -/

/-- The fields of an encoded FIS (30_encoding.md R120). -/
theorem fis_fields (cmd : Byte) (f : Fis) :
    field (f.bytes cmd) 0 1 = 0x27 ∧ field (f.bytes cmd) 1 1 = f.flags.toNat ∧ field (f.bytes cmd) 2 1 = cmd.toNat ∧
    field (f.bytes cmd) 3 1 = 0 ∧ field (f.bytes cmd) 4 3 = f.lba.toNat % 16777216 ∧
    field (f.bytes cmd) 7 1 = (fisDevice f.noLba).toNat ∧ field (f.bytes cmd) 8 3 = f.lba.toNat / 16777216 ∧
    field (f.bytes cmd) 11 1 = 0 ∧ field (f.bytes cmd) 12 2 = f.cnt.toNat ∧ field (f.bytes cmd) 14 6 = 0 := by
  have hl := f.lba.isLt
  have hc := f.cnt.isLt
  refine ⟨?_, ?_, ?_, ?_, ?_, ?_, ?_, ?_, ?_, ?_⟩ <;>
    simp [field, Fis.bytes, leBytes, leNat, zeros, List.replicate] <;> omega

theorem cmdHdr_fields (h : CmdHdr) :
    field h.bytes 0 1 = 5 + 64 * h.write.toNat ∧ field h.bytes 1 1 = 0 ∧ field h.bytes 2 2 = h.prdtl.toNat ∧
    field h.bytes 4 4 = 0 ∧ field h.bytes 8 8 = h.ctba.toNat ∧ field h.bytes 16 16 = 0 := by
  have hw := h.write.isLt
  have hp := h.prdtl.isLt
  have hc := h.ctba.isLt
  refine ⟨?_, ?_, ?_, ?_, ?_, ?_⟩ <;>
    simp [field, CmdHdr.bytes, cmdHdr_dw0_toNat, leBytes, leNat, zeros, List.replicate] <;> omega

theorem prdtEntry_fields (e : PrdtEntry) :
    field e.bytes 0 8 = e.dba.toNat ∧ field e.bytes 8 4 = 0 ∧
    field e.bytes 12 4 = e.dbc.toNat + 2147483648 * e.last.toNat := by
  have ha := e.dba.isLt
  have hd := e.dbc.isLt
  have hl := e.last.isLt
  refine ⟨?_, ?_, ?_⟩ <;>
    simp [field, PrdtEntry.bytes, prdtEntry_dw3_toNat, leBytes, leNat] <;> omega

theorem cqe_fields (e : Cqe) :
    field e.bytes 0 4 = e.cdw0.toNat ∧ field e.bytes 4 4 = e.rsvd.toNat ∧ field e.bytes 8 2 = e.sqHead.toNat ∧
    field e.bytes 10 2 = e.sqId.toNat ∧ field e.bytes 12 2 = e.cid.toNat ∧
    field e.bytes 14 2 = e.phase.toNat + 2 * e.status.toNat + 4096 * e.high.toNat := by
  have h0 := e.cdw0.isLt
  have h1 := e.rsvd.isLt
  have h2 := e.sqHead.isLt
  have h3 := e.sqId.isLt
  have h4 := e.cid.isLt
  have h5 := e.phase.isLt
  have h6 := e.status.isLt
  have h7 := e.high.isLt
  refine ⟨?_, ?_, ?_, ?_, ?_, ?_⟩ <;>
    simp [field, Cqe.bytes, cqe_dw2_toNat, cqe_dw3_toNat, leBytes, leNat] <;> omega

/-! ## The rows that a command code names -/

/-- The row of the table that a FIS with command byte `cmd` is (30_encoding.md R128). -/
def fisRow (cmd : Nat) (f : Fis) : Option Instr :=
  match cmd with
  | 0x25 => some (.fisReadDmaExt f)
  | 0x35 => some (.fisWriteDmaExt f)
  | 0xEC => some (.fisIdentifyDevice f)
  | _ => none

/-- The row of the table that a submission entry with opcode `opc` is (30_encoding.md R128). -/
def sqeRow (opc : Nat) (e : Sqe) : Option Instr :=
  match opc with
  | 0x01 => some (.sqeWrite e)
  | 0x02 => some (.sqeRead e)
  | 0x06 => some (.sqeIdentify e)
  | _ => none

/-- A row is encoded with the command byte that names it. -/
theorem encode_of_fisRow {cmd : Nat} {f : Fis} {i : Instr} (h : fisRow cmd f = some i) :
    i.structFormat? = some .h2dFis ∧ encode i = f.bytes (BitVec.ofNat 8 cmd) := by
  unfold fisRow at h
  split at h <;> cases h <;> exact ⟨rfl, rfl⟩

theorem encode_of_sqeRow {opc : Nat} {e : Sqe} {i : Instr} (h : sqeRow opc e = some i) :
    i.structFormat? = some .sqe ∧ encode i = e.bytes (BitVec.ofNat 8 opc) := by
  unfold sqeRow at h
  split at h <;> cases h <;> exact ⟨rfl, rfl⟩

/-- The variable fields that the decoder of a FIS reads. -/
def fisFields (bs : List Byte) : Fis :=
  { flags := BitVec.ofNat 8 (field bs 1 1)
    noLba := field bs 7 1 == 0
    lba := BitVec.ofNat 48 (field bs 4 3 + 16777216 * field bs 8 3)
    cnt := BitVec.ofNat 16 (field bs 12 2) }

/-- The variable fields that the decoder of a submission entry reads. -/
def sqeFields (bs : List Byte) : Sqe :=
  { cid := BitVec.ofNat 16 (field bs 2 2)
    nsid := BitVec.ofNat 32 (field bs 4 4)
    prp1 := BitVec.ofNat 64 (field bs 24 8)
    cdw10 := BitVec.ofNat 32 (field bs 40 4)
    cdw11 := BitVec.ofNat 32 (field bs 44 4)
    cdw12 := BitVec.ofNat 32 (field bs 48 4) }

/-- What decodes as a FIS: the constant bytes as R120 has them, and a command byte of the table. -/
theorem decodeFis_eq_some {bs : List Byte} {i : Instr} :
    decodeFis bs = some i ↔
      (bs.length = 20 ∧ field bs 0 1 = 0x27 ∧ field bs 3 1 = 0 ∧ field bs 11 1 = 0 ∧ field bs 14 6 = 0 ∧
        (field bs 7 1 = 0x40 ∨ field bs 7 1 = 0)) ∧ fisRow (field bs 2 1) (fisFields bs) = some i := by
  unfold decodeFis
  split
  case isTrue hbad => exact iff_of_false (by simp) (by tauto)
  case isFalse hok =>
    refine Iff.trans (iff_of_eq ?_) (and_iff_right (by tauto)).symm
    rfl

/-- What decodes as a submission entry: zero in every unnamed field, and an opcode of the table. -/
theorem decodeSqe_eq_some {bs : List Byte} {i : Instr} :
    decodeSqe bs = some i ↔
      (bs.length = 64 ∧ field bs 1 1 = 0 ∧ field bs 8 16 = 0 ∧ field bs 32 8 = 0 ∧ field bs 52 12 = 0) ∧
        sqeRow (field bs 0 1) (sqeFields bs) = some i := by
  unfold decodeSqe
  split
  case isTrue hbad => exact iff_of_false (by simp) (by tauto)
  case isFalse hok =>
    refine Iff.trans (iff_of_eq ?_) (and_iff_right (by tauto)).symm
    rfl

/-! ## Decoding what has been encoded -/

theorem fisFields_bytes (cmd : Byte) (f : Fis) : fisFields (f.bytes cmd) = f := by
  obtain ⟨-, hflags, -, -, hlow, hdev, hhigh, -, hcnt, -⟩ := fis_fields cmd f
  obtain ⟨flags, noLba, lba, cnt⟩ := f
  rw [fisFields, hflags, hlow, hdev, hhigh, hcnt, Nat.mod_add_div]
  cases noLba <;> simp [fisDevice]

theorem decodeFis_bytes {cmd : Byte} {f : Fis} {i : Instr} (h : fisRow cmd.toNat f = some i) :
    decodeFis (f.bytes cmd) = some i := by
  obtain ⟨htype, -, hcmd, hpm, -, hdev, -, hfeat, -, hrest⟩ := fis_fields cmd f
  have hbyte : (fisDevice f.noLba).toNat = 0x40 ∨ (fisDevice f.noLba).toNat = 0 := by
    cases f.noLba <;> simp [fisDevice]
  rw [decodeFis_eq_some, fisFields_bytes, hcmd, hdev]
  exact ⟨⟨fis_length cmd f, htype, hpm, hfeat, hrest, hbyte⟩, h⟩

/-- The two bytes of the halfword that a record starts with, and the halfword behind it. -/
theorem field_dword_parts {bs : List Byte} (h : 4 ≤ bs.length) :
    field bs 0 4 = field bs 0 1 + 256 * field bs 1 1 + 65536 * field bs 2 2 ∧
      field bs 0 1 < 256 ∧ field bs 1 1 < 256 := by
  have hlow := field_add bs 0 1 1 (by omega)
  have hword := field_add bs 0 2 2 (by omega)
  rw [Nat.zero_add] at hlow hword
  refine ⟨?_, field_lt bs 0 1, field_lt bs 1 1⟩
  rw [hword, hlow]
  rfl

theorem decodeSqe_bytes {opc : Byte} {e : Sqe} {i : Instr} (h : sqeRow opc.toNat e = some i) :
    decodeSqe (e.bytes opc) = some i := by
  have hopc := opc.isLt
  obtain ⟨h0, hnsid, hz1, hprp, hz2, h10, h11, h12, hz3⟩ := sqe_fields opc e
  obtain ⟨hdword, hlt0, hlt1⟩ := field_dword_parts (bs := e.bytes opc) (by simp)
  rw [h0] at hdword
  have hbyte0 : field (e.bytes opc) 0 1 = opc.toNat := by omega
  have hbyte1 : field (e.bytes opc) 1 1 = 0 := by omega
  have hcid : field (e.bytes opc) 2 2 = e.cid.toNat := by omega
  have hfields : sqeFields (e.bytes opc) = e := by
    simp only [sqeFields, hcid, hnsid, hprp, h10, h11, h12, BitVec.ofNat_toNat, BitVec.setWidth_eq]
  rw [decodeSqe_eq_some, hfields, hbyte0]
  exact ⟨⟨sqe_length opc e, hbyte1, hz1, hz2, hz3⟩, h⟩

theorem decodeCmdHdr_bytes (h : CmdHdr) : decodeCmdHdr h.bytes = some (.cmdHdr h) := by
  have hw := h.write.isLt
  obtain ⟨h0, h1, h2, h4, h8, h16⟩ := cmdHdr_fields h
  have hwrite : (5 + 64 * h.write.toNat) / 64 = h.write.toNat := by omega
  unfold decodeCmdHdr
  rw [if_neg (by rw [cmdHdr_length, h0, h1, h4, h16]; omega), h0, h2, h8, hwrite]
  simp only [BitVec.ofNat_toNat, BitVec.setWidth_eq]

theorem decodePrdt_bytes (e : PrdtEntry) : decodePrdt e.bytes = some (.prdtEntry e) := by
  have hd := e.dbc.isLt
  have hl := e.last.isLt
  obtain ⟨h0, h8, h12⟩ := prdtEntry_fields e
  have hdbc : BitVec.ofNat 22 (e.dbc.toNat + 2147483648 * e.last.toNat) = e.dbc :=
    BitVec.eq_of_toNat_eq (by rw [BitVec.toNat_ofNat]; omega)
  have hlast : (e.dbc.toNat + 2147483648 * e.last.toNat) / 2147483648 = e.last.toNat := by omega
  unfold decodePrdt
  rw [if_neg (by rw [prdtEntry_length, h8, h12]; omega), h0, h12, hdbc, hlast]
  simp only [BitVec.ofNat_toNat, BitVec.setWidth_eq]

theorem decodeCqe_bytes (e : Cqe) : decodeCqe e.bytes = some (.cqe e) := by
  have hp := e.phase.isLt
  have hs := e.status.isLt
  have hh := e.high.isLt
  obtain ⟨h0, h4, h8, h10, h12, h14⟩ := cqe_fields e
  have hphase : BitVec.ofNat 1 (field e.bytes 14 2) = e.phase :=
    BitVec.eq_of_toNat_eq (by rw [BitVec.toNat_ofNat, h14]; omega)
  have hstatus : BitVec.ofNat 11 (field e.bytes 14 2 / 2) = e.status :=
    BitVec.eq_of_toNat_eq (by rw [BitVec.toNat_ofNat, h14]; omega)
  have hhigh : BitVec.ofNat 4 (field e.bytes 14 2 / 4096) = e.high :=
    BitVec.eq_of_toNat_eq (by rw [BitVec.toNat_ofNat, h14]; omega)
  unfold decodeCqe
  rw [if_neg (not_not_intro (cqe_length e)), hphase, hstatus, hhigh, h0, h4, h8, h10, h12]
  simp only [BitVec.ofNat_toNat, BitVec.setWidth_eq]

/-- Settles O2: one lemma above for each format; the rows of FIS and submission entries by their codes. -/
theorem decodeEncodeStructure : Obligations.DecodeEncodeStructure := by
  intro i f hf
  cases i <;> cases hf
  case fisReadDmaExt f => exact decodeFis_bytes (cmd := fisReadCmd) (f := f) (i := .fisReadDmaExt f) rfl
  case fisWriteDmaExt f => exact decodeFis_bytes (cmd := fisWriteCmd) (f := f) (i := .fisWriteDmaExt f) rfl
  case fisIdentifyDevice f => exact decodeFis_bytes (cmd := fisIdentifyCmd) (f := f) (i := .fisIdentifyDevice f) rfl
  case sqeRead e => exact decodeSqe_bytes (opc := sqeReadOpc) (e := e) (i := .sqeRead e) rfl
  case sqeWrite e => exact decodeSqe_bytes (opc := sqeWriteOpc) (e := e) (i := .sqeWrite e) rfl
  case sqeIdentify e => exact decodeSqe_bytes (opc := sqeIdentifyOpc) (e := e) (i := .sqeIdentify e) rfl
  case cmdHdr h => exact decodeCmdHdr_bytes h
  case prdtEntry e => exact decodePrdt_bytes e
  case cqe e => exact decodeCqe_bytes e

/-! ## Encoding what has been decoded -/

/-- Only the low `n` bytes of a value are written. -/
theorem leBytes_mod (n v : Nat) : leBytes n (v % 256 ^ n) = leBytes n v := by
  have h := leBytes_leNat (leBytes n v)
  rwa [leBytes_length, leNat_leBytes] at h

theorem encode_of_decodeFis {bs : List Byte} {i : Instr} (h : decodeFis bs = some i) :
    i.structFormat? = some .h2dFis ∧ encode i = bs := by
  obtain ⟨⟨hlen, htype, hpm, hfeat, hrest, hdev⟩, hrow⟩ := decodeFis_eq_some.mp h
  obtain ⟨hformat, henc⟩ := encode_of_fisRow hrow
  have hlow : field bs 4 3 < 16777216 := field_lt bs 4 3
  have hhigh : field bs 8 3 < 16777216 := field_lt bs 8 3
  have hcnt : (BitVec.ofNat 16 (field bs 12 2)).toNat = field bs 12 2 := toNat_ofNat_field _ _ _ (by decide)
  have hlba : (BitVec.ofNat 48 (field bs 4 3 + 16777216 * field bs 8 3)).toNat
      = field bs 4 3 + 16777216 * field bs 8 3 := by rw [BitVec.toNat_ofNat]; omega
  have hlba0 : leBytes 3 (field bs 4 3 + 16777216 * field bs 8 3) = leBytes 3 (field bs 4 3) := by
    rw [← leBytes_mod]; congr 1; omega
  have hlba1 : (field bs 4 3 + 16777216 * field bs 8 3) / 16777216 = field bs 8 3 := by omega
  have hbyte : fisDevice (field bs 7 1 == 0) = BitVec.ofNat 8 (field bs 7 1) := by
    rcases hdev with h | h <;> rw [h] <;> rfl
  refine ⟨hformat, henc.trans (Eq.trans ?_ (fieldBytes_all (ns := [1, 1, 1, 1, 3, 1, 3, 1, 2, 6]) hlen.symm))⟩
  simp only [Fis.bytes, fisFields, hcnt, hlba, hlba0, hlba1, hbyte, fieldBytes, Nat.reduceAdd, htype, hpm, hfeat,
    ← zeros_eq_leBytes_field hrest]
  simp [leBytes]

theorem encode_of_decodeSqe {bs : List Byte} {i : Instr} (h : decodeSqe bs = some i) :
    i.structFormat? = some .sqe ∧ encode i = bs := by
  obtain ⟨⟨hlen, h1, hz1, hz2, hz3⟩, hrow⟩ := decodeSqe_eq_some.mp h
  obtain ⟨hformat, henc⟩ := encode_of_sqeRow hrow
  obtain ⟨hdword, -, -⟩ := field_dword_parts (bs := bs) (by omega)
  have hdw0 : (BitVec.ofNat 8 (field bs 0 1)).toNat + 65536 * (BitVec.ofNat 16 (field bs 2 2)).toNat
      = field bs 0 4 := by
    rw [toNat_ofNat_field _ _ _ (by decide), toNat_ofNat_field _ _ _ (by decide)]
    omega
  refine ⟨hformat, henc.trans (Eq.trans ?_ (fieldBytes_all (ns := [4, 4, 16, 8, 8, 4, 4, 4, 12]) hlen.symm))⟩
  rw [Sqe.bytes, sqeFields, hdw0, toNat_ofNat_field _ _ _ (by decide), toNat_ofNat_field _ _ _ (by decide),
    toNat_ofNat_field _ _ _ (by decide), toNat_ofNat_field _ _ _ (by decide), toNat_ofNat_field _ _ _ (by decide),
    zeros_eq_leBytes_field hz1, zeros_eq_leBytes_field hz2, zeros_eq_leBytes_field hz3]
  simp [fieldBytes]

theorem encode_of_decodeCmdHdr {bs : List Byte} {i : Instr} (h : decodeCmdHdr bs = some i) :
    i.structFormat? = some .cmdHdr ∧ encode i = bs := by
  unfold decodeCmdHdr at h
  split at h
  · cases h
  rename_i hok
  simp only [not_or, not_not, ne_eq] at hok
  obtain ⟨hlen, hcfl, hhigh, h1, h4, h16⟩ := hok
  cases h
  obtain ⟨hdword, -, -⟩ := field_dword_parts (bs := bs) (by omega)
  refine ⟨rfl, Eq.trans ?_ (fieldBytes_all (ns := [4, 4, 8, 16]) hlen.symm)⟩
  have hdw0 : CmdHdr.dw0
      { write := BitVec.ofNat 1 (field bs 0 1 / 64), prdtl := BitVec.ofNat 16 (field bs 2 2)
        ctba := BitVec.ofNat 64 (field bs 8 8) } = BitVec.ofNat 32 (field bs 0 4) := by
    refine BitVec.eq_of_toNat_eq ?_
    rw [cmdHdr_dw0_toNat, toNat_ofNat_field _ _ _ (by decide), toNat_ofNat_field _ _ _ (by decide), BitVec.toNat_ofNat]
    omega
  rw [encode, CmdHdr.bytes, hdw0, toNat_ofNat_field _ _ _ (by decide), toNat_ofNat_field _ _ _ (by decide),
    zeros_eq_leBytes_field h16]
  simp [fieldBytes, h4]

theorem encode_of_decodePrdt {bs : List Byte} {i : Instr} (h : decodePrdt bs = some i) :
    i.structFormat? = some .prdt ∧ encode i = bs := by
  unfold decodePrdt at h
  split at h
  · cases h
  rename_i hok
  simp only [not_or, not_not, ne_eq] at hok
  obtain ⟨hlen, h8, hmid⟩ := hok
  cases h
  have hlt : field bs 12 4 < 4294967296 := field_lt bs 12 4
  refine ⟨rfl, Eq.trans ?_ (fieldBytes_all (ns := [8, 4, 4]) hlen.symm)⟩
  have hdw3 : (PrdtEntry.dw3
      { dba := BitVec.ofNat 64 (field bs 0 8), dbc := BitVec.ofNat 22 (field bs 12 4)
        last := BitVec.ofNat 1 (field bs 12 4 / 2147483648) }).toNat = field bs 12 4 := by
    rw [prdtEntry_dw3_toNat, BitVec.toNat_ofNat, BitVec.toNat_ofNat]
    omega
  rw [encode, PrdtEntry.bytes, hdw3, toNat_ofNat_field _ _ _ (by decide)]
  simp [fieldBytes, h8]

theorem encode_of_decodeCqe {bs : List Byte} {i : Instr} (h : decodeCqe bs = some i) :
    i.structFormat? = some .cqe ∧ encode i = bs := by
  unfold decodeCqe at h
  split at h
  · cases h
  rename_i hok
  have hlen : bs.length = 16 := not_not.mp hok
  cases h
  have hlt : field bs 14 2 < 65536 := field_lt bs 14 2
  have hsplit2 : field bs 8 4 = field bs 8 2 + 65536 * field bs 10 2 := field_add bs 8 2 2 (by omega)
  have hsplit3 : field bs 12 4 = field bs 12 2 + 65536 * field bs 14 2 := field_add bs 12 2 2 (by omega)
  refine ⟨rfl, Eq.trans ?_ (fieldBytes_all (ns := [4, 4, 4, 4]) hlen.symm)⟩
  rw [encode, Cqe.bytes, cqe_dw2_toNat, cqe_dw3_toNat]
  dsimp only
  rw [toNat_ofNat_field bs 0 4 (by decide), toNat_ofNat_field bs 4 4 (by decide),
    toNat_ofNat_field bs 8 2 (by decide), toNat_ofNat_field bs 10 2 (by decide),
    toNat_ofNat_field bs 12 2 (by decide), ← hsplit2]
  have hdw3 : field bs 12 2 + 65536 * ((BitVec.ofNat 1 (field bs 14 2)).toNat +
      2 * (BitVec.ofNat 11 (field bs 14 2 / 2)).toNat + 4096 * (BitVec.ofNat 4 (field bs 14 2 / 4096)).toNat)
      = field bs 12 4 := by
    rw [BitVec.toNat_ofNat, BitVec.toNat_ofNat, BitVec.toNat_ofNat]
    omega
  rw [hdw3]
  simp [fieldBytes]

/-- Settles O3: requests by their fields, structures by one lemma above for each format. -/
theorem encodeDecode : Obligations.EncodeDecode := by
  refine ⟨fun bs i h => encode_of_decode h, fun bs f i h => ?_⟩
  cases f with
  | h2dFis => exact encode_of_decodeFis h
  | sqe => exact encode_of_decodeSqe h
  | cmdHdr => exact encode_of_decodeCmdHdr h
  | prdt => exact encode_of_decodePrdt h
  | cqe => exact encode_of_decodeCqe h

end Sys2Proof.Proofs

/-!
SUPPORT. Every operation as one frame around its body, the step of the machine by its event, and the proofs of O7, O8,
O9 and O10.
-/

namespace Sys2Proof.Proofs

open Sys2Proof Sys2Proof.Machine Sys2Proof.Laws

/-! ## An operation: acceptance, then its body -/

/-- The accepted state of an operation (10_state.md R25; 30_encoding.md R114); a structure row accepts nothing. -/
def entry (i : Instr) (s : State) : State :=
  match i with
  | .rd32 r => s.accepted 0x01#8 r
  | .rd64 r => s.accepted 0x02#8 r
  | .wr32 r => s.accepted 0x03#8 r
  | .wr64 r => s.accepted 0x04#8 r
  | .publish r => s.accepted 0x05#8 r
  | .ahciAlloc r => s.acceptedMicro 0x10#8 r
  | .nvmeAlloc r => s.acceptedMicro 0x11#8 r
  | .prdtBuild r => s.acceptedMicro 0x20#8 r
  | .fisBuild r => s.acceptedMicro 0x21#8 r
  | .hdrBuild r => s.acceptedMicro 0x22#8 r
  | .ahciBuild r => s.acceptedMicro 0x23#8 r
  | .prpBuild r => s.acceptedMicro 0x24#8 r
  | .sqeBuild r => s.acceptedMicro 0x25#8 r
  | .nvmeBuild r => s.acceptedMicro 0x26#8 r
  | .ahciIssue r => s.acceptedMicro 0x30#8 r
  | .ahciPoll r => s.acceptedMicro 0x31#8 r
  | .ahciCmd r => s.acceptedMicro 0x32#8 r
  | .nvmeRdychk r => s.acceptedMicro 0x40#8 r
  | .nvmeIssue r => s.acceptedMicro 0x41#8 r
  | .nvmePoll r => s.acceptedMicro 0x42#8 r
  | .nvmeCmd r => s.acceptedMicro 0x43#8 r
  | .readBlocks r => s.accepted 0x50#8 r
  | .writeBlocks r => s.accepted 0x51#8 r
  | .identify r => s.accepted 0x52#8 r
  | .idStr r => s.accepted 0x60#8 r
  | .idCap r => s.accepted 0x61#8 r
  | .idSecsz r => s.accepted 0x62#8 r
  | .idDecode r => s.accepted 0x63#8 r
  | .probe r => s.accepted 0x70#8 r
  | .sigClass r => s.accepted 0x71#8 r
  | .ahciInit r => s.accepted 0x72#8 r
  | .portInit r => s.accepted 0x73#8 r
  | .portReset r => s.accepted 0x74#8 r
  | .nvmeInit r => s.accepted 0x75#8 r
  | .fisReadDmaExt _ | .fisWriteDmaExt _ | .fisIdentifyDevice _
  | .sqeRead _ | .sqeWrite _ | .sqeIdentify _ | .cmdHdr _ | .prdtEntry _ | .cqe _ => s

/-- PORT.INIT asks for AHCI.INIT before it, and for no command of the port outstanding (47_system_ops.md R304). -/
def portInitBody (s : State) : Flow Unit :=
  (needOk s.ahciCtx s).bind fun c s =>
  (need (c.hba.ready && !s.inUse (.port c.p)) .notInitialised s).bind fun _ s => portInitStep c s

def portResetBody (s : State) : Flow Unit := (needOk s.ahciCtx s).bind fun c s => portInitStep c s

/-- What an operation does from its accepted state. -/
def opBody (i : Instr) (s : State) : Flow Unit :=
  match i with
  | .rd32 r => readStep .w32 (Request.mmioAddr r) s
  | .rd64 r => readStep .w64 (Request.mmioAddr r) s
  | .wr32 r => writeStep .w32 (Request.mmioAddr r) ((lo32 r.lba).setWidth 64) s
  | .wr64 r => writeStep .w64 (Request.mmioAddr r) r.lba s
  | .publish _ => .go () (publishAll s)
  | .ahciAlloc _ => ahciAllocStep s
  | .nvmeAlloc _ => nvmeAllocStep s
  | .prdtBuild _ => prdtStep s
  | .fisBuild _ => fisStep s
  | .hdrBuild _ => hdrStep s
  | .ahciBuild _ => ahciBuildStep s
  | .prpBuild _ => prpStep s
  | .sqeBuild _ => sqeStep s
  | .nvmeBuild _ => nvmeBuildStep s
  | .ahciIssue _ => ahciIssueStep s
  | .ahciPoll _ => ahciPollStep s
  | .ahciCmd _ => ahciCmdStep s
  | .nvmeRdychk _ => rdychkStep s
  | .nvmeIssue _ => nvmeIssueStep s
  | .nvmePoll _ => nvmePollStep s
  | .nvmeCmd _ => nvmeCmdStep s
  | .readBlocks _ => blockStep 0#1 s.cfg.ataCmdRead s.cfg.nvmeOpcRead s
  | .writeBlocks _ => blockStep 1#1 s.cfg.ataCmdWrite s.cfg.nvmeOpcWrite s
  | .identify _ => identifyStep s
  | .idStr r => idStrStep r.buf.toNat r.cnt.toNat r.strFirst r.strCount r.lba.toNat s
  | .idCap r => idCapStep r.buf.toNat r.cnt.toNat s
  | .idSecsz r => idSecszStep r.buf.toNat r.cnt.toNat s
  | .idDecode r => idDecodeStep r.buf.toNat r.cnt.toNat r.lba.toNat s
  | .probe r => .go () (s.setVal (classCode (r.arg.extractLsb' 0 24)))
  | .sigClass _ => sigClassStep s
  | .ahciInit _ => ahciInitStep s
  | .portInit _ => portInitBody s
  | .portReset _ => portResetBody s
  | .nvmeInit _ => nvmeInitStep s
  | .fisReadDmaExt _ | .fisWriteDmaExt _ | .fisIdentifyDevice _
  | .sqeRead _ | .sqeWrite _ | .sqeIdentify _ | .cmdHdr _ | .prdtEntry _ | .cqe _ => .go () s

/-- Every operation is the frame of Machine/Ops.lean around its body, with the `pc` precondition and the value that its
rule says. -/
theorem exec_operation {i : Instr} {r : Request} (h : i.request? = some r) (s : State) :
    exec i s = operation i (runsIn i s.pc) (returnsValue i) (opBody i (entry i s)) := by
  cases i <;> cases h <;> rfl

/-- What an operation that goes on has met, and how its body has ended. -/
theorem operation_next {i : Instr} {r : Request} {s t : State} (hr : i.request? = some r) (h : exec i s = .next t) :
    i.defect? = none ∧ runsIn i s.pc = true ∧
      ((∃ u, opBody i (entry i s) = .go () u ∧ t = succeed (returnsValue i) u) ∨
        ∃ u, opBody i (entry i s) = .stop u ∧ t = respond false u) := by
  rw [exec_operation hr] at h
  obtain ⟨hwf, hpc, hend⟩ := operation_eq_next.mp h
  exact ⟨hwf, hpc, endOp_eq_next.mp hend⟩

/-- Acceptance loads working registers, and nothing else. -/
theorem entry_eq (i : Instr) (s : State) : entry i s = { s with x := (entry i s).x } := by
  cases i <;> rfl

/-- The registers a request loads; acceptance leaves `RES` and `RAW` as they were. -/
theorem entry_x {i : Instr} {r : Request} (h : i.request? = some r) (s : State) :
    opcInstr (entry i s).x.op.toNat r = some i ∧ (entry i s).x.dev = r.dev ∧ (entry i s).x.cnt = r.cnt ∧
      (entry i s).x.arg = r.arg ∧ (entry i s).x.lba = r.lba ∧ (entry i s).x.buf = r.buf ∧
      (entry i s).x.raw = s.x.raw := by
  cases i <;> cases h <;> exact ⟨rfl, rfl, rfl, rfl, rfl, rfl, rfl⟩

/-! ## The structure rows (log 10) -/

/-- The store that a structure row is; an operation and the completion row store nothing of their own. -/
def rowBody (i : Instr) (s : State) : Flow Unit :=
  match i with
  | .fisReadDmaExt f => storeFis (f.bytes fisReadCmd) s
  | .fisWriteDmaExt f => storeFis (f.bytes fisWriteCmd) s
  | .fisIdentifyDevice f => storeFis (f.bytes fisIdentifyCmd) s
  | .sqeRead e => storeEntry e.prp1 (fun _ => e.bytes sqeReadOpc) s
  | .sqeWrite e => storeEntry e.prp1 (fun _ => e.bytes sqeWriteOpc) s
  | .sqeIdentify e => storeIdentifyRow e s
  | .cmdHdr h => storeHeaderRow h s
  | .prdtEntry e => storePrdtEntry e s
  | _ => .go () s

/-- The store of an identify entry that goes on is the store of the entry. -/
theorem ends_storeIdentifyRow (e : Sqe) (s : State) {E : State → Prop} :
    Ends (storeIdentifyRow e s) (fun _ t => Touch s t) E := by
  unfold storeIdentifyRow
  refine (ends_nvmeSlot s).bind ?_
  rintro c t ⟨rfl, -⟩
  refine (ends_need (Q := fun _ u => u = t) fun _ => rfl).bind ?_
  rintro - u rfl
  exact (ends_storeEntry _ _ _).mono (fun _ _ ⟨_, _, _, _, _, _, ht, _⟩ => ht) fun _ h => h

theorem ends_storeHeaderRow (h : CmdHdr) (s : State) {E : State → Prop} :
    Ends (storeHeaderRow h s) (fun _ t => Touch s t) E := by
  unfold storeHeaderRow
  refine (ends_ahciSlot s).bind ?_
  rintro c t ⟨rfl, -⟩
  refine (ends_need (Q := fun _ u => u = t) fun _ => rfl).bind ?_
  rintro - u rfl
  refine (ends_need (Q := fun _ v => v = u) fun _ => rfl).bind ?_
  rintro - v rfl
  exact (ends_storeHeader _ _).mono (fun _ _ ⟨_, _, _, _, ht, _⟩ => ht) fun _ h => h

theorem ends_storePrdtEntry (e : PrdtEntry) (s : State) {E : State → Prop} :
    Ends (storePrdtEntry e s) (fun _ t => Touch s t) E := by
  unfold storePrdtEntry
  refine (ends_ahciSlot s).bind ?_
  rintro c t ⟨rfl, -⟩
  refine (ends_ahciPremises _ _).bind ?_
  rintro - t ⟨rfl, -⟩
  refine (ends_need (Q := fun _ u => u = t) fun _ => rfl).bind ?_
  rintro - u rfl
  refine (ends_need (Q := fun _ v => v = u) fun _ => rfl).bind ?_
  rintro - v rfl
  refine (ends_bufferPremises _ _ _).bind ?_
  rintro - t ⟨rfl, -⟩
  exact (ends_memStore _ _ _).mono (fun _ _ ht => ht.1) fun _ h => h

/-- A structure row is one access of the sequencer. -/
theorem ends_rowBody (i : Instr) (s : State) {E : State → Prop} : Ends (rowBody i s) (fun _ t => Touch s t) E := by
  have hfis : ∀ fis, Ends (storeFis fis s) (fun _ t => Touch s t) E := fun fis =>
    (ends_storeFis fis s).mono (fun _ _ ⟨_, _, _, _, ht, _⟩ => ht) fun _ h => h
  have hentry : ∀ p bs, Ends (storeEntry p bs s) (fun _ t => Touch s t) E := fun p bs =>
    (ends_storeEntry p bs s).mono (fun _ _ ⟨_, _, _, _, _, _, ht, _⟩ => ht) fun _ h => h
  cases i
  case fisReadDmaExt f => exact hfis _
  case fisWriteDmaExt f => exact hfis _
  case fisIdentifyDevice f => exact hfis _
  case sqeRead e => exact hentry _ _
  case sqeWrite e => exact hentry _ _
  case sqeIdentify e => exact ends_storeIdentifyRow e s
  case cmdHdr h => exact ends_storeHeaderRow h s
  case prdtEntry e => exact ends_storePrdtEntry e s
  all_goals exact ends_go (Touch.refl s)

/-- Outside of an operation there are the rows that store, and the completion row. -/
theorem exec_row {i : Instr} (h : i.request? = none) (s : State) :
    (∃ e, i = .cqe e) ∨ exec i s = structureStore s (rowBody i) := by
  cases i
  case cqe e => exact .inl ⟨e, rfl⟩
  all_goals first | exact .inr rfl | cases h

/-- A row that goes on has run in SlotAllocated, and has touched nothing but memory and the bus. -/
theorem row_next {i : Instr} {s t : State} (hr : i.request? = none) (hc : ∀ e, i ≠ .cqe e) (h : exec i s = .next t) :
    s.pc = .slotAllocated ∧ Touch s t := by
  rcases exec_row hr s with ⟨e, rfl⟩ | hx
  · exact absurd rfl (hc e)
  have hends := ends_rowBody i s (E := fun _ => False)
  rw [hx, structureStore] at h
  split at h
  case isFalse => cases h
  case isTrue hpc =>
    refine ⟨beq_iff_eq.mp hpc, ?_⟩
    split at h
    · cases h; exact hends.go (by assumption)
    · exact (hends.stop (by assumption)).elim
    · cases h

/-! ## One step of the machine, by its event -/

theorem step_of_inputs {s : State} {e : HostEvent} {rest : List HostEvent} (h : s.inputs = e :: rest) :
    step s = hostEvent e { s with inputs := rest } := by
  simp [step, nextEvent, h]

theorem step_of_no_inputs {s : State} (h : s.inputs = []) : step s = .next s := by
  simp [step, nextEvent, h]

theorem runRequest_ok {bs : List Byte} {i : Instr} (h : decode bs = .ok i) (s : State) : runRequest bs s = exec i s := by
  simp [runRequest, h]

theorem runRequest_error {bs : List Byte} {e : DecodeError} (h : decode bs = .error e) (s : State) :
    runRequest bs s = .refused (.badRequest e) := by
  simp [runRequest, h]

/-- A word of the table decodes as its bytes do. -/
theorem decode_of_tableWord {n w : Nat} {i : Instr} (h : decodeTableWord n w = some i) :
    decode (requestBytesOfWord n w) = .ok i := by
  unfold decodeTableWord at h
  cases hd : decode (requestBytesOfWord n w) with
  | ok j => rw [hd] at h; exact congrArg _ (Option.some.inj h)
  | error e => rw [hd] at h; cases h

/-- Settles O7: a step is the host's next event, and a request is decoded and run. -/
theorem stepRunsRequest : Obligations.StepRunsRequest := by
  refine ⟨fun s bs rest i hs hd => ?_, fun s bs rest e hs hd => ?_, fun s => step_of_no_inputs, fun s n w i hd => ?_⟩
  · rw [step_of_inputs hs]; exact runRequest_ok hd _
  · rw [step_of_inputs hs]; exact runRequest_error hd _
  · exact runRequest_ok (decode_of_tableWord hd) s

/-- Settles O8: the fields of the reset state, and of a record loaded into it. -/
theorem resetState : Obligations.ResetState := by
  refine ⟨rfl, rfl, rfl, rfl, fun _ => rfl, fun _ => rfl, rfl, rfl, rfl, rfl, rfl, fun r n => ?_, fun r q => ?_⟩
  · rw [State.withNvme, alGet_alSet_same]; rfl
  · rw [State.withQp, alGet_alSet_same]; rfl

/-- Settles O9: nothing is loaded, written or in flight. -/
theorem resetMeetsInvariant : Obligations.ResetMeetsInvariant where
  memory := rfl
  regs := rfl
  hba := rfl
  port := rfl
  nvme := rfl
  qp := rfl
  dev := rfl
  rings := by simp [State.reset]
  flight := by simp [State.reset]
  claimed := by rintro (h | h | h) <;> cases h
  result := Nat.zero_le 9
  response := Nat.zero_le 9

/-! ## The invariant, kept by every operation -/

/-- Outside Issued the sequencer has no command in flight. -/
theorem calm_of_mid {s : State} (h : Mid s) (hp : s.pc ≠ .issued) : Calm s :=
  h.elim id fun h => absurd h.issued hp

theorem Mid.canon {s : State} (h : Mid s) : Canon s := h.elim Calm.canon Busy.canon

/-- An instruction that does not run in Issued finds the machine calm. -/
theorem calm_of_runsIn {i : Instr} {s : State} (h : Mid s) (hr : runsIn i s.pc = true) (hi : runsIn i .issued = false) :
    Calm s :=
  calm_of_mid h fun hp => by rw [hp, hi] at hr; cases hr

theorem keeps_readStep (w : Width) (a : Nat) {s : State} (h : Calm s) : Ends (readStep w a s) (fun _ => Calm) Ended := by
  unfold readStep
  refine (ends_need (Q := fun _ t => t = s) fun _ => rfl).bind ?_
  rintro - t rfl
  exact (keeps_mmioRead w a h).bind fun v u hu => ends_go (calm_x hu _)

theorem keeps_writeStep (w : Width) (a : Nat) (v : Quad) {s : State} (h : Calm s) :
    Ends (writeStep w a v s) (fun _ => Calm) Ended := by
  unfold writeStep
  refine (ends_need (Q := fun _ t => t = s) fun _ => rfl).bind ?_
  rintro - t rfl
  exact keeps_mmioWrite w a v h

theorem mid_publishAll {s : State} (h : Mid s) : Mid (publishAll s) :=
  h.touch ⟨rfl, rfl, rfl, rfl, rfl, rfl, rfl, rfl, rfl, rfl, rfl, rfl, rfl, rfl, rfl, id, id⟩

theorem keeps_blockStep (wr : BitVec 1) (ata opc : Byte) {s : State} (h : Calm s) :
    Ends (blockStep wr ata opc s) (fun _ => Calm) Ended := by
  unfold blockStep
  refine (ends_needOk (Q := fun _ t => t = s) fun _ _ => rfl).bind ?_
  rintro d t rfl
  refine ends_ite (fun _ => ends_stop (h.raisedIdle _)) fun _ => ?_
  split
  · refine (ends_need (Q := fun _ u => u = t) fun _ => rfl).bind ?_
    rintro - u rfl
    exact keeps_ahciCmdStep (calm_x h _)
  · exact keeps_nvmeCmdStep (calm_x h _)

theorem keeps_identifyStep {s : State} (h : Calm s) : Ends (identifyStep s) (fun _ => Mid) Ended := by
  unfold identifyStep
  refine (ends_needOk (Q := fun _ t => t = s) fun _ _ => rfl).bind ?_
  rintro d t rfl
  refine ends_ite (fun _ => ends_stop (h.raisedIdle _)) fun _ => ?_
  split
  · unfold identifyAhci
    exact (keeps_ahciCmdStep (calm_x (calm_x h _) _)).bind fun _ u hu => keeps_idDecodeStep _ _ _ (.inl hu)
  · unfold identifyNvme
    refine (ends_need (Q := fun _ u => u = t) fun _ => rfl).bind ?_
    rintro - u rfl
    exact (keeps_nvmeCmdStep (calm_x (calm_x h _) _)).mono (fun _ _ hu => .inl hu) fun _ hu => hu

theorem keeps_sigClassStep {s : State} (h : Mid s) : Ends (sigClassStep s) (fun _ => Mid) Ended := by
  unfold sigClassStep
  refine (ends_needOk (Q := fun _ t => t = s) fun _ _ => rfl).bind ?_
  rintro c t rfl
  refine (ends_mmioRead _ _ _).bind fun _ u hu => ?_
  have h := h.touch hu.1
  refine ends_ite (fun _ => ?_) fun _ => ends_go (h.setVal _)
  exact (ends_mmioRead _ _ _).bind fun _ v hv => ends_go ((h.touch hv.1).setVal _)

theorem keeps_portInitBody {s : State} (h : Calm s) : Ends (portInitBody s) (fun _ => Calm) Ended := by
  unfold portInitBody
  refine (ends_needOk (Q := fun _ t => t = s) fun _ _ => rfl).bind ?_
  rintro c t rfl
  refine (ends_need (Q := fun _ u => u = t) fun _ => rfl).bind ?_
  rintro - u rfl
  exact keeps_portInitStep c h

theorem keeps_portResetBody {s : State} (h : Calm s) : Ends (portResetBody s) (fun _ => Calm) Ended := by
  unfold portResetBody
  refine (ends_needOk (Q := fun _ t => t = s) fun _ _ => rfl).bind ?_
  rintro c t rfl
  exact keeps_portInitStep c h

/-- A body that ends calm ends in a state that the invariant admits. -/
theorem Ends.calm {m : Flow Unit} (h : Ends m (fun _ => Calm) Ended) : Ends m (fun _ => Mid) Ended :=
  h.mono (fun _ _ ht => .inl ht) fun _ ht => ht

theorem Ends.busy {m : Flow Unit} (h : Ends m (fun _ => Busy) Ended) : Ends m (fun _ => Mid) Ended :=
  h.mono (fun _ _ ht => .inr ht) fun _ ht => ht

/-- The body of every operation keeps the invariant, from the `pc` it runs in. -/
theorem keeps_opBody (i : Instr) {s : State} (h : Mid s) (hr : runsIn i s.pc = true) :
    Ends (opBody i s) (fun _ => Mid) Ended := by
  have calm : runsIn i .issued = false → Calm s := calm_of_runsIn h hr
  cases i
  case rd32 r => exact Ends.calm (keeps_readStep _ _ (calm rfl))
  case rd64 r => exact Ends.calm (keeps_readStep _ _ (calm rfl))
  case wr32 r => exact Ends.calm (keeps_writeStep _ _ _ (calm rfl))
  case wr64 r => exact Ends.calm (keeps_writeStep _ _ _ (calm rfl))
  case publish r => exact ends_go (mid_publishAll h)
  case ahciAlloc r => exact (keeps_ahciAllocStep (calm rfl)).mono (fun _ _ ht => .inl ht.1) fun _ ht => ht
  case nvmeAlloc r => exact (keeps_nvmeAllocStep (calm rfl)).mono (fun _ _ ht => .inl ht.1) fun _ ht => ht
  case prdtBuild r => exact Ends.calm (keeps_prdtStep (calm rfl))
  case fisBuild r => exact Ends.calm (keeps_fisStep (calm rfl))
  case hdrBuild r => exact (keeps_hdrStep (calm rfl)).mono (fun _ _ ht => .inl ht.1) fun _ ht => ht
  case ahciBuild r => exact Ends.calm (keeps_ahciBuildStep (calm rfl))
  case prpBuild r => exact Ends.calm (keeps_prpStep (calm rfl))
  case sqeBuild r => exact (keeps_sqeStep (calm rfl)).mono (fun _ _ ht => .inl ht.1) fun _ ht => ht
  case nvmeBuild r => exact Ends.calm (keeps_nvmeBuildStep (calm rfl))
  case ahciIssue r => exact Ends.busy (keeps_ahciIssueStep (calm rfl))
  case ahciPoll r => exact Ends.calm (keeps_ahciPollStep (Mid.canon h))
  case ahciCmd r => exact Ends.calm (keeps_ahciCmdStep (calm rfl))
  case nvmeRdychk r => exact Ends.calm (keeps_rdychkStep (calm rfl))
  case nvmeIssue r => exact Ends.busy (keeps_nvmeIssueStep (calm rfl))
  case nvmePoll r => exact Ends.calm (keeps_nvmePollStep (Mid.canon h))
  case nvmeCmd r => exact Ends.calm (keeps_nvmeCmdStep (calm rfl))
  case readBlocks r => exact Ends.calm (keeps_blockStep _ _ _ (calm rfl))
  case writeBlocks r => exact Ends.calm (keeps_blockStep _ _ _ (calm rfl))
  case identify r => exact keeps_identifyStep (calm rfl)
  case idStr r => exact keeps_idStrStep _ _ _ _ _ h
  case idCap r => exact keeps_idCapStep _ _ h
  case idSecsz r => exact keeps_idSecszStep _ _ h
  case idDecode r => exact keeps_idDecodeStep _ _ _ h
  case probe r => exact ends_go (h.setVal _)
  case sigClass r => exact keeps_sigClassStep h
  case ahciInit r => exact Ends.calm (keeps_ahciInitStep (calm rfl))
  case portInit r => exact Ends.calm (keeps_portInitBody (calm rfl))
  case portReset r => exact Ends.calm (keeps_portResetBody (calm rfl))
  case nvmeInit r => exact Ends.calm (keeps_nvmeInitStep (calm rfl))
  all_goals exact ends_go h

theorem mid_entry (i : Instr) {s : State} (h : Mid s) : Mid (entry i s) := by
  rw [entry_eq]; exact mid_x h _

theorem entry_pc (i : Instr) (s : State) : (entry i s).pc = s.pc := by rw [entry_eq]

/-! ## The invariant, kept by the rows and by the host -/

theorem Touch.res {s t : State} (h : Touch s t) : t.x.res = s.x.res := by
  have := congrArg Regs.res h.x
  exact this

theorem inv_touch {s t : State} (h : Inv s) (g : Touch s t) : Inv t :=
  have hm := inv_iff.1 h
  inv_iff.2 ⟨hm.1.touch g, by rw [Touch.res g]; exact hm.2⟩

/-- A look ends the poll in a calm state, or with an error, or has only counted the round. -/
theorem keeps_lookAt (e : Cqe) {s : State} (h : Canon s) :
    Ends (lookAt e s) (fun b t => if b then Calm t else Touch s t) Ended := by
  unfold lookAt
  refine (ends_nvmeSlot s).bind ?_
  rintro c t ⟨rfl, hc⟩
  refine ends_ite (fun _ => ?_) fun _ => ?_
  · exact (keeps_consume _ _ h (ring_ok h hc.ctx)).bind fun _ u hu => ends_go hu
  · exact (keeps_noMatch c h).bind fun _ u hu => ends_go hu

theorem inv_cqe {e : Cqe} {s t : State} (h : Inv s) (ht : exec (.cqe e) s = .next t) : Inv t := by
  have hl := keeps_lookAt e (Mid.canon (inv_iff.1 h).1)
  change execCqe e s = .next t at ht
  unfold execCqe at ht
  split at ht
  case isFalse => cases ht
  case isTrue =>
    split at ht
    case h_1 u hu => cases ht; exact inv_succeed false (.inl (hl.go hu))
    case h_2 u hu => cases ht; exact inv_touch h (hl.go hu)
    case h_3 u hu => cases ht; exact inv_respond false (hl.stop hu)
    case h_4 r hu => cases ht

/-- Every instruction keeps the invariant. -/
theorem inv_exec {i : Instr} {s t : State} (h : Inv s) (ht : exec i s = .next t) : Inv t := by
  have hm := (inv_iff.1 h).1
  cases hr : i.request? with
  | some r =>
    have hpc := (operation_next hr ht).2.1
    rw [exec_operation hr] at ht
    exact inv_operation (keeps_opBody i (mid_entry i hm) (by rw [entry_pc]; exact hpc)) ht
  | none =>
    by_cases hc : ∃ e, i = .cqe e
    · obtain ⟨e, rfl⟩ := hc; exact inv_cqe h ht
    · exact inv_touch h (row_next hr (fun e he => hc ⟨e, he⟩) ht).2

theorem loadRecord_eq_next {a k : Bool} {s t u : State} (h : loadRecord a k s t = .next u) :
    s.pc.free = true ∧ k = true ∧ a = true ∧ u = t := by
  unfold loadRecord at h
  split at h
  case isFalse => cases h
  case isTrue hk =>
    split at h
    case isFalse => cases h
    case isTrue ha =>
      obtain ⟨hp, hk⟩ := Bool.and_eq_true_iff.mp hk
      cases h; exact ⟨hp, hk, ha, rfl⟩

theorem hostStore_eq_next {a : Nat} {bs : List Byte} {s t : State} (h : hostStore a bs s = .next t) :
    a + bs.length ≤ s.cfg.memEnd ∧ ∃ p, t = { s with mem := s.mem.write a bs, pend := p } := by
  unfold hostStore at h
  split at h
  case isTrue => cases h
  case isFalse hm =>
    split at h
    case isFalse => cases h
    case isTrue => cases h; exact ⟨Nat.not_lt.1 hm, _, rfl⟩

/-- A queue pair that the host loads has its positions at 0. -/
theorem loaded_qp_ok {r : Qp} (p : BitVec 1) (h : (decide (2 ≤ r.qSize) && decide (r.qSize ≤ 65536)) = true) :
    ({ r with sqTail := 0#16, sqHead := 0#16, cqHead := 0#16, phase := p, started := false } : Qp).ok := by
  obtain ⟨h1, h2⟩ := Bool.and_eq_true_iff.mp h
  have h1 := of_decide_eq_true h1
  have h0 : (0#16).toNat < r.qSize := Nat.lt_of_lt_of_le (by decide) h1
  exact ⟨h1, of_decide_eq_true h2, h0, h0, h0⟩

theorem inv_withQp {s : State} (h : Inv s) (q : Nat) {r : Qp}
    (hr : (decide (2 ≤ r.qSize) && decide (r.qSize ≤ 65536)) = true) : Inv (s.withQp q r) :=
  { h with
    qp := rising_alSet _ _ h.qp
    rings := fun _ he => (mem_alSet he).elim (fun he => he ▸ loaded_qp_ok _ hr) (h.rings _) }

/-- Every event of the host keeps the invariant. -/
theorem inv_hostEvent {e : HostEvent} {s t : State} (h : Inv s) (ht : hostEvent e s = .next t) : Inv t := by
  cases e with
  | request bs =>
    cases hd : decode bs with
    | ok i => exact inv_exec h ((runRequest_ok hd s).symm.trans ht)
    | error e => cases (runRequest_error hd s).symm.trans ht
  | loadHba k r =>
    obtain ⟨-, -, -, rfl⟩ := loadRecord_eq_next ht
    exact { h with hba := rising_alSet _ _ h.hba }
  | loadPort k r =>
    obtain ⟨-, -, -, rfl⟩ := loadRecord_eq_next ht
    exact { h with port := rising_alSet _ _ h.port }
  | loadNvme k r =>
    obtain ⟨-, -, -, rfl⟩ := loadRecord_eq_next ht
    exact { h with nvme := rising_alSet _ _ h.nvme }
  | loadQp k r =>
    obtain ⟨-, -, hr, rfl⟩ := loadRecord_eq_next ht
    exact inv_withQp h k hr
  | loadDev k r =>
    obtain ⟨-, -, -, rfl⟩ := loadRecord_eq_next ht
    exact { h with dev := rising_alSet _ _ h.dev }
  | store a bs =>
    obtain ⟨hm, p, rfl⟩ := hostStore_eq_next ht
    exact { h with memory := wf_write h.memory (Nat.le_trans hm (memEnd_le _)) }
  | devices => cases ht; exact inv_touch h (touch_tick s)

/-- Settles O10: by the host's event, and for a request by its instruction. -/
theorem stepKeepsInvariant : Obligations.StepKeepsInvariant := by
  intro s t h ht
  cases hs : s.inputs with
  | nil => cases (step_of_no_inputs hs).symm.trans ht; exact h
  | cons e rest =>
    have hin : Inv { s with inputs := rest } := { h with }
    exact inv_hostEvent hin ((step_of_inputs hs).symm.trans ht)

end Sys2Proof.Proofs

/-!
SUPPORT. The device an operation needs, the `pc` and the errors it ends with, and the proofs of O12, O13 and O14.
-/

namespace Sys2Proof.Proofs

open Sys2Proof Sys2Proof.Machine Sys2Proof.Laws

/-! ## What has to hold for an operation to go on at all -/

/-- The part is refused unless `P` holds. -/
abbrev Needs {α : Type} (m : Flow α) (P : Prop) : Prop := Ends m (fun _ _ => P) fun _ => P

theorem needs_of {α : Type} (m : Flow α) {P : Prop} (h : P) : Needs m P := ⟨fun _ => h, fun _ => h⟩

/-- What the first part needs, the whole needs. -/
theorem Needs.bind {α β : Type} {m : Flow α} {P : Prop} (h : Needs m P) (k : α → State → Flow β) : Needs (m.bind k) P :=
  Ends.bind h fun a t hp => needs_of (k a t) hp

/-- The request's device is of kind `k`. -/
def OnKind (s : State) (k : Kind) : Prop := ∃ d, alGet s.dev s.x.dev.toNat = some d ∧ d.kind = k

theorem onKind_of_hbaCtx {s : State} {c : AhciCtx} (h : s.hbaCtx = .ok c) : OnKind s .ahci := by
  obtain ⟨d, hd, hk, -⟩ := hbaCtx_eq_ok.mp h
  exact ⟨d, hd, hk⟩

theorem onKind_of_ahciCtx {s : State} {c : AhciCtx} (h : s.ahciCtx = .ok c) : OnKind s .ahci :=
  onKind_of_hbaCtx (ahciCtx_eq_ok.mp h).1

theorem onKind_of_nvmeCtxOf {s : State} {adm : Bool} {c : NvmeCtx} (h : s.nvmeCtxOf adm = .ok c) : OnKind s .nvme := by
  obtain ⟨hd, hk, -⟩ := nvmeCtxOf_eq_ok.mp h
  exact ⟨c.dev, hd, hk⟩

theorem needs_ahciCtx (s : State) : Needs (needOk s.ahciCtx s) (OnKind s .ahci) :=
  ⟨fun h => onKind_of_ahciCtx (needOk_eq_go.mp h).1, fun h => (needOk_ne_stop ▸ h : False).elim⟩

theorem needs_hbaCtx (s : State) : Needs (needOk s.hbaCtx s) (OnKind s .ahci) :=
  ⟨fun h => onKind_of_hbaCtx (needOk_eq_go.mp h).1, fun h => (needOk_ne_stop ▸ h : False).elim⟩

theorem needs_nvmeCtxOf (s : State) (adm : Bool) : Needs (needOk (s.nvmeCtxOf adm) s) (OnKind s .nvme) :=
  ⟨fun h => onKind_of_nvmeCtxOf (needOk_eq_go.mp h).1, fun h => (needOk_ne_stop ▸ h : False).elim⟩

theorem needs_device (s : State) : Needs (needOk s.device s) (∃ d, alGet s.dev s.x.dev.toNat = some d) :=
  ⟨fun h => ⟨_, device_eq_ok.mp (needOk_eq_go.mp h).1⟩, fun h => (needOk_ne_stop ▸ h : False).elim⟩

theorem needs_ahciSlot (s : State) : Needs (ahciSlot s) (OnKind s .ahci) := (needs_ahciCtx s).bind _

theorem needs_nvmeSlot (s : State) : Needs (nvmeSlot s) (OnKind s .nvme) := (needs_nvmeCtxOf s _).bind _

theorem needs_prdtStep (s : State) : Needs (prdtStep s) (OnKind s .ahci) := (needs_ahciSlot s).bind _

theorem needs_fisStep (s : State) : Needs (fisStep s) (OnKind s .ahci) :=
  (ends_fisStep s).mono (fun _ _ ⟨_, hc, _⟩ => onKind_of_ahciCtx hc.ctx) fun _ h => h

theorem needs_hdrStep (s : State) : Needs (hdrStep s) (OnKind s .ahci) :=
  (ends_hdrStep s).mono (fun _ _ ⟨_, hc, _⟩ => onKind_of_ahciCtx hc.ctx) fun _ h => h

theorem needs_prpStep (s : State) : Needs (prpStep s) (OnKind s .nvme) := (needs_nvmeSlot s).bind _

theorem needs_sqeStep (s : State) : Needs (sqeStep s) (OnKind s .nvme) := (needs_nvmeSlot s).bind _

theorem needs_ahciAllocStep (s : State) : Needs (ahciAllocStep s) (OnKind s .ahci) := (needs_ahciCtx s).bind _

theorem needs_rdychkStep (s : State) : Needs (rdychkStep s) (OnKind s .nvme) := (needs_nvmeCtxOf s _).bind _

/-- An operation for one kind of device needs a device of that kind. -/
theorem needs_kind (i : Instr) {k : Kind} (hk : kindFor i = some k) (s : State) : Needs (opBody i s) (OnKind s k) := by
  cases i <;> cases hk
  case ahciAlloc r => exact needs_ahciAllocStep s
  case prdtBuild r => exact needs_prdtStep s
  case fisBuild r => exact needs_fisStep s
  case hdrBuild r => exact needs_hdrStep s
  case ahciBuild r => exact (needs_prdtStep s).bind _
  case ahciIssue r => exact (needs_ahciSlot s).bind _
  case ahciPoll r => exact (needs_ahciSlot s).bind _
  case ahciCmd r => exact (needs_ahciAllocStep s).bind _
  case sigClass r => exact (needs_ahciCtx s).bind _
  case ahciInit r => exact (needs_hbaCtx s).bind _
  case portInit r => exact (needs_ahciCtx s).bind _
  case portReset r => exact (needs_ahciCtx s).bind _
  case nvmeAlloc r => exact (needs_nvmeCtxOf s _).bind _
  case prpBuild r => exact needs_prpStep s
  case sqeBuild r => exact needs_sqeStep s
  case nvmeBuild r => exact (needs_prpStep s).bind _
  case nvmeRdychk r => exact needs_rdychkStep s
  case nvmeIssue r => exact (needs_nvmeSlot s).bind _
  case nvmePoll r => exact (needs_nvmeSlot s).bind _
  case nvmeCmd r => exact (needs_rdychkStep s).bind _
  case nvmeInit r => exact (needs_nvmeCtxOf s true).bind _

/-- The operations that name a device are those for one kind, and those of the block interface. -/
theorem kindFor_or_block {i : Instr} (hn : namesDevice i = true) :
    (∃ k, kindFor i = some k) ∨ ∃ r, i = .readBlocks r ∨ i = .writeBlocks r ∨ i = .identify r := by
  cases i <;> simp [namesDevice, kindFor] at hn ⊢

/-- An operation that names a device needs its record. -/
theorem needs_record (i : Instr) (hn : namesDevice i = true) (s : State) :
    Needs (opBody i s) (∃ d, alGet s.dev s.x.dev.toNat = some d) := by
  obtain ⟨k, hk⟩ | ⟨r, rfl | rfl | rfl⟩ := kindFor_or_block hn
  · exact (needs_kind i hk s).mono (fun _ _ ⟨d, hd, _⟩ => ⟨d, hd⟩) fun _ ⟨d, hd, _⟩ => ⟨d, hd⟩
  · exact (needs_device s).bind _
  · exact (needs_device s).bind _
  · exact (needs_device s).bind _

/-- What the body of an operation needs holds where the operation goes on. -/
theorem need_of_next {i : Instr} {r : Request} {s t : State} {P : Prop} (hr : i.request? = some r)
    (hn : Needs (opBody i (entry i s)) P) (h : exec i s = .next t) : P := by
  obtain ⟨-, -, ⟨u, hu, -⟩ | ⟨u, hu, -⟩⟩ := operation_next hr h
  · exact hn.go hu
  · exact hn.stop hu

/-- The device of a request stands in the record that the accepted state names. -/
theorem entry_device {i : Instr} {r : Request} (hr : i.request? = some r) (s : State) :
    alGet (entry i s).dev (entry i s).x.dev.toNat = alGet s.dev r.dev.toNat := by
  obtain ⟨-, hdev, -⟩ := entry_x hr s
  rw [hdev, entry_eq]

/-- The device of an operation for one kind is of that kind, where the operation goes on. -/
theorem kind_of_next {i : Instr} {r : Request} {s t : State} {k : Kind} {d : Dev} (hr : i.request? = some r)
    (hk : kindFor i = some k) (hd : alGet s.dev r.dev.toNat = some d) (h : exec i s = .next t) : d.kind = k := by
  obtain ⟨d', hd', hk'⟩ := need_of_next hr (needs_kind i hk _) h
  rw [entry_device hr, hd] at hd'
  cases hd'; exact hk'

/-! ## Where `pc` stands at the end, and with which error -/

/-- The errors of the engine of one kind of device. -/
def engineErrors : Kind → List Err
  | .ahci => ahciErrors
  | .nvme => nvmeErrors

/-- The errors an operation can end with on a device of kind `k`. -/
def errorsOn (i : Instr) (k : Kind) : List Err :=
  match i with
  | .readBlocks _ | .writeBlocks _ => .outOfRange :: engineErrors k
  | .identify _ => .invalidIdentifyPayload :: engineErrors k
  | i => mayReport i

/-- The decoder operations, whose error leaves `pc` where it is (46_identify_decoder.md). -/
def decodes (i : Instr) : Bool :=
  match i with
  | .idStr _ | .idCap _ | .idSecsz _ | .idDecode _ => true
  | _ => false

/-- The `pc` an operation leaves where it succeeds, from `p`. -/
def donePc (i : Instr) (p : Pc) : Pc :=
  match i with
  | .ahciAlloc _ | .nvmeAlloc _ => .slotAllocated
  | .ahciBuild _ | .nvmeBuild _ => .descriptorsBuilt
  | .ahciIssue _ | .nvmeIssue _ => .issued
  | .ahciPoll _ | .nvmePoll _ | .ahciCmd _ | .nvmeCmd _ | .readBlocks _ | .writeBlocks _ | .identify _ => .completed
  | .nvmeRdychk _ | .ahciInit _ | .portInit _ | .portReset _ | .nvmeInit _ => .idle
  | _ => p

/-- The `pc` an operation leaves where it ends with `e`, from `p`. -/
def failPc (i : Instr) (p : Pc) (e : Err) : Pc := if decodes i then p else e.leaves

theorem errorsOn_subset {i : Instr} {k : Kind} {e : Err} (h : e ∈ errorsOn i k) : e ∈ mayReport i := by
  cases i
  case readBlocks r => cases k <;> simp_all [errorsOn, mayReport, engineErrors] <;> tauto
  case writeBlocks r => cases k <;> simp_all [errorsOn, mayReport, engineErrors] <;> tauto
  case identify r => cases k <;> simp_all [errorsOn, mayReport, engineErrors] <;> tauto
  all_goals exact h

variable {L : List Err}

theorem at_self (s : State) : At (· = s.pc) s.x.raw s := ⟨rfl, rfl⟩

theorem control_readStep (w : Width) (a : Nat) (s : State) : Control (readStep w a s) (· = s.pc) s.x.raw L := by
  unfold readStep
  refine (control_need _ _ (at_self s)).bind fun _ t h => ?_
  exact (control_mmioRead _ _ h).bind fun v u h => control_go ⟨h.pc, h.raw⟩

theorem control_writeStep (w : Width) (a : Nat) (v : Quad) (s : State) :
    Control (writeStep w a v s) (· = s.pc) s.x.raw L :=
  (control_need _ _ (at_self s)).bind fun _ _ h => control_mmioWrite _ _ _ h

/-- A block operation on a device of kind `k`. -/
theorem control_blockStep (wr : BitVec 1) (ata opc : Byte) {s : State} {k : Kind}
    (hk : ∀ d, alGet s.dev s.x.dev.toNat = some d → d.kind = k) :
    Control (blockStep wr ata opc s) (· = .completed) s.x.raw (.outOfRange :: engineErrors k) := by
  unfold blockStep
  cases hd : s.device with
  | error r => exact ⟨ends_refuse⟩
  | ok d =>
    rw [needOk_ok, bind_go]
    refine control_ite (control_raise _ _ rfl (List.mem_cons_self ..) rfl) ?_
    rw [hk d (device_eq_ok.mp hd)]
    cases k
    · refine (control_need _ _ (any s)).bind fun _ t h => ?_
      exact control_ahciCmdStep ⟨trivial, h.raw⟩ fun e he => List.mem_cons_of_mem _ he
    · exact control_nvmeCmdStep ⟨trivial, rfl⟩ fun e he => List.mem_cons_of_mem _ he

/-- A decoder operation on a payload that is neither null nor short raises no error. -/
theorem control_idDecodeStep (p out : Nat) {len : Nat} {s : State} {P : Pc → Prop} {w : Word}
    (hp : payloadValid p len = true) (h : At P w s) : Control (idDecodeStep p len out s) P w L := by
  rw [idDecodeStep, if_pos hp]
  refine (control_idPremises _ _ _ h).bind fun _ t h => ?_
  refine (control_need _ _ h).bind fun _ t h => ?_
  exact (control_loadIdentity p h).bind fun d u h => control_storeBytes _ _ h

theorem payloadValid_buf {b : Quad} (h : b ≠ 0#64) : payloadValid b.toNat idBytes = true := by
  have : b.toNat ≠ 0 := fun h0 => h (BitVec.eq_of_toNat_eq h0)
  simp [payloadValid, this, idBytes]

theorem control_identifyAhci (out : Quad) {s : State} (hb : s.x.buf ≠ 0#64) (hl : ∀ e ∈ ahciErrors, e ∈ L) :
    Control (identifyAhci out s) (· = .completed) s.x.raw L := by
  have hc := control_ahciCmdStep
    (s := (s.setCommand 0#1 flgNoLba s.cfg.ataCmdIdentify).setTransfer 1#16 0#64) (w := s.x.raw) ⟨trivial, rfl⟩ hl
  have hx := local_ahciCmdStep ((s.setCommand 0#1 flgNoLba s.cfg.ataCmdIdentify).setTransfer 1#16 0#64)
  unfold identifyAhci
  cases hm : ahciCmdStep ((s.setCommand 0#1 flgNoLba s.cfg.ataCmdIdentify).setTransfer 1#16 0#64) with
  | go a t =>
    have hbuf : t.x.buf = s.x.buf := (hx.go hm).operands.buf
    rw [bind_go]
    exact control_idDecodeStep _ _ (by rw [hbuf]; exact payloadValid_buf hb) (hc.ends.go hm)
  | stop t => exact ⟨ends_stop (hc.ends.stop hm)⟩
  | refuse r => exact ⟨ends_refuse⟩

/-- IDENTIFY into a buffer that is not null can end with the errors of its engine alone. -/
theorem control_identifyStep_buf {s : State} {k : Kind} (hb : s.x.buf ≠ 0#64)
    (hk : ∀ d, alGet s.dev s.x.dev.toNat = some d → d.kind = k) (hl : ∀ e ∈ engineErrors k, e ∈ L) :
    Control (identifyStep s) (· = .completed) s.x.raw L := by
  unfold identifyStep
  cases hd : s.device with
  | error r => exact ⟨ends_refuse⟩
  | ok d =>
    rw [needOk_ok, bind_go, if_neg hb, hk d (device_eq_ok.mp hd)]
    cases k
    · exact control_identifyAhci _ hb hl
    · refine (control_need _ _ (any s)).bind fun _ t h => ?_
      exact control_nvmeCmdStep ⟨trivial, h.raw⟩ hl

theorem control_identifyStep {s : State} {k : Kind} (hk : ∀ d, alGet s.dev s.x.dev.toNat = some d → d.kind = k) :
    Control (identifyStep s) (· = .completed) s.x.raw (.invalidIdentifyPayload :: engineErrors k) := by
  by_cases hb : s.x.buf = 0#64
  case neg => exact control_identifyStep_buf hb hk fun e he => List.mem_cons_of_mem _ he
  case pos =>
    unfold identifyStep
    cases hd : s.device with
    | error r => exact ⟨ends_refuse⟩
    | ok d =>
      rw [needOk_ok, bind_go, if_pos hb]
      exact control_raise _ _ rfl (List.mem_cons_self ..) rfl

theorem control_portInitBody {s : State} (he : Err.portHung ∈ L) :
    Control (portInitBody s) (· = .idle) s.x.raw L :=
  (control_needOk _ (any s)).bind fun _ _ h => (control_need _ _ h).bind fun _ _ h => control_portInitStep _ he h

theorem control_portResetBody {s : State} (he : Err.portHung ∈ L) :
    Control (portResetBody s) (· = .idle) s.x.raw L :=
  (control_needOk _ (any s)).bind fun _ _ h => control_portInitStep _ he h

/-- Every operation but the decoder's leaves `pc` and `RAW` as its rule says, on a device of kind `k`. -/
theorem control_opBody {i : Instr} (hi : decodes i = false) {s : State} {k : Kind}
    (hk : namesDevice i = true → ∀ d, alGet s.dev s.x.dev.toNat = some d → d.kind = k) :
    Control (opBody i s) (· = donePc i s.pc) s.x.raw (errorsOn i k) := by
  have hself := at_self s
  have hany := any s
  cases i
  case rd32 r => exact control_readStep _ _ s
  case rd64 r => exact control_readStep _ _ s
  case wr32 r => exact control_writeStep _ _ _ s
  case wr64 r => exact control_writeStep _ _ _ s
  case publish r => exact control_go ⟨rfl, rfl⟩
  case ahciAlloc r => exact control_ahciAllocStep (List.Mem.head _) hany
  case nvmeAlloc r => exact control_nvmeAllocStep (List.Mem.head _) hany
  case prdtBuild r => exact control_prdtStep (List.Mem.head _) hself
  case fisBuild r => exact control_fisStep hself
  case hdrBuild r => exact control_hdrStep hself
  case ahciBuild r => exact control_ahciBuildStep (List.Mem.head _) hany
  case prpBuild r => exact control_prpStep (List.Mem.head _) hself
  case sqeBuild r => exact control_sqeStep hself
  case nvmeBuild r => exact control_nvmeBuildStep (List.Mem.head _) hany
  case ahciIssue r => exact control_ahciIssueStep (List.Mem.head _) hany
  case ahciPoll r => exact control_ahciPollStep (List.Mem.tail _ (List.Mem.head _)) (List.Mem.head _) hany
  case ahciCmd r => exact control_ahciCmdStep hany fun _ he => he
  case nvmeRdychk r => exact control_rdychkStep (List.Mem.head _) hany
  case nvmeIssue r => exact control_nvmeIssueStep hany
  case nvmePoll r => exact control_nvmePollStep (List.Mem.tail _ (List.Mem.head _)) (List.Mem.head _) hany
  case nvmeCmd r => exact control_nvmeCmdStep hany fun _ he => he
  case readBlocks r => exact control_blockStep _ _ _ (hk rfl)
  case writeBlocks r => exact control_blockStep _ _ _ (hk rfl)
  case identify r => exact control_identifyStep (hk rfl)
  case probe r => exact control_go ⟨rfl, rfl⟩
  case sigClass r => exact control_sigClassStep hself
  case ahciInit r => exact control_ahciInitStep (List.Mem.head _) hany
  case portInit r => exact control_portInitBody (List.Mem.head _)
  case portReset r => exact control_portResetBody (List.Mem.head _)
  case nvmeInit r => exact control_nvmeInitStep (List.Mem.head _) hany
  case idStr r => cases hi
  case idCap r => cases hi
  case idSecsz r => cases hi
  case idDecode r => cases hi
  all_goals exact control_go hself

/-! ## The decoder operations -/

/-- A decoder operation has no other error than a payload that is null or short, which leaves all but `RES`. -/
abbrev Decodes (m : Flow Unit) (s : State) : Prop :=
  Ends m (fun _ t => At (· = s.pc) s.x.raw t)
    fun t => t = { s with x := { s.x with res := Err.invalidIdentifyPayload.code } }

/-- A part that can end with no error at all. -/
theorem Control.neverEnds {α : Type} {m : Flow α} {P : Pc → Prop} {w : Word} {E : State → Prop} (h : Control m P w []) :
    Ends m (fun _ t => At P w t) E :=
  h.ends.mono (fun _ _ g => g) fun _ ⟨e, he, _⟩ => by cases he

section Valid

variable {p len : Nat} {s : State}

theorem control_idStrStep (w0 n out : Nat) (hp : payloadValid p len = true) :
    Control (idStrStep p len w0 n out s) (· = s.pc) s.x.raw L := by
  rw [idStrStep, if_pos hp]
  refine (control_idPremises _ _ _ (at_self s)).bind fun _ t h => ?_
  refine (control_loadField _ _ _ h).bind fun str u h => ?_
  exact (control_storeBytes _ _ h).bind fun _ v h => control_go ⟨h.pc, h.raw⟩

theorem control_idCapStep (hp : payloadValid p len = true) : Control (idCapStep p len s) (· = s.pc) s.x.raw L := by
  rw [idCapStep, if_pos hp]
  refine (control_payloadPremises _ (at_self s)).bind fun _ t h => ?_
  exact (control_capStep p h).bind fun _ u h => control_go h

theorem control_idSecszStep (hp : payloadValid p len = true) :
    Control (idSecszStep p len s) (· = s.pc) s.x.raw L := by
  rw [idSecszStep, if_pos hp]
  refine (control_payloadPremises _ (at_self s)).bind fun _ t h => ?_
  exact (control_secszStep p h).bind fun _ u h => control_go h

end Valid

theorem decodes_idStrStep (p len w0 n out : Nat) (s : State) : Decodes (idStrStep p len w0 n out s) s := by
  by_cases hp : payloadValid p len = true
  · exact Control.neverEnds (control_idStrStep w0 n out hp)
  · rw [idStrStep, if_neg hp]; exact ends_stop rfl

theorem decodes_idCapStep (p len : Nat) (s : State) : Decodes (idCapStep p len s) s := by
  by_cases hp : payloadValid p len = true
  · exact Control.neverEnds (control_idCapStep hp)
  · rw [idCapStep, if_neg hp]; exact ends_stop rfl

theorem decodes_idSecszStep (p len : Nat) (s : State) : Decodes (idSecszStep p len s) s := by
  by_cases hp : payloadValid p len = true
  · exact Control.neverEnds (control_idSecszStep hp)
  · rw [idSecszStep, if_neg hp]; exact ends_stop rfl

theorem decodes_idDecodeStep (p len out : Nat) (s : State) : Decodes (idDecodeStep p len out s) s := by
  by_cases hp : payloadValid p len = true
  · exact Control.neverEnds (control_idDecodeStep p out hp (at_self s))
  · rw [idDecodeStep, if_neg hp]; exact ends_stop rfl

theorem decodes_opBody {i : Instr} (hi : decodes i = true) (s : State) : Decodes (opBody i s) s := by
  cases i <;> cases hi
  case idStr r => exact decodes_idStrStep _ _ _ _ _ s
  case idCap r => exact decodes_idCapStep _ _ s
  case idSecsz r => exact decodes_idSecszStep _ _ s
  case idDecode r => exact decodes_idDecodeStep _ _ _ s

/-! ## The result of an operation -/

/-- The operation has ended with `e`. -/
structure Failed (i : Instr) (k : Kind) (s t : State) (e : Err) : Prop where
  mem : e ∈ errorsOn i k
  res : t.x.res = e.code
  pc : t.pc = failPc i s.pc e
  raw : e ≠ .deviceError → t.x.raw = s.x.raw

/-- How the body of an operation can end on a device of kind `k`. -/
theorem ends_opBody (i : Instr) {s : State} {k : Kind}
    (hk : namesDevice i = true → ∀ d, alGet s.dev s.x.dev.toNat = some d → d.kind = k) :
    Ends (opBody i s) (fun _ t => At (· = donePc i s.pc) s.x.raw t) fun t => ∃ e, Failed i k s t e := by
  cases hi : decodes i with
  | false =>
    refine (control_opBody hi hk).ends.mono (fun _ _ h => h) ?_
    rintro t ⟨e, he, hres, hpc, hraw⟩
    exact ⟨e, he, hres, by rw [failPc, hi]; exact hpc, hraw⟩
  | true =>
    have hdone : donePc i s.pc = s.pc := by cases i <;> cases hi <;> rfl
    refine (decodes_opBody hi s).mono (fun _ _ h => hdone.symm ▸ h) ?_
    rintro t rfl
    refine ⟨.invalidIdentifyPayload, ?_, rfl, by rw [failPc, hi]; rfl, fun _ => rfl⟩
    cases i <;> cases hi <;> exact List.mem_singleton_self _

/-- The two ways an operation goes on: success, and one of its errors. -/
theorem exec_result {i : Instr} {r : Request} {s t : State} {k : Kind} (hr : i.request? = some r)
    (hk : namesDevice i = true → ∀ d, alGet s.dev r.dev.toNat = some d → d.kind = k) (h : exec i s = .next t) :
    (t.x.res = 0#8 ∧ t.pc = donePc i s.pc ∧ t.x.raw = s.x.raw) ∨ ∃ e, Failed i k s t e := by
  have hraw : (entry i s).x.raw = s.x.raw := (entry_x hr s).2.2.2.2.2.2
  have hends := ends_opBody i (s := entry i s) (k := k) fun hn d hd => hk hn d (by rw [← entry_device hr]; exact hd)
  obtain ⟨-, -, ⟨u, hu, rfl⟩ | ⟨u, hu, rfl⟩⟩ := operation_next hr h
  · have hat := hends.go hu
    exact .inl ⟨rfl, by rw [← entry_pc i s]; exact hat.pc, hat.raw.trans hraw⟩
  · obtain ⟨e, he, hres, hpc, hne⟩ := hends.stop hu
    exact .inr ⟨e, he, hres, by rw [← entry_pc i s]; exact hpc, fun hd => (hne hd).trans hraw⟩

/-- A record has one kind. -/
theorem exists_kind (l : List (Nat × Dev)) (n : Nat) : ∃ k, ∀ d, alGet l n = some d → d.kind = k := by
  cases alGet l n with
  | none => exact ⟨.ahci, fun d hd => by cases hd⟩
  | some d => exact ⟨d.kind, fun _ hd => by cases hd; rfl⟩

/-- The same on whatever device the request names. -/
theorem exec_result_some {i : Instr} {r : Request} {s t : State} (hr : i.request? = some r) (h : exec i s = .next t) :
    (t.x.res = 0#8 ∧ t.pc = donePc i s.pc ∧ t.x.raw = s.x.raw) ∨ ∃ k e, Failed i k s t e := by
  obtain ⟨k, hk⟩ := exists_kind s.dev r.dev.toNat
  exact (exec_result hr (fun _ => hk) h).imp id fun ⟨e, he⟩ => ⟨k, e, he⟩

theorem failed_ne_zero {i : Instr} {k : Kind} {s t : State} {e : Err} (h : Failed i k s t e) : t.x.res ≠ 0#8 :=
  h.res ▸ code_ne_zero e

/-- A body that ends with an error has set the result code. -/
theorem res_ne_zero_of_stop {i : Instr} {s t : State} (h : opBody i s = .stop t) : t.x.res ≠ 0#8 := by
  obtain ⟨k, hk⟩ := exists_kind s.dev s.x.dev.toNat
  obtain ⟨e, he⟩ := (ends_opBody i fun _ => hk).stop h
  exact failed_ne_zero he

theorem isOperation_request {i : Instr} (h : i.isOperation = true) : ∃ r, i.request? = some r :=
  Option.isSome_iff_exists.mp h

/-! ## The response (30_encoding.md R111) -/

theorem responseBytes_length (r : Response) : (responseBytes r).length = 16 := by simp [responseBytes]

theorem responseBytes_fields (r : Response) :
    field (responseBytes r) 0 4 = r.res.toNat + 256 * r.pc.toNat ∧ field (responseBytes r) 4 4 = r.raw.toNat ∧
      field (responseBytes r) 8 8 = r.val.toNat := by
  have hpc := r.pc.isLt
  have hres := r.res.isLt
  have hraw := r.raw.isLt
  have hval := r.val.isLt
  have hlen := responseBytes_length r
  refine ⟨?_, ?_, ?_⟩
  · rw [show (4 : Nat) = 1 + 3 from rfl, field_add _ _ _ _ (by rw [hlen]; decide)]
    simp only [responseBytes, List.append_assoc]
    rw [field_head (by simp), field_skip (by simp), leBytes_length, field_head (by simp), leNat_leBytes, leNat_leBytes]
    omega
  · simp only [responseBytes, List.append_assoc]
    simp only [field_skip, leBytes_length, Nat.reduceLeDiff, Nat.reduceSub]
    rw [field_head (by simp), leNat_leBytes]
    omega
  · simp only [responseBytes, List.append_assoc]
    simp only [field_skip, leBytes_length, Nat.reduceLeDiff, Nat.reduceSub]
    rw [field_whole (by simp), leNat_leBytes]
    omega

/-- The response of an operation that ends in `u`. -/
theorem respond_response (v : Bool) (u : State) :
    (respond v u).nrsp = u.nrsp + 1 ∧ (respond v u).rsp.res = u.x.res ∧ (respond v u).rsp.pc = u.pc.code ∧
      (u.x.res = Err.deviceError.code → (respond v u).rsp.raw = u.x.raw) ∧
      (v = true → u.x.res = 0#8 → (respond v u).rsp.val = u.x.val) :=
  ⟨rfl, rfl, rfl, fun h => if_pos h, fun hv h0 => if_pos (by rw [hv, h0]; rfl)⟩

/-! ## `pc` (10_state.md R21) -/

theorem mayLeave_donePc {i : Instr} {p : Pc} (h : runsIn i p = true) : mayLeave i p (donePc i p) = true := by
  cases i <;> cases p <;> first | rfl | cases h

theorem mayLeave_failPc (i : Instr) (p : Pc) : ∀ e ∈ mayReport i, mayLeave i p (failPc i p e) = true := by
  cases i <;> simp [mayReport, ahciErrors, nvmeErrors, mayLeave, failPc, decodes, Err.leaves]

/-- A look that ends the poll leaves Completed or DeviceError; one that goes on leaves `pc` as it is. -/
theorem ends_lookAt_pc (e : Cqe) (s : State) :
    Ends (lookAt e s) (fun b t => if b then t.pc = .completed else t.pc = s.pc) fun t => t.pc = .deviceError := by
  have herr : ∀ t, Erred [.deviceError] s.x.raw t → t.pc = .deviceError := by
    rintro t ⟨e, he, -, hpc, -⟩
    cases List.mem_singleton.mp he; exact hpc
  have hslot : Ends (nvmeSlot s) (fun _ t => t = s) fun t => t.pc = .deviceError :=
    (ends_nvmeSlot s).mono (fun _ _ h => h.1) fun _ h => h
  unfold lookAt
  refine hslot.bind ?_
  rintro c t rfl
  refine ends_ite (fun _ => ?_) fun _ => ?_
  · refine ((control_consume c _ _ (List.mem_singleton_self _) (any t)).ends.mono (fun _ _ h => h) herr).bind ?_
    exact fun _ u hu => ends_go hu.pc
  · refine ((control_noMatch c (List.mem_singleton_self _) (at_self t)).ends.mono (fun _ _ h => h) herr).bind ?_
    exact fun _ u hu => ends_go hu.pc

theorem cqe_pc {e : Cqe} {s t : State} (h : exec (.cqe e) s = .next t) :
    s.pc = .issued ∧ (t.pc = .issued ∨ t.pc = .completed ∨ t.pc = .deviceError) := by
  have hl := ends_lookAt_pc e s
  change execCqe e s = .next t at h
  unfold execCqe at h
  split at h
  case isFalse => cases h
  case isTrue hpc =>
    refine ⟨hpc, ?_⟩
    split at h
    case h_1 u hu => cases h; exact .inr (.inl (hl.go hu))
    case h_2 u hu => cases h; exact .inl (hpc ▸ hl.go hu)
    case h_3 u hu => cases h; exact .inr (.inr (hl.stop (s := u) hu))
    case h_4 r hu => cases h

/-- The rows that store run in SlotAllocated and leave it. -/
theorem row_pc {i : Instr} (hr : i.request? = none) (hc : ∀ e, i ≠ .cqe e) :
    runsIn i .slotAllocated = true ∧ mayLeave i .slotAllocated .slotAllocated = true := by
  cases i
  case cqe e => exact absurd rfl (hc e)
  all_goals first | exact ⟨rfl, rfl⟩ | cases hr

/-! ## The obligations -/

/-- The errors of the two engines: what an operation on an NVMe device does not end with. -/
theorem errorsOn_nvme {i : Instr} (hn : namesDevice i = true) (hk : kindFor i ≠ some .ahci) :
    ∀ e ∈ errorsOn i .nvme, e ≠ .portHung ∧ e ≠ .tooManyDescriptors := by
  cases i <;> simp [namesDevice, kindFor] at hn hk <;> simp [errorsOn, mayReport, engineErrors, nvmeErrors]

theorem errorsOn_ahci {i : Instr} (hn : namesDevice i = true) (hk : kindFor i ≠ some .nvme) :
    ∀ e ∈ errorsOn i .ahci, e ≠ .transferTooLarge := by
  cases i <;> simp [namesDevice, kindFor] at hn hk <;> simp [errorsOn, mayReport, engineErrors, ahciErrors]

theorem donePc_of_isCommand {i : Instr} (h : isCommand i = true) (p : Pc) : donePc i p = .completed := by
  cases i <;> first | rfl | cases h

/-- Code 7 says nothing of `pc`. -/
theorem reported_invalidPayload (p : Pc) : reported Err.invalidIdentifyPayload.code p := by
  refine ⟨by decide, ?_, fun h => absurd h (by decide), fun h => absurd h (by decide)⟩
  rintro (h | h | h | h | h | h) <;> exact absurd h (by decide)

theorem reported_failPc (i : Instr) (p : Pc) {e : Err} (h : e ∈ mayReport i) : reported e.code (failPc i p e) := by
  cases hd : decodes i with
  | false => rw [failPc, hd]; exact reported_leaves e
  | true =>
    have : e = .invalidIdentifyPayload := by cases i <;> cases hd <;> exact List.mem_singleton.mp h
    subst this
    exact reported_invalidPayload _

/-- InvalidIdentifyPayload is an error of IDENTIFY and of the decoder operations. -/
theorem identify_or_decodes {i : Instr} {k : Kind} (h : Err.invalidIdentifyPayload ∈ errorsOn i k) :
    (∃ r, i = .identify r) ∨ (decodes i = true ∧ ∀ r, i ≠ .identify r) := by
  cases i <;> cases k <;> simp [errorsOn, mayReport, engineErrors, ahciErrors, nvmeErrors, decodes] at h ⊢

/-- On the device it names an operation ends with an error of that kind of device. -/
theorem failed_on {i : Instr} {r : Request} {s t : State} {d : Dev} (hr : i.request? = some r)
    (hd : alGet s.dev r.dev.toNat = some d) (h : exec i s = .next t) :
    t.x.res = 0#8 ∨ ∃ e ∈ errorsOn i d.kind, t.x.res = e.code :=
  (exec_result hr (k := d.kind) (fun _ d' hd' => by rw [hd] at hd'; cases hd'; rfl) h).imp (·.1)
    fun ⟨e, he⟩ => ⟨e, he.mem, he.res⟩

/-- A result that none of the possible errors has. -/
theorem res_ne {res : Byte} {es : List Err} {f : Err} (h : res = 0#8 ∨ ∃ e ∈ es, res = e.code)
    (hf : ∀ e ∈ es, e ≠ f) : res ≠ f.code := by
  rintro rfl
  obtain h0 | ⟨e, he, hc⟩ := h
  · exact code_ne_zero f h0
  · exact hf e he (code_inj hc).symm

/-- Settles O13: the result of an operation is success or one of its errors, on the device it names. -/
theorem resultCodes : Obligations.ResultCodes := by
  intro i s t hi h
  obtain ⟨r₀, hr₀⟩ := isOperation_request hi
  have hdevice : ∀ (r : Request) (d : Dev), i.request? = some r → namesDevice i = true →
      alGet s.dev r.dev.toNat = some d →
      (d.kind = .nvme → t.x.res ≠ Err.portHung.code ∧ t.x.res ≠ Err.tooManyDescriptors.code) ∧
      (d.kind = .ahci → t.x.res ≠ Err.transferTooLarge.code) := by
    intro r d hr hn hd
    have hres := failed_on hr hd h
    have hkind : ∀ k, kindFor i = some k → d.kind = k := fun k hk => kind_of_next hr hk hd h
    refine ⟨fun hk => ?_, fun hk => ?_⟩ <;> rw [hk] at hres hkind
    · have hes := errorsOn_nvme hn fun h => nomatch hkind _ h
      exact ⟨res_ne hres fun e he => (hes e he).1, res_ne hres fun e he => (hes e he).2⟩
    · exact res_ne hres (errorsOn_ahci hn fun h => nomatch hkind _ h)
  obtain ⟨hres, hpc, hraw⟩ | ⟨k, e, he⟩ := exec_result_some hr₀ h
  · refine ⟨.inl hres, hres ▸ reported_zero _, fun hc _ => hpc.trans (donePc_of_isCommand hc _), fun h7 => ?_,
      fun _ => hraw, hdevice⟩
    exact absurd (hres.symm.trans h7) (code_ne_zero _).symm
  · refine ⟨.inr ⟨e, errorsOn_subset he.mem, he.res⟩, ?_, fun _ h0 => absurd h0 (failed_ne_zero he), fun h7 => ?_,
      fun hne => he.raw fun hd => hne (he.res.trans (congrArg _ hd)), hdevice⟩
    · rw [he.res, he.pc]; exact reported_failPc i s.pc (errorsOn_subset he.mem)
    · obtain rfl := code_inj (he.res.symm.trans h7)
      obtain ⟨r, rfl⟩ | ⟨hdec, hid⟩ := identify_or_decodes he.mem
      · exact .inl ⟨⟨r, rfl⟩, he.pc⟩
      · exact .inr ⟨hid, by rw [he.pc, failPc, hdec]; rfl⟩

/-- Settles O14: the `pc` that an instruction leaves by success, by an error, or as a row. -/
theorem pcTransitions : Obligations.PcTransitions := by
  intro i s t h
  cases hr : i.request? with
  | some r =>
    have hruns := (operation_next hr h).2.1
    refine ⟨hruns, ?_⟩
    obtain ⟨-, hpc, -⟩ | ⟨k, e, he⟩ := exec_result_some hr h
    · rw [hpc]; exact mayLeave_donePc hruns
    · rw [he.pc]; exact mayLeave_failPc i s.pc e (errorsOn_subset he.mem)
  | none =>
    by_cases hc : ∃ e, i = .cqe e
    · obtain ⟨e, rfl⟩ := hc
      obtain ⟨hs, ht⟩ := cqe_pc h
      rcases ht with ht | ht | ht <;> rw [hs, ht] <;> exact ⟨rfl, rfl⟩
    · have hc : ∀ e, i ≠ .cqe e := fun e he => hc ⟨e, he⟩
      obtain ⟨hs, ht⟩ := row_next hr hc h
      rw [ht.pc, hs]; exact row_pc hr hc

end Sys2Proof.Proofs

/-!
SUPPORT. What an instruction and an event of the host leave of the records, the parameters and the operands, and the
proofs of O11, O12 and O15.
-/

namespace Sys2Proof.Proofs

open Sys2Proof Sys2Proof.Machine Sys2Proof.Laws

/-! ## The body of an operation -/

theorem local_readStep (w : Width) (a : Nat) (s : State) : StaysLocal s (readStep w a s) := by
  unfold readStep
  refine (local_need _ _ s).bind fun _ t => ?_
  exact (local_mmioRead w a t).bind fun v u => local_go _ (local_setVal u v)

theorem local_writeStep (w : Width) (a : Nat) (v : Quad) (s : State) : StaysLocal s (writeStep w a v s) :=
  (local_need _ _ s).bind fun _ t => local_mmioWrite w a v t

theorem local_publishAll (s : State) : Local s (publishAll s) :=
  ⟨⟨rfl, rfl, rfl, rfl, rfl, rfl, .refl _⟩, rfl, fun _ h => h, .refl _ _, .refl _ _⟩

theorem local_setCommand (s : State) (wr : BitVec 1) (flg : BitVec 4) (c : Byte) : Local s (s.setCommand wr flg c) :=
  local_control s _ _ _ _ _ ⟨rfl, rfl, rfl, rfl, rfl, rfl⟩

theorem StaysLocal.after {α : Type} {s t : State} {m : Flow α} (h : Local s t) (g : StaysLocal t m) : StaysLocal s m :=
  g.mono (fun _ _ g => h.trans g) fun _ g => h.trans g

theorem local_blockStep (wr : BitVec 1) (ata opc : Byte) (s : State) : StaysLocal s (blockStep wr ata opc s) := by
  unfold blockStep
  refine (local_needOk _ s).bind fun d t => ?_
  refine ends_ite (fun _ => ends_stop (local_raised ..)) fun _ => ?_
  split
  · exact (local_need _ _ t).bind fun _ u => StaysLocal.after (local_setCommand u _ _ _) (local_ahciCmdStep _)
  · exact StaysLocal.after (local_setCommand t _ _ _) (local_nvmeCmdStep _)

theorem local_sigClassStep (s : State) : StaysLocal s (sigClassStep s) := by
  unfold sigClassStep
  refine (local_needOk _ s).bind fun c t => ?_
  refine (local_mmioRead _ _ t).bind fun v u => ?_
  refine ends_ite (fun _ => ?_) fun _ => local_go _ (local_setVal u _)
  exact (local_mmioRead _ _ u).bind fun g x => local_go _ (local_setVal x _)

/-- IDENTIFY is local but for the two operands it sets. -/
abbrev LocalBut (s t : State) : Prop := ∃ c l, Local (s.setTransfer c l) t

theorem local_identifyCommand (s : State) (wr : BitVec 1) (flg : BitVec 4) (cmd : Byte) (c : Half) (l : Quad) :
    Local (s.setTransfer c l) ((s.setCommand wr flg cmd).setTransfer c l) :=
  local_control (s.setTransfer c l) s.pc _ s.claim s.built s.inflight ⟨rfl, rfl, rfl, rfl, rfl, rfl⟩

theorem local_identifyStep (s : State) : Ends (identifyStep s) (fun _ t => LocalBut s t) (LocalBut s) := by
  have but : ∀ {c l} {m : Flow Unit}, StaysLocal (s.setTransfer c l) m → Ends m (fun _ t => LocalBut s t) (LocalBut s) :=
    fun h => h.mono (fun _ _ g => ⟨_, _, g⟩) fun _ g => ⟨_, _, g⟩
  unfold identifyStep
  refine (ends_needOk (Q := fun _ t => t = s) fun _ _ => rfl).bind ?_
  rintro d t rfl
  refine ends_ite (fun _ => ends_stop ⟨t.x.cnt, t.x.lba, local_raised ..⟩) fun _ => ?_
  split
  · refine but (c := 1#16) (l := 0#64) (StaysLocal.bind ?_ fun _ u => local_idDecodeStep _ _ _ u)
    exact StaysLocal.after (local_identifyCommand t _ _ _ _ _) (local_ahciCmdStep _)
  · refine (ends_need (Q := fun _ u => u = t) fun _ => rfl).bind ?_
    rintro - u rfl
    exact but (StaysLocal.after (local_identifyCommand u _ _ _ _ _) (local_nvmeCmdStep _))

/-- Outside the bring-up operations and IDENTIFY, every body is local. -/
theorem local_opBody {i : Instr} (hb : bringsUp i = false) (hid : ∀ r, i ≠ .identify r) (s : State) :
    StaysLocal s (opBody i s) := by
  cases i
  case rd32 r => exact local_readStep _ _ s
  case rd64 r => exact local_readStep _ _ s
  case wr32 r => exact local_writeStep _ _ _ s
  case wr64 r => exact local_writeStep _ _ _ s
  case publish r => exact local_go _ (local_publishAll s)
  case ahciAlloc r => exact local_ahciAllocStep s
  case nvmeAlloc r => exact local_nvmeAllocStep s
  case prdtBuild r => exact local_prdtStep s
  case fisBuild r => exact local_fisStep s
  case hdrBuild r => exact local_hdrStep s
  case ahciBuild r => exact local_ahciBuildStep s
  case prpBuild r => exact local_prpStep s
  case sqeBuild r => exact local_sqeStep s
  case nvmeBuild r => exact local_nvmeBuildStep s
  case ahciIssue r => exact local_ahciIssueStep s
  case ahciPoll r => exact local_ahciPollStep s
  case ahciCmd r => exact local_ahciCmdStep s
  case nvmeRdychk r => exact local_rdychkStep s
  case nvmeIssue r => exact local_nvmeIssueStep s
  case nvmePoll r => exact local_nvmePollStep s
  case nvmeCmd r => exact local_nvmeCmdStep s
  case readBlocks r => exact local_blockStep _ _ _ s
  case writeBlocks r => exact local_blockStep _ _ _ s
  case identify r => exact absurd rfl (hid r)
  case idStr r => exact local_idStrStep _ _ _ _ _ s
  case idCap r => exact local_idCapStep _ _ s
  case idSecsz r => exact local_idSecszStep _ _ s
  case idDecode r => exact local_idDecodeStep _ _ _ s
  case probe r => exact local_go _ (local_setVal s _)
  case sigClass r => exact local_sigClassStep s
  case ahciInit r => cases hb
  case portInit r => cases hb
  case portReset r => cases hb
  case nvmeInit r => cases hb
  all_goals exact local_go () (.refl s)

theorem fixed_portInitBody (s : State) : StaysFixed s (portInitBody s) :=
  (local_needOk _ s).fixed.bind fun c t => (local_need _ _ t).fixed.bind fun _ u => fixed_portInitStep c u

theorem fixed_portResetBody (s : State) : StaysFixed s (portResetBody s) :=
  (local_needOk _ s).fixed.bind fun c t => fixed_portInitStep c t

theorem fixed_opBody_bringUp {i : Instr} (hb : bringsUp i = true) (s : State) : StaysFixed s (opBody i s) := by
  cases i <;> cases hb
  case ahciInit r => exact fixed_ahciInitStep s
  case portInit r => exact fixed_portInitBody s
  case portReset r => exact fixed_portResetBody s
  case nvmeInit r => exact fixed_nvmeInitStep s

theorem fixed_opBody {i : Instr} (hid : ∀ r, i ≠ .identify r) (s : State) : StaysFixed s (opBody i s) := by
  cases hb : bringsUp i with
  | false => exact (local_opBody hb hid s).fixed
  | true => exact fixed_opBody_bringUp hb s

/-! ## Success and error alike -/

/-- The end of an operation gives its result and its response. -/
structure Settled (u t : State) : Prop where
  eq : t = { u with x := { u.x with res := t.x.res }, rsp := t.rsp, nrsp := u.nrsp + 1 }

/-- What holds of the body on every way it can end holds where the operation goes on, but for its response. -/
theorem exec_body {i : Instr} {r : Request} {s t : State} {P : State → Prop} (hr : i.request? = some r)
    (hP : Ends (opBody i (entry i s)) (fun _ => P) P) (h : exec i s = .next t) : ∃ u, P u ∧ Settled u t := by
  obtain ⟨-, -, ⟨u, hu, rfl⟩ | ⟨u, hu, rfl⟩⟩ := operation_next hr h
  · exact ⟨u, hP.go hu, ⟨rfl⟩⟩
  · exact ⟨u, hP.stop hu, ⟨rfl⟩⟩

/-- What no instruction changes. -/
structure Unmoved (s t : State) : Prop where
  cfg : t.cfg = s.cfg
  port : t.port = s.port
  dev : t.dev = s.dev
  inputs : t.inputs = s.inputs

theorem Unmoved.trans {s t u : State} (h : Unmoved s t) (g : Unmoved t u) : Unmoved s u :=
  ⟨g.cfg.trans h.cfg, g.port.trans h.port, g.dev.trans h.dev, g.inputs.trans h.inputs⟩

theorem unmoved_settled {u t : State} (h : Settled u t) : Unmoved u t := by
  rw [h.eq]; exact ⟨rfl, rfl, rfl, rfl⟩

theorem unmoved_fixed {s t : State} (h : Fixed s t) : Unmoved s t := ⟨h.cfg, h.port, h.dev, h.inputs⟩

theorem unmoved_local {s t : State} {x : Regs} (h : Local { s with x := x } t) : Unmoved s t :=
  ⟨h.cfg, h.port, h.dev, h.inputs⟩

theorem unmoved_entry (i : Instr) (s : State) : Unmoved s (entry i s) := by
  rw [entry_eq]; exact ⟨rfl, rfl, rfl, rfl⟩

/-- A look at a completion entry is local. -/
theorem local_lookAt (e : Cqe) (s : State) : StaysLocal s (lookAt e s) := by
  unfold lookAt
  have hslot : Ends (nvmeSlot s) (fun c t => t = s ∧ HoldsEntry s c) (Local s) := ends_nvmeSlot s
  refine hslot.bind ?_
  rintro c t ⟨rfl, hc⟩
  refine ends_ite (fun _ => ?_) fun _ => ?_
  · exact StaysLocal.bind (local_consume c _ _ t (qpConfig_of_slot hc)) fun _ u => local_go _ (.refl u)
  · exact StaysLocal.bind (local_noMatch c t) fun _ u => local_go _ (.refl u)

/-- The rows: local, but for the response of a look that ends the poll. -/
theorem row_local {i : Instr} {s t : State} (hr : i.request? = none) (h : exec i s = .next t) :
    Local s t ∨ ∃ u, Local s u ∧ Settled u t := by
  by_cases hc : ∃ e, i = .cqe e
  · obtain ⟨e, rfl⟩ := hc
    have hl := local_lookAt e s
    change execCqe e s = .next t at h
    unfold execCqe at h
    split at h
    case isFalse => cases h
    case isTrue hpc =>
      split at h
      case h_1 u hu => cases h; exact .inr ⟨u, hl.go hu, ⟨rfl⟩⟩
      case h_2 u hu => cases h; exact .inl (hl.go hu)
      case h_3 u hu => cases h; exact .inr ⟨u, hl.stop (s := u) hu, ⟨rfl⟩⟩
      case h_4 r hu => cases h
  · exact .inl (row_next hr (fun e he => hc ⟨e, he⟩) h).2.local

/-- An instruction that brings nothing up is local, but for the registers it loads and the response it leaves. -/
theorem exec_local {i : Instr} {s t : State} (hb : bringsUp i = false) (h : exec i s = .next t) :
    ∃ x u, Local { s with x := x } u ∧ (t = u ∨ Settled u t) := by
  cases hr : i.request? with
  | none =>
    obtain hl | ⟨u, hl, hs⟩ := row_local hr h
    · exact ⟨s.x, t, hl, .inl rfl⟩
    · exact ⟨s.x, u, hl, .inr hs⟩
  | some r =>
    have he := entry_eq i s
    by_cases hid : ∃ r, i = .identify r
    · obtain ⟨q, rfl⟩ := hid
      obtain ⟨u, ⟨c, l, hu⟩, hs⟩ := exec_body hr (local_identifyStep _) h
      exact ⟨_, u, hu, .inr hs⟩
    · obtain ⟨u, hu, hs⟩ := exec_body hr (local_opBody hb (fun q hq => hid ⟨q, hq⟩) _) h
      exact ⟨_, u, he ▸ hu, .inr hs⟩

/-- What no instruction changes stays. -/
theorem exec_unmoved {i : Instr} {s t : State} (h : exec i s = .next t) : Unmoved s t := by
  cases hb : bringsUp i with
  | false =>
    obtain ⟨x, u, hl, rfl | hs⟩ := exec_local hb h
    · exact unmoved_local hl
    · exact (unmoved_local hl).trans (unmoved_settled hs)
  | true =>
    obtain ⟨r, hr⟩ : ∃ r, i.request? = some r := by cases i <;> first | exact ⟨_, rfl⟩ | cases hb
    have hid : ∀ r, i ≠ .identify r := by rintro q rfl; cases hb
    obtain ⟨u, hu, hs⟩ := exec_body hr (fixed_opBody hid _) h
    exact (unmoved_entry i s).trans ((unmoved_fixed hu).trans (unmoved_settled hs))

/-! ## The config of the records -/

/-- What an instruction keeps of the config of the loaded records. -/
structure ConfigKept (i : Instr) (s t : State) : Prop where
  qp : SameAt qpConfig s.qp t.qp
  nvme : SameAt (fun n => (nvmeConfig n).1) s.nvme t.nvme
  hba : SameAt Hba.base s.hba t.hba
  stride : (∀ r, i ≠ .nvmeInit r) → SameAt nvmeConfig s.nvme t.nvme
  slots : (∀ r, i ≠ .ahciInit r) → SameAt id s.hba t.hba

theorem configKept_local (i : Instr) {s t : State} (h : Local s t) : ConfigKept i s t :=
  have hr : Records Hba.base Prod.fst s t := h.records
  ⟨h.qp, hr.nvme, hr.hba, fun _ => h.nvme, fun _ => .of_eq h.hba⟩

theorem configKept_ahciInit (r : Request) {s t : State} (h : Records Hba.base id s t) : ConfigKept (.ahciInit r) s t :=
  ⟨h.qp, fun k => by simpa [Option.map_map, Function.comp_def] using congrArg (Option.map Prod.fst) (h.nvme k), h.hba,
    fun _ => h.nvme, fun hn => absurd rfl (hn r)⟩

theorem configKept_nvmeInit (r : Request) {s t : State} (h : Records id Prod.fst s t) : ConfigKept (.nvmeInit r) s t :=
  ⟨h.qp, h.nvme, fun k => by simpa [Option.map_map, Function.comp_def] using congrArg (Option.map Hba.base) (h.hba k),
    fun hn => absurd rfl (hn r), fun _ => h.hba⟩

theorem configKept_portInit (i : Instr) {s t : State} (h : Records id id s t) : ConfigKept i s t :=
  ⟨h.qp, fun k => by simpa [Option.map_map, Function.comp_def] using congrArg (Option.map Prod.fst) (h.nvme k),
    fun k => by simpa [Option.map_map, Function.comp_def] using congrArg (Option.map Hba.base) (h.hba k),
    fun _ => h.nvme, fun _ => h.hba⟩

theorem records_portInitBody (s : State) : StaysRecords (α := Unit) (id : Hba → Hba) (id : NvmeConfig → _) s (portInitBody s) :=
  StaysRecords.next (.refl s) (local_needOk _ s) fun c t h => StaysRecords.next h (local_need _ _ t) fun _ u h =>
    StaysRecords.after h (records_portInitStep c u)

theorem records_portResetBody (s : State) : StaysRecords (α := Unit) (id : Hba → Hba) (id : NvmeConfig → _) s (portResetBody s) :=
  StaysRecords.next (.refl s) (local_needOk _ s) fun c t h => StaysRecords.after h (records_portInitStep c t)

theorem configKept_bringUp {i : Instr} (hb : bringsUp i = true) {s : State} (hs : rising s.qp = true) :
    Ends (opBody i s) (fun _ => ConfigKept i s) (ConfigKept i s) := by
  cases i <;> cases hb
  case ahciInit r =>
    exact (records_ahciInitStep s).mono (fun _ _ h => configKept_ahciInit r h) fun _ h => configKept_ahciInit r h
  case portInit r =>
    exact (records_portInitBody s).mono (fun _ _ h => configKept_portInit _ h) fun _ h => configKept_portInit _ h
  case portReset r =>
    exact (records_portResetBody s).mono (fun _ _ h => configKept_portInit _ h) fun _ h => configKept_portInit _ h
  case nvmeInit r =>
    exact (records_nvmeInitStep s hs).mono (fun _ _ h => configKept_nvmeInit r h) fun _ h => configKept_nvmeInit r h

/-- The config speaks of the record banks alone. -/
theorem ConfigKept.congr {i : Instr} {s s' t t' : State} (h : ConfigKept i s t) (hs : s'.qp = s.qp ∧ s'.nvme = s.nvme ∧ s'.hba = s.hba)
    (ht : t'.qp = t.qp ∧ t'.nvme = t.nvme ∧ t'.hba = t.hba) : ConfigKept i s' t' := by
  obtain ⟨h1, h2, h3, h4, h5⟩ := h
  obtain ⟨s1, s2, s3⟩ := hs
  obtain ⟨t1, t2, t3⟩ := ht
  exact ⟨s1 ▸ t1 ▸ h1, s2 ▸ t2 ▸ h2, s3 ▸ t3 ▸ h3, s2 ▸ t2 ▸ h4, s3 ▸ t3 ▸ h5⟩

theorem settled_banks {u t : State} (h : Settled u t) : t.qp = u.qp ∧ t.nvme = u.nvme ∧ t.hba = u.hba := by
  rw [h.eq]; exact ⟨rfl, rfl, rfl⟩

theorem exec_configKept {i : Instr} {s t : State} (hs : rising s.qp = true) (h : exec i s = .next t) :
    ConfigKept i s t := by
  cases hb : bringsUp i with
  | false =>
    obtain ⟨x, u, hl, rfl | hu⟩ := exec_local hb h
    · exact (configKept_local i hl).congr ⟨rfl, rfl, rfl⟩ ⟨rfl, rfl, rfl⟩
    · exact (configKept_local i hl).congr ⟨rfl, rfl, rfl⟩ (settled_banks hu)
  | true =>
    obtain ⟨r, hr⟩ : ∃ r, i.request? = some r := by cases i <;> first | exact ⟨_, rfl⟩ | cases hb
    have hq : (entry i s).qp = s.qp ∧ (entry i s).nvme = s.nvme ∧ (entry i s).hba = s.hba := by
      rw [entry_eq]; exact ⟨rfl, rfl, rfl⟩
    obtain ⟨u, hu, hset⟩ := exec_body hr (configKept_bringUp hb (by rw [hq.1]; exact hs)) h
    exact hu.congr ⟨hq.1.symm, hq.2.1.symm, hq.2.2.symm⟩ (settled_banks hset)

/-! ## The operands (30_encoding.md R110, R112) -/

theorem exec_operands {i : Instr} {r : Request} {s t : State} (hr : i.request? = some r) (h : exec i s = .next t) :
    opcInstr t.x.op.toNat r = some i ∧ t.x.dev = r.dev ∧ t.x.arg = r.arg ∧ t.x.buf = r.buf ∧
      ((∀ q, i ≠ .identify q) → t.x.cnt = r.cnt ∧ t.x.lba = r.lba) := by
  obtain ⟨hop, hdev, hcnt, harg, hlba, hbuf, -⟩ := entry_x hr s
  by_cases hid : ∃ q, i = .identify q
  · obtain ⟨q, rfl⟩ := hid
    obtain ⟨u, ⟨c, l, hu⟩, hs⟩ := exec_body hr (local_identifyStep _) h
    rw [hs.eq]
    have hu := hu.operands
    exact ⟨by rw [← hop]; exact congrArg (fun o => opcInstr (BitVec.toNat o) r) hu.op, hu.dev.trans hdev,
      hu.arg.trans harg, hu.buf.trans hbuf, fun hn => absurd rfl (hn q)⟩
  · obtain ⟨u, hu, hs⟩ := exec_body hr (fixed_opBody (fun q hq => hid ⟨q, hq⟩) _) h
    rw [hs.eq]
    have hu := hu.operands
    exact ⟨by rw [← hop]; exact congrArg (fun o => opcInstr (BitVec.toNat o) r) hu.op, hu.dev.trans hdev,
      hu.arg.trans harg, hu.buf.trans hbuf, fun _ => ⟨hu.cnt.trans hcnt, hu.lba.trans hlba⟩⟩

/-! ## The host's events -/

/-- A record loaded into a bank keeps what `keeps` says of the one that stood there, and no other changes. -/
theorem keepsAt_set {α : Type} {keeps : α → α → Bool} {l : List (Nat × α)} {k j : Nat} {v w o : α}
    (h : keepsAt keeps l k v = true) (ho : alGet l j = some o) :
    ∃ n, alGet (alSet l k w) j = some n ∧ (n = o ∨ n = w ∧ keeps o v = true) := by
  by_cases hj : j = k
  · subst hj
    rw [keepsAt, ho] at h
    exact ⟨w, alGet_alSet_same .., .inr ⟨rfl, h⟩⟩
  · exact ⟨o, by rw [alGet_alSet_other _ _ _ hj, ho], .inl rfl⟩

/-- What a host that loads a record again keeps of it (log 30). -/
structure HostKeeps (s t : State) : Prop where
  qp : ∀ (q : Nat) (o : Qp), alGet s.qp q = some o → ∃ n, alGet t.qp q = some n ∧ n.qSize = o.qSize
  nvme : ∀ (k : Nat) (o : Nvme), alGet s.nvme k = some o →
    ∃ n, alGet t.nvme k = some n ∧ n.dstrd = o.dstrd ∧ n.mps = o.mps ∧ (o.mdts ≠ 0 → n.mdts = o.mdts)
  hba : ∀ (h : Nat) (o : Hba), alGet s.hba h = some o →
    ∃ n, alGet t.hba h = some n ∧ (o.nSlots ≠ 0#6 → n.nSlots = o.nSlots)
  port : ∀ (p : Nat) (o : Port), alGet s.port p = some o → ∃ n, alGet t.port p = some n ∧ (o.ct ≠ [] → n.ct = o.ct)
  dev : ∀ (d : Nat) (o : Dev), alGet s.dev d = some o →
    ∃ n, alGet t.dev d = some n ∧ (o.blockBytes ≠ 0 → n.blockBytes = o.blockBytes)

/-- An event that loads no record. -/
theorem hostKeeps_of_same {s t : State} (hq : t.qp = s.qp) (hn : t.nvme = s.nvme) (hh : t.hba = s.hba)
    (hp : t.port = s.port) (hd : t.dev = s.dev) : HostKeeps s t where
  qp _ o ho := ⟨o, hq ▸ ho, rfl⟩
  nvme _ o ho := ⟨o, hn ▸ ho, rfl, rfl, fun _ => rfl⟩
  hba _ o ho := ⟨o, hh ▸ ho, fun _ => rfl⟩
  port _ o ho := ⟨o, hp ▸ ho, fun _ => rfl⟩
  dev _ o ho := ⟨o, hd ▸ ho, fun _ => rfl⟩

theorem hostKeeps_refl (s : State) : HostKeeps s s := hostKeeps_of_same rfl rfl rfl rfl rfl

/-- An event of the host keeps the parameters, and of the loaded records what log 30 says. -/
theorem hostEvent_keeps {e : HostEvent} {s t : State} (he : ∀ bs, e ≠ .request bs) (h : hostEvent e s = .next t) :
    t.cfg = s.cfg ∧ HostKeeps s t := by
  have hself := hostKeeps_refl s
  cases e with
  | request bs => exact absurd rfl (he bs)
  | loadHba k r =>
    obtain ⟨-, hk, -, rfl⟩ := loadRecord_eq_next h
    refine ⟨rfl, { hself with hba := fun j o ho => ?_ }⟩
    obtain ⟨n, hn, rfl | ⟨rfl, hkeep⟩⟩ := keepsAt_set (w := r) hk ho
    · exact ⟨n, hn, fun _ => rfl⟩
    · refine ⟨n, hn, fun h0 => ?_⟩
      rcases Bool.or_eq_true_iff.mp hkeep with h | h
      · exact absurd (beq_iff_eq.mp h) h0
      · exact beq_iff_eq.mp h
  | loadPort k r =>
    obtain ⟨-, hk, -, rfl⟩ := loadRecord_eq_next h
    refine ⟨rfl, { hself with port := fun j o ho => ?_ }⟩
    obtain ⟨n, hn, rfl | ⟨rfl, hkeep⟩⟩ := keepsAt_set (w := r) hk ho
    · exact ⟨n, hn, fun _ => rfl⟩
    · refine ⟨n, hn, fun h0 => ?_⟩
      rcases Bool.or_eq_true_iff.mp hkeep with h | h
      · exact absurd (List.isEmpty_iff.mp h) h0
      · exact beq_iff_eq.mp h
  | loadNvme k r =>
    obtain ⟨-, hk, -, rfl⟩ := loadRecord_eq_next h
    refine ⟨rfl, { hself with nvme := fun j o ho => ?_ }⟩
    obtain ⟨n, hn, rfl | ⟨rfl, hkeep⟩⟩ :=
      keepsAt_set (w := { r with nextCid := ((alGet s.nvme k).map Nvme.nextCid).getD 0#16 }) hk ho
    · exact ⟨n, hn, rfl, rfl, fun _ => rfl⟩
    · simp only [Nvme.keeps, Bool.and_eq_true, Bool.or_eq_true, beq_iff_eq] at hkeep
      obtain ⟨⟨hd, hm⟩, hmdts⟩ := hkeep
      exact ⟨_, hn, hd, hm, fun h0 => hmdts.resolve_left h0⟩
  | loadQp k r =>
    obtain ⟨-, hk, -, rfl⟩ := loadRecord_eq_next h
    refine ⟨rfl, { hself with qp := fun j o ho => ?_ }⟩
    obtain ⟨n, hn, rfl | ⟨rfl, hkeep⟩⟩ := keepsAt_set
      (w := { r with sqTail := 0#16, sqHead := 0#16, cqHead := 0#16, phase := s.cfg.phaseInit, started := false }) hk ho
    · exact ⟨n, hn, rfl⟩
    · exact ⟨_, hn, beq_iff_eq.mp hkeep⟩
  | loadDev k r =>
    obtain ⟨-, hk, -, rfl⟩ := loadRecord_eq_next h
    refine ⟨rfl, { hself with dev := fun j o ho => ?_ }⟩
    obtain ⟨n, hn, rfl | ⟨rfl, hkeep⟩⟩ := keepsAt_set (w := r) hk ho
    · exact ⟨n, hn, fun _ => rfl⟩
    · refine ⟨n, hn, fun h0 => ?_⟩
      rcases Bool.or_eq_true_iff.mp hkeep with h | h
      · exact absurd (beq_iff_eq.mp h) h0
      · exact beq_iff_eq.mp h
  | store a bs =>
    obtain ⟨-, p, rfl⟩ := hostStore_eq_next h
    exact ⟨rfl, hostKeeps_of_same rfl rfl rfl rfl rfl⟩
  | devices => cases h; exact ⟨rfl, hostKeeps_of_same rfl rfl rfl rfl rfl⟩

theorem step_cfg {s t : State} (h : step s = .next t) : t.cfg = s.cfg := by
  cases hs : s.inputs with
  | nil => cases (step_of_no_inputs hs).symm.trans h; rfl
  | cons e rest =>
    have h := (step_of_inputs hs).symm.trans h
    by_cases he : ∃ bs, e = .request bs
    · obtain ⟨bs, rfl⟩ := he
      cases hd : decode bs with
      | ok i => exact (exec_unmoved ((runRequest_ok hd _).symm.trans h)).cfg
      | error e => cases (runRequest_error hd _).symm.trans h
    · exact (hostEvent_keeps (fun bs hb => he ⟨bs, hb⟩) h).1

theorem step_hostKeeps {s t : State} (hn : ∀ bs rest, s.inputs ≠ .request bs :: rest) (h : step s = .next t) :
    HostKeeps s t := by
  cases hs : s.inputs with
  | nil => cases (step_of_no_inputs hs).symm.trans h; exact hostKeeps_refl s
  | cons e rest =>
    obtain ⟨h1, h2, h3, h4, h5⟩ :=
      (hostEvent_keeps (fun bs hb => hn bs rest (hb ▸ hs)) ((step_of_inputs hs).symm.trans h)).2
    exact ⟨h1, h2, h3, h4, h5⟩

/-! ## The obligations -/

/-- Settles O11: the parts above, clause by clause. -/
theorem operandsAndParameters : Obligations.OperandsAndParameters := by
  refine ⟨fun s t => step_cfg, fun i s t h => ?_, fun i s t hinv h => ?_, fun s t hn h => ?_,
    fun i r s t hr h => exec_operands hr h⟩
  · obtain ⟨h1, h2, h3, h4⟩ := exec_unmoved h
    exact ⟨h1, h2, h3, h4⟩
  · have hk := exec_configKept hinv.qp h
    refine ⟨fun q o ho => ?_, fun k o ho => ?_, fun j o ho => ?_⟩
    · obtain ⟨n, hn, hc⟩ := hk.qp.get ho
      simp only [qpConfig, Prod.mk.injEq] at hc
      exact ⟨n, hn, hc⟩
    · obtain ⟨n, hn, hc⟩ := hk.nvme.get ho
      simp only [nvmeConfig, Prod.mk.injEq] at hc
      refine ⟨n, hn, hc, fun hi => ?_⟩
      obtain ⟨n', hn', hc'⟩ := (hk.stride hi).get ho
      cases hn.symm.trans hn'
      exact congrArg Prod.snd hc'
    · obtain ⟨n, hn, hb⟩ := hk.hba.get ho
      refine ⟨n, hn, hb, fun hi => ?_⟩
      obtain ⟨n', hn', rfl⟩ := (hk.slots hi).get ho
      cases hn.symm.trans hn'
      exact ⟨rfl, rfl⟩
  · obtain ⟨h1, h2, h3, h4, h5⟩ := step_hostKeeps hn h
    exact ⟨h1, h2, h3, h4, h5⟩

/-- Every body leaves the count of the responses. -/
theorem opBody_nrsp (i : Instr) (s : State) :
    Ends (opBody i s) (fun _ t => t.nrsp = s.nrsp) fun t => t.nrsp = s.nrsp := by
  by_cases hid : ∃ q, i = .identify q
  · obtain ⟨q, rfl⟩ := hid
    exact (local_identifyStep s).mono (fun _ _ ⟨_, _, h⟩ => h.nrsp) fun _ ⟨_, _, h⟩ => h.nrsp
  · exact (fixed_opBody (fun q hq => hid ⟨q, hq⟩) s).mono (fun _ _ h => h.nrsp) fun _ h => h.nrsp

/-- Settles O12: a response is what `respond` makes of the state the body ends in. -/
theorem responseCarriesResult : Obligations.ResponseCarriesResult := by
  refine ⟨fun i s t hi h => ?_, fun r => ⟨responseBytes_length r, responseBytes_fields r⟩⟩
  obtain ⟨r, hr⟩ := isOperation_request hi
  have hn : (entry i s).nrsp = s.nrsp := by rw [entry_eq]
  have hbody := opBody_nrsp i (entry i s)
  obtain ⟨-, -, ⟨u, hu, rfl⟩ | ⟨u, hu, rfl⟩⟩ := operation_next hr h
  · obtain ⟨h1, h2, h3, h4, h5⟩ := respond_response (returnsValue i) { u with x := { u.x with res := 0#8 } }
    exact ⟨h1.trans (congrArg (· + 1) ((hbody.go hu).trans hn)), h2, h3, h4, h5⟩
  · obtain ⟨h1, h2, h3, h4, -⟩ := respond_response false u
    refine ⟨h1.trans (congrArg (· + 1) ((hbody.stop hu).trans hn)), h2, h3, h4, fun _ h0 => ?_⟩
    exact absurd h0 (res_ne_zero_of_stop (t := u) hu)

/-- Settles O15: outside bring-up every instruction is local, and so drops no leaked entry. -/
theorem leakOutlivesCommands : Obligations.LeakOutlivesCommands := by
  intro i s t h hb e he
  obtain ⟨x, u, hl, rfl | hs⟩ := exec_local hb h
  · exact hl.leaked e he
  · rw [hs.eq]; exact hl.leaked e he

end Sys2Proof.Proofs

/-!
SUPPORT. The requests that are refused, and the proof of O16.
-/

namespace Sys2Proof.Proofs

open Sys2Proof Sys2Proof.Machine Sys2Proof.Laws

/-! ## Refusal is what is left -/

/-- The machine has no faults, so an instruction that does not go on is refused. -/
theorem refused_of_not_next {i : Instr} {s : State} (h : ∀ t, exec i s ≠ .next t) : ∃ q, exec i s = .refused q := by
  cases hx : exec i s with
  | next t => exact absurd hx (h t)
  | fault f => cases f
  | refused q => exact ⟨q, rfl⟩

/-! ## The width of an access (40_mmio_access.md R167) -/

theorem stride_pos (n : Nvme) : 4 ≤ n.stride := by
  have := Nat.one_le_two_pow (n := n.dstrd.toNat)
  unfold Nvme.stride
  omega

/-- An access of `k` bytes at `off` has the width of the register at `r`, or does not meet it. -/
def fitsReg (off k : Nat) (r : Nat × Nat) : Bool :=
  decide (off + k ≤ r.1) || decide (r.1 + r.2 ≤ off) || (r.1 == off && r.2 == k)

theorem nvmeWidthOk_eq (n : Nvme) (off k : Nat) : nvmeWidthOk n off k = (nvmeRegs.all (fitsReg off k) && doorbellOk n off k) :=
  rfl

/-- A 32-bit access does not fit a register of 64 bits. -/
theorem fits_wide {off : Nat} (h : off ∈ [0x00, 0x28, 0x30]) : nvmeRegs.all (fitsReg off 4) = false := by
  simp only [List.mem_cons, List.not_mem_nil, or_false] at h
  rcases h with rfl | rfl | rfl <;> rfl

/-- A 64-bit access does not fit a register of 32 bits. -/
theorem fits_narrow {off : Nat} (h : off ∈ [0x08, 0x14, 0x1C, 0x24]) : nvmeRegs.all (fitsReg off 8) = false := by
  simp only [List.mem_cons, List.not_mem_nil, or_false] at h
  rcases h with rfl | rfl | rfl | rfl <;> rfl

/-- The place of a doorbell within its pair: 0 or 4, below the stride. -/
theorem doorbell_place (n : Nvme) (q : Nat) {j : Nat} (hj : j ≤ 4) :
    (0x1000 + j + 2 * q * n.stride - 0x1000) % (2 * n.stride) = j := by
  have h4 := stride_pos n
  rw [show 0x1000 + j + 2 * q * n.stride - 0x1000 = j + 2 * n.stride * q by rw [Nat.mul_right_comm]; omega,
    Nat.add_mul_mod_self_left, Nat.mod_eq_of_lt (by omega)]

/-- A 64-bit access does not fit a doorbell. -/
theorem doorbellOk_wide (n : Nvme) (q : Nat) {j : Nat} (hj : j ≤ 4) :
    doorbellOk n (0x1000 + j + 2 * q * n.stride) 8 = false := by
  have hm := doorbell_place n q hj
  unfold doorbellOk
  simp only [hm]
  simp
  omega

theorem widthOk_of_otherWidth {s : State} {w : Width} {a : Nat} (h : OtherWidth s w a) : s.widthOk w a = false := by
  rcases h with ⟨off, hc, rfl⟩ | ⟨n, off, hc, h⟩ <;> rw [State.widthOk, hc]
  · rfl
  · show nvmeWidthOk n off w.bytes = false
    rw [nvmeWidthOk_eq]
    rcases h with ⟨rfl, h⟩ | ⟨rfl, h | ⟨q, rfl | rfl⟩⟩
    · rw [Width.bytes, fits_wide h]; rfl
    · rw [Width.bytes, fits_narrow h]; rfl
    · rw [Width.bytes, show 0x1000 + 2 * q * n.stride = 0x1000 + 0 + 2 * q * n.stride from rfl,
        doorbellOk_wide n q (Nat.zero_le 4), Bool.and_false]
    · rw [Width.bytes, doorbellOk_wide n q (Nat.le_refl 4), Bool.and_false]

theorem readStep_otherWidth {s : State} {w : Width} {a : Nat} (h : OtherWidth s w a) :
    readStep w a s = .refuse .wrongWidth := by
  rw [readStep, widthOk_of_otherWidth h]; rfl

theorem writeStep_otherWidth {s : State} {w : Width} {a : Nat} (v : Quad) (h : OtherWidth s w a) :
    writeStep w a v s = .refuse .wrongWidth := by
  rw [writeStep, widthOk_of_otherWidth h]; rfl

/-- Which register an address names does not depend on the working registers. -/
theorem otherWidth_entry {s : State} {w : Width} {a : Nat} (i : Instr) (h : OtherWidth s w a) :
    OtherWidth (entry i s) w a := by
  rw [entry_eq]; exact h

/-- An operation that passes its static checks and its `pc` precondition is its body, and the end of it. -/
theorem exec_wf {i : Instr} {r : Request} {s : State} (hr : i.request? = some r) (hwf : i.WellFormed)
    (hpc : runsIn i s.pc = true) : exec i s = endOp (returnsValue i) (opBody i (entry i s)) := by
  rw [exec_operation hr, operation_wf hwf hpc]

/-- An access of another width than its register's is refused. -/
theorem exec_otherWidth {i : Instr} {r : Request} {s : State} {w : Width} (hwf : i.WellFormed) (hpc : s.pc.free = true)
    (h : OtherWidth s w (r.buf.toNat + r.arg.toNat))
    (hi : (w = .w32 ∧ (i = .rd32 r ∨ i = .wr32 r)) ∨ (w = .w64 ∧ (i = .rd64 r ∨ i = .wr64 r))) :
    exec i s = .refused .wrongWidth := by
  rcases hi with ⟨rfl, rfl | rfl⟩ | ⟨rfl, rfl | rfl⟩ <;> rw [exec_wf rfl hwf hpc]
  · exact congrArg (endOp true) (readStep_otherWidth (otherWidth_entry (.rd32 r) h))
  · exact congrArg (endOp false) (writeStep_otherWidth _ (otherWidth_entry (.wr32 r) h))
  · exact congrArg (endOp true) (readStep_otherWidth (otherWidth_entry (.rd64 r) h))
  · exact congrArg (endOp false) (writeStep_otherWidth _ (otherWidth_entry (.wr64 r) h))

/-- Settles O16: what an operation that goes on has met, turned around; the capacity clause is O47 at capacity 0. -/
theorem illegalRequestsRefused : Obligations.IllegalRequestsRefused := by
  intro i r s hr
  refine ⟨fun d hd => ?_, fun hn hnone => ?_, fun k d hk hd hne => ?_, fun hruns => ?_,
    fun d hi hpc hcnt hd hcap => ?_, fun w hwf hpc h hi => exec_otherWidth hwf hpc h hi⟩
  · rw [exec_operation hr]; exact operation_defect hd
  · refine refused_of_not_next fun t ht => ?_
    obtain ⟨d, hd⟩ := need_of_next hr (needs_record i hn _) ht
    rw [entry_device hr, hnone] at hd
    cases hd
  · exact refused_of_not_next fun t ht => hne (kind_of_next hr hk hd ht)
  · refine refused_of_not_next fun t ht => ?_
    rw [(operation_next hr ht).2.1] at hruns
    cases hruns
  · have hpos : 0 < r.cnt.toNat := Nat.pos_of_ne_zero fun h0 => hcnt (BitVec.eq_of_toNat_eq h0)
    have hover : d.capacity.toNat < r.lba.toNat + r.cnt.toNat := by rw [hcap]; exact Nat.lt_add_left _ hpos
    obtain ⟨hread, hwrite⟩ := (outOfRangeExactly r s d hd).2 hpc hcnt hover
    rcases hi with rfl | rfl
    · exact ⟨_, hread, rfl, rfl, rfl, rfl, rfl⟩
    · exact ⟨_, hwrite, rfl, rfl, rfl, rfl, rfl⟩

end Sys2Proof.Proofs

/-!
SUPPORT. The records that an operation on one device leaves alone, and the proof of O17.
-/

namespace Sys2Proof.Proofs

open Sys2Proof Sys2Proof.Machine Sys2Proof.Laws

/-! ## A relation kept by every part -/

/-- The states a part goes on in, and those it ends in with an error, stand in relation `R` to `s`. -/
abbrev Stays {α : Type} (R : State → State → Prop) (s : State) (m : Flow α) : Prop := Ends m (fun _ t => R s t) (R s)

theorem Stays.bind {α β : Type} {R : State → State → Prop} {s : State} {m : Flow α} {k : α → State → Flow β}
    (hR : ∀ {s t u}, R s t → R t u → R s u) (hm : Stays R s m) (hk : ∀ a t, Stays R t (k a t)) :
    Stays R s (m.bind k) :=
  Ends.bind hm fun a t h => (hk a t).mono (fun _ _ g => hR h g) fun _ g => hR h g

/-! ## An AHCI device: the records of NVMe stay -/

/-- The controller and queue-pair records are the same. -/
structure NvmeSame (s t : State) : Prop where
  nvme : t.nvme = s.nvme
  qp : t.qp = s.qp

theorem nvmeSame_refl (s : State) : NvmeSame s s := ⟨rfl, rfl⟩

theorem NvmeSame.trans {s t u : State} (h : NvmeSame s t) (g : NvmeSame t u) : NvmeSame s u :=
  ⟨g.nvme.trans h.nvme, g.qp.trans h.qp⟩

theorem nvmeSame_touch {s t : State} (h : Touch s t) : NvmeSame s t := ⟨h.nvme, h.qp⟩

/-- One AHCI part after another. -/
theorem ahci_bind {α β : Type} {s : State} {m : Flow α} {k : α → State → Flow β} (hm : Stays NvmeSame s m)
    (hk : ∀ a t, Stays NvmeSame t (k a t)) : Stays NvmeSame s (m.bind k) :=
  Stays.bind (fun h g => h.trans g) hm hk

/-- A part that only touches the records of neither protocol. -/
theorem ahci_touch {α : Type} {s : State} {m : Flow α} {Q : α → State → Prop}
    (h : Ends m (fun a t => Touch s t ∧ Q a t) fun _ => False) : Stays NvmeSame s m :=
  h.mono (fun _ _ g => nvmeSame_touch g.1) fun _ g => g.elim

theorem ahci_need (ok : Bool) (r : Refusal) (s : State) : Stays NvmeSame s (need ok r s) :=
  ends_need fun _ => nvmeSame_refl s

theorem ahci_needOk {α : Type} (e : Except Refusal α) (s : State) : Stays NvmeSame s (needOk e s) :=
  ends_needOk fun _ _ => nvmeSame_refl s

theorem ahci_mmioRead (w : Width) (a : Nat) (s : State) : Stays NvmeSame s (mmioRead w a s) :=
  ahci_touch (ends_mmioRead w a s)

theorem ahci_mmioWrite (w : Width) (a : Nat) (v : Quad) (s : State) : Stays NvmeSame s (mmioWrite w a v s) :=
  ahci_touch (ends_mmioWrite w a v s)

theorem ahci_memStore (a : Nat) (bs : List Byte) (s : State) : Stays NvmeSame s (memStore a bs s) :=
  ahci_touch (ends_memStore a bs s)

theorem ahci_waitFor (a : Nat) (done : Quad → Bool) (e : Err) (b : Word) (s : State) :
    Stays NvmeSame s (waitFor a done e b s) :=
  (ends_waitFor a done e b s).mono (fun _ _ h => nvmeSame_touch h) fun _ ⟨_, hu, ht⟩ => ht ▸ ⟨hu.nvme, hu.qp⟩

theorem ahci_ahciSlot (s : State) : Stays NvmeSame s (ahciSlot s) :=
  (ends_ahciSlot s).mono (fun _ _ h => h.1 ▸ nvmeSame_refl s) fun _ h => h

theorem ahci_ahciAllocStep (s : State) : Stays NvmeSame s (ahciAllocStep s) := by
  refine (ends_ahciAllocStep s).mono ?_ ?_
  · rintro - t ⟨c, u, _, _, k, -, hu, -, -, rfl⟩; exact ⟨hu.nvme, hu.qp⟩
  · rintro t ⟨c, u, _, _, -, hu, -, -, rfl⟩; exact ⟨hu.nvme, hu.qp⟩

theorem ahci_prdtStep (s : State) : Stays NvmeSame s (prdtStep s) := by
  refine (ends_prdtStep s).mono ?_ ?_
  · rintro - t ⟨c, u, -, -, hu, -, rfl⟩; exact ⟨hu.nvme, hu.qp⟩
  · rintro t ⟨c, -, -, rfl⟩; exact ⟨rfl, rfl⟩

theorem ahci_fisStep (s : State) : Stays NvmeSame s (fisStep s) :=
  (ends_fisStep s).mono (fun _ _ ⟨_, _, hu, _⟩ => nvmeSame_touch hu) fun _ h => h

theorem ahci_hdrStep (s : State) : Stays NvmeSame s (hdrStep s) :=
  (ends_hdrStep s).mono (fun _ _ ⟨_, _, hu, _⟩ => nvmeSame_touch hu) fun _ h => h

theorem ahci_ahciBuildStep (s : State) : Stays NvmeSame s (ahciBuildStep s) := by
  unfold ahciBuildStep
  refine ahci_bind (ahci_prdtStep s) fun _ t => ahci_bind (ahci_fisStep t) fun _ u => ?_
  exact ahci_bind (ahci_hdrStep u) fun _ v => ends_go ⟨rfl, rfl⟩

theorem ahci_ahciIssueStep (s : State) : Stays NvmeSame s (ahciIssueStep s) := by
  unfold ahciIssueStep
  refine ahci_bind (ahci_ahciSlot s) fun c t => ahci_bind (ahci_waitFor _ _ _ _ t) fun _ u => ?_
  have hw : Stays NvmeSame u (mmioWrite .w32 (c.1.portReg 0x38) (ciValue u.x.slot) (publish u.built u)) :=
    (ahci_mmioWrite _ _ _ _).mono (fun _ _ h => ⟨h.nvme, h.qp⟩) fun _ h => ⟨h.nvme, h.qp⟩
  exact ahci_bind hw fun _ v => ends_go ⟨rfl, rfl⟩

theorem ahci_ahciPollRounds (c : AhciCtx) (n : Nat) (s : State) : Stays NvmeSame s (ahciPollRounds c n s) := by
  induction n generalizing s with
  | zero => exact ends_stop ⟨rfl, rfl⟩
  | succ n ih =>
    rw [ahciPollRounds]
    refine ahci_bind (ahci_mmioRead _ _ s) fun ci t => ahci_bind (ahci_mmioRead _ _ t) fun e u => ?_
    refine ends_ite (fun _ => ends_stop ⟨rfl, rfl⟩) fun _ => ends_ite (fun _ => ends_go ⟨rfl, rfl⟩) fun _ => ?_
    exact (ih u.bumpIter).mono (fun _ _ h => ⟨h.nvme, h.qp⟩) fun _ h => ⟨h.nvme, h.qp⟩

theorem ahci_ahciPollStep (s : State) : Stays NvmeSame s (ahciPollStep s) := by
  unfold ahciPollStep
  refine ahci_bind (ahci_ahciSlot s) fun c t => ?_
  exact (ahci_ahciPollRounds _ _ _).mono (fun _ _ h => ⟨h.nvme, h.qp⟩) fun _ h => ⟨h.nvme, h.qp⟩

theorem ahci_ahciCmdStep (s : State) : Stays NvmeSame s (ahciCmdStep s) := by
  unfold ahciCmdStep
  refine ahci_bind (ahci_ahciAllocStep s) fun _ t => ahci_bind (ahci_ahciBuildStep t) fun _ u => ?_
  exact ahci_bind (ahci_ahciIssueStep u) fun _ v => ahci_ahciPollStep v

theorem ahci_sigClassStep (s : State) : Stays NvmeSame s (sigClassStep s) := by
  unfold sigClassStep
  refine ahci_bind (ahci_needOk _ s) fun c t => ahci_bind (ahci_mmioRead _ _ t) fun v u => ?_
  refine ends_ite (fun _ => ?_) fun _ => ends_go ⟨rfl, rfl⟩
  exact ahci_bind (ahci_mmioRead _ _ u) fun g x => ends_go ⟨rfl, rfl⟩

/-! ### The decoder -/

theorem ahci_loadField (p w n : Nat) (s : State) : Stays NvmeSame s (loadField p w n s) :=
  ahci_touch (ends_loadField p w n s)

theorem ahci_loadWords (p w n : Nat) (s : State) : Stays NvmeSame s (loadWords p w n s) :=
  (ends_loadWords p w n s).mono (fun _ _ h => nvmeSame_touch h) fun _ h => h

theorem ahci_loadBit (p : Nat) (b : BitPos) (s : State) : Stays NvmeSame s (loadBit p b s) :=
  (ends_loadBit p b s).mono (fun _ _ h => nvmeSame_touch h) fun _ h => h

theorem ahci_capStep (p : Nat) (s : State) : Stays NvmeSame s (capStep p s) := by
  unfold capStep
  refine ahci_bind (ahci_loadBit _ _ s) fun b t => ends_ite (fun _ => ?_) fun _ => ?_
  · exact ahci_bind (ahci_loadWords _ _ _ t) fun v u => ends_go ⟨rfl, rfl⟩
  · exact ahci_bind (ahci_loadWords _ _ _ t) fun v u => ends_go ⟨rfl, rfl⟩

theorem ahci_secszStep (p : Nat) (s : State) : Stays NvmeSame s (secszStep p s) := by
  unfold secszStep
  refine ahci_bind (ahci_loadWords _ _ _ s) fun b t => ends_ite (fun _ => ?_) fun _ => ends_go ⟨rfl, rfl⟩
  exact ahci_bind (ahci_loadWords _ _ _ t) fun v u => ends_go ⟨rfl, rfl⟩

theorem ahci_loadIdentity (p : Nat) (s : State) : Stays NvmeSame s (loadIdentity p s) := by
  unfold loadIdentity
  refine ahci_bind (ahci_loadField _ _ _ s) fun _ s => ?_
  refine ahci_bind (ahci_loadField _ _ _ s) fun _ s => ?_
  refine ahci_bind (ahci_loadField _ _ _ s) fun _ s => ?_
  refine ahci_bind (ahci_capStep p s) fun _ s => ?_
  refine ahci_bind (ahci_secszStep p s) fun _ s => ?_
  refine ahci_bind (ahci_loadBit _ _ s) fun _ s => ?_
  refine ahci_bind (ahci_loadBit _ _ s) fun _ s => ?_
  refine ahci_bind (ahci_loadBit _ _ s) fun _ s => ?_
  exact ahci_bind (ahci_loadBit _ _ s) fun _ s => ends_go ⟨rfl, rfl⟩

theorem ahci_idDecodeStep (p len out : Nat) (s : State) : Stays NvmeSame s (idDecodeStep p len out s) := by
  have hpre : Stays NvmeSame s (idPremises p out 96 s) :=
    (ends_idPremises p out 96 s).mono (fun _ _ h => h.1 ▸ nvmeSame_refl s) fun _ h => h
  unfold idDecodeStep
  refine ends_ite (fun _ => ?_) fun _ => ends_stop ⟨rfl, rfl⟩
  refine ahci_bind hpre fun _ t => ahci_bind (ahci_need _ _ t) fun _ t => ahci_bind (ahci_loadIdentity p t) fun d u => ?_
  exact (ends_storeBytes _ _ u).mono (fun _ _ h => nvmeSame_touch h) fun _ h => h

/-! ### Bring-up -/

theorem ahci_ahciInitStep (s : State) : Stays NvmeSame s (ahciInitStep s) := by
  have hset : ∀ (t : State) {h r v a}, Stays NvmeSame t (mmioWrite .w32 a v (setHba h r t)) := fun t =>
    (ahci_mmioWrite _ _ _ _).mono (fun _ _ h => ⟨h.nvme, h.qp⟩) fun _ h => ⟨h.nvme, h.qp⟩
  unfold ahciInitStep
  refine ahci_bind (ahci_needOk _ s) fun c s => ?_
  refine ahci_bind (ahci_need _ _ s) fun _ s => ?_
  refine ahci_bind (hset s) fun _ s => ?_
  refine ahci_bind (ahci_mmioWrite _ _ _ s) fun _ s => ?_
  refine ahci_bind (ahci_waitFor _ _ _ _ s) fun _ s => ?_
  refine ahci_bind (ahci_mmioWrite _ _ _ s) fun _ s => ?_
  refine ahci_bind (ahci_mmioRead _ _ s) fun cap s => ?_
  exact ahci_bind (ahci_mmioRead _ _ s) fun pi s => ends_go ⟨rfl, rfl⟩

theorem ahci_zeroTables (n : Nat) (ts : List Quad) (s : State) : Stays NvmeSame s (zeroTables n ts s) := by
  induction ts generalizing s with
  | nil => exact ends_go ⟨rfl, rfl⟩
  | cons t ts ih => exact ahci_bind (ahci_memStore _ _ s) fun _ u => ih u

theorem ahci_portInitStep (c : AhciCtx) (s : State) : Stays NvmeSame s (portInitStep c s) := by
  have hpre : Stays NvmeSame s (c.premises s) :=
    (ends_ahciPremises c s).mono (fun _ _ h => h.1 ▸ nvmeSame_refl s) fun _ h => h
  have hstart : ∀ s, Stays NvmeSame s (portStart c (publish none s)) := fun s => by
    unfold portStart
    refine ahci_bind ?_ fun v s => ahci_bind (ahci_mmioWrite _ _ _ s) fun _ s => ahci_mmioWrite _ _ _ s
    exact (ahci_mmioRead _ _ _).mono (fun _ _ h => ⟨h.nvme, h.qp⟩) fun _ h => ⟨h.nvme, h.qp⟩
  unfold portInitStep portStop writeBases
  refine ahci_bind hpre fun _ s => ahci_bind (ahci_need _ _ s) fun _ s => ?_
  refine ahci_bind (ahci_bind (ahci_mmioRead _ _ s) fun v s => ?_) fun _ s => ?_
  · refine ahci_bind (ahci_mmioWrite _ _ _ s) fun _ s => ahci_bind (ahci_mmioWrite _ _ _ s) fun _ s => ?_
    exact ahci_waitFor _ _ _ _ s
  refine ahci_bind (ahci_memStore _ _ s) fun _ s => ahci_bind (ahci_memStore _ _ s) fun _ s => ?_
  refine ahci_bind (ahci_zeroTables _ _ s) fun _ s => ahci_bind ?_ fun _ s => ?_
  · refine ahci_bind (ahci_mmioWrite _ _ _ s) fun _ s => ahci_bind (ahci_mmioWrite _ _ _ s) fun _ s => ?_
    exact ahci_bind (ahci_mmioWrite _ _ _ s) fun _ s => ahci_mmioWrite _ _ _ s
  exact ahci_bind (hstart s) fun _ s => ends_go ⟨rfl, rfl⟩

/-! ### The HBA records -/

/-- The record of HBA `h` is the same. -/
def HbaAt (h : Nat) (s t : State) : Prop := alGet t.hba h = alGet s.hba h

theorem hba_bind {α β : Type} {h : Nat} {s : State} {m : Flow α} {k : α → State → Flow β} (hm : Stays (HbaAt h) s m)
    (hk : ∀ a t, Stays (HbaAt h) t (k a t)) : Stays (HbaAt h) s (m.bind k) :=
  Stays.bind (fun h g => Eq.trans g h) hm hk

theorem hba_local {α : Type} {h : Nat} {s : State} {m : Flow α} (hm : StaysLocal s m) : Stays (HbaAt h) s m :=
  hm.mono (fun _ _ g => congrArg (alGet · h) g.hba) fun _ g => congrArg (alGet · h) g.hba

/-- AHCI.INIT changes the record of its own HBA alone. -/
theorem hba_ahciInitStep {s : State} {c : AhciCtx} (hc : s.hbaCtx = .ok c) {h : Nat} (hne : h ≠ c.port.hba) :
    Stays (HbaAt h) s (ahciInitStep s) := by
  have hset : ∀ (t : State) (r : Hba), HbaAt h t (setHba c.port.hba r t) := fun t r => alGet_alSet_other _ _ _ hne
  have hwrite : ∀ (t : State) {r a v}, Stays (HbaAt h) t (mmioWrite .w32 a v (setHba c.port.hba r t)) := fun t r _ _ =>
    (hba_local (local_mmioWrite _ _ _ _)).mono (fun _ _ g => g.trans (hset t r)) fun _ g => g.trans (hset t r)
  unfold ahciInitStep
  rw [hc, needOk_ok, bind_go]
  refine hba_bind (hba_local (local_need _ _ s)) fun _ s => ?_
  refine hba_bind (hwrite s) fun _ s => ?_
  refine hba_bind (hba_local (local_mmioWrite _ _ _ s)) fun _ s => ?_
  refine hba_bind (hba_local (local_waitFor _ _ _ _ s)) fun _ s => ?_
  refine hba_bind (hba_local (local_mmioWrite _ _ _ s)) fun _ s => ?_
  refine hba_bind (hba_local (local_mmioRead _ _ s)) fun cap s => ?_
  exact hba_bind (hba_local (local_mmioRead _ _ s)) fun pi s => ends_go (hset s _)

/-! ## An NVMe device: the records of AHCI stay, and every ring but the one in use -/

/-- The HBA records are the same, and so are all queue pairs but `q` and all controllers but `n`. -/
structure Ring (q n : Nat) (s t : State) : Prop where
  hba : t.hba = s.hba
  qp : ∀ k, k ≠ q → alGet t.qp k = alGet s.qp k
  nvme : ∀ k, k ≠ n → alGet t.nvme k = alGet s.nvme k
  adm : t.x.isAdm = s.x.isAdm

section Ring
variable {q n : Nat}

theorem Ring.trans {s t u : State} (h : Ring q n s t) (g : Ring q n t u) : Ring q n s u :=
  ⟨g.hba.trans h.hba, fun k hk => (g.qp k hk).trans (h.qp k hk), fun k hk => (g.nvme k hk).trans (h.nvme k hk),
    g.adm.trans h.adm⟩

/-- Nothing of the records has changed. -/
theorem ring_of_same {s t : State} (hh : t.hba = s.hba) (hq : t.qp = s.qp) (hn : t.nvme = s.nvme)
    (ha : t.x.flg = s.x.flg) : Ring q n s t :=
  ⟨hh, fun k _ => by rw [hq], fun k _ => by rw [hn], congrArg (BitVec.getLsbD · 2) ha⟩

theorem ring_refl (s : State) : Ring q n s s := ring_of_same rfl rfl rfl rfl

theorem Touch.flg {s t : State} (h : Touch s t) : t.x.flg = s.x.flg := by
  have := congrArg Regs.flg h.x
  exact this

theorem ring_touch {s t : State} (h : Touch s t) : Ring q n s t := ring_of_same h.hba h.qp h.nvme (Touch.flg h)

/-- The request works on queue pair `q`, of controller `n`. -/
def Works (q n : Nat) (s : State) : Prop :=
  ∀ d, alGet s.dev s.x.dev.toNat = some d →
    (if s.x.isAdm then d.admin else d.ch) = q ∧ ∀ o, alGet s.qp q = some o → o.ctrl = n

theorem Works.ctx {s : State} (hw : Works q n s) {c : NvmeCtx} (hc : s.nvmeCtx = .ok c) : c.q = q ∧ c.qp.ctrl = n := by
  obtain ⟨hd, -, hq, hqp, -⟩ := nvmeCtxOf_eq_ok.mp hc
  obtain ⟨hwq, hwn⟩ := hw c.dev hd
  have hq := hq.trans hwq
  exact ⟨hq, hwn _ (hq ▸ hqp)⟩

/-- What is local leaves the request on its queue pair. -/
theorem Works.keep {s t : State} (hw : Works q n s) (hl : Local s t) (ha : t.x.isAdm = s.x.isAdm) : Works q n t := by
  intro d hd
  rw [hl.dev, hl.operands.dev] at hd
  obtain ⟨hq, hn⟩ := hw d hd
  refine ⟨by rw [ha]; exact hq, fun o ho => ?_⟩
  have hs := hl.qp q
  rw [ho] at hs
  obtain ⟨o', ho', hcfg⟩ := Option.map_eq_some_iff.mp hs.symm
  exact (congrArg Prod.fst hcfg).symm.trans (hn o' ho')

/-- One NVMe part after another. -/
theorem ring_bind {α β : Type} {s : State} {m : Flow α} {k : α → State → Flow β} (hw : Works q n s)
    (hl : StaysLocal s m) (hm : Stays (Ring q n) s m) (hk : ∀ a t, Works q n t → Stays (Ring q n) t (k a t)) :
    Stays (Ring q n) s (m.bind k) := by
  cases m with
  | go a t =>
    have h := hm.go rfl
    exact (hk a t (hw.keep (hl.go rfl) h.adm)).mono (fun _ _ g => h.trans g) fun _ g => h.trans g
  | stop t => exact ends_stop (hm.stop rfl)
  | refuse r => exact ends_refuse

theorem ring_then {α β : Type} {s : State} {m : Flow α} {k : α → State → Flow β}
    (hm : Stays (Ring q n) s m) (hk : ∀ a t, Stays (Ring q n) t (k a t)) : Stays (Ring q n) s (m.bind k) :=
  Stays.bind (fun h g => h.trans g) hm hk

theorem ring_after {α : Type} {s t : State} {m : Flow α} (h : Ring q n s t) (hm : Stays (Ring q n) t m) :
    Stays (Ring q n) s m :=
  hm.mono (fun _ _ g => h.trans g) fun _ g => h.trans g

theorem ring_mmioRead (w : Width) (a : Nat) (s : State) : Stays (Ring q n) s (mmioRead w a s) :=
  (ends_mmioRead w a s).mono (fun _ _ h => ring_touch h.1) fun _ h => h

theorem ring_mmioWrite (w : Width) (a : Nat) (v : Quad) (s : State) : Stays (Ring q n) s (mmioWrite w a v s) :=
  (ends_mmioWrite w a v s).mono (fun _ _ h => ring_touch h.1) fun _ h => h

theorem ring_rdychkStep (s : State) : Stays (Ring q n) s (rdychkStep s) := by
  unfold rdychkStep
  refine ring_then (ends_needOk fun _ _ => ring_refl s) fun c t => ring_then (ring_mmioRead _ _ t) fun v u => ?_
  exact ends_ite (fun _ => ends_go (ring_of_same rfl rfl rfl rfl)) fun _ => ends_stop (ring_of_same rfl rfl rfl rfl)

theorem ring_nvmeAllocStep {s : State} (hw : Works q n s) : Stays (Ring q n) s (nvmeAllocStep s) := by
  refine (ends_nvmeAllocStep s).mono ?_ ?_
  · rintro - t ⟨c, hc, -, rfl⟩
    obtain ⟨-, hn⟩ := hw.ctx hc
    exact ⟨rfl, fun _ _ => rfl, fun k hk => alGet_alSet_other _ _ _ (hn ▸ hk), rfl⟩
  · rintro t ⟨c, -, -, rfl⟩; exact ring_of_same rfl rfl rfl rfl

theorem ring_prpStep (s : State) : Stays (Ring q n) s (prpStep s) := by
  refine (ends_prpStep s).mono ?_ ?_
  · rintro - t ⟨c, -, -, rfl⟩; exact ring_of_same rfl rfl rfl rfl
  · rintro t ⟨c, -, -, rfl⟩; exact ring_of_same rfl rfl rfl rfl

theorem ring_sqeStep (s : State) : Stays (Ring q n) s (sqeStep s) :=
  (ends_sqeStep s).mono (fun _ _ ⟨_, _, hu, _⟩ => ring_touch hu) fun _ h => h

theorem ring_nvmeBuildStep (s : State) : Stays (Ring q n) s (nvmeBuildStep s) := by
  unfold nvmeBuildStep
  refine ring_then (ring_prpStep s) fun _ t => ring_then (ring_sqeStep t) fun _ u => ?_
  exact ends_go (ring_of_same rfl rfl rfl rfl)

/-- The record of the queue pair in use is set. -/
theorem ring_setQp (s : State) {c : NvmeCtx} (hq : c.q = q) (r : Qp) :
    Ring q n s { s with qp := alSet s.qp c.q r } :=
  ⟨rfl, fun _ hk => alGet_alSet_other _ _ _ (hq ▸ hk), fun _ _ => rfl, rfl⟩

theorem ring_nvmeIssueStep {s : State} (hw : Works q n s) : Stays (Ring q n) s (nvmeIssueStep s) := by
  unfold nvmeIssueStep
  refine (ends_nvmeSlot s).bind ?_
  rintro c t ⟨rfl, hc⟩
  obtain ⟨hq, -⟩ := hw.ctx hc.ctx
  refine (ends_need (Q := fun _ u => u = t) fun _ => rfl).bind ?_
  rintro - u rfl
  have hset : Ring q n u (setTail c (ringNext c.qp.qSize c.qp.sqTail) (publish u.built u)) :=
    ⟨rfl, fun _ hk => alGet_alSet_other _ _ _ (hq ▸ hk), fun _ _ => rfl, rfl⟩
  exact ring_then (ring_after hset (ring_mmioWrite _ _ _ _)) fun _ v => ends_go (ring_of_same rfl rfl rfl rfl)

theorem ring_consume {c : NvmeCtx} (hq : c.q = q) (d2 : Word) (st : Half) (s : State) :
    Stays (Ring q n) s (consume c d2 st s) := by
  unfold consume
  refine (ends_need (Q := fun _ t => t = s) fun _ => rfl).bind ?_
  rintro - t rfl
  refine ring_then (ring_after (ring_setQp t hq _) (ring_mmioWrite _ _ _ _)) fun _ v => ?_
  exact ends_ite (fun _ => ends_stop (ring_of_same rfl rfl rfl rfl)) fun _ => ends_go (ring_of_same rfl rfl rfl rfl)

theorem ring_noMatch (c : NvmeCtx) (s : State) : Stays (Ring q n) s (noMatch c s) := by
  unfold noMatch
  refine ends_ite (fun _ => ?_) fun _ => ends_go (ring_of_same rfl rfl rfl rfl)
  refine ring_then (ring_mmioRead _ _ s) fun v t => ?_
  exact ends_ite (fun _ => ends_stop (ring_of_same rfl rfl rfl rfl)) fun _ => ends_go (ring_of_same rfl rfl rfl rfl)

theorem ring_loadDword (a : Nat) (s : State) : Stays (Ring q n) s (loadDword a s) :=
  (ends_loadDword a s).mono (fun _ _ h => ring_touch h) fun _ h => h

theorem ring_nvmePollRounds {c : NvmeCtx} (hq : c.q = q) (k : Nat) (s : State) :
    Stays (Ring q n) s (nvmePollRounds c k s) := by
  induction k generalizing s with
  | zero => exact ends_stop (ring_of_same rfl rfl rfl rfl)
  | succ k ih =>
    rw [nvmePollRounds]
    refine ring_then (ring_loadDword _ s) fun d3 t => ends_ite (fun _ => ?_) fun _ => ?_
    · exact ring_then (ring_loadDword _ t) fun d2 u => ring_consume hq _ _ u
    · exact ring_then (ring_noMatch c t) fun _ u => ih u

theorem ring_nvmePollStep {s : State} (hw : Works q n s) : Stays (Ring q n) s (nvmePollStep s) := by
  unfold nvmePollStep
  refine (ends_nvmeSlot s).bind ?_
  rintro c t ⟨rfl, hc⟩
  exact ring_after (t := t.clearIter) (ring_of_same rfl rfl rfl rfl) (ring_nvmePollRounds (hw.ctx hc.ctx).1 _ _)

theorem ring_nvmeCmdStep {s : State} (hw : Works q n s) : Stays (Ring q n) s (nvmeCmdStep s) := by
  unfold nvmeCmdStep
  refine ring_bind hw (local_rdychkStep s) (ring_rdychkStep s) fun _ t hw => ?_
  refine ring_bind hw (local_nvmeAllocStep t) (ring_nvmeAllocStep hw) fun _ u hw => ?_
  refine ring_bind hw (local_nvmeBuildStep u) (ring_nvmeBuildStep u) fun _ v hw => ?_
  exact ring_bind hw (local_nvmeIssueStep v) (ring_nvmeIssueStep hw) fun _ x hw => ring_nvmePollStep hw

end Ring

/-- The HBA records are the same, and so are the queue pairs outside `Q` and all controllers but `n`. -/
structure Rings (Q : Nat → Prop) (n : Nat) (s t : State) : Prop where
  hba : t.hba = s.hba
  qp : ∀ k, ¬ Q k → alGet t.qp k = alGet s.qp k
  nvme : ∀ k, k ≠ n → alGet t.nvme k = alGet s.nvme k

theorem Rings.trans {Q : Nat → Prop} {n : Nat} {s t u : State} (h : Rings Q n s t) (g : Rings Q n t u) : Rings Q n s u :=
  ⟨g.hba.trans h.hba, fun k hk => (g.qp k hk).trans (h.qp k hk), fun k hk => (g.nvme k hk).trans (h.nvme k hk)⟩

section Rings
variable {Q : Nat → Prop} {n : Nat}

theorem rings_of_same {s t : State} (hh : t.hba = s.hba) (hq : t.qp = s.qp) (hn : t.nvme = s.nvme) : Rings Q n s t :=
  ⟨hh, fun k _ => by rw [hq], fun k _ => by rw [hn]⟩

theorem rings_touch {s t : State} (h : Touch s t) : Rings Q n s t := rings_of_same h.hba h.qp h.nvme

theorem rings_bind {α β : Type} {s : State} {m : Flow α} {k : α → State → Flow β} (hm : Stays (Rings Q n) s m)
    (hk : ∀ a t, Stays (Rings Q n) t (k a t)) : Stays (Rings Q n) s (m.bind k) :=
  Stays.bind (fun h g => h.trans g) hm hk

theorem rings_mmioWrite (w : Width) (a : Nat) (v : Quad) (s : State) : Stays (Rings Q n) s (mmioWrite w a v s) :=
  (ends_mmioWrite w a v s).mono (fun _ _ h => rings_touch h.1) fun _ h => h

theorem rings_memStore (a : Nat) (bs : List Byte) (s : State) : Stays (Rings Q n) s (memStore a bs s) :=
  (ends_memStore a bs s).mono (fun _ _ h => rings_touch h.1) fun _ h => h

theorem rings_waitFor (a : Nat) (done : Quad → Bool) (e : Err) (b : Word) (s : State) :
    Stays (Rings Q n) s (waitFor a done e b s) :=
  (ends_waitFor a done e b s).mono (fun _ _ h => rings_touch h) fun _ ⟨_, hu, ht⟩ =>
    ht ▸ rings_of_same hu.hba hu.qp hu.nvme

theorem rings_zeroRings (qs : List (Nat × Qp)) (hq : ∀ e ∈ qs, Q e.1) (s : State) :
    Stays (Rings Q n) s (zeroRings qs s) := by
  induction qs generalizing s with
  | nil => exact ends_go (rings_of_same rfl rfl rfl)
  | cons e qs ih =>
    rw [zeroRings]
    refine rings_bind (rings_memStore _ _ s) fun _ t => rings_bind (rings_memStore _ _ t) fun _ u => ?_
    have hne : ∀ k, ¬ Q k → k ≠ e.1 := by rintro k hk rfl; exact hk (hq e (List.mem_cons_self ..))
    have hset : Rings Q n u { u with qp := alSet u.qp e.1 (e.2.fresh u.cfg.phaseInit) } :=
      ⟨rfl, fun k hk => alGet_alSet_other _ _ _ (hne k hk), fun _ _ => rfl⟩
    exact (ih (fun e he => hq e (List.mem_cons_of_mem _ he)) _).mono (fun _ _ g => hset.trans g) fun _ g => hset.trans g

end Rings

/-- The queue pair `q` is one of controller `n`. -/
def OfCtrl (s : State) (n q : Nat) : Prop := ∃ o, alGet s.qp q = some o ∧ o.ctrl = n

/-- In canonical form the queue pairs that NVME.INIT works on are those of its controller. -/
theorem ofCtrl_of_mem {s t : State} {n : Nat} (hs : rising s.qp = true) (ht : t.qp = s.qp) :
    ∀ e ∈ t.qpsOf n, OfCtrl s n e.1 := by
  intro e he
  obtain ⟨hmem, hctrl⟩ := List.mem_filter.mp he
  exact ⟨e.2, alGet_of_mem hs (ht ▸ hmem), beq_iff_eq.mp hctrl⟩

/-- Up to its zero-fill NVME.INIT leaves the queue pairs as they are. -/
structure Before (n : Nat) (s t : State) : Prop extends Rings (OfCtrl s n) n s t where
  same : t.qp = s.qp

theorem before_touch {n : Nat} {s t u : State} (h : Before n s t) (g : Touch t u) : Before n s u :=
  ⟨h.toRings.trans (rings_touch g), g.qp.trans h.same⟩

theorem rings_nvmeInitStep {s : State} {c : NvmeCtx} (hs : rising s.qp = true) (hc : s.nvmeCtxOf true = .ok c) :
    Stays (Rings (OfCtrl s c.qp.ctrl) c.qp.ctrl) s (nvmeInitStep s) := by
  have hrefl : Before c.qp.ctrl s s := ⟨rings_of_same rfl rfl rfl, rfl⟩
  have hpre : Ends (nvmeInitPremises c s) (fun _ t => Before c.qp.ctrl s t) (Rings (OfCtrl s c.qp.ctrl) c.qp.ctrl s) :=
    ⟨fun h => nvmeInitPremises_go h ▸ hrefl,
      fun h => by simp [nvmeInitPremises, bind_eq_stop] at h⟩
  unfold nvmeInitStep
  rw [hc, needOk_ok, bind_go]
  refine hpre.bind fun _ t ht => ?_
  refine (ends_mmioRead _ _ t).bind fun cap u hu => ?_
  have hu := before_touch ht hu.1
  have hset : Before c.qp.ctrl s (setStride c cap u) :=
    ⟨hu.toRings.trans ⟨rfl, fun _ _ => rfl, fun k hk => alGet_alSet_other _ _ _ hk⟩, hu.same⟩
  refine (ends_mmioRead _ _ _).bind fun cc t ht => ?_
  have ht := before_touch hset ht.1
  refine (ends_mmioWrite _ _ _ t).bind fun _ u hu => ?_
  have hu := before_touch ht hu.1
  have hwait : Ends (waitFor (c.reg 0x1C) (fun v => !ctrlReady v) .controllerNotReady u.cfg.resetBudget u)
      (fun _ t => Before c.qp.ctrl s t) (Rings (OfCtrl s c.qp.ctrl) c.qp.ctrl s) := by
    refine (ends_waitFor _ _ _ _ u).mono (fun _ _ g => before_touch hu g) ?_
    rintro _ ⟨v, hv, rfl⟩; exact hu.toRings.trans (rings_of_same hv.hba hv.qp hv.nvme)
  refine hwait.bind fun _ t ht => ?_
  refine Ends.mono ?_ (fun _ _ g => ht.toRings.trans g) fun _ g => ht.toRings.trans g
  refine rings_bind (rings_zeroRings _ (ofCtrl_of_mem hs ht.same) t) fun _ t => ?_
  refine rings_bind (rings_mmioWrite _ _ _ t) fun _ t => rings_bind (rings_mmioWrite _ _ _ t) fun _ t => ?_
  refine rings_bind (rings_mmioWrite _ _ _ t) fun _ t => ?_
  have hpub : Rings (OfCtrl s c.qp.ctrl) c.qp.ctrl t (publish none t) := rings_of_same rfl rfl rfl
  refine rings_bind ((rings_mmioWrite _ _ _ _).mono (fun _ _ g => hpub.trans g) fun _ g => hpub.trans g) fun _ t => ?_
  exact rings_bind (rings_waitFor _ _ _ _ t) fun _ t => ends_go (rings_of_same rfl rfl rfl)

/-! ## The whole operation, by the kind of its device -/

theorem ahci_blockStep (wr : BitVec 1) (ata opc : Byte) {s : State} {d : Dev} (hd : s.device = .ok d)
    (hk : d.kind = .ahci) : Stays NvmeSame s (blockStep wr ata opc s) := by
  rw [blockStep, hd, needOk_ok, bind_go]
  refine ends_ite (fun _ => ends_stop ⟨rfl, rfl⟩) fun _ => ?_
  rw [hk]
  refine ahci_bind (ahci_need _ _ s) fun _ t => ?_
  exact (ahci_ahciCmdStep _).mono (fun _ _ h => ⟨h.nvme, h.qp⟩) fun _ h => ⟨h.nvme, h.qp⟩

theorem ahci_identifyStep {s : State} {d : Dev} (hd : s.device = .ok d) (hk : d.kind = .ahci) :
    Stays NvmeSame s (identifyStep s) := by
  rw [identifyStep, hd, needOk_ok, bind_go]
  refine ends_ite (fun _ => ends_stop ⟨rfl, rfl⟩) fun _ => ?_
  rw [hk]
  unfold identifyAhci
  refine ahci_bind ?_ fun _ t => ahci_idDecodeStep _ _ _ t
  exact (ahci_ahciCmdStep _).mono (fun _ _ h => ⟨h.nvme, h.qp⟩) fun _ h => ⟨h.nvme, h.qp⟩

theorem ahci_portInitBody (s : State) : Stays NvmeSame s (portInitBody s) :=
  ahci_bind (ahci_needOk _ s) fun c t => ahci_bind (ahci_need _ _ t) fun _ u => ahci_portInitStep c u

theorem ahci_portResetBody (s : State) : Stays NvmeSame s (portResetBody s) :=
  ahci_bind (ahci_needOk _ s) fun c t => ahci_portInitStep c t

/-- An operation on an AHCI device leaves the records of NVMe alone. -/
theorem ahci_opBody {i : Instr} (hn : namesDevice i = true) (hi : kindFor i ≠ some .nvme) {s : State} {d : Dev}
    (hd : s.device = .ok d) (hk : d.kind = .ahci) : Stays NvmeSame s (opBody i s) := by
  cases i <;> simp [namesDevice, kindFor] at hn hi
  case ahciAlloc r => exact ahci_ahciAllocStep s
  case prdtBuild r => exact ahci_prdtStep s
  case fisBuild r => exact ahci_fisStep s
  case hdrBuild r => exact ahci_hdrStep s
  case ahciBuild r => exact ahci_ahciBuildStep s
  case ahciIssue r => exact ahci_ahciIssueStep s
  case ahciPoll r => exact ahci_ahciPollStep s
  case ahciCmd r => exact ahci_ahciCmdStep s
  case readBlocks r => exact ahci_blockStep _ _ _ hd hk
  case writeBlocks r => exact ahci_blockStep _ _ _ hd hk
  case identify r => exact ahci_identifyStep hd hk
  case sigClass r => exact ahci_sigClassStep s
  case ahciInit r => exact ahci_ahciInitStep s
  case portInit r => exact ahci_portInitBody s
  case portReset r => exact ahci_portResetBody s

/-- No operation on an AHCI device changes the record of another HBA. -/
theorem hba_opBody {i : Instr} (hi : kindFor i ≠ some .nvme) {s : State} {d : Dev} {p : Port} {h : Nat} (hd : s.device = .ok d)
    (hp : alGet s.port d.ch = some p) (hne : h ≠ p.hba) : Stays (HbaAt h) s (opBody i s) := by
  cases hb : bringsUp i with
  | false =>
    by_cases hid : ∃ r, i = .identify r
    · obtain ⟨r, rfl⟩ := hid
      exact (local_identifyStep s).mono (fun _ _ ⟨_, _, g⟩ => congrArg (alGet · h) g.hba)
        fun _ ⟨_, _, g⟩ => congrArg (alGet · h) g.hba
    · exact hba_local (local_opBody hb (fun r hr => hid ⟨r, hr⟩) s)
  | true =>
    have records : ∀ {m : Flow Unit}, StaysRecords (id : Hba → Hba) (id : NvmeConfig → _) s m → Stays (HbaAt h) s m :=
      fun hm => hm.mono (fun _ _ g => by simpa [HbaAt] using g.hba h) fun _ g => by simpa [HbaAt] using g.hba h
    cases i <;> cases hb
    · cases hc : s.hbaCtx with
      | error r => rw [opBody, ahciInitStep, hc]; exact ends_refuse
      | ok c =>
        obtain ⟨d', hd', -, hcp, hport, -⟩ := hbaCtx_eq_ok.mp hc
        cases hd'.symm.trans (device_eq_ok.mp hd)
        rw [hcp, hp] at hport
        cases hport
        exact hba_ahciInitStep hc hne
    · exact records (records_portInitBody s)
    · exact records (records_portResetBody s)
    · exact absurd rfl hi

section Nvme
variable {q n : Nat} {s : State} {d : Dev}

/-- The records as a single ring leaves them. -/
theorem rings_of_ring {α : Type} {s t : State} {m : Flow α} (h : Rings (· = q) n s t) (hm : Stays (Ring q n) t m) :
    Ends m (fun _ u => Rings (· = q) n s u) (Rings (· = q) n s) :=
  hm.mono (fun _ _ g => h.trans ⟨g.hba, g.qp, g.nvme⟩) fun _ g => h.trans ⟨g.hba, g.qp, g.nvme⟩

theorem rings_nvmeCmdStep {t : State} (ht : Rings (· = q) n s t) (hw : Works q n t) :
    Ends (nvmeCmdStep t) (fun _ u => Rings (· = q) n s u) (Rings (· = q) n s) :=
  rings_of_ring ht (ring_nvmeCmdStep hw)

theorem rings_blockStep (wr : BitVec 1) (ata opc : Byte) (hd : s.device = .ok d) (hk : d.kind = .nvme)
    (hn : ∀ o, alGet s.qp d.ch = some o → o.ctrl = n) :
    Stays (Rings (· = d.ch) n) s (blockStep wr ata opc s) := by
  rw [blockStep, hd, needOk_ok, bind_go]
  refine ends_ite (fun _ => ends_stop (rings_of_same rfl rfl rfl)) fun _ => ?_
  rw [hk]
  refine rings_nvmeCmdStep (rings_of_same rfl rfl rfl) fun d' hd' => ?_
  cases hd'.symm.trans (device_eq_ok.mp hd)
  refine ⟨?_, hn⟩
  show (if (0#4).getLsbD 2 then d.admin else d.ch) = d.ch
  rfl

theorem rings_identifyStep (hd : s.device = .ok d) (hk : d.kind = .nvme)
    (hn : ∀ o, alGet s.qp d.admin = some o → o.ctrl = n) : Stays (Rings (· = d.admin) n) s (identifyStep s) := by
  rw [identifyStep, hd, needOk_ok, bind_go]
  refine ends_ite (fun _ => ends_stop (rings_of_same rfl rfl rfl)) fun _ => ?_
  rw [hk]
  unfold identifyNvme
  refine (ends_need (Q := fun _ t => t = s) fun _ => rfl).bind ?_
  rintro - t rfl
  refine rings_nvmeCmdStep (rings_of_same rfl rfl rfl) fun d' hd' => ?_
  cases hd'.symm.trans (device_eq_ok.mp hd)
  refine ⟨?_, hn⟩
  show (if (if t.x.arg.extractLsb' 0 8 = 0#8 then flgRawAdmNs else flgRawAdm).getLsbD 2 then d.admin else d.ch) = _
  split <;> rfl

/-- A micro-operation works on the queue pair that its flag `ADM` selects. -/
theorem works_of_flag (hd : s.device = .ok d) (hq : (if s.x.isAdm then d.admin else d.ch) = q)
    (hn : ∀ o, alGet s.qp q = some o → o.ctrl = n) : Works q n s := by
  intro d' hd'
  cases hd'.symm.trans (device_eq_ok.mp hd)
  exact ⟨hq, hn⟩

theorem rings_entry {Q : Nat → Prop} {i : Instr} {m : Flow Unit} (hm : Stays (Rings Q n) (entry i s) m) :
    Ends m (fun _ t => Rings Q n s t) (Rings Q n s) := by
  have he : Rings Q n s (entry i s) := by rw [entry_eq]; exact rings_of_same rfl rfl rfl
  exact hm.mono (fun _ _ g => he.trans g) fun _ g => he.trans g

/-- An operation on an NVMe device but NVME.INIT leaves all rings but its own alone. -/
theorem rings_opBody {i : Instr} {r : Request} (hr : i.request? = some r) (hname : namesDevice i = true)
    (hi : kindFor i ≠ some .ahci) (hinit : ∀ r, i ≠ .nvmeInit r) (hd : (entry i s).device = .ok d) (hk : d.kind = .nvme)
    (hn : ∀ o, alGet s.qp (queueOf i r d) = some o → o.ctrl = n) :
    Ends (opBody i (entry i s)) (fun _ t => Rings (· = queueOf i r d) n s t) (Rings (· = queueOf i r d) n s) := by
  have hadm : ∀ op, (s.acceptedMicro op r).x.isAdm = r.arg.getLsbD 11 := fun _ => argFlg_adm r
  have hsame : ∀ op, Rings (· = (if r.arg.getLsbD 11 then d.admin else d.ch)) n s (s.acceptedMicro op r) :=
    fun _ => rings_of_same rfl rfl rfl
  have micro : ∀ {op} {m : State → Flow Unit}, (s.acceptedMicro op r).device = .ok d →
      (∀ o, alGet s.qp (if r.arg.getLsbD 11 then d.admin else d.ch) = some o → o.ctrl = n) →
      (∀ {t}, Works (if r.arg.getLsbD 11 then d.admin else d.ch) n t →
        Stays (Ring (if r.arg.getLsbD 11 then d.admin else d.ch) n) t (m t)) →
      Ends (m (s.acceptedMicro op r)) (fun _ t => Rings (· = (if r.arg.getLsbD 11 then d.admin else d.ch)) n s t)
        (Rings (· = (if r.arg.getLsbD 11 then d.admin else d.ch)) n s) :=
    fun {op} _ hd hn hm => rings_of_ring (hsame op) (hm (works_of_flag hd (by rw [hadm op]) hn))
  cases i <;> simp [namesDevice, kindFor] at hname hi <;> cases hr
  case nvmeAlloc => exact micro hd hn ring_nvmeAllocStep
  case prpBuild => exact micro hd hn fun _ => ring_prpStep _
  case sqeBuild => exact micro hd hn fun _ => ring_sqeStep _
  case nvmeBuild => exact micro hd hn fun _ => ring_nvmeBuildStep _
  case nvmeRdychk => exact micro hd hn fun _ => ring_rdychkStep _
  case nvmeIssue => exact micro hd hn ring_nvmeIssueStep
  case nvmePoll => exact micro hd hn ring_nvmePollStep
  case nvmeCmd => exact micro hd hn ring_nvmeCmdStep
  case readBlocks => exact rings_entry (rings_blockStep _ _ _ hd hk hn)
  case writeBlocks => exact rings_entry (rings_blockStep _ _ _ hd hk hn)
  case identify => exact rings_entry (rings_identifyStep hd hk hn)
  case nvmeInit => exact absurd rfl (hinit _)

end Nvme

/-! ## The obligation -/

theorem rings_settled {Q : Nat → Prop} {n : Nat} {s u t : State} (h : Rings Q n s u) (hs : Settled u t) :
    Rings Q n s t :=
  h.trans (by obtain ⟨hq, hn, hh⟩ := settled_banks hs; exact rings_of_same hh hq hn)

/-- On an AHCI device. -/
theorem exec_ahci_untouched {i : Instr} {r : Request} {s t : State} {d : Dev} (hr : i.request? = some r)
    (hname : namesDevice i = true) (hd : alGet s.dev r.dev.toNat = some d) (hk : d.kind = .ahci)
    (h : exec i s = .next t) :
    t.nvme = s.nvme ∧ t.qp = s.qp ∧
      ∀ (p : Port) (j : Nat), alGet s.port d.ch = some p → j ≠ p.hba → alGet t.hba j = alGet s.hba j := by
  have hdev : (entry i s).device = .ok d := device_eq_ok.mpr ((entry_device hr s).trans hd)
  have hi : kindFor i ≠ some .nvme := fun hki => by
    have := kind_of_next hr hki hd h
    rw [hk] at this; cases this
  have he : (entry i s).nvme = s.nvme ∧ (entry i s).qp = s.qp ∧ (entry i s).port = s.port ∧ (entry i s).hba = s.hba := by
    rw [entry_eq]; exact ⟨rfl, rfl, rfl, rfl⟩
  obtain ⟨he1, he2, he3, he4⟩ := he
  refine ⟨?_, ?_, fun p j hp hne => ?_⟩
  · obtain ⟨u, hu, hs⟩ := exec_body hr (ahci_opBody hname hi hdev hk) h
    exact (settled_banks hs).2.1.trans (hu.nvme.trans he1)
  · obtain ⟨u, hu, hs⟩ := exec_body hr (ahci_opBody hname hi hdev hk) h
    exact (settled_banks hs).1.trans (hu.qp.trans he2)
  · obtain ⟨u, hu, hs⟩ := exec_body hr (hba_opBody hi hdev (by rw [he3]; exact hp) hne) h
    rw [(settled_banks hs).2.2, ← he4]; exact hu

/-- The controller that owns a queue pair. -/
theorem exists_ctrl (l : List (Nat × Qp)) (q : Nat) : ∃ n, ∀ o, alGet l q = some o → o.ctrl = n := by
  cases alGet l q with
  | none => exact ⟨0, fun o ho => by cases ho⟩
  | some o => exact ⟨o.ctrl, fun _ ho => by cases ho; rfl⟩

theorem queueOf_eq (i : Instr) (r : Request) (d : Dev) : queueOf i r d = d.ch ∨ queueOf i r d = d.admin := by
  unfold queueOf
  split
  · exact .inr rfl
  · exact .inl rfl
  · exact .inl rfl
  · split
    · exact .inr rfl
    · exact .inl rfl

/-- On an NVMe device: for NVME.INIT the rings of its controller may change, else the one that the operation works on. -/
theorem exec_nvme_rings {i : Instr} {r : Request} {s t : State} {d : Dev} (hq : rising s.qp = true)
    (hr : i.request? = some r) (hname : namesDevice i = true) (hd : alGet s.dev r.dev.toNat = some d)
    (hk : d.kind = .nvme) (h : exec i s = .next t) :
    ((∀ r', i ≠ .nvmeInit r') ∧ ∀ n, (∀ o, alGet s.qp (queueOf i r d) = some o → o.ctrl = n) →
        Rings (· = queueOf i r d) n s t) ∨
      ((∃ r', i = .nvmeInit r') ∧ ∃ a, alGet s.qp d.admin = some a ∧ Rings (OfCtrl s a.ctrl) a.ctrl s t) := by
  have hdev : (entry i s).device = .ok d := device_eq_ok.mpr ((entry_device hr s).trans hd)
  have hi : kindFor i ≠ some .ahci := fun hki => by
    have := kind_of_next hr hki hd h
    rw [hk] at this; cases this
  by_cases hinit : ∃ r', i = .nvmeInit r'
  · refine .inr ⟨hinit, ?_⟩
    obtain ⟨r', rfl⟩ := hinit
    cases hc : (entry (.nvmeInit r') s).nvmeCtxOf true with
    | error e =>
      have hbody : opBody (.nvmeInit r') (entry (.nvmeInit r') s) = .refuse e := by
        rw [opBody, nvmeInitStep, hc]; rfl
      obtain ⟨-, -, ⟨u, hu, -⟩ | ⟨u, hu, -⟩⟩ := operation_next hr h <;> cases hbody.symm.trans hu
    | ok c =>
      obtain ⟨hcd, -, hcq, hqp, -⟩ := nvmeCtxOf_eq_ok.mp hc
      cases hcd.symm.trans (device_eq_ok.mp hdev)
      have hqp : alGet s.qp c.dev.admin = some c.qp := by rw [hcq] at hqp; exact hqp
      obtain ⟨u, hu, hs⟩ := exec_body hr (rings_nvmeInitStep (s := entry (.nvmeInit r') s) hq hc) h
      have he : Rings (OfCtrl s c.qp.ctrl) c.qp.ctrl s (entry (.nvmeInit r') s) := rings_of_same rfl rfl rfl
      exact ⟨c.qp, hqp, he.trans (rings_settled hu hs)⟩
  · have hinit : ∀ r', i ≠ .nvmeInit r' := fun r' h' => hinit ⟨r', h'⟩
    refine .inl ⟨hinit, fun n hn => ?_⟩
    obtain ⟨u, hu, hs⟩ := exec_body hr (rings_opBody hr hname hi hinit hdev hk hn) h
    exact rings_settled hu hs

/-- Settles O17: the records that the operation works on, by the kind of its device. -/
theorem otherChannelsUntouched : Obligations.OtherChannelsUntouched := by
  intro i r s t d hinv hr hname hd h
  refine ⟨fun hk => exec_ahci_untouched hr hname hd hk h, fun hk => ?_⟩
  obtain ⟨hinit, hrings⟩ | ⟨⟨r', rfl⟩, a, ha, hrings⟩ := exec_nvme_rings hinv.qp hr hname hd hk h
  · obtain ⟨n, hn⟩ := exists_ctrl s.qp (queueOf i r d)
    have hring := hrings n hn
    refine ⟨hring.hba, fun q o ho hch hadm _ => ?_, fun _ q hne => hring.qp q hne, fun m hm => ?_⟩
    · rw [hring.qp q ?_, ho]
      rintro rfl
      exact (queueOf_eq i r d).elim hch hadm
    · cases hq : alGet s.qp (queueOf i r d) with
      | none => exact (hrings (m + 1) fun o ho => by rw [hq] at ho; cases ho).nvme m (Nat.ne_of_lt (Nat.lt_succ_self m))
      | some a =>
        refine (hrings a.ctrl fun o ho => by rw [hq] at ho; cases ho; rfl).nvme m (hm a ?_)
        rcases queueOf_eq i r d with he | he <;> rw [he] at hq
        · exact .inl hq
        · exact .inr hq
  · refine ⟨hrings.hba, fun q o ho _ _ hctrl => ?_, fun hn => absurd rfl (hn r'), fun m hm => ?_⟩
    · rw [hrings.qp q ?_, ho]
      rintro ⟨o', ho', hc⟩
      cases ho.symm.trans ho'
      exact hctrl a ha hc
    · exact hrings.nvme m (hm a (.inr ha))

end Sys2Proof.Proofs

/-!
SUPPORT. Register I/O and the allocators, from the accepted state to the response: the proofs of O18 to O22.
-/

namespace Sys2Proof.Proofs

open Sys2Proof Sys2Proof.Machine Sys2Proof.Laws

/-- An operation whose body succeeds. -/
theorem exec_done {i : Instr} {r : Request} {s u : State} (hr : i.request? = some r) (hwf : i.WellFormed)
    (hpc : runsIn i s.pc = true) (hbody : opBody i (entry i s) = .go () u) :
    exec i s = .next (respond (returnsValue i) { u with x := { u.x with res := 0#8 } }) := by
  rw [exec_wf hr hwf hpc, hbody, endOp_go]

/-- An operation whose body ends with an error. -/
theorem exec_failed {i : Instr} {r : Request} {s u : State} (hr : i.request? = some r) (hwf : i.WellFormed)
    (hpc : runsIn i s.pc = true) (hbody : opBody i (entry i s) = .stop u) : exec i s = .next (respond false u) := by
  rw [exec_wf hr hwf hpc, hbody, endOp_stop]

/-! ## Register I/O (40_mmio_access.md) -/

/-- A well-formed instruction has passed each of its checks. -/
theorem firstDefect_passed {l : List (Bool × Defect)} (h : firstDefect l = none) : ∀ e ∈ l, e.1 = true := by
  induction l with
  | nil => exact fun _ he => absurd he List.not_mem_nil
  | cons e l ih =>
    obtain ⟨ok, d⟩ := e
    cases ok with
    | false => cases h
    | true => exact List.forall_mem_cons.mpr ⟨rfl, ih h⟩

theorem firstDefect_pair {a b : Bool} {d e : Defect} (h : firstDefect [(a, d), (b, e)] = none) :
    a = true ∧ b = true :=
  ⟨firstDefect_passed h (a, d) (by simp), firstDefect_passed h (b, e) (by simp)⟩

theorem lo32_eq (v : Quad) : lo32 v = v.setWidth 32 := by
  ext i; simp [lo32]

theorem readStep_of {w : Width} {a : Nat} {s : State} (ha : a + w.bytes ≤ addrSpace) (hw : s.widthOk w a = true) :
    readStep w a s = .go () (((tick s).afterRead w a).setVal ((tick s).busValue w a)) := by
  rw [readStep, hw, need_true, bind_go, mmioRead_of ha, bind_go]

theorem writeStep_of {w : Width} {a : Nat} {v : Quad} {s : State} (ha : a + w.bytes ≤ addrSpace)
    (hw : s.widthOk w a = true) : writeStep w a v s = .go () ((tick s).afterWrite w a v) := by
  rw [writeStep, hw, need_true, bind_go, mmioWrite_of ha]

/-- What a write leaves of the registers of known content (log 3, 4). -/
theorem afterWrite_regs (s : State) (w : Width) (a : Nat) (v : Quad) :
    (s.regKind a = .stored → alGet (s.afterWrite w a v).regs a = some (w.trunc v)) ∧
      (s.regKind a = .readOnly → (s.afterWrite w a v).regs = s.regs) ∧
      (s.regKind a = .commandIssue → alGet (s.afterWrite w a v).regs a = some (s.busValue w a ||| w.trunc v)) ∧
      ∀ b : Nat, b ≠ a → alGet (s.afterWrite w a v).regs b = alGet s.regs b := by
  refine ⟨fun hk => ?_, fun hk => ?_, fun hk => ?_, fun b hb => alGet_writeReg_other _ _ _ _ hb⟩
  · rw [State.afterWrite, hk]; exact alGet_alSet_same ..
  · rw [State.afterWrite, hk]; rfl
  · rw [State.afterWrite, hk]; exact alGet_alSet_same ..

/-- Settles O18: each access is one step of the devices and one access, and what it leaves of the registers. -/
theorem mmioAccessesComplete : Obligations.MmioAccessesComplete := by
  intro r s hpc
  have inRange : ∀ {n}, r.mmioInRange n = true → r.buf.toNat + r.arg.toNat + n ≤ addrSpace := of_decide_eq_true
  refine ⟨fun hwf hw => ⟨?_, fun v hv => ?_⟩, fun hwf hw => ⟨?_, fun v hv => ?_⟩, fun hwf hw => ?_, fun hwf hw => ?_,
    fun w a v => afterWrite_regs s w a v⟩
  · exact exec_done rfl hwf hpc
      (readStep_of (s := s.accepted 0x01#8 r) (w := .w32) (inRange (firstDefect_pair hwf).2) hw)
  · rw [busValue_known .w32 hv, lo32_eq]; rfl
  · exact exec_done rfl hwf hpc
      (readStep_of (s := s.accepted 0x02#8 r) (w := .w64) (inRange (firstDefect_pair hwf).2) hw)
  · rw [busValue_known .w64 hv]; rfl
  · exact exec_done rfl hwf hpc
      (writeStep_of (s := s.accepted 0x03#8 r) (w := .w32) (inRange (firstDefect_pair hwf).2) hw)
  · exact exec_done rfl hwf hpc
      (writeStep_of (s := s.accepted 0x04#8 r) (w := .w64) (inRange (firstDefect_pair hwf).2) hw)

/-- Settles O19: PUBLISH is the state with no store left unordered, in every `pc`. -/
theorem publishCompletes : Obligations.PublishCompletes := fun _ s => by
  rw [exec_wf rfl rfl (show runsIn (.publish _) s.pc = true from rfl)]
  rfl

/-! ## Allocators (41_slot_queue_allocator.md) -/

theorem setWidth_slot {k : Nat} (h : k < 32) : (BitVec.ofNat 16 k).setWidth 64 = BitVec.ofNat 64 k :=
  BitVec.setWidth_ofNat_of_le_of_lt (by decide) (Nat.lt_trans h (by decide))

/-- The allocator of a port while the devices take no step. -/
theorem ahciAllocStep_quiet {s : State} {c : AhciCtx} {sact ci : Word} {k : Nat} (hq : Quiet s) (hctx : s.ahciCtx = .ok c)
    (hb : c.block + 0x80 ≤ addrSpace) (hsact : Reads32 s (c.portReg 0x34) sact) (hci : Reads32 s (c.portReg 0x38) ci)
    (hk : LowestFree c sact ci k) :
    ahciAllocStep s = .go ()
      ({ s with log := rd32 (c.portReg 0x38) ci :: rd32 (c.portReg 0x34) sact :: s.log }.allocated (.port c.p)
        (BitVec.ofNat 16 k)) := by
  rw [ahciAllocStep, hctx, needOk_ok, bind_go, mmioRead_word (portReg_fits hb (by decide)) hq hsact, bind_go,
    mmioRead_word (portReg_fits hb (by decide)) (by exact hq) (by exact hci), bind_go, firstClear_lowest hk]

/-- Settles O20: the two reads, and the lowest slot that is clear in both values. -/
theorem ahciAllocCompletes : Obligations.AhciAllocCompletes := by
  intro r s c sact ci k hpc hwf hq hport hb hsact hci hk
  have hstep := ahciAllocStep_quiet (s := s.acceptedMicro 0x10#8 r) hq (ahciCtx_of hport rfl) hb hsact hci hk
  refine (exec_done rfl hwf hpc hstep).trans ?_
  rw [State.allocated, setWidth_slot hk.word]
  rfl

theorem full_eq_true {q : Qp} : q.full = true ↔ ringNext q.qSize q.sqTail = q.sqHead := beq_iff_eq

/-- The queue pair that a micro-operation works on. -/
theorem nvmeCtx_accepted {s : State} {r : Request} {c : NvmeCtx} (op : Byte) (h : OnQueue s r.dev (r.arg.getLsbD 11) c) :
    (s.acceptedMicro op r).nvmeCtx = .ok c := nvmeCtx_of h rfl (argFlg_adm r)

/-- Settles O21: the tail position and the next identifier, on a ring that is not full. -/
theorem nvmeAllocCompletes : Obligations.NvmeAllocCompletes := by
  intro r s c hpc hwf hqueue hfull
  have hstep : nvmeAllocStep (s.acceptedMicro 0x11#8 r)
      = .go () ((takeCid c (s.acceptedMicro 0x11#8 r)).allocated (.qp c.q) c.qp.sqTail) := by
    rw [nvmeAllocStep, nvmeCtx_accepted _ hqueue, needOk_ok, bind_go, if_neg fun h => hfull (full_eq_true.mp h)]
  exact exec_done rfl hwf hpc hstep

/-- A scan that finds no slot has seen the bits of all of them set. -/
theorem firstClear_none_iff {live : Quad} {n : Nat} : firstClear live n 0 = none ↔ ∀ j, j < n → live.getLsbD j = true := by
  rw [firstClear_eq_none]
  simp [slotClear]

/-- A scan that finds a slot has found the lowest whose bit is clear. -/
theorem firstClear_some {live : Quad} {n k : Nat} (h : firstClear live n 0 = some k) :
    k < n ∧ live.getLsbD k = false ∧ ∀ j, j < k → live.getLsbD j = true := by
  obtain ⟨-, hk, hclear, hbelow⟩ := firstClear_eq_some.mp h
  refine ⟨by omega, by simpa [slotClear] using hclear, fun j hj => ?_⟩
  simpa [slotClear] using hbelow j (Nat.zero_le j) hj

/-- NoFreeSlot on a port: the two outcomes of the scan. -/
theorem ahciAlloc_result {r : Request} {s t : State} {c : AhciCtx} (hport : OnPort s r.dev c)
    (h : exec (.ahciAlloc r) s = .next t) :
    ∃ sact ci : Quad,
      t.log = .rd .w32 (c.portReg 0x38) ci :: .rd .w32 (c.portReg 0x34) sact :: s.log ∧
      t.mem = (tick (tick s)).mem ∧ t.regs = (tick (tick s)).regs ∧
      (t.x.res = Err.noFreeSlot.code ↔ ∀ j, j < min c.hba.nSlots.toNat 32 → (sact ||| ci).getLsbD j = true) ∧
      (t.x.res = 0#8 → t.x.slot.toNat < c.hba.nSlots.toNat ∧
        sact.getLsbD t.x.slot.toNat = false ∧ ci.getLsbD t.x.slot.toNat = false ∧
        ∀ j, j < t.x.slot.toNat → (sact ||| ci).getLsbD j = true) := by
  have hctx : (s.acceptedMicro 0x10#8 r).ahciCtx = .ok c := ahciCtx_of hport rfl
  have hends := ends_ahciAllocStep (s.acceptedMicro 0x10#8 r)
  obtain ⟨-, -, ⟨u, hu, rfl⟩ | ⟨u, hu, rfl⟩⟩ := operation_next rfl h
  · obtain ⟨c', u', sact, ci, k, hc', -, hscan, ⟨hlog, hmem, hregs⟩, rfl⟩ := hends.go hu
    cases hctx.symm.trans hc'
    obtain ⟨hk, hclear, hbelow⟩ := firstClear_some hscan
    have hslot : (BitVec.ofNat 16 k).toNat = k := by
      rw [BitVec.toNat_ofNat]; exact Nat.mod_eq_of_lt (by omega)
    refine ⟨sact, ci, hlog, hmem, hregs, iff_of_false (code_ne_zero _).symm fun hall => ?_, fun _ => ?_⟩
    · rw [hall k hk] at hclear; cases hclear
    · show (BitVec.ofNat 16 k).toNat < _ ∧ sact.getLsbD (BitVec.ofNat 16 k).toNat = false ∧
        ci.getLsbD (BitVec.ofNat 16 k).toNat = false ∧ ∀ j, j < (BitVec.ofNat 16 k).toNat → _
      rw [BitVec.getLsbD_or, Bool.or_eq_false_iff] at hclear
      rw [hslot]
      exact ⟨by omega, hclear.1, hclear.2, hbelow⟩
  · obtain ⟨c', u', sact, ci, hc', -, hscan, ⟨hlog, hmem, hregs⟩, rfl⟩ := hends.stop hu
    cases hctx.symm.trans hc'
    exact ⟨sact, ci, hlog, hmem, hregs, iff_of_true rfl (firstClear_none_iff.mp hscan),
      fun h0 => absurd h0 (code_ne_zero .noFreeSlot)⟩

/-- NoFreeSlot on a queue pair: the ring is full. -/
theorem nvmeAlloc_result {r : Request} {s t : State} {c : NvmeCtx} (hqueue : OnQueue s r.dev (r.arg.getLsbD 11) c)
    (h : exec (.nvmeAlloc r) s = .next t) :
    (t.x.res = Err.noFreeSlot.code ↔ ringNext c.qp.qSize c.qp.sqTail = c.qp.sqHead) ∧
      (t.x.res = Err.noFreeSlot.code → t.nvme = s.nvme ∧ t.x.slot = s.x.slot ∧ t.x.cid = s.x.cid) ∧
      t.qp = s.qp ∧ t.regs = s.regs ∧ t.mem = s.mem := by
  have hctx := nvmeCtx_accepted 0x11#8 hqueue
  have hends := ends_nvmeAllocStep (s.acceptedMicro 0x11#8 r)
  obtain ⟨-, -, ⟨u, hu, rfl⟩ | ⟨u, hu, rfl⟩⟩ := operation_next rfl h
  · obtain ⟨c', hc', hfull, rfl⟩ := hends.go hu
    cases hctx.symm.trans hc'
    refine ⟨iff_of_false (code_ne_zero _).symm fun hf => ?_, fun h1 => absurd h1 (code_ne_zero _).symm, rfl, rfl, rfl⟩
    rw [full_eq_true.mpr hf] at hfull; cases hfull
  · obtain ⟨c', hc', hfull, rfl⟩ := hends.stop hu
    cases hctx.symm.trans hc'
    exact ⟨iff_of_true rfl (full_eq_true.mp hfull), fun _ => ⟨rfl, rfl, rfl⟩, rfl, rfl, rfl⟩

/-- Settles O22: for each allocator the two ways it ends. -/
theorem noFreeSlotExactly : Obligations.NoFreeSlotExactly :=
  ⟨fun _ _ _ _ hport h => ahciAlloc_result hport h, fun _ _ _ _ hqueue h => nvmeAlloc_result hqueue h⟩

end Sys2Proof.Proofs

/-!
SUPPORT. The builders (42_descriptor_builder.md), whatever the devices do: each store at its place, and the operations
around it. The proofs of O24, O25, O26, O28 and O30.
-/

namespace Sys2Proof.Proofs

open Sys2Proof Sys2Proof.Machine Sys2Proof.Laws

/-- The LBA of an ATA command has 48 bits (30_encoding.md R121, R131). -/
theorem lba48_of_passed {r : Request} {a b : Bool} {d e f : Defect}
    (h : firstDefect [(a, d), (b, e), (r.lba48Ok, f)] = none) : r.lba.toNat < 281474976710656 :=
  of_decide_eq_true (firstDefect_passed h (r.lba48Ok, f) (by simp))

/-! ## One store for each structure, whatever the devices do -/

/-- The table head around a FIS of 20 bytes. -/
theorem storeFis_run {s : State} {c : AhciCtx} {table : Quad} (cmd : Byte) (f : Fis) (hs : SlotOn s s.x.dev c table)
    (ha : PortArena s c) :
    storeFis (f.bytes cmd) s = .go () ((tick s).afterStore table.toNat (tableHead (f.bytes cmd))) := by
  have ht := table_fits hs.port ha.2 (mem_of_getElem? hs.table)
  rw [storeFis, ahciSlot_of hs rfl, bind_go, ahciPremises_of ha, bind_go]
  exact memStore_of (by rw [tableHead_length]; show table.toNat + 128 ≤ _; omega)

/-- A Command Header. -/
theorem storeHeader_run {s : State} {c : AhciCtx} {table : Quad} (h : Quad → CmdHdr) (hs : SlotOn s s.x.dev c table)
    (ha : PortArena s c) (h32 : c.hba.nSlots.toNat ≤ 32) :
    storeHeader h s = .go () ((tick s).afterStore (c.port.clb.toNat + 32 * s.x.slot.toNat) (h table).bytes) := by
  have hh := header_fits (slot := s.x.slot) hs.port ha.2 (Nat.lt_of_lt_of_le hs.inRange h32)
  rw [storeHeader, ahciSlot_of hs rfl, bind_go, ahciPremises_of ha, bind_go]
  exact memStore_of (by rw [cmdHdr_length]; exact hh)

/-- A submission entry. -/
theorem storeEntry_run {s : State} {c : NvmeCtx} {adm : Bool} (prp1 : Quad) (bytes : NvmeCtx → List Byte)
    (hs : EntryOn s s.x.dev adm c) (hf : s.x.flg.getLsbD 2 = adm) (ha : RingArena s c) (hp : prp1.toNat % 4 = 0)
    (hb : BufferFits s s.x.isIdentify prp1.toNat (transferLength (s.x.flg.getLsbD 1) s.x.cnt c.dev))
    (hlen : (bytes c).length = 64) :
    storeEntry prp1 bytes s =
      .go () ((tick s).afterStore (c.qp.sqBase.toNat + 64 * s.x.slot.toNat) (bytes c)) := by
  rw [storeEntry, nvmeSlot_of hs rfl hf, bind_go, nvmePremises_of ha, bind_go, need_of _ _ (beq_iff_eq.2 hp), bind_go,
    transferBytes_eq, bufferPremises_of rfl hb, bind_go]
  exact memStore_of (by rw [hlen]; exact entry_fits hs.queue.2.2.2.1 ha.2 hs.inRange)

/-- The whole PRDT. -/
theorem prdtStep_any {s : State} {c : AhciCtx} {table : Quad} (hs : SlotOn s s.x.dev c table)
    (hf : PrdtFits s s.x.isIdentify c s.x.buf s.x.cnt) :
    prdtStep s = .go ()
      { (tick s).afterStore (table.toNat + 0x80) (prdtBytes (prdtOf s.x.buf s.x.cnt.toNat)) with
        x := prdtRegs s.x, built := some (s.x.buf.toNat, s.x.cnt.toNat * 512) } := by
  have ht := table_fits hs.port hf.arena.2 (mem_of_getElem? hs.table)
  have hroom := hf.room
  have hp : table.toNat + 0x80 + (prdtBytes (prdtOf s.x.buf s.x.cnt.toNat)).length ≤ s.cfg.memEnd := by
    rw [prdtBytes_length, prdtOf_length]; omega
  have hl : ¬ prdtLimit s.cfg < prdtCount s.x.cnt.toNat := by
    rw [prdtLimit_lt, ← prdtCount_eq]; omega
  rw [prdtStep, ahciSlot_of hs rfl, bind_go, if_neg hl, ahciPremises_of hf.arena, bind_go,
    need_of _ _ (beq_iff_eq.2 hf.even), bind_go, bufferPremises_of (n := s.x.cnt.toNat * sectorBytes) rfl hf.fits, bind_go]
  exact bind_of (memStore_of hp)

/-! ## The AHCI builders -/

/-- A request that is no IDENTIFY. -/
theorem prdtFits_accepted {s : State} {r : Request} {c : AhciCtx} {op : Byte} (hop : (op == 0x52#8) = false)
    (h : PrdtFits s false c r.buf r.cnt) :
    PrdtFits (s.acceptedMicro op r) (s.acceptedMicro op r).x.isIdentify c r.buf r.cnt := by
  rw [show (s.acceptedMicro op r).x.isIdentify = false from hop]
  exact ⟨h.arena, h.even, h.fits, h.room⟩

/-- Settles O24: the table in one store, and what that store leaves of memory. -/
theorem prdtBuildCompletes : Obligations.PrdtBuildCompletes := by
  intro r s c table hpc hwf hslot hfits
  have hstep := prdtStep_any (slotOn_accepted 0x20#8 r hslot) (prdtFits_accepted rfl hfits)
  have hframe := afterStore_frame (tick s) (table.toNat + 0x80) (prdtBytes (prdtOf r.buf r.cnt.toNat))
  rw [prdtBytes_length, prdtOf_length] at hframe
  exact ⟨exec_done rfl hwf (by rw [hpc]; rfl) hstep, hframe⟩

theorem fisStep_any {s : State} {c : AhciCtx} {table : Quad} (hs : SlotOn s s.x.dev c table) (ha : PortArena s c)
    (hl : s.x.lba.toNat < 281474976710656) :
    fisStep s = .go () ((tick s).afterStore table.toNat (tableHead ((fisOf s.cfg s.x).bytes s.x.cmdb))) := by
  rw [fisStep, need_of _ _ (decide_eq_true hl), bind_go]
  exact storeFis_run s.x.cmdb (fisOf s.cfg s.x) hs ha

theorem hdrStep_any {s : State} {c : AhciCtx} {table : Quad} (hs : SlotOn s s.x.dev c table) (ha : PortArena s c)
    (h32 : c.hba.nSlots.toNat ≤ 32) (hb : s.built.isSome = true) :
    hdrStep s = .go () ((tick s).afterStore (c.port.clb.toNat + 32 * s.x.slot.toNat)
      (CmdHdr.bytes { write := s.x.wr, prdtl := s.x.nprd, ctba := table })) := by
  rw [hdrStep, need_of _ _ hb, bind_go]
  exact storeHeader_run _ hs ha h32

/-- Settles O25: one store each, and what a store leaves of memory. -/
theorem fisHdrBuildComplete : Obligations.FisHdrBuildComplete := by
  intro r s c table hpc hslot h32 harena
  refine ⟨fun hwf => ?fis, fun hwf hbuilt => ?hdr, fun a bs => afterStore_frame (tick s) a bs,
    fun cmd f => tableHead_length cmd f, fun h => cmdHdr_length h⟩
  case fis =>
    have hl : r.lba.toNat < 281474976710656 := lba48_of_passed hwf
    exact exec_done rfl hwf (by rw [hpc]; rfl) (fisStep_any (slotOn_accepted 0x21#8 r hslot) harena hl)
  case hdr =>
    exact exec_done rfl hwf (by rw [hpc]; rfl) (hdrStep_any (slotOn_accepted 0x22#8 r hslot) harena h32 hbuilt)

/-- AHCI.BUILD while the devices take no step. -/
theorem ahciBuildStep_quiet {s : State} {c : AhciCtx} {table : Quad} (hq : Quiet s) (hs : SlotOn s s.x.dev c table)
    (h32 : c.hba.nSlots.toNat ≤ 32) (hf : PrdtFits s s.x.isIdentify c s.x.buf s.x.cnt)
    (hl : s.x.lba.toNat < 281474976710656) : ahciBuildStep s = .go () (ahciBuilt c table s) := by
  have hprdt := prdtStep_any hs hf
  rw [tick_quiet hq] at hprdt
  rw [ahciBuildStep, bind_of hprdt]
  refine Eq.trans (bind_of (fisStep_any (c := c) (table := table) (slotOn_of hs rfl rfl rfl rfl rfl) hf.arena hl)) ?_
  rw [tick_quiet (by exact hq)]
  refine Eq.trans (bind_of (hdrStep_any (c := c) (table := table) (slotOn_of hs rfl rfl rfl rfl rfl) hf.arena h32 rfl)) ?_
  rw [tick_quiet (by exact hq)]
  have hval : (BitVec.ofNat 16 (prdtCount s.x.cnt.toNat)).setWidth 64 = BitVec.ofNat 64 (prdtCount s.x.cnt.toNat) :=
    BitVec.setWidth_ofNat_of_le_of_lt (by decide) (Nat.lt_of_le_of_lt (prdtCount_le s.x.cnt) (by decide))
  simp only [State.setVal, State.afterStore, prdtRegs, hval]
  rfl

/-- Settles O26: the three stores in their order. -/
theorem ahciBuildCompletes : Obligations.AhciBuildCompletes := by
  intro r s c table hpc hwf hq hslot h32 hfits
  have hl : r.lba.toNat < 281474976710656 := lba48_of_passed hwf
  have hstep := ahciBuildStep_quiet (s := s.acceptedMicro 0x23#8 r) hq (slotOn_accepted 0x23#8 r hslot) h32
    (prdtFits_accepted rfl hfits) hl
  exact exec_done rfl hwf (by rw [hpc]; rfl) hstep

/-! ## The NVMe builders -/

theorem prpStep_any {s : State} {c : NvmeCtx} {adm : Bool} {len : Nat} (hs : EntryOn s s.x.dev adm c)
    (hf : s.x.flg.getLsbD 2 = adm) (hlen : len = transferLength (s.x.flg.getLsbD 1) s.x.cnt c.dev)
    (hb : BufferFits s s.x.isIdentify s.x.buf.toNat len) (hmax : len ≤ c.nv.mdts)
    (hpage : s.x.buf.toNat % c.nv.pageBytes + len ≤ c.nv.pageBytes) : prpStep s = .go () (s.prpBuilt len) := by
  subst hlen
  rw [prpStep, nvmeSlot_of hs rfl hf, bind_go, transferBytes_eq, tooLarge_false hmax hpage,
    if_neg Bool.false_ne_true, bufferPremises_of rfl hb, bind_go, transferBytes_eq]

theorem sqeStep_any {s : State} {c : NvmeCtx} {adm : Bool} (hs : EntryOn s s.x.dev adm c)
    (hf : s.x.flg.getLsbD 2 = adm) (ha : RingArena s c) (hp : s.x.buf.toNat % 4 = 0)
    (hb : BufferFits s s.x.isIdentify s.x.buf.toNat (transferLength (s.x.flg.getLsbD 1) s.x.cnt c.dev)) :
    sqeStep s = .go () ((tick s).afterStore (c.qp.sqBase.toNat + 64 * s.x.slot.toNat)
      ((entryOf s.cfg c.dev s.x).bytes s.x.cmdb)) := by
  rw [sqeStep, storeEntry_run s.x.buf _ hs hf ha hp hb (sqe_length _ _), sqe_eq]

/-- Settles O28: PRP.BUILD looks at no alignment, and SQE.BUILD makes one store. -/
theorem prpSqeBuildComplete : Obligations.PrpSqeBuildComplete := by
  intro r s c hpc hentry
  have hraw (op : Byte) : transferLength ((s.acceptedMicro op r).x.flg.getLsbD 1) r.cnt c.dev
      = transferLength (r.arg.getLsbD 10) r.cnt c.dev := by rw [accepted_raw]
  refine ⟨fun hwf hb hmax hpage => ?prp, fun hwf ha hp hb => ?sqe, fun a bs => afterStore_frame (tick s) a bs,
    fun opc e => sqe_length opc e⟩
  case prp =>
    exact exec_done rfl hwf (by rw [hpc]; rfl) (prpStep_any (s := s.acceptedMicro 0x24#8 r)
      (entryOn_accepted 0x24#8 r hentry) (argFlg_adm r) (hraw _).symm hb hmax hpage)
  case sqe =>
    exact exec_done rfl hwf (by rw [hpc]; rfl) (sqeStep_any (s := s.acceptedMicro 0x25#8 r)
      (entryOn_accepted 0x25#8 r hentry) (argFlg_adm r) ha hp (by rw [← hraw 0x25#8] at hb; exact hb))

/-- Settles O30: the length, then the entry, whatever the devices do. -/
theorem nvmeBuildCompletes : Obligations.NvmeBuildCompletes := by
  intro r s c hpc hwf hentry hfits
  have hstep := nvmeBuildStep_run (s := s.acceptedMicro 0x26#8 r) (ident := false)
    (len := transferLength (r.arg.getLsbD 10) r.cnt c.dev) (entryOn_accepted 0x26#8 r hentry) rfl (argFlg_adm r)
    (by rw [accepted_raw]; rfl) ⟨hfits.arena, hfits.aligned, hfits.fits, hfits.maximum, hfits.onePage⟩
  exact exec_done rfl hwf (by rw [hpc]; rfl) hstep

end Sys2Proof.Proofs

/-!
SUPPORT. When the NVMe builders report TransferTooLarge (42_descriptor_builder.md R203), the bytes of the structures
they emit, and the structure rows of a command. The proofs of O29, O31 and O59.
-/

namespace Sys2Proof.Proofs

open Sys2Proof Sys2Proof.Machine Sys2Proof.Laws

/-! ## TransferTooLarge -/

theorem tooLarge_iff {c : NvmeCtx} {buf : Quad} {len : Nat} :
    c.tooLarge buf len = true ↔ c.nv.mdts < len ∨ c.nv.pageBytes < buf.toNat % c.nv.pageBytes + len := by
  rw [NvmeCtx.tooLarge, Bool.or_eq_true, decide_eq_true_iff, decide_eq_true_iff]

/-- The length of the transfer of an accepted request is above the limits of its queue pair. -/
theorem tooLarge_accepted {s : State} {r : Request} {c : NvmeCtx} (op : Byte) :
    c.tooLarge r.buf (c.transferBytes (s.acceptedMicro op r).x) = true ↔
      c.nv.mdts < transferLength (r.arg.getLsbD 10) r.cnt c.dev ∨
      c.nv.pageBytes < r.buf.toNat % c.nv.pageBytes + transferLength (r.arg.getLsbD 10) r.cnt c.dev := by
  rw [tooLarge_iff, transferBytes_eq, accepted_raw]
  exact Iff.rfl

section Prp

variable {s : State} {c : NvmeCtx}

/-- PRP.BUILD ends by the length alone. -/
theorem ends_prpStep_tooLarge (hctx : s.nvmeCtx = .ok c) :
    Ends (prpStep s) (fun _ _ => ¬ c.tooLarge s.x.buf (c.transferBytes s.x) = true)
      fun u => c.tooLarge s.x.buf (c.transferBytes s.x) = true ∧ u.x.res = Err.transferTooLarge.code := by
  refine (ends_prpStep s).mono ?_ ?_
  · rintro - t ⟨c', hc', hsmall, -⟩
    cases hctx.symm.trans hc'.ctx
    exact ne_true_of_eq_false hsmall
  · rintro t ⟨c', hc', hlarge, rfl⟩
    cases hctx.symm.trans hc'.ctx
    exact ⟨hlarge, rfl⟩

/-- SQE.BUILD raises no error, so NVME.BUILD ends as PRP.BUILD does. -/
theorem ends_nvmeBuildStep_tooLarge (hctx : s.nvmeCtx = .ok c) :
    Ends (nvmeBuildStep s) (fun _ _ => ¬ c.tooLarge s.x.buf (c.transferBytes s.x) = true)
      fun u => c.tooLarge s.x.buf (c.transferBytes s.x) = true ∧ u.x.res = Err.transferTooLarge.code := by
  unfold nvmeBuildStep
  refine (ends_prpStep_tooLarge hctx).bind fun _ t hnot => ?_
  exact (ends_sqeStep t).bind fun _ u _ => ends_go hnot

/-- The error comes before any store: only `pc`, the claim and `RES` change. -/
theorem prpStep_tooLarge {adm : Bool} (hs : EntryOn s s.x.dev adm c) (hf : s.x.flg.getLsbD 2 = adm)
    (hover : c.tooLarge s.x.buf (c.transferBytes s.x) = true) :
    prpStep s = .stop (raised .transferTooLarge .idle s) := by
  rw [prpStep, nvmeSlot_of hs rfl hf, bind_go, if_pos hover, raise_eq]

theorem nvmeBuildStep_tooLarge {adm : Bool} (hs : EntryOn s s.x.dev adm c) (hf : s.x.flg.getLsbD 2 = adm)
    (hover : c.tooLarge s.x.buf (c.transferBytes s.x) = true) :
    nvmeBuildStep s = .stop (raised .transferTooLarge .idle s) := by
  rw [nvmeBuildStep, prpStep_tooLarge hs hf hover, bind_stop]

end Prp

theorem exec_prpBuild (r : Request) (s : State) : exec (.prpBuild r) s =
    operation (.prpBuild r) s.pc.isSlotAllocated false (prpStep (s.acceptedMicro 0x24#8 r)) := rfl

theorem exec_nvmeBuild (r : Request) (s : State) : exec (.nvmeBuild r) s =
    operation (.nvmeBuild r) s.pc.isSlotAllocated false (nvmeBuildStep (s.acceptedMicro 0x26#8 r)) := rfl

/-- Settles O31: both builders by which way their PRP part ends, and by the state it ends in. -/
theorem transferTooLargeExactly : Obligations.TransferTooLargeExactly := by
  intro r s c hentry
  refine ⟨fun t => ?reported, fun hpc hover => ⟨fun hwf => ?prp, fun hwf => ?nvme⟩⟩
  case reported =>
    rintro (hprp | hnvme)
    · rw [exec_prpBuild] at hprp
      rw [← tooLarge_accepted 0x24#8 (s := s)]
      exact res_eq_code_iff_of_ends (ends_prpStep_tooLarge (nvmeCtx_accepted _ hentry.queue)) hprp
    · rw [exec_nvmeBuild] at hnvme
      rw [← tooLarge_accepted 0x26#8 (s := s)]
      exact res_eq_code_iff_of_ends (ends_nvmeBuildStep_tooLarge (nvmeCtx_accepted _ hentry.queue)) hnvme
  case prp =>
    exact exec_failed rfl hwf (by rw [hpc]; rfl) (prpStep_tooLarge (s := s.acceptedMicro 0x24#8 r)
      (entryOn_accepted 0x24#8 r hentry) (argFlg_adm r) ((tooLarge_accepted 0x24#8).mpr hover))
  case nvme =>
    exact exec_failed rfl hwf (by rw [hpc]; rfl) (nvmeBuildStep_tooLarge (s := s.acceptedMicro 0x26#8 r)
      (entryOn_accepted 0x26#8 r hentry) (argFlg_adm r) ((tooLarge_accepted 0x26#8).mpr hover))

/-! ## The bytes of a table head and the dwords of a submission entry -/

/-- A byte of a number, as a bit field of the word that the number is the value of. -/
theorem ofNat_byte {w : Nat} (v : BitVec w) (k : Nat) : BitVec.ofNat 8 (v.toNat / 2 ^ k) = v.extractLsb' k 8 := by
  rw [BitVec.extractLsb', Nat.shiftRight_eq_div_pow]

/-- The six bytes of a 48-bit LBA are the low six of the `LBA` register. -/
theorem extract_lba (v : Quad) {k : Nat} (hk : k ≤ 40) :
    (v.setWidth 48).extractLsb' k 8 = v.extractLsb' k 8 := by
  ext i hi
  have hlt : k + i < 48 := by omega
  simp [hlt]

theorem leBytes_two (v : Half) : leBytes 2 v.toNat = [v.extractLsb' 0 8, v.extractLsb' 8 8] := by
  rw [← ofNat_byte, ← ofNat_byte, pow_zero, Nat.div_one]
  rfl

/-- Three bytes of a 48-bit LBA, from bit `k` on. -/
theorem leBytes_lba (v : Quad) {k : Nat} (hk : k ≤ 24) :
    leBytes 3 ((v.setWidth 48).toNat / 2 ^ k) =
      [v.extractLsb' k 8, v.extractLsb' (k + 8) 8, v.extractLsb' (k + 16) 8] := by
  rw [← extract_lba v (by omega : k ≤ 40), ← extract_lba v (by omega : k + 8 ≤ 40),
    ← extract_lba v (by omega : k + 16 ≤ 40), ← ofNat_byte, ← ofNat_byte, ← ofNat_byte, Nat.pow_add, Nat.pow_add,
    ← Nat.div_div_eq_div_mul, ← Nat.div_div_eq_div_mul, show 2 ^ 16 = 256 * 256 from rfl, ← Nat.div_div_eq_div_mul]
  rfl

/-- The 128 bytes of a table head (R195, 30_encoding.md R120). -/
theorem tableHead_fis (p : Params) (x : Regs) :
    tableHead ((fisOf p x).bytes x.cmdb) =
      [0x27#8, p.fisFlags, x.cmdb, 0#8,
        x.lba.extractLsb' 0 8, x.lba.extractLsb' 8 8, x.lba.extractLsb' 16 8,
        (if x.flg.getLsbD 0 then 0x00#8 else 0x40#8),
        x.lba.extractLsb' 24 8, x.lba.extractLsb' 32 8, x.lba.extractLsb' 40 8, 0#8,
        x.cnt.extractLsb' 0 8, x.cnt.extractLsb' 8 8, 0#8, 0#8, 0#8, 0#8, 0#8, 0#8] ++ List.replicate 108 0#8 := by
  have hlow := leBytes_lba x.lba (k := 0) (by omega)
  have hhigh := leBytes_lba x.lba (k := 24) (by omega)
  rw [pow_zero, Nat.div_one] at hlow
  rw [show 2 ^ 24 = 16777216 from rfl] at hhigh
  simp only [tableHead, Fis.bytes, fisOf, hlow, hhigh, leBytes_two]
  rfl

/-- The dwords of a submission entry that are always zero. -/
theorem sqe_zero_dword (opc : Byte) (e : Sqe) {i : Nat} (hi : i < 16) (hz : i ∉ [0, 1, 6, 7, 10, 11, 12]) :
    field (e.bytes opc) (4 * i) 4 = 0 := by
  obtain ⟨-, -, h8, -, h32, -, -, -, h52⟩ := sqe_fields opc e
  have hlen := sqe_length opc e
  have hcase : (2 ≤ i ∧ i ≤ 5) ∨ (8 ≤ i ∧ i ≤ 9) ∨ 13 ≤ i := by simp at hz; omega
  rcases hcase with h | h | h
  · have hpart := field_zero h8 (by omega) (4 * i - 8) 4 (by omega)
    rwa [show 8 + (4 * i - 8) = 4 * i by omega] at hpart
  · have hpart := field_zero h32 (by omega) (4 * i - 32) 4 (by omega)
    rwa [show 32 + (4 * i - 32) = 4 * i by omega] at hpart
  · have hpart := field_zero h52 (by omega) (4 * i - 52) 4 (by omega)
    rwa [show 52 + (4 * i - 52) = 4 * i by omega] at hpart

/-- Two command dwords side by side hold a 64-bit value. -/
theorem lo32_hi32 (v : Quad) : (lo32 v).toNat + 256 ^ 4 * (hi32 v).toNat = v.toNat := by
  simp only [lo32, hi32, BitVec.extractLsb'_toNat, Nat.shiftRight_eq_div_pow]
  have := v.isLt
  omega

/-- The block count of a command, zero based. -/
theorem toNat_blocks {cnt : Half} (h : 1 ≤ cnt.toNat) : ((cnt.setWidth 32 : Word) - 1#32).toNat = cnt.toNat - 1 := by
  have := cnt.isLt
  simp
  omega

/-- A 64-bit field that two command dwords make up. -/
theorem sqe_pair (opc : Byte) (e : Sqe) (v : Quad) :
    (e.cdw10 = lo32 v → e.cdw11 = hi32 v → field (e.bytes opc) 40 8 = v.toNat) ∧
      (e.cdw11 = lo32 v → e.cdw12 = hi32 v → field (e.bytes opc) 44 8 = v.toNat) := by
  obtain ⟨-, -, -, -, -, h40, h44, h48, -⟩ := sqe_fields opc e
  have hlen := sqe_length opc e
  refine ⟨fun hlo hhi => ?_, fun hlo hhi => ?_⟩
  · rw [field_add _ 40 4 4 (by omega), h40, h44, hlo, hhi, lo32_hi32]
  · rw [field_add _ 44 4 4 (by omega), h44, h48, hlo, hhi, lo32_hi32]

/-- Settles O29: the FIS byte by byte, and the entry dword by dword in each layout. -/
theorem emittedStructures : Obligations.EmittedStructures := by
  refine ⟨tableHead_fis, fun p d x opc => ?_⟩
  obtain ⟨h0, h4, -, h24, -, h40, -, h48, -⟩ := sqe_fields opc (entryOf p d x)
  obtain ⟨hpair40, hpair44⟩ := sqe_pair opc (entryOf p d x) x.lba
  refine ⟨fun i hi hz => sqe_zero_dword opc _ hi hz, h0, h24, fun hraw => ⟨?nsid, ?doc, ?std⟩,
    fun hraw => ⟨?rawNsid, ?rawPair, ?rawLast⟩⟩
  case nsid => rw [h4, entryOf, if_pos (Or.inl hraw)]
  case doc =>
    intro hcnt hlayout
    have hcdw : (entryOf p d x).cdw10 = x.cnt.setWidth 32 - 1#32 ∧ (entryOf p d x).cdw11 = lo32 x.lba ∧
        (entryOf p d x).cdw12 = hi32 x.lba := by
      rw [entryOf, hraw, hlayout]; exact ⟨rfl, rfl, rfl⟩
    obtain ⟨h10, h11, h12⟩ := hcdw
    exact ⟨by rw [h40, h10, toNat_blocks hcnt], hpair44 h11 h12⟩
  case std =>
    intro hcnt hlayout
    have hcdw : (entryOf p d x).cdw10 = lo32 x.lba ∧ (entryOf p d x).cdw11 = hi32 x.lba ∧
        (entryOf p d x).cdw12 = x.cnt.setWidth 32 - 1#32 := by
      rw [entryOf, hraw, hlayout]; exact ⟨rfl, rfl, rfl⟩
    obtain ⟨h10, h11, h12⟩ := hcdw
    exact ⟨hpair40 h10 h11, by rw [h48, h12, toNat_blocks hcnt]⟩
  case rawNsid =>
    rw [h4]
    cases hns : x.flg.getLsbD 3 <;> (rw [entryOf, hraw, hns]; rfl)
  case rawPair => exact hpair40 (by simp [entryOf, hraw]) (by simp [entryOf, hraw])
  case rawLast => rw [h48]; simp [entryOf, hraw]

/-! ## The structure rows of a command (30_encoding.md R115 to R124; log 10) -/

theorem structureStore_go {s t : State} {body : State → Flow Unit} (hpc : s.pc = .slotAllocated)
    (h : body s = .go () t) : structureStore s body = .next t := by
  rw [structureStore, if_pos (by rw [hpc]; rfl), h]

theorem structureStore_refuse {s : State} {body : State → Flow Unit} {e : Refusal} (hpc : s.pc = .slotAllocated)
    (h : body s = .refuse e) : structureStore s body = .refused e := by
  rw [structureStore, if_pos (by rw [hpc]; rfl), h]

section Rows

variable {s : State}

/-- A Command Header that names the slot's table is stored. -/
theorem storeHeaderRow_run {c : AhciCtx} {h : CmdHdr} (hs : SlotOn s s.x.dev c h.ctba) (ha : PortArena s c)
    (h32 : c.hba.nSlots.toNat ≤ 32) :
    storeHeaderRow h s =
      .go () ((tick s).afterStore (c.port.clb.toNat + 32 * s.x.slot.toNat) h.bytes) := by
  have haligned : h.ctba.toNat % 128 = 0 := by
    have hports := ha.1
    simp only [Port.aligned, Bool.and_eq_true, List.all_eq_true, beq_iff_eq] at hports
    exact hports.2 _ (mem_of_getElem? hs.table)
  rw [storeHeaderRow, ahciSlot_of hs rfl, bind_go, need_of _ _ (beq_iff_eq.2 haligned), bind_go,
    need_of _ _ (beq_iff_eq.2 rfl), bind_go]
  exact storeHeader_run _ hs ha h32

/-- One that names another table is refused. -/
theorem storeHeaderRow_other {c : AhciCtx} {table : Quad} {h : CmdHdr} (hs : SlotOn s s.x.dev c table)
    (hne : h.ctba ≠ table) :
    storeHeaderRow h s = .refuse (if h.ctba.toNat % 128 = 0 then .notEmitted else .misalignedStructure) := by
  rw [storeHeaderRow, ahciSlot_of hs rfl, bind_go]
  by_cases haligned : h.ctba.toNat % 128 = 0
  · rw [need_of _ _ (beq_iff_eq.2 haligned), bind_go, beq_false_of_ne hne, if_pos haligned]
    rfl
  · rw [beq_false_of_ne haligned, if_neg haligned]
    rfl

/-- A PRDT entry that starts chunk `i` of the buffer is stored at place `i` of the table. -/
theorem storePrdtEntry_run {c : AhciCtx} {table : Quad} {e : PrdtEntry} {i : Nat} (hs : SlotOn s s.x.dev c table)
    (ha : PortArena s c) (hdba : e.dba = s.x.buf + BitVec.ofNat 64 (8192 * i))
    (hwrap : s.x.buf.toNat + 8192 * i < addrSpace) (hcap : i < s.cfg.prdtCap) (hmax : i < 65535)
    (heven : e.dba.toNat % 2 = 0) (hbytes : (e.dbc.toNat + 1) % 2 = 0)
    (hb : BufferFits s s.x.isIdentify e.dba.toNat (e.dbc.toNat + 1)) :
    storePrdtEntry e s = .go () ((tick s).afterStore (table.toNat + 0x80 + 16 * i) e.bytes) := by
  have hoffset : (e.dba - s.x.buf).toNat = 8192 * i := by
    rw [hdba, BitVec.add_comm, BitVec.add_sub_cancel, BitVec.toNat_ofNat]
    exact Nat.mod_eq_of_lt (Nat.lt_of_le_of_lt (Nat.le_add_left _ _) hwrap)
  have haddr : e.dba.toNat = s.x.buf.toNat + 8192 * i := by
    rw [hdba, BitVec.toNat_add, BitVec.toNat_ofNat]
    unfold addrSpace at hwrap
    omega
  have hindex : prdtIndex s e = i := by
    rw [prdtIndex, hoffset, chunkBytes, Nat.mul_div_cancel_left _ (by omega)]
  have hplace : prdtEmitted s e = true := by
    rw [prdtEmitted, hindex, hoffset, haddr, chunkBytes, Nat.mul_mod_right]
    simp [prdtLimit, prdtAbsMax, hcap, hmax]
  have heven' : prdtEven e = true := by simp [prdtEven, prdtBytesOf, heven, hbytes]
  have ht := table_fits hs.port ha.2 (mem_of_getElem? hs.table)
  rw [storePrdtEntry, ahciSlot_of hs rfl, bind_go, ahciPremises_of ha, bind_go, need_of _ _ hplace, bind_go,
    need_of _ _ heven', bind_go, bufferPremises_of (n := prdtBytesOf e) rfl hb, bind_go, hindex]
  exact memStore_of (by
    rw [show e.bytes.length = 16 by simp [PrdtEntry.bytes]]
    show table.toNat + 0x80 + 16 * i + 16 ≤ _
    omega)

/-- An identify entry is looked at for the page its buffer begins, and is then stored as any other. -/
theorem storeIdentifyRow_run {c : NvmeCtx} {adm : Bool} {e : Sqe} (hs : EntryOn s s.x.dev adm c)
    (hf : s.x.flg.getLsbD 2 = adm) :
    storeIdentifyRow e s =
      if e.prp1.toNat % c.nv.pageBytes = 0 then storeEntry e.prp1 (fun _ => e.bytes sqeIdentifyOpc) s
      else .refuse .misalignedStructure := by
  rw [storeIdentifyRow, nvmeSlot_of hs rfl hf, bind_go]
  by_cases hpage : e.prp1.toNat % c.nv.pageBytes = 0
  · rw [need_of _ _ (beq_iff_eq.2 hpage), bind_go, if_pos hpage]
  · rw [beq_false_of_ne hpage, if_neg hpage]
    rfl

end Rows

/-- Settles O59: each row is one store at its place, or is refused. -/
theorem structureRows : Obligations.StructureRows := by
  refine ⟨fun s c table hpc hs h32 ha => ⟨fun f => ?fis, fun h hctba => ?header, fun h hne => ?otherTable,
    fun e i hdba hwrap hcap hmax heven hbytes hb => ?entry⟩, fun s c e hpc hs ha hp hb => ?sqe⟩
  case fis =>
    exact ⟨structureStore_go hpc (storeFis_run fisReadCmd f hs ha),
      structureStore_go hpc (storeFis_run fisWriteCmd f hs ha),
      structureStore_go hpc (storeFis_run fisIdentifyCmd f hs ha)⟩
  case header =>
    subst hctba
    exact structureStore_go hpc (storeHeaderRow_run hs ha h32)
  case otherTable => exact structureStore_refuse hpc (storeHeaderRow_other hs hne)
  case entry =>
    exact structureStore_go hpc (storePrdtEntry_run hs ha hdba hwrap hcap hmax heven hbytes hb)
  case sqe =>
    have hstore (opc : Byte) := storeEntry_run e.prp1 (fun _ => e.bytes opc) hs rfl ha hp hb (sqe_length opc e)
    refine ⟨structureStore_go hpc (hstore sqeReadOpc), structureStore_go hpc (hstore sqeWriteOpc), fun hpage => ?_,
      fun hpage => ?_⟩
    · exact structureStore_go hpc (by rw [storeIdentifyRow_run hs rfl, if_pos hpage]; exact hstore sqeIdentifyOpc)
    · exact structureStore_refuse hpc (by rw [storeIdentifyRow_run hs rfl, if_neg hpage])

end Sys2Proof.Proofs

/-!
SUPPORT. The AHCI port engine (43_ahci_engine.md), from the accepted state to the response: the proofs of O32 to O36.
-/

namespace Sys2Proof.Proofs

open Sys2Proof Sys2Proof.Machine Sys2Proof.Laws

/-- A wait whose register shows `v0`, which does not end it, for `k` looks, and then `v`, which does. -/
theorem waitFor_at {a k : Nat} {done : Quad → Bool} {e : Err} {b v0 v : Word} {s : State} {rest : List DevAct}
    (ha : a + 4 ≤ addrSpace) (hv : done (v.setWidth 64) = true) (hk : k < b.toNat)
    (hs : s.script = List.replicate k ({} : DevAct) ++ { regs := [(a, some (v.setWidth 64))] } :: rest)
    (h0 : 0 < k → Reads32 s a v0 ∧ done (v0.setWidth 64) = false) :
    waitFor a done e b s = .go ()
      { s with
        x := { s.x with iter := BitVec.ofNat 32 k }
        regs := alSet s.regs a (v.setWidth 64)
        script := rest
        log := rd32 a v :: (repeated k [rd32 a v0] ++ s.log) } := by
  rw [waitFor, waitRounds_at ha hv k _ s.clearIter hk hs h0]
  simp only [State.clearIter, BitVec.zero_add]

/-! ## AHCI.ISSUE -/

/-- AHCI.ISSUE on a port that is busy for `k` looks. -/
theorem ahciIssueStep_at {s : State} {c : AhciCtx} {table : Quad} {b : Nat × Nat} {k : Nat} {busy idle : Word}
    (hs : SlotOn s s.x.dev c table) (hw : PortWindow s c) (hb : s.built = some b) (hk : k < s.cfg.busyBudget.toNat)
    (hbusy : Reads32 s (c.portReg s.cfg.ahciBusyOff) busy) (hwait : 0 < k → busy &&& s.cfg.ahciBusyMask ≠ 0#32)
    (hidle : idle &&& s.cfg.ahciBusyMask = 0#32)
    (hq : s.script = List.replicate k ({} : DevAct) ++
      [{ regs := [(c.portReg s.cfg.ahciBusyOff, some (idle.setWidth 64))] }]) :
    ahciIssueStep s = .go ()
      { ({ s with regs := alSet s.regs (c.portReg s.cfg.ahciBusyOff) (idle.setWidth 64) } : State).wrote
          (c.portReg 0x38) (1#32 <<< s.x.slot.toNat) with
        pc := .issued
        x := { s.x with iter := BitVec.ofNat 32 k }
        inflight := some { chan := .port c.p, slot := s.x.slot, cid := 0#16, dataAt := b.1, dataLen := b.2 }
        pend := unordered (some b) s.pend
        script := []
        log := wr32 (c.portReg 0x38) (1#32 <<< s.x.slot.toNat) :: .publish ::
          rd32 (c.portReg s.cfg.ahciBusyOff) idle ::
          repeated k [rd32 (c.portReg s.cfg.ahciBusyOff) busy] ++ s.log } := by
  have hwaited := waitFor_at (e := .portHung) (done := fun t => !portBusy s.cfg t) (v0 := busy)
    (portReg_fits hw.block hw.busy) (by rw [portBusy_word, hidle]; rfl) hk hq
    fun h0 => ⟨hbusy, by simpa [portBusy_word] using hwait h0⟩
  rw [ahciIssueStep, ahciSlot_of hs rfl, bind_go, bind_of hwaited,
    bind_of (mmioWrite_quiet (by rfl) (portReg_fits hw.block (by decide))), ciValue_eq]
  simp only [publish, State.wrote, State.afterWrite, markIssued, State.portTag, hb, Option.getD_some, trunc_word]
  rfl

/-- Settles O32: the wait, the publication and the write of `PxCI`. -/
theorem ahciIssueCompletes : Obligations.AhciIssueCompletes := by
  intro r s c table b k busy idle hpc hwf hs hw hb hk hbusy hwait hidle hq
  exact exec_done rfl hwf (by rw [hpc]; rfl) (ahciIssueStep_at (s := s.acceptedMicro 0x30#8 r)
    (slotOn_accepted 0x30#8 r hs) ⟨hw.block, hw.busy, hw.error, hw.apart⟩ hb hk hbusy hwait hidle hq)

/-- AHCI.ISSUE on a port that stays busy. -/
theorem ahciIssueStep_hung {s : State} {c : AhciCtx} {table : Quad} {busy : Word} (hq : Quiet s)
    (hs : SlotOn s s.x.dev c table) (hw : PortWindow s c)
    (hbusy : Reads32 s (c.portReg s.cfg.ahciBusyOff) busy) (hwait : busy &&& s.cfg.ahciBusyMask ≠ 0#32) :
    ahciIssueStep s = .stop (raised .portHung .idle
      { s with
        x := { s.x with iter := s.cfg.busyBudget }
        log := repeated s.cfg.busyBudget.toNat [rd32 (c.portReg s.cfg.ahciBusyOff) busy] ++ s.log }) := by
  have hdone : (fun t => !portBusy s.cfg t) (busy.setWidth 64) = false := by simpa [portBusy_word] using hwait
  rw [ahciIssueStep, ahciSlot_of hs rfl, bind_go,
    waitFor_out (e := .portHung) (portReg_fits hw.block hw.busy) hq hbusy hdone, bind_stop]

/-! ## AHCI.POLL -/

/-- A bit of a 32-bit register that is set is below 32. -/
theorem slot_lt_of_set {v : Word} {k : Nat} (h : v.getLsbD k = true) : k < 32 := by
  by_contra hge
  rw [BitVec.getLsbD_of_ge _ _ (by omega)] at h
  cases h

/-- AHCI.POLL on a command that neither completes nor fails. -/
theorem ahciPollStep_out {s : State} {c : AhciCtx} {table : Quad} {ci err : Word} (hq : Quiet s)
    (hs : SlotOn s s.x.dev c table) (hw : PortWindow s c) (hci : Reads32 s (c.portReg 0x38) ci)
    (herr : Reads32 s (c.portReg s.cfg.ahciErrOff) err) (hset : ci.getLsbD s.x.slot.toNat = true)
    (hok : err &&& s.cfg.ahciErrMask = 0#32) :
    ahciPollStep s = timeOut
      { s with
        x := { s.x with iter := s.cfg.pollBudget }
        log := repeated s.cfg.pollBudget.toNat [rd32 (c.portReg s.cfg.ahciErrOff) err, rd32 (c.portReg 0x38) ci]
          ++ s.log } := by
  have hslot : s.x.slot.toNat < 64 := Nat.lt_trans (slot_lt_of_set hset) (by decide)
  rw [ahciPollStep, ahciSlot_of hs rfl, bind_go,
    ahciPollRounds_out hw.block _ s.clearIter hw.error hslot hset hok hq hci herr]
  simp only [State.clearIter, ofNat_budget]

/-- Settles O33: the two waits that use up their budgets. -/
theorem ahciBudgets : Obligations.AhciBudgets := by
  intro r s c table hq hs hw
  refine ⟨fun busy hpc hwf hbusy hwait => ?issue, fun ci err hpc hwf hci herr hset hok => ?poll⟩
  case issue =>
    exact exec_failed rfl hwf (by rw [hpc]; rfl) (ahciIssueStep_hung (s := s.acceptedMicro 0x30#8 r) hq
      (slotOn_accepted 0x30#8 r hs) ⟨hw.block, hw.busy, hw.error, hw.apart⟩ hbusy hwait)
  case poll =>
    have hstep := ahciPollStep_out (s := s.acceptedMicro 0x31#8 r) hq (slotOn_accepted 0x31#8 r hs)
      ⟨hw.block, hw.busy, hw.error, hw.apart⟩ hci herr hset hok
    rw [timeOut, raise_eq] at hstep
    exact exec_failed rfl hwf (by rw [hpc]; rfl) hstep

/-- AHCI.POLL on a command that goes on for `k` looks and is then over. -/
theorem ahciPollStep_at {s : State} {c : AhciCtx} {table : Quad} {k : Nat} {ci done err : Word}
    (hs : SlotOn s s.x.dev c table) (hw : PortWindow s c) (hslot : s.x.slot.toNat < 64)
    (hk : k < s.cfg.pollBudget.toNat) (hci : Reads32 s (c.portReg 0x38) ci)
    (hset : 0 < k → ci.getLsbD s.x.slot.toNat = true) (hdone : done.getLsbD s.x.slot.toNat = false)
    (herr : Reads32 s (c.portReg s.cfg.ahciErrOff) err) (hok : err &&& s.cfg.ahciErrMask = 0#32)
    (hq : s.script = List.replicate (2 * k) ({} : DevAct) ++
      [{ regs := [(c.portReg 0x38, some (done.setWidth 64))] }]) :
    ahciPollStep s = .go () (complete
      { s with
        x := { s.x with iter := BitVec.ofNat 32 k }
        regs := alSet s.regs (c.portReg 0x38) (done.setWidth 64)
        script := []
        log := rd32 (c.portReg s.cfg.ahciErrOff) err :: rd32 (c.portReg 0x38) done ::
          (repeated k [rd32 (c.portReg s.cfg.ahciErrOff) err, rd32 (c.portReg 0x38) ci] ++ s.log) }) := by
  rw [ahciPollStep, ahciSlot_of hs rfl, bind_go,
    ahciPollRounds_at (data := []) hw.block k _ s.clearIter hw.error hw.apart hslot hdone hok hk hq herr
      fun h0 => ⟨hci, hset h0⟩]
  simp only [State.clearIter, BitVec.zero_add]
  rfl

/-- Settles O34: the looks at a command that goes on, then the one that sees it over. -/
theorem ahciPollCompletes : Obligations.AhciPollCompletes := by
  intro r s c table k ci done err hpc hwf hs hw h32 hk hci hset hdone herr hok hq
  exact exec_done rfl hwf (by rw [hpc]; rfl) (ahciPollStep_at (s := s.acceptedMicro 0x31#8 r)
    (slotOn_accepted 0x31#8 r hs) ⟨hw.block, hw.busy, hw.error, hw.apart⟩ (Nat.lt_trans h32 (by decide)) hk hci hset
    hdone herr hok hq)

/-- A look that sees the error bit: whether the slot's bit is clear is not looked at. -/
theorem ahciPollRounds_error {c : AhciCtx} {s : State} {ci err : Word} (n : Nat) (hq : s.script = [])
    (hw : PortWindow s c) (hci : Reads32 s (c.portReg 0x38) ci) (herr : Reads32 s (c.portReg s.cfg.ahciErrOff) err)
    (hbad : err &&& s.cfg.ahciErrMask ≠ 0#32) :
    ahciPollRounds c (n + 1) s = raiseDevice err (land
      { s with log := rd32 (c.portReg s.cfg.ahciErrOff) err :: rd32 (c.portReg 0x38) ci :: s.log }) := by
  have herror : portError s.cfg (err.setWidth 64) = true := by simpa [portError_word] using hbad
  rw [ahciPollRounds, mmioRead_word (portReg_fits hw.block (by decide)) hq hci, bind_go,
    mmioRead_word (portReg_fits hw.block hw.error) (by exact hq) (by exact herr), bind_go,
    if_pos (by exact herror), word_setWidth]

/-- AHCI.POLL whose first look sees the error bit. -/
theorem ahciPollStep_error {s : State} {c : AhciCtx} {table : Quad} {ci err : Word} (hq : Quiet s)
    (hs : SlotOn s s.x.dev c table) (hw : PortWindow s c) (hbudget : s.cfg.pollBudget ≠ 0#32)
    (hci : Reads32 s (c.portReg 0x38) ci) (herr : Reads32 s (c.portReg s.cfg.ahciErrOff) err)
    (hbad : err &&& s.cfg.ahciErrMask ≠ 0#32) :
    ahciPollStep s = raiseDevice err (land
      { s with
        x := { s.x with iter := 0#32 }
        log := rd32 (c.portReg s.cfg.ahciErrOff) err :: rd32 (c.portReg 0x38) ci :: s.log }) := by
  obtain ⟨n, hn⟩ : ∃ n, s.cfg.pollBudget.toNat = n + 1 :=
    Nat.exists_eq_succ_of_ne_zero fun h => hbudget (BitVec.eq_of_toNat_eq h)
  rw [ahciPollStep, ahciSlot_of hs rfl, bind_go, hn]
  exact ahciPollRounds_error (s := s.clearIter) n hq ⟨hw.block, hw.busy, hw.error, hw.apart⟩ hci herr hbad

/-- Settles O35: the error bit is looked at before the slot's bit. -/
theorem ahciPollDeviceError : Obligations.AhciPollDeviceError := by
  intro r s c table ci err hpc hwf hq hs hw hbudget hci herr hbad
  exact exec_failed rfl hwf (by rw [hpc]; rfl) (ahciPollStep_error (s := s.acceptedMicro 0x31#8 r) hq
    (slotOn_accepted 0x31#8 r hs) ⟨hw.block, hw.busy, hw.error, hw.apart⟩ hbudget hci herr hbad)

/-! ## AHCI.CMD -/

/-- What a ready port is ready for does not depend on the working registers. -/
theorem ahciReady_with {s : State} {ident : Bool} {dev : Byte} {cnt : Half} {buf : Quad} {c : AhciCtx} {k : Nat}
    {table : Quad} {v : PortView} (x : Regs) (h : AhciReady s ident dev cnt buf c k table v) :
    AhciReady { s with x := x } ident dev cnt buf c k table v :=
  ⟨h.port, ⟨h.window.block, h.window.busy, h.window.error, h.window.apart⟩,
    ⟨h.shows.sact, h.shows.ci, h.shows.busy, h.shows.err⟩, h.slot, h.table,
    ⟨h.fits.arena, h.fits.even, h.fits.fits, h.fits.room⟩, h.idle, h.noError, h.busyBudget, h.pollBudget⟩

/-- Settles O36: the four parts of the command, one after the other. -/
theorem ahciCmdCompletes : Obligations.AhciCmdCompletes := by
  intro r s c k table v data ciEnd hpc hwf hready hq hclear
  exact exec_done rfl hwf hpc (ahciCmdStep_run (a := s.acceptedMicro 0x32#8 r) rfl (ahciReady_with _ hready)
    (lba48_of_passed hwf) hq hclear)

end Sys2Proof.Proofs

/-!
SUPPORT. The NVMe queue-pair engine (44_nvme_engine.md) and the completion row: the proofs of O37 to O42 and O60.
-/

namespace Sys2Proof.Proofs

open Sys2Proof Sys2Proof.Machine Sys2Proof.Laws

/-! ## NVME.RDYCHK -/

theorem ctrlReady_word (v : Word) : ctrlReady (v.setWidth 64) = v.getLsbD 0 := by simp [ctrlReady]

theorem ctrlFatal_word (v : Word) : ctrlFatal (v.setWidth 64) = v.getLsbD 1 := by simp [ctrlFatal]

/-- The ready check: bit 0 of `CSTS` decides. -/
theorem rdychkStep_quiet {s : State} {c : NvmeCtx} {csts : Word} (hq : Quiet s) (hctx : s.nvmeCtx = .ok c)
    (hfit : c.reg 0x1C + 4 ≤ addrSpace) (hcsts : Reads32 s (c.reg 0x1C) csts) :
    rdychkStep s =
      if csts.getLsbD 0 then .go () (settle { s with log := rd32 (c.reg 0x1C) csts :: s.log })
      else .stop (raised .controllerNotReady .idle { s with log := rd32 (c.reg 0x1C) csts :: s.log }) := by
  rw [rdychkStep, hctx, needOk_ok, bind_go, mmioRead_word hfit hq hcsts, bind_go, ctrlReady_word, raise_eq]

/-- Settles O37: bit 0 set, and bit 0 clear. -/
theorem readyCheckBothWays : Obligations.ReadyCheckBothWays := by
  intro r s c csts hpc hwf hq hqueue hfit hcsts
  have hstep := rdychkStep_quiet (s := s.acceptedMicro 0x40#8 r) hq (nvmeCtx_accepted _ hqueue) hfit hcsts
  cases hready : csts.getLsbD 0 with
  | true =>
    rw [hready, if_pos rfl] at hstep
    exact exec_done rfl hwf hpc hstep
  | false =>
    rw [hready, if_neg Bool.false_ne_true] at hstep
    exact exec_failed rfl hwf hpc hstep

/-! ## NVME.ISSUE -/

/-- Settles O38: the publication, the tail and its doorbell, whatever the devices do. -/
theorem nvmeIssueCompletes : Obligations.NvmeIssueCompletes := by
  intro r s c b hpc hwf hs htail hbuilt hfit
  exact exec_done rfl hwf (by rw [hpc]; rfl) (nvmeIssueStep_run (s := s.acceptedMicro 0x41#8 r)
    (entryOn_accepted 0x41#8 r hs) (argFlg_adm r) htail hbuilt hfit)

/-! ## NVME.POLL -/

/-- NVME.POLL from the accepted state, as rounds of looks. -/
theorem nvmePoll_rounds {s : State} {r : Request} {c : NvmeCtx} (hs : EntryOn s r.dev (r.arg.getLsbD 11) c) :
    nvmePollStep (s.acceptedMicro 0x42#8 r) =
      nvmePollRounds c s.cfg.pollBudget.toNat (s.acceptedMicro 0x42#8 r).clearIter :=
  nvmePollStep_eq (entryOn_accepted 0x42#8 r hs) (argFlg_adm r)

/-- Settles O39: `k` looks at an old or foreign entry, then the one that finds the command's own. -/
theorem nvmePollCompletes : Obligations.NvmePollCompletes := by
  intro r s c k old csts e hpc hwf hs hdoor hhead hwatch hk hold hforeign hanswers hstatus hq
  have hrounds := nvmePollRounds_at (old := old) (csts := csts) (data := []) hdoor k s.cfg.pollBudget.toNat
    (s.acceptedMicro 0x42#8 r).clearIter hhead hk hanswers hq
    fun h0 => ⟨hold h0, hforeign h0, hwatch h0⟩
  have hstep := (nvmePoll_rounds hs).trans hrounds
  simp only [hstatus, if_true] at hstep
  refine (exec_done rfl hwf (by rw [hpc]; rfl) hstep).trans ?_
  simp only [State.clearIter, BitVec.zero_add, complete, consumedState, State.wrote, State.afterWrite]
  rfl

theorem pollBudget_succ {s : State} (h : s.cfg.pollBudget ≠ 0#32) : ∃ n, s.cfg.pollBudget.toNat = n + 1 :=
  Nat.exists_eq_succ_of_ne_zero fun h0 => h (BitVec.eq_of_toNat_eq h0)

/-- The rest of a look that found no entry, where the fatal bit is watched and is set. -/
theorem noMatch_fatal {c : NvmeCtx} {csts : Word} {s : State} (hcheck : s.cfg.nvmeCheckCfs = true)
    (hfit : c.reg 0x1C + 4 ≤ addrSpace) (hcsts : Reads32 (tick s) (c.reg 0x1C) csts)
    (hfatal : csts.getLsbD 1 = true) :
    noMatch c s = raiseDevice csts (leak { tick s with log := rd32 (c.reg 0x1C) csts :: s.log }) := by
  rw [noMatch, if_pos hcheck, mmioRead_of hfit, bind_go, busValue_known .w32 hcsts, afterRead_known .w32 hcsts,
    trunc_word, ctrlFatal_word, if_pos hfatal, word_setWidth]
  rfl

/-- The same where the bit is clear: the round is counted. -/
theorem noMatch_watched {c : NvmeCtx} {csts : Word} {s : State} (hcheck : s.cfg.nvmeCheckCfs = true)
    (hfit : c.reg 0x1C + 4 ≤ addrSpace) (hcsts : Reads32 (tick s) (c.reg 0x1C) csts)
    (hfatal : csts.getLsbD 1 = false) :
    noMatch c s = .go () ({ tick s with log := rd32 (c.reg 0x1C) csts :: s.log } : State).bumpIter := by
  rw [noMatch, if_pos hcheck, mmioRead_of hfit, bind_go, busValue_known .w32 hcsts, afterRead_known .w32 hcsts,
    trunc_word, ctrlFatal_word, hfatal, if_neg Bool.false_ne_true]
  rfl

/-- A look that finds an old or foreign entry and then sees the fatal bit. -/
theorem nvmePollRounds_fatal {c : NvmeCtx} {old csts : Word} {s : State} (n : Nat) (hq : s.script = [])
    (hhead : c.head + 16 ≤ s.cfg.memEnd) (hold : holds s (c.head + 12) (leBytes 4 old.toNat))
    (hforeign : old.extractLsb' 16 1 ≠ c.qp.phase ∨ old.extractLsb' 0 16 ≠ s.x.cid)
    (hcheck : s.cfg.nvmeCheckCfs = true) (hfit : c.reg 0x1C + 4 ≤ addrSpace)
    (hcsts : Reads32 s (c.reg 0x1C) csts) (hfatal : csts.getLsbD 1 = true) :
    nvmePollRounds c (n + 1) s = raiseDevice csts (leak
      { s with log := rd32 (c.reg 0x1C) csts :: .load (c.head + 12) 4 :: s.log }) := by
  have hload := loadDword_holds (a := c.head + 12) (s := s) (by omega) (by rw [tick_quiet hq]; exact hold)
  rw [tick_quiet hq] at hload
  have hrest := noMatch_fatal (c := c) (s := { s with log := .load (c.head + 12) 4 :: s.log }) hcheck hfit
    (by rw [tick_quiet (by exact hq)]; exact hcsts) hfatal
  rw [tick_quiet (by exact hq)] at hrest
  rw [nvmePollRounds, hload, bind_go, foreign_of hforeign, if_neg Bool.false_ne_true, hrest]
  rfl

/-- Settles O40: the failed entry, and the fatal bit. -/
theorem nvmePollDeviceErrors : Obligations.NvmePollDeviceErrors := by
  intro r s c hpc hwf hq hs hbudget hhead
  obtain ⟨n, hn⟩ := pollBudget_succ hbudget
  have hrounds := nvmePoll_rounds hs
  rw [hn] at hrounds
  refine ⟨fun e hdoor hentry hanswers hstatus => ?failed,
    fun old csts hold hforeign hcheck hfit hcsts hfatal => ?fatal⟩
  case failed =>
    have hround := pollRound_own (n := n) (s := (s.acceptedMicro 0x42#8 r).clearIter) hhead hdoor
      (by rw [tick_quiet (by exact hq)]; exact hentry) (congrArg List.tail hq) hanswers
    rw [tick_quiet (by exact hq)] at hround
    have hstep := hrounds.trans hround
    simp only [if_neg hstatus] at hstep
    exact exec_failed rfl hwf (by rw [hpc]; rfl) hstep
  case fatal =>
    exact exec_failed rfl hwf (by rw [hpc]; rfl) (hrounds.trans
      (nvmePollRounds_fatal (s := (s.acceptedMicro 0x42#8 r).clearIter) n hq hhead hold hforeign hcheck hfit hcsts hfatal))

/-- Steps of the devices look at no working register. -/
theorem ticks_x (n : Nat) (s : State) (x : Regs) : ticks n { s with x := x } = { ticks n s with x := x } := by
  induction n generalizing s with
  | zero => rfl
  | succ n ih => exact ih (tick s)

/-- Steps of the devices change no entry of a command. -/
theorem ticks_tags (n : Nat) (s : State) : (ticks n s).leaked = s.leaked ∧ (ticks n s).inflight = s.inflight := by
  induction n generalizing s with
  | zero => exact ⟨rfl, rfl⟩
  | succ n ih => exact ih (tick s)

/-- The registers an NVME.POLL starts its looks with. -/
def pollRegs (r : Request) (x : Regs) : Regs := { loadedMicro 0x42#8 r x with iter := 0#32 }

/-- A poll that times out after `n` steps of the devices. -/
theorem exec_nvmePoll_out {r : Request} {s : State} {c : NvmeCtx} {n : Nat} {l : List BusEvent}
    (hpc : s.pc = .issued) (hwf : (Instr.nvmePoll r).WellFormed) (hs : EntryOn s r.dev (r.arg.getLsbD 11) c)
    (hrounds : nvmePollRounds c s.cfg.pollBudget.toNat { s with x := pollRegs r s.x } = timeOut
      { ticks n { s with x := pollRegs r s.x } with
        x := { pollRegs r s.x with iter := (pollRegs r s.x).iter + BitVec.ofNat 32 s.cfg.pollBudget.toNat }
        log := l }) :
    exec (.nvmePoll r) s = .next (respond false
      { ticks n s with
        pc := .timedOut
        x := { loadedMicro 0x42#8 r s.x with iter := s.cfg.pollBudget, res := 5#8 }
        inflight := none
        leaked := s.leaked ++ s.inflight.toList
        log := l }) := by
  obtain ⟨hleaked, hinflight⟩ := ticks_tags n s
  refine (exec_failed rfl hwf (by rw [hpc]; rfl) ((nvmePoll_rounds hs).trans hrounds)).trans ?_
  rw [ticks_x, ← hleaked, ← hinflight, pollRegs, ofNat_budget]
  rfl

/-- Settles O41: no look finds the command's entry, whatever the devices do. -/
theorem nvmePollForeignEntry : Obligations.NvmePollForeignEntry := by
  intro r s c d3 csts hpc hwf hs hhead hforeign
  refine ⟨fun hcheck hentry => ?unwatched, fun hcheck hfit hentry => ?watched⟩
  case unwatched =>
    refine exec_nvmePoll_out hpc hwf hs (nvmePollRounds_out _ { s with x := pollRegs r s.x } d3 hhead
      (fun k hk => ?_) hcheck hforeign)
    rw [ticks_x]
    exact hentry k hk
  case watched =>
    refine exec_nvmePoll_out hpc hwf hs (nvmePollRounds_out_watched _ { s with x := pollRegs r s.x } d3 csts hhead
      (fun k hk => ?_) hcheck hforeign hfit fun k hk => ?_)
    · rw [ticks_x]
      exact (hentry k hk).1
    · rw [ticks_x]
      exact (hentry k hk).2

/-! ## NVME.CMD -/

/-- What a ready controller is ready for does not depend on the working registers. -/
theorem nvmeReady_with {s : State} {ident : Bool} {dev : Byte} {adm : Bool} {buf : Quad} {len : Nat} {c : NvmeCtx}
    {csts : Word} (x : Regs) (h : NvmeReady s ident dev adm buf len c csts) :
    NvmeReady { s with x := x } ident dev adm buf len c csts :=
  ⟨h.queue, h.window, h.status, h.shows, h.ready, h.size, h.tail, h.head, h.notFull,
    ⟨h.fits.arena, h.fits.aligned, h.fits.fits, h.fits.maximum, h.fits.onePage⟩, h.pollBudget⟩

/-- Settles O42: the five parts of the command, one after the other. -/
theorem nvmeCmdCompletes : Obligations.NvmeCmdCompletes := by
  intro r s c csts data e hpc hwf hready hq hanswers hstatus
  exact exec_done rfl hwf hpc (nvmeCmdStep_run (a := s.acceptedMicro 0x43#8 r) rfl (nvmeReady_with _ hready)
    (argFlg_adm r) (by rw [accepted_raw]; rfl) hq hanswers hstatus)

/-! ## The completion row (30_encoding.md R125; log 12) -/

section Row

variable {s : State} {c : NvmeCtx} {e : Cqe}

/-- A look at an entry of the command. -/
theorem lookAt_own {adm : Bool} (hs : EntryOn s s.x.dev adm c) (hf : s.x.flg.getLsbD 2 = adm)
    (hmatch : cqeMatches c.qp.phase s.x.cid e.dw3 = true) :
    lookAt e s = (consume c e.dw2 (cqeStatus e.dw3) s).bind fun _ s => .go true s := by
  rw [lookAt, nvmeSlot_of hs rfl hf, bind_go, if_pos hmatch]

/-- A look at any other. -/
theorem lookAt_other {adm : Bool} (hs : EntryOn s s.x.dev adm c) (hf : s.x.flg.getLsbD 2 = adm)
    (hmatch : cqeMatches c.qp.phase s.x.cid e.dw3 = false) :
    lookAt e s = (noMatch c s).bind fun _ s => .go false s := by
  rw [lookAt, nvmeSlot_of hs rfl hf, bind_go, hmatch, if_neg Bool.false_ne_true]

/-- Phase and identifier decide whether an entry is the command's own. -/
theorem cqeMatches_own (hphase : e.phase = c.qp.phase) (hcid : e.cid = s.x.cid) :
    cqeMatches c.qp.phase s.x.cid e.dw3 = true := by
  rw [cqeMatches, cqePhase_dw3, cqeCid_dw3, hphase, hcid, beq_self_eq_true, beq_self_eq_true]
  rfl

theorem cqeMatches_other (h : e.phase ≠ c.qp.phase ∨ e.cid ≠ s.x.cid) :
    cqeMatches c.qp.phase s.x.cid e.dw3 = false := by
  rw [cqeMatches, cqePhase_dw3, cqeCid_dw3]
  rcases h with h | h
  · rw [beq_false_of_ne h, Bool.false_and]
  · rw [beq_false_of_ne h, Bool.and_false]

theorem execCqe_done {t : State} (hpc : s.pc = .issued) (h : lookAt e s = .go true t) :
    exec (.cqe e) s = .next (respond false { t with x := { t.x with res := 0#8 } }) := by
  show execCqe e s = _
  rw [execCqe, if_pos hpc, h]
  rfl

theorem execCqe_round {t : State} (hpc : s.pc = .issued) (h : lookAt e s = .go false t) :
    exec (.cqe e) s = .next t := by
  show execCqe e s = _
  rw [execCqe, if_pos hpc, h]

theorem execCqe_failed {t : State} (hpc : s.pc = .issued) (h : lookAt e s = .stop t) :
    exec (.cqe e) s = .next (respond false t) := by
  show execCqe e s = _
  rw [execCqe, if_pos hpc, h]
  rfl

theorem execCqe_refused {f : Refusal} (hpc : s.pc = .issued) (h : lookAt e s = .refuse f) :
    exec (.cqe e) s = .refused f := by
  show execCqe e s = _
  rw [execCqe, if_pos hpc, h]

end Row

/-- Settles O60: the command's own entry, one with a bad head, and one of another command. -/
theorem completionRow : Obligations.CompletionRow := by
  intro s c e hpc hs
  refine ⟨fun hdoor hanswers => ?own, fun hphase hcid hbad => ?badHead, fun hother => ?other⟩
  case own =>
    have hlook := lookAt_own hs rfl (matches_of hanswers)
    rw [consume_run hdoor hanswers.sqHead] at hlook
    refine ⟨fun hstatus => ?_, fun hstatus => ?_⟩
    · rw [if_pos hstatus, bind_go] at hlook
      exact execCqe_done hpc hlook
    · rw [if_neg hstatus] at hlook
      exact execCqe_failed hpc hlook
  case badHead =>
    have hlook := lookAt_own hs rfl (cqeMatches_own hphase hcid)
    have hhead : decide ((cqeSqHead e.dw2).toNat < c.qp.qSize) = false := by
      rw [cqeSqHead_dw2]; exact decide_eq_false (Nat.not_lt.mpr hbad)
    rw [consume, hhead] at hlook
    exact execCqe_refused hpc hlook
  case other =>
    have hlook := lookAt_other hs rfl (cqeMatches_other hother)
    refine ⟨fun hcheck => ?_, fun csts hcheck hfit hcsts => ⟨fun hfatal => ?_, fun hfatal => ?_⟩⟩
    · rw [noMatch, hcheck, if_neg Bool.false_ne_true, bind_go] at hlook
      exact execCqe_round hpc hlook
    · rw [noMatch_fatal hcheck hfit hcsts hfatal] at hlook
      exact execCqe_failed hpc hlook
    · rw [noMatch_watched hcheck hfit hcsts hfatal, bind_go] at hlook
      exact execCqe_round hpc hlook

end Sys2Proof.Proofs

/-!
SUPPORT. The identify and string decoder (46_identify_decoder.md): the strings, the loads of a payload that stands in
memory, and the operations. The proofs of O48 to O52.
-/

namespace Sys2Proof.Proofs

open Sys2Proof Sys2Proof.Machine Sys2Proof.Laws

/-! ## Strings (R281) -/

theorem swapPairs_length (l : List Byte) : (swapPairs l).length = l.length := by
  induction l using swapPairs.induct with
  | case1 a b rest ih => simp [swapPairs, ih]
  | case2 l h => rw [swapPairs]; exact h

/-- In each word the two bytes change places. -/
theorem swapPairs_getElem? {raw : List Byte} {m : Nat} (hlen : raw.length = 2 * m) {i : Nat} (hi : i < m) :
    (swapPairs raw)[2 * i]? = raw[2 * i + 1]? ∧ (swapPairs raw)[2 * i + 1]? = raw[2 * i]? := by
  induction m generalizing raw i with
  | zero => omega
  | succ m ih =>
    match raw, hlen with
    | a :: b :: rest, hlen =>
      cases i with
      | zero => exact ⟨rfl, rfl⟩
      | succ i =>
        have hrest : rest.length = 2 * m := by simp at hlen; omega
        exact ih hrest (Nat.lt_of_succ_lt_succ hi)

/-- A string is its trimmed part and trailing spaces. -/
theorem trim_split (l : List Byte) :
    ∃ kept spaces : List Byte, l = kept ++ spaces ∧ trimLen l = kept.length ∧ (∀ b ∈ spaces, b = 0x20#8) ∧
      ∀ b, kept.getLast? = some b → b ≠ 0x20#8 := by
  refine ⟨(l.reverse.dropWhile (· == 0x20#8)).reverse, (l.reverse.takeWhile (· == 0x20#8)).reverse, ?_, ?_, ?_, ?_⟩
  · rw [← List.reverse_append, List.takeWhile_append_dropWhile, List.reverse_reverse]
  · rw [List.length_reverse]; rfl
  · intro b hb
    have hspace := List.mem_takeWhile_imp (p := (· == 0x20#8)) (List.mem_reverse.mp hb)
    exact beq_iff_eq.mp hspace
  · intro b hb hspace
    rw [List.getLast?_reverse] at hb
    have hhead := List.head?_dropWhile_not (· == 0x20#8) l.reverse
    rw [hb, hspace] at hhead
    cases hhead

/-- The trimmed string keeps its length: it is filled up with zeros. -/
theorem trimmed_length {l : List Byte} (h : trimLen l ≤ l.length) : (trimmed l).length = l.length := by
  rw [trimmed, List.length_append, List.length_take, zeros_length]
  omega

theorem trimLen_le (l : List Byte) : trimLen l ≤ l.length := by
  obtain ⟨kept, spaces, hl, hlen, -⟩ := trim_split l
  rw [hlen, hl, List.length_append]
  omega

theorem trimmed_kept (l : List Byte) {j : Nat} (hj : j < trimLen l) : (trimmed l)[j]? = l[j]? := by
  have := trimLen_le l
  rw [trimmed, List.getElem?_append_left (by rw [List.length_take]; omega), List.getElem?_take_of_lt hj]

theorem trimmed_filled (l : List Byte) {j : Nat} (hlow : trimLen l ≤ j) (hj : j < l.length) :
    (trimmed l)[j]? = some 0#8 := by
  have hlen : (l.take (trimLen l)).length = trimLen l := by
    rw [List.length_take]; exact Nat.min_eq_left (trimLen_le l)
  rw [trimmed, List.getElem?_append_right (by rw [hlen]; exact hlow), hlen, zeros, List.getElem?_replicate,
    if_pos (by omega)]

/-- Settles O49: the swap word by word, and the trimmed string as what it keeps and what it leaves out. -/
theorem stringDecoding : Obligations.StringDecoding := by
  intro raw m hlen
  have hswap : (swapPairs raw).length = 2 * m := (swapPairs_length raw).trans hlen
  obtain ⟨kept, spaces, hsplit, htrim, hspaces, hlast⟩ := trim_split (swapPairs raw)
  have hle := trimLen_le (swapPairs raw)
  refine ⟨hswap, fun i hi => swapPairs_getElem? hlen hi, ?_, fun j hlow hj => ?_, fun hpos hspace => ?_, ?_,
    fun j hj => trimmed_kept _ hj, fun j hlow hj => trimmed_filled _ hlow (by omega)⟩
  · rw [strLen, ← hswap]; exact hle
  · rw [strLen, htrim] at hlow
    rw [hsplit, List.getElem?_append_right hlow]
    have hin : j - kept.length < spaces.length := by
      rw [hsplit, List.length_append] at hswap; omega
    rw [List.getElem?_eq_getElem hin, hspaces _ (List.getElem_mem hin)]
  · rw [strLen, htrim] at hpos hspace
    rw [hsplit, List.getElem?_append_left (by omega), ← List.getLast?_eq_getElem?] at hspace
    exact hlast _ hspace rfl
  · rw [decodeStr, trimmed_length hle, hswap]

/-! ## Loads of a payload that stands in memory -/

/-- The 512 bytes `bs` stand at `p`, within system memory, and the devices take no step. -/
def Standing (s : State) (p : Nat) (bs : List Byte) : Prop :=
  bs.length = 512 ∧ holds s p bs ∧ p + 512 ≤ s.cfg.memEnd ∧ Quiet s

theorem standing_of {s : State} {p : Nat} {bs : List Byte} (h : PayloadAt s p bs) (hq : Quiet s) : Standing s p bs :=
  ⟨h.length, h.holds, h.inSpace, hq⟩

section Payload

variable {s : State} {p : Nat} {bs : List Byte}

theorem read_standing (h : Standing s p bs) {off n : Nat} (hfit : off + n ≤ 512) :
    s.mem.read (p + off) n = (bs.drop off).take n := by
  obtain ⟨hlen, hbs, -, -⟩ := h
  refine read_eq.mpr ⟨by rw [List.length_take, List.length_drop]; omega, fun i hi => ?_⟩
  rw [List.getElem?_take_of_lt hi, List.getElem?_drop, Nat.add_assoc]
  exact hbs _ (by omega)

theorem loadWords_standing (h : Standing s p bs) {w n : Nat} (hfit : w + n ≤ 256) :
    loadWords p w n s =
      .go (field bs (2 * w) (2 * n)) { s with log := byteLoads (p + 2 * w) (2 * n) ++ s.log } := by
  have hspace := h.2.2.1
  rw [loadWords, bind_of (loadBytes_quiet (by omega) h.2.2.2), read_standing h (by omega)]
  rfl

theorem loadBit_standing (h : Standing s p bs) (b : BitPos) :
    loadBit p b s = .go (bitAt bs b) { s with log := byteLoads (p + 2 * b.word.toNat) 2 ++ s.log } := by
  have hword := b.word.isLt
  rw [loadBit, bind_of (loadWords_standing h (n := 1) (by omega))]
  rfl

theorem loadField_standing (h : Standing s p bs) {w n : Nat} (hfit : w + n ≤ 256) :
    loadField p w n s =
      .go (swapPairs ((bs.drop (2 * w)).take (2 * n))) { s with log := fieldLoads p w n ++ s.log } := by
  have hspace := h.2.2.1
  rw [loadField_quiet (by omega) h.2.2.2, read_standing h (by omega)]

/-- The clamp of R284 on a count of 64 bits. -/
theorem clampCap_eq (c : Params) (v : Nat) :
    clampCap c v = if v < 4294967296 then BitVec.ofNat 64 v else c.capClamp := by
  rw [clampCap]
  by_cases hv : v < 4294967296
  · rw [if_neg (not_not_intro (Nat.div_eq_of_lt hv)), if_pos hv]
  · rw [if_pos (Nat.div_ne_zero_iff.mpr (by omega)), if_neg hv]

theorem capStep_standing (h : Standing s p bs) :
    capStep p s = .go (sectorsOf s.cfg bs)
      { s with x := { s.x with val := sectorsOf s.cfg bs }, log := capTrace bs p ++ s.log } := by
  have hbit := loadBit_standing h { word := 83#8, bit := 10#4 }
  rw [capStep, hbit, bind_go, show bitAt bs { word := 83#8, bit := 10#4 } = bigLba bs from rfl, sectorsOf, capTrace]
  cases hbig : bigLba bs with
  | true =>
    rw [if_pos rfl, if_pos rfl, if_pos rfl,
      bind_of (loadWords_standing (bs := bs) (w := 100) (n := 4) (by exact h) (by omega)), clampCap_eq]
    simp only [State.setVal, List.append_assoc]
    rfl
  | false =>
    rw [if_neg Bool.false_ne_true, if_neg Bool.false_ne_true, if_neg Bool.false_ne_true,
      bind_of (loadWords_standing (bs := bs) (w := 60) (n := 2) (by exact h) (by omega))]
    simp only [State.setVal, List.append_assoc]
    rfl

theorem secszStep_standing (h : Standing s p bs) :
    secszStep p s = .go (sectorSizeOf s.cfg bs)
      { s with x := { s.x with val := sectorSizeOf s.cfg bs }, log := secszTrace bs p ++ s.log } := by
  rw [secszStep, bind_of (loadWords_standing h (w := 106) (n := 1) (by omega)),
    show customSize (field bs (2 * 106) (2 * 1)) = ownSize bs from rfl, sectorSizeOf, secszTrace]
  cases hown : ownSize bs with
  | true =>
    rw [if_pos rfl, if_pos rfl, if_pos rfl,
      bind_of (loadWords_standing (bs := bs) (w := 117) (n := 2) (by exact h) (by omega))]
    simp only [State.setVal, List.append_assoc]
  | false =>
    rw [if_neg Bool.false_ne_true, if_neg Bool.false_ne_true, if_neg Bool.false_ne_true]
    rfl

theorem loadIdentity_standing (h : Standing s p bs) :
    loadIdentity p s = .go (identityOf s.cfg bs)
      { s with x := { s.x with val := sectorSizeOf s.cfg bs }, log := decodeTrace s.cfg bs p ++ s.log } := by
  rw [loadIdentity, bind_of (loadField_standing h (by omega)),
    bind_of (loadField_standing (bs := bs) (by exact h) (by omega)),
    bind_of (loadField_standing (bs := bs) (by exact h) (by omega)),
    bind_of (capStep_standing (bs := bs) (by exact h)), bind_of (secszStep_standing (bs := bs) (by exact h)),
    bind_of (loadBit_standing (bs := bs) (by exact h) _), bind_of (loadBit_standing (bs := bs) (by exact h) _),
    bind_of (loadBit_standing (bs := bs) (by exact h) _), bind_of (loadBit_standing (bs := bs) (by exact h) _)]
  simp only [decodeTrace, List.append_assoc]
  rfl

/-! ## The decoder operations -/

theorem payloadValid_iff {len : Nat} : payloadValid p len = true ↔ p ≠ 0 ∧ 512 ≤ len := by
  rw [payloadValid, Bool.and_eq_true, decide_eq_true_iff, decide_eq_true_iff]

theorem payloadPremises_of (h : PayloadAt s p bs) : payloadPremises p s = .go () s := by
  rw [payloadPremises, need_of _ _ (decide_eq_true h.inSpace), bind_go, need_of _ _ h.received]

theorem idPremises_of {out n : Nat} (h : PayloadAt s p bs) (ho : OutputAt s out n) : idPremises p out n s = .go () s := by
  rw [idPremises, payloadPremises_of h, bind_go, need_of _ _ ho.owned, bind_go, need_of _ _ (decide_eq_true ho.inSpace)]

theorem idStrStep_standing {len w0 n out : Nat} (h : PayloadAt s p bs) (hq : Quiet s) (hlen : 512 ≤ len)
    (hn : 1 ≤ n) (hfit : w0 + n ≤ 256) (ho : OutputAt s out (2 * n)) :
    idStrStep p len w0 n out s = .go ()
      ((({ s with log := fieldLoads p w0 n ++ s.log } : State).storedBytes out
        (decodeStr ((bs.drop (2 * w0)).take (2 * n)))).setVal
          (BitVec.ofNat 64 (strLen ((bs.drop (2 * w0)).take (2 * n))))) := by
  have hraw : (swapPairs ((bs.drop (2 * w0)).take (2 * n))).length = 2 * n := by
    rw [swapPairs_length, List.length_take, List.length_drop, h.length]; omega
  have hstr : (trimmed (swapPairs ((bs.drop (2 * w0)).take (2 * n)))).length = 2 * n :=
    (trimmed_length (trimLen_le _)).trans hraw
  have hnonempty : trimmed (swapPairs ((bs.drop (2 * w0)).take (2 * n))) ≠ [] := fun hnil => by
    rw [hnil] at hstr; simp at hstr; omega
  rw [idStrStep, if_pos (payloadValid_iff.mpr ⟨h.notNull, hlen⟩), idPremises_of h ho, bind_go,
    bind_of (loadField_standing (standing_of h hq) hfit),
    bind_of (storeBytes_quiet hnonempty (by exact hq) (by rw [hstr]; exact ho.inSpace))]
  rfl

theorem idCapStep_standing {len : Nat} (h : PayloadAt s p bs) (hq : Quiet s) (hlen : 512 ≤ len) :
    idCapStep p len s = .go ()
      { s with x := { s.x with val := sectorsOf s.cfg bs }, log := capTrace bs p ++ s.log } := by
  rw [idCapStep, if_pos (payloadValid_iff.mpr ⟨h.notNull, hlen⟩), payloadPremises_of h, bind_go,
    bind_of (capStep_standing (standing_of h hq))]

theorem idSecszStep_standing {len : Nat} (h : PayloadAt s p bs) (hq : Quiet s) (hlen : 512 ≤ len) :
    idSecszStep p len s = .go ()
      { s with x := { s.x with val := sectorSizeOf s.cfg bs }, log := secszTrace bs p ++ s.log } := by
  rw [idSecszStep, if_pos (payloadValid_iff.mpr ⟨h.notNull, hlen⟩), payloadPremises_of h, bind_go,
    bind_of (secszStep_standing (standing_of h hq))]

/-- The fields of a record add up to its 96 bytes (R288). -/
theorem record_length (c : Params) (hlen : bs.length = 512) : (identityOf c bs).record.length = 96 := by
  have hfield (off n : Nat) (hfit : off + n ≤ 512) : (trimmed (swapPairs ((bs.drop off).take n))).length = n := by
    rw [trimmed_length (trimLen_le _), swapPairs_length, List.length_take, List.length_drop, hlen]; omega
  simp only [Identity.record, identityOf, List.length_append, leBytes_length, zeros_length,
    hfield 54 40 (by omega), hfield 20 20 (by omega), hfield 46 8 (by omega)]

theorem idDecodeStep_standing {len out : Nat} (h : PayloadAt s p bs) (hq : Quiet s) (hlen : 512 ≤ len)
    (ho : OutputAt s out 96) (hapart : disjoint (p, 512) (out, 96) = true) :
    idDecodeStep p len out s = .go () (decoded bs p out s) := by
  have hrecord := record_length s.cfg h.length
  have hnonempty : (identityOf s.cfg bs).record ≠ [] := fun hnil => by rw [hnil] at hrecord; cases hrecord
  rw [idDecodeStep, if_pos (payloadValid_iff.mpr ⟨h.notNull, hlen⟩), idPremises_of h ho, bind_go,
    need_of _ _ hapart, bind_go, bind_of (loadIdentity_standing (standing_of h hq)),
    storeBytes_quiet hnonempty (by exact hq) (by rw [hrecord]; exact ho.inSpace)]
  rfl

theorem payloadAt_accepted {r : Request} (op : Byte) (h : PayloadAt s p bs) : PayloadAt (s.accepted op r) p bs :=
  ⟨h.notNull, h.length, h.holds, h.inSpace, h.received⟩

theorem outputAt_accepted {r : Request} {out n : Nat} (op : Byte) (h : OutputAt s out n) :
    OutputAt (s.accepted op r) out n := ⟨h.inSpace, h.owned⟩

end Payload

/-- ID.STR names words of the payload, where its request names a payload (R281). -/
theorem idStr_wellFormed {r : Request} (h : r.payloadOk = true → r.strBoundsOk = true) :
    (Instr.idStr r).WellFormed := by
  show firstDefect [(!r.payloadOk || r.strBoundsOk, .strBounds)] = none
  cases hpay : r.payloadOk with
  | false => rfl
  | true => rw [h hpay]; rfl

/-- Settles O48: the field in its order of loads, then the string in its order of stores. -/
theorem idStrCompletes : Obligations.IdStrCompletes := by
  intro r s bs w0 n hlen hq hw0 hn h1 h20 hfit hpay hout
  subst hw0 hn
  have hbounds : r.strBoundsOk = true := by
    simp only [Request.strBoundsOk, Request.strCount, Request.strFirst, h1, h20, hfit, decide_true, Bool.and_self]
  exact exec_done rfl (idStr_wellFormed fun _ => hbounds) rfl
    (idStrStep_standing (payloadAt_accepted 0x60#8 hpay) hq hlen h1 hfit (outputAt_accepted 0x60#8 hout))

/-- Settles O50: the two counts, each from its own words of the payload. -/
theorem idCapSecszComplete : Obligations.IdCapSecszComplete := by
  intro r s bs hlen hq hpay
  exact ⟨exec_done (i := .idCap r) rfl rfl rfl (idCapStep_standing (payloadAt_accepted 0x61#8 hpay) hq hlen),
    exec_done (i := .idSecsz r) rfl rfl rfl (idSecszStep_standing (payloadAt_accepted 0x62#8 hpay) hq hlen)⟩

/-- Settles O51: the loads, the record of 96 bytes, and the frame of its stores. -/
theorem idDecodeCompletes : Obligations.IdDecodeCompletes := by
  intro r s bs hlen hq hpay hout hapart
  have hrecord := record_length s.cfg hpay.length
  refine ⟨exec_done rfl rfl rfl (idDecodeStep_standing (payloadAt_accepted 0x63#8 hpay) hq hlen
    (outputAt_accepted 0x63#8 hout) hapart), hrecord, fun b hb => ?_⟩
  exact byteAt_write_outside _ _ _ (by rw [accepted_cfg, hrecord]; exact hb)

/-! ## InvalidIdentifyPayload (R282) -/

/-- A null or short payload fails the test of R282. -/
theorem payloadValid_false {r : Request} (h : r.buf = 0#64 ∨ r.cnt.toNat < 512) :
    ¬ payloadValid r.buf.toNat r.cnt.toNat = true := by
  rw [payloadValid_iff]
  rintro ⟨hnull, hshort⟩
  rcases h with h | h
  · exact hnull (by rw [h]; rfl)
  · omega

theorem payloadOk_false {r : Request} (h : r.buf = 0#64 ∨ r.cnt.toNat < 512) : ¬ r.payloadOk = true := by
  simp only [Request.payloadOk, Bool.and_eq_true, bne_iff_ne, decide_eq_true_iff]
  rintro ⟨hnull, hshort⟩
  rcases h with h | h
  · exact hnull h
  · omega

/-- A decoder operation on a null or short payload: nothing but the result code changes. -/
theorem invalidPayload_decoder {r : Request} {s : State} (h : r.buf = 0#64 ∨ r.cnt.toNat < 512) :
    exec (.idStr r) s = .next (respond false { s with x := { loaded 0x60#8 r s.x with res := 7#8 } }) ∧
    exec (.idCap r) s = .next (respond false { s with x := { loaded 0x61#8 r s.x with res := 7#8 } }) ∧
    exec (.idSecsz r) s = .next (respond false { s with x := { loaded 0x62#8 r s.x with res := 7#8 } }) ∧
    exec (.idDecode r) s = .next (respond false { s with x := { loaded 0x63#8 r s.x with res := 7#8 } }) := by
  have hinvalid := payloadValid_false h
  have hwf : (Instr.idStr r).WellFormed := idStr_wellFormed fun hok => absurd hok (payloadOk_false h)
  exact ⟨exec_failed rfl hwf rfl (if_neg hinvalid), exec_failed rfl rfl rfl (if_neg hinvalid),
    exec_failed rfl rfl rfl (if_neg hinvalid), exec_failed rfl rfl rfl (if_neg hinvalid)⟩

/-- A decoder operation whose payload is neither null nor short succeeds, where it is not refused. -/
theorem decoder_succeeds {r : Request} {s t : State} (hlen : 512 ≤ r.cnt.toNat) (hbuf : r.buf ≠ 0#64)
    (h : exec (.idStr r) s = .next t ∨ exec (.idCap r) s = .next t ∨ exec (.idSecsz r) s = .next t ∨
      exec (.idDecode r) s = .next t) : t.x.res = 0#8 := by
  have hvalid : payloadValid r.buf.toNat r.cnt.toNat = true :=
    payloadValid_iff.mpr ⟨fun h0 => hbuf (BitVec.eq_of_toNat_eq h0), hlen⟩
  have hdone {i : Instr} {P : Pc → Prop} {w : Word} (hr : i.request? = some r)
      (hbody : Control (opBody i (entry i s)) P w []) (hx : exec i s = .next t) : t.x.res = 0#8 := by
    obtain ⟨-, -, ⟨u, -, rfl⟩ | ⟨u, hu, -⟩⟩ := operation_next hr hx
    · rfl
    · exact ((Control.neverEnds (E := fun _ => False) hbody).stop hu).elim
  rcases h with h | h | h | h
  · exact hdone (i := .idStr r) rfl (control_idStrStep _ _ _ hvalid) h
  · exact hdone (i := .idCap r) rfl (control_idCapStep hvalid) h
  · exact hdone (i := .idSecsz r) rfl (control_idSecszStep hvalid) h
  · exact hdone (i := .idDecode r) rfl (control_idDecodeStep _ _ hvalid (at_self _)) h

/-- IDENTIFY with a null buffer: the test comes before everything. -/
theorem identifyStep_null {s : State} {d : Dev} (hdev : s.device = .ok d) (hbuf : s.x.buf = 0#64) :
    identifyStep s = .stop (raised .invalidIdentifyPayload .idle s) := by
  rw [identifyStep, hdev, needOk_ok, bind_go, if_pos hbuf, raise_eq]

/-- IDENTIFY with a buffer does not end in InvalidIdentifyPayload: the engines do not report it. -/
theorem identify_res_ne {r : Request} {s t : State} (hbuf : r.buf ≠ 0#64) (h : exec (.identify r) s = .next t) :
    t.x.res ≠ 7#8 := by
  obtain ⟨k, hk⟩ := exists_kind s.dev r.dev.toNat
  have hengine : Err.invalidIdentifyPayload ∉ engineErrors k := by cases k <;> decide
  have hends := ends_res_ne_of_control
    (control_identifyStep_buf (s := s.accepted 0x52#8 r) hbuf hk fun _ he => he) hengine
  obtain ⟨-, -, ⟨u, -, rfl⟩ | ⟨u, hu, rfl⟩⟩ := operation_next rfl h
  · exact (code_ne_zero .invalidIdentifyPayload).symm
  · have hne := hends.stop hu
    exact hne

/-- Settles O52: the decoder operations, then IDENTIFY, each in both directions. -/
theorem invalidPayload : Obligations.InvalidPayload :=
  ⟨fun _ _ h => invalidPayload_decoder h, fun _ _ _ hlen hbuf h => decoder_succeeds hlen hbuf h,
    fun r _ _ hpc hdev hbuf => exec_failed (r := r) rfl rfl hpc (identifyStep_null (device_accepted 0x52#8 hdev) hbuf),
    fun _ _ _ hbuf h => identify_res_ne hbuf h⟩

end Sys2Proof.Proofs

/-!
SUPPORT. The block interface (45_block_api.md) as whole commands of the engines: the proofs of O43 to O46.
-/

namespace Sys2Proof.Proofs

open Sys2Proof Sys2Proof.Machine Sys2Proof.Laws

/-! ## READ_BLOCKS and WRITE_BLOCKS -/

section BlockStep

variable {s : State} {d : Dev} (wr : BitVec 1) (ata opc : Byte)

/-- In range, a block operation is one whole command of the device's engine. -/
theorem blockStep_ahci (hdev : s.device = .ok d) (hkind : d.kind = .ahci) (hin : outOfRange d.capacity s.x = false)
    (hlba : s.x.lba.toNat < 281474976710656) :
    blockStep wr ata opc s = ahciCmdStep (s.setCommand wr 0#4 ata) := by
  rw [blockStep, hdev, needOk_ok, bind_go, hin, if_neg Bool.false_ne_true, hkind]
  exact (congrArg (Flow.bind · _) (need_of _ _ (decide_eq_true hlba))).trans (bind_go ..)

theorem blockStep_nvme (hdev : s.device = .ok d) (hkind : d.kind = .nvme) (hin : outOfRange d.capacity s.x = false) :
    blockStep wr ata opc s = nvmeCmdStep (s.setCommand wr 0#4 opc) := by
  rw [blockStep, hdev, needOk_ok, bind_go, hin, if_neg Bool.false_ne_true, hkind]

end BlockStep

theorem inRange_accepted {capacity : Quad} {r : Request} {s : State} (op : Byte)
    (h : r.lba.toNat + r.cnt.toNat ≤ capacity.toNat) : outOfRange capacity (s.accepted op r).x = false :=
  decide_eq_false (Nat.not_lt.mpr h)

/-- The device of a port's record is an AHCI device. -/
theorem kind_ahci {s : State} {dev : Byte} {c : AhciCtx} {d : Dev} (h : OnPort s dev c)
    (hdev : alGet s.dev dev.toNat = some d) : d.kind = .ahci := by
  obtain ⟨⟨d', hd', hkind, -⟩, -⟩ := h
  cases hdev.symm.trans hd'
  exact hkind

/-- Settles O43: the range check, then the whole command. -/
theorem blocksOnAhci : Obligations.BlocksOnAhci := by
  intro r s c d k table v data ciEnd hpc hcnt hlba hdev hin hready hq hclear
  have hkind := kind_ahci hready.port hdev
  have hwf := firstDefect_cntOk hcnt
  refine ⟨exec_done (i := .readBlocks r) rfl hwf hpc ?read, exec_done (i := .writeBlocks r) rfl hwf hpc ?write⟩
  case read =>
    refine (blockStep_ahci _ _ _ (device_accepted 0x50#8 hdev) hkind (inRange_accepted 0x50#8 hin) hlba).trans ?_
    exact ahciCmdStep_run rfl (ahciReady_with (s := s) _ hready) hlba hq hclear
  case write =>
    refine (blockStep_ahci _ _ _ (device_accepted 0x51#8 hdev) hkind (inRange_accepted 0x51#8 hin) hlba).trans ?_
    exact ahciCmdStep_run rfl (ahciReady_with (s := s) _ hready) hlba hq hclear

/-- A command with no flag set transfers whole blocks. -/
theorem transferLength_blocks (cnt : Half) (d : Dev) :
    cnt.toNat * d.blockBytes = transferLength ((0#4).getLsbD 1) cnt d := by
  rw [show (0#4).getLsbD 1 = false from rfl, transferLength, if_neg Bool.false_ne_true]

/-- Settles O44: the range check, then the whole command on the I/O queue pair. -/
theorem blocksOnNvme : Obligations.BlocksOnNvme := by
  intro r s c csts data e hpc hcnt hin hready hq hanswers hstatus
  obtain ⟨hdev, hkind, -⟩ := hready.queue
  have hwf := firstDefect_cntOk hcnt
  have hadm : (0#4).getLsbD 2 = false := rfl
  refine ⟨exec_done (i := .readBlocks r) rfl hwf hpc ?read, exec_done (i := .writeBlocks r) rfl hwf hpc ?write⟩
  case read =>
    refine (blockStep_nvme _ _ _ (device_accepted 0x50#8 hdev) hkind (inRange_accepted 0x50#8 hin)).trans ?_
    exact nvmeCmdStep_run rfl (nvmeReady_with (s := s) _ hready) hadm (transferLength_blocks _ _) hq hanswers hstatus
  case write =>
    refine (blockStep_nvme _ _ _ (device_accepted 0x51#8 hdev) hkind (inRange_accepted 0x51#8 hin)).trans ?_
    exact nvmeCmdStep_run rfl (nvmeReady_with (s := s) _ hready) hadm (transferLength_blocks _ _) hq hanswers hstatus

/-! ## IDENTIFY -/

/-- IDENTIFY with a buffer, by the kind of the device. -/
theorem identifyStep_ahci {s : State} {d : Dev} (hdev : s.device = .ok d) (hkind : d.kind = .ahci)
    (hbuf : s.x.buf ≠ 0#64) : identifyStep s = identifyAhci s.x.lba s := by
  rw [identifyStep, hdev, needOk_ok, bind_go, if_neg hbuf, hkind]

theorem identifyStep_nvme {s : State} {d : Dev} (hdev : s.device = .ok d) (hkind : d.kind = .nvme)
    (hbuf : s.x.buf ≠ 0#64) : identifyStep s = identifyNvme s := by
  rw [identifyStep, hdev, needOk_ok, bind_go, if_neg hbuf, hkind]

section Payload

variable {s : State} {c : AhciCtx} {k : Nat} {table : Quad} {v : PortView} {payload : List Byte} {ciEnd : Word}

/-- A device that transfers its payload into the buffer of a command leaves it there for the decoder. -/
theorem payloadAt_ahciDone {ident : Bool} {a : Nat} (hnull : a ≠ 0) (hlen : payload.length = 512)
    (hb : BufferFits s ident a 512) : PayloadAt (ahciDone c k table v (cells a payload) ciEnd s) a payload := by
  obtain ⟨hspace, hapart⟩ := hb
  refine ⟨hnull, hlen, fun i hi => ?_, hspace, ?_⟩
  · exact byteAt_dma_inside a payload _ (by rw [hlen]; exact hspace) hi
  · simp only [State.bufferApart, State.deviceOwned, List.all_append, Bool.and_eq_true] at hapart
    obtain ⟨-, -, hreceived⟩ := hapart
    exact hreceived

/-- The end of a command gives the output of the decoder no new owner. -/
theorem outputAt_ahciDone {data : List Host.Cell} {out n : Nat} (hspace : out + n ≤ s.cfg.memEnd)
    (hapart : s.outputApart out n = true) : OutputAt (ahciDone c k table v data ciEnd s) out n := by
  refine ⟨hspace, ?_⟩
  simp only [State.outputApart, State.deviceOwned, List.all_append, List.flatMap_append, Bool.and_eq_true]
    at hapart ⊢
  obtain ⟨⟨⟨⟨-, hleaked⟩, hrings⟩, hreceived⟩, hcompletion⟩ := hapart
  exact ⟨⟨⟨⟨rfl, hleaked⟩, hrings⟩, hreceived⟩, hcompletion⟩

end Payload

/-- Settles O45: the command of one sector, then the decoder on what the device has transferred. -/
theorem identifyOnAhci : Obligations.IdentifyOnAhci := by
  intro r s c k table v payload ciEnd hpc hbuf hready hlen hq hclear hspace hdisjoint hapart
  obtain ⟨d, hdev, hkind, -⟩ := hready.port.1
  have hnull : r.buf.toNat ≠ 0 := fun h0 => hbuf (BitVec.eq_of_toNat_eq h0)
  refine exec_done (i := .identify r) rfl rfl hpc ?_
  refine (identifyStep_ahci (device_accepted 0x52#8 hdev) hkind hbuf).trans ?_
  have hcmd := ahciCmdStep_run
    (a := ((s.accepted 0x52#8 r).setCommand 0#1 flgNoLba s.cfg.ataCmdIdentify).setTransfer 1#16 0#64)
    rfl (ahciReady_with (s := s) _ hready) (Nat.zero_lt_succ _) hq hclear
  refine (bind_of hcmd).trans ?_
  exact idDecodeStep_standing (payloadAt_ahciDone hnull hlen hready.fits.fits) rfl (by decide)
    (outputAt_ahciDone hspace hapart) hdisjoint

/-- The identify buffer begins a page. -/
theorem identifyAligned_of {s : State} {c : NvmeCtx} (hctx : s.nvmeCtxOf true = .ok c)
    (hpage : s.x.buf.toNat % c.nv.pageBytes = 0) : identifyAligned s = true := by
  rw [identifyAligned, hctx]
  exact (congrArg _ (beq_iff_eq.mpr hpage)).trans (Bool.or_true _)

/-- Settles O46: one raw command on the admin queue pair, whichever `CNS` it carries. -/
theorem identifyOnNvme : Obligations.IdentifyOnNvme := by
  intro r s c csts data e hpc hbuf hpage hready hq hanswers hstatus
  obtain ⟨hdev, hkind, -⟩ := hready.queue
  have haligned := identifyAligned_of (s := s.accepted 0x52#8 r) (nvmeCtxOf_of hready.queue rfl) hpage
  have hflags {b : Prop} [Decidable b] : (if b then flgRawAdmNs else flgRawAdm).getLsbD 2 = true ∧
      (if b then flgRawAdmNs else flgRawAdm).getLsbD 1 = true := by split <;> exact ⟨rfl, rfl⟩
  refine exec_done (i := .identify r) rfl rfl hpc ?_
  refine (identifyStep_nvme (device_accepted 0x52#8 hdev) hkind hbuf).trans ?_
  rw [identifyNvme, need_of _ _ haligned, bind_go]
  refine nvmeCmdStep_run rfl (nvmeReady_with (s := s) _ hready) hflags.1 ?_ hq hanswers hstatus
  rw [transferLength]
  exact (if_pos hflags.2).symm

end Sys2Proof.Proofs

/-!
SUPPORT. Recognition, and the AHCI side of bring-up (47_system_ops.md): the proofs of O53 to O56.
-/

namespace Sys2Proof.Proofs

open Sys2Proof Sys2Proof.Machine Sys2Proof.Laws

/-! ## PROBE (R300) -/

/-- The class triple of a request whose upper eight bits are zero is the whole of `ARG`. -/
theorem classTriple_eq {a : Word} (h : a.toNat < 16777216) (t : BitVec 24) :
    a.extractLsb' 0 24 = t ↔ a = t.setWidth 32 := by
  have ht := t.isLt
  rw [← BitVec.toNat_inj, ← BitVec.toNat_inj, BitVec.extractLsb'_toNat, Nat.shiftRight_zero, BitVec.toNat_setWidth]
  omega

theorem classCode_eq {a : Word} (h : a.toNat < 16777216) :
    classCode (a.extractLsb' 0 24) =
      if a = 0x010601#32 then 1#64 else if a = 0x010802#32 then 2#64 else 0#64 := by
  simp only [classCode, classTriple_eq h]
  rfl

/-- Settles O53: the triple of a request that is admitted, and the one check it has to pass. -/
theorem probeCompletes : Obligations.ProbeCompletes := by
  intro r s
  refine ⟨fun hlow => ?admitted, fun hhigh => ?refused⟩
  case admitted =>
    have hwf : (Instr.probe r).WellFormed := by
      show firstDefect [(r.probeArgOk, .argReserved)] = none
      rw [show r.probeArgOk = true from decide_eq_true hlow]
      rfl
    refine (exec_done (i := .probe r) rfl hwf rfl rfl).trans ?_
    rw [← classCode_eq hlow]
    rfl
  case refused =>
    have hdefect : (Instr.probe r).defect? = some .argReserved := by
      show firstDefect [(r.probeArgOk, .argReserved)] = _
      rw [show r.probeArgOk = false from decide_eq_false (Nat.not_lt.mpr hhigh)]
      rfl
    exact operation_defect hdefect

/-! ## SIG.CLASS (R302) -/

theorem devicePresent_word (v : Word) :
    devicePresent (v.setWidth 64) = true ↔ v.extractLsb' 0 4 = 3#4 ∧ v.extractLsb' 8 4 = 1#4 := by
  have hpart {k : Nat} (hk : k + 4 ≤ 32) : (v.setWidth 64).extractLsb' k 4 = v.extractLsb' k 4 := by
    ext i hi
    have hlt : k + i < 64 := by omega
    simp [hlt]
  rw [devicePresent, hpart (by decide), hpart (by decide), Bool.and_eq_true, beq_iff_eq, beq_iff_eq]

/-- `PxSIG` is read only where `PxSSTS` shows a device. -/
theorem sigClassStep_quiet {s : State} {c : AhciCtx} {ssts sig : Word} (hq : Quiet s) (hctx : s.ahciCtx = .ok c)
    (hb : c.block + 0x80 ≤ addrSpace) (hssts : Reads32 s (c.portReg 0x28) ssts)
    (hsig : Reads32 s (c.portReg 0x24) sig) :
    sigClassStep s =
      if ssts.extractLsb' 0 4 = 3#4 ∧ ssts.extractLsb' 8 4 = 1#4 then
        .go () ({ s with log := rd32 (c.portReg 0x24) sig :: rd32 (c.portReg 0x28) ssts :: s.log }.setVal
          (signatureClass sig))
      else .go () ({ s with log := rd32 (c.portReg 0x28) ssts :: s.log }.setVal 0#64) := by
  rw [sigClassStep, hctx, needOk_ok, bind_go, mmioRead_word (portReg_fits hb (by decide)) hq hssts, bind_go]
  simp only [devicePresent_word]
  by_cases hpresent : ssts.extractLsb' 0 4 = 3#4 ∧ ssts.extractLsb' 8 4 = 1#4
  · rw [if_pos hpresent, if_pos hpresent, mmioRead_word (portReg_fits hb (by decide)) (by exact hq) (by exact hsig),
      bind_go, word_setWidth]
  · rw [if_neg hpresent, if_neg hpresent]

/-- Settles O54: with a device, and without one. -/
theorem sigClassCompletes : Obligations.SigClassCompletes := by
  intro r s c ssts sig hq hport hb hssts hsig
  have hstep := sigClassStep_quiet (s := s.accepted 0x71#8 r) hq (ahciCtx_of hport rfl) hb hssts hsig
  split
  case isTrue hpresent =>
    rw [if_pos hpresent] at hstep
    exact exec_done (i := .sigClass r) rfl rfl rfl hstep
  case isFalse habsent =>
    rw [if_neg habsent] at hstep
    exact exec_done (i := .sigClass r) rfl rfl rfl hstep

/-! ## AHCI.INIT (R303) -/

/-- A 32-bit write to a register that keeps what is written, while the devices' next step, if any, does nothing. -/
theorem mmioWrite_word_still {a : Nat} {v : Word} {s : State} (hq : ∀ act ∈ s.script.take 1, act = {})
    (hfit : a + 4 ≤ addrSpace) (hk : s.regKind a = .stored) :
    mmioWrite .w32 a (v.setWidth 64) s = .go ()
      { s with script := s.script.drop 1, regs := alSet s.regs a (v.setWidth 64), log := wr32 a v :: s.log } := by
  rw [mmioWrite_of hfit, tick_still hq, afterWrite_stored (by exact hk), trunc_word]
  rfl

/-- The same while the devices take no step. -/
theorem mmioWrite_word_quiet {a : Nat} {v : Word} {s : State} (hq : Quiet s) (hfit : a + 4 ≤ addrSpace)
    (hk : s.regKind a = .stored) :
    mmioWrite .w32 a (v.setWidth 64) s = .go ()
      { s with regs := alSet s.regs a (v.setWidth 64), log := wr32 a v :: s.log } := by
  rw [mmioWrite_stored hq hfit hk, trunc_word]
  rfl

/-- AHCI.INIT from the end of its wait on. -/
def ahciInitEnd (c : AhciCtx) (s : State) : Flow Unit :=
  (mmioWrite .w32 (c.hbaReg 0x04) 0x80000000#64 s).bind fun _ s =>
  (mmioRead .w32 (c.hbaReg 0x00) s).bind fun cap s =>
  (mmioRead .w32 (c.hbaReg 0x0C) s).bind fun pi s =>
  .go () (settle
    ((forget (s.portOf c.port.hba) (setHba c.port.hba (c.hba.enabled cap pi) s)).setVal ((word pi).setWidth 64)))

section Hba

variable {s : State} {c : AhciCtx}

theorem hbaReg_fits (hw : HbaWindow s c) {off : Nat} (ho : off + 4 ≤ ahciWindow) : c.hbaReg off + 4 ≤ addrSpace := by
  have := hw.1
  unfold AhciCtx.hbaReg
  omega

/-- `GHC` keeps what is written (log 3), also once the record of its HBA is another with the same base. -/
theorem regKind_ghc {t : State} {w : Hba} (hw : HbaWindow s c) (hr : rising s.hba = true)
    (hg : alGet s.hba c.port.hba = some c.hba) (hbase : w.base = c.hba.base)
    (ht : t.hba = alSet s.hba c.port.hba w) (hn : t.nvme = s.nvme) : t.regKind (c.hbaReg 0x04) = .stored := by
  refine (regKind_ahci (off := 0x04) ?_).trans rfl
  rw [ctrlAt_hba hr hg hbase ht hn]
  exact hw.2 0x04 (by decide)

/-- AHCI.INIT up to its wait, while the devices' first two steps, if any, do nothing. -/
theorem ahciInitStep_reset (hctx : s.hbaCtx = .ok c) (hg : alGet s.hba c.port.hba = some c.hba)
    (hfree : s.inflight = none) (hr : rising s.hba = true) (hw : HbaWindow s c)
    (hq : ∀ act ∈ s.script.take 2, act = {}) :
    ahciInitStep s =
      (waitFor (c.hbaReg 0x04) (fun g => !g.getLsbD 0) .controllerNotReady s.cfg.resetBudget
        { s with
          hba := alSet s.hba c.port.hba { c.hba with ready := false }
          script := s.script.drop 2
          regs := alSet s.regs (c.hbaReg 0x04) 0x80000001#64
          log := wr32 (c.hbaReg 0x04) 0x80000001#32 :: wr32 (c.hbaReg 0x04) 0x80000000#32 :: s.log }).bind
      fun _ s => ahciInitEnd c s := by
  have hfit := hbaReg_fits hw (off := 0x04) (by decide)
  have hkind {t : State} (ht : t.hba = alSet s.hba c.port.hba { c.hba with ready := false }) (hn : t.nvme = s.nvme) :=
    regKind_ghc (w := { c.hba with ready := false }) hw hr hg rfl ht hn
  have henable := mmioWrite_word_still (v := 0x80000000#32)
    (s := setHba c.port.hba { c.hba with ready := false } s) (still_one hq) hfit (hkind rfl rfl)
  have hreset := mmioWrite_word_still (v := 0x80000001#32)
    (s := { setHba c.port.hba { c.hba with ready := false } s with
      script := s.script.drop 1
      regs := alSet s.regs (c.hbaReg 0x04) ((0x80000000#32).setWidth 64)
      log := wr32 (c.hbaReg 0x04) 0x80000000#32 :: s.log }) (still_drop hq) hfit (hkind rfl rfl)
  rw [ahciInitStep, hctx, needOk_ok, bind_go, need_of _ _ (by rw [hfree]; rfl), bind_go]
  refine (bind_of henable).trans ((bind_of hreset).trans ?_)
  simp only [alSet_alSet, List.drop_drop]
  rfl

/-- AHCI.INIT from the end of its wait on, while the devices take no step. -/
theorem ahciInitEnd_quiet {t : State} {cap pi : Word} (hw : HbaWindow s c) (hk : t.regKind (c.hbaReg 0x04) = .stored)
    (hq : Quiet t) (hcap : Reads32 t (c.hbaReg 0x00) cap) (hpi : Reads32 t (c.hbaReg 0x0C) pi) :
    ahciInitEnd c t = .go () (settle
      { forget (t.portOf c.port.hba) t with
        x := { t.x with val := pi.setWidth 64 }
        hba := alSet t.hba c.port.hba
          { c.hba with nSlots := (cap.extractLsb' 8 5).setWidth 6 + 1#6, pi := pi, ready := true }
        regs := alSet t.regs (c.hbaReg 0x04) 0x80000000#64
        log := rd32 (c.hbaReg 0x0C) pi :: rd32 (c.hbaReg 0x00) cap :: wr32 (c.hbaReg 0x04) 0x80000000#32 :: t.log }) := by
  have hne {off : Nat} (ho : off ≠ 0x04) : c.hbaReg off ≠ c.hbaReg 0x04 := by unfold AhciCtx.hbaReg; omega
  have hkeep {off : Nat} {v w : Quad} (ho : off ≠ 0x04) (hv : alGet t.regs (c.hbaReg off) = some v) :
      alGet (alSet t.regs (c.hbaReg 0x04) w) (c.hbaReg off) = some v := (alGet_alSet_other _ _ _ (hne ho)).trans hv
  have hslots : ((cap.setWidth 64 : Quad).extractLsb' 8 5) = cap.extractLsb' 8 5 := by
    ext i hi
    have hlt : 8 + i < 64 := by omega
    simp [hlt]
  refine (bind_of (mmioWrite_word_quiet (v := 0x80000000#32) hq (hbaReg_fits hw (by decide)) hk)).trans ?_
  rw [mmioRead_word (hbaReg_fits hw (by decide)) (by exact hq) (by exact hkeep (by decide) hcap), bind_go,
    mmioRead_word (hbaReg_fits hw (by decide)) (by exact hq) (by exact hkeep (by decide) hpi), bind_go,
    Hba.enabled, word_setWidth, hslots]
  rfl

end Hba

/-- The record of the HBA that a request names. -/
theorem hbaRecord {s : State} {dev : Byte} {c : AhciCtx} (h : OnHba s dev c) :
    alGet s.hba c.port.hba = some c.hba := by
  obtain ⟨d, -, -, -, -, hg⟩ := h
  exact hg

/-- AHCI.INIT of an HBA whose reset bit clears after `k` looks. -/
theorem ahciInitStep_at {s : State} {dev : Byte} {c : AhciCtx} {k : Nat} {ghc cap pi : Word} (hon : OnHba s dev c)
    (hx : s.x.dev = dev) (hfree : s.inflight = none) (hr : rising s.hba = true) (hw : HbaWindow s c)
    (hcap : Reads32 s (c.hbaReg 0x00) cap) (hpi : Reads32 s (c.hbaReg 0x0C) pi) (hghc : ghc.getLsbD 0 = false)
    (hk : k < s.cfg.resetBudget.toNat)
    (hq : s.script = List.replicate (k + 2) ({} : DevAct) ++ [{ regs := [(c.hbaReg 0x04, some (ghc.setWidth 64))] }]) :
    ahciInitStep s = .go ()
      { s with
        pc := .idle
        x := { s.x with iter := BitVec.ofNat 32 k, val := pi.setWidth 64 }
        hba := alSet s.hba c.port.hba
          { c.hba with nSlots := (cap.extractLsb' 8 5).setWidth 6 + 1#6, pi := pi, ready := true }
        claim := none
        leaked := s.leaked.filter fun t => !s.portOf c.port.hba t.chan
        regs := alSet s.regs (c.hbaReg 0x04) 0x80000000#64
        script := []
        log := rd32 (c.hbaReg 0x0C) pi :: rd32 (c.hbaReg 0x00) cap :: wr32 (c.hbaReg 0x04) 0x80000000#32 ::
          rd32 (c.hbaReg 0x04) ghc :: repeated k [rd32 (c.hbaReg 0x04) 0x80000001#32] ++
          wr32 (c.hbaReg 0x04) 0x80000001#32 :: wr32 (c.hbaReg 0x04) 0x80000000#32 :: s.log } := by
  have hg := hbaRecord hon
  have hsplit : s.script = List.replicate 2 ({} : DevAct) ++
      (List.replicate k ({} : DevAct) ++ [{ regs := [(c.hbaReg 0x04, some (ghc.setWidth 64))] }]) := by
    rw [hq, Nat.add_comm, ← List.replicate_append_replicate, List.append_assoc]
  have hstill : ∀ act ∈ s.script.take 2, act = {} := by
    rw [hsplit, List.take_left' (by simp)]
    exact fun _ ha => List.eq_of_mem_replicate ha
  have hne {off : Nat} (ho : off ≠ 0x04) : c.hbaReg off ≠ c.hbaReg 0x04 := by unfold AhciCtx.hbaReg; omega
  have hkeep {off : Nat} {v w u : Quad} (ho : off ≠ 0x04) (hv : alGet s.regs (c.hbaReg off) = some v) :
      alGet (alSet (alSet s.regs (c.hbaReg 0x04) w) (c.hbaReg 0x04) u) (c.hbaReg off) = some v := by
    rw [alSet_alSet]
    exact (alGet_alSet_other _ _ _ (hne ho)).trans hv
  rw [ahciInitStep_reset (hbaCtx_of hon hx) hg hfree hr hw hstill]
  refine (bind_of (waitFor_at (v0 := 0x80000001#32) (v := ghc) (rest := []) (hbaReg_fits hw (by decide))
    (by simpa using hghc) hk ?_ fun _ => ⟨by exact alGet_alSet_same _ _ _, rfl⟩)).trans ?_
  · show s.script.drop 2 = _
    rw [hsplit, List.drop_left' (by simp)]
  rw [ahciInitEnd_quiet (s := s) hw
    (by exact regKind_ghc (w := { c.hba with ready := false }) hw hr hg rfl rfl rfl) (by rfl)
    (by exact hkeep (by decide) hcap) (by exact hkeep (by decide) hpi)]
  simp only [alSet_alSet, settle, forget, hfree]
  rfl

/-- Settles O55: the reset, the wait for its end, and the capabilities. -/
theorem ahciInitCompletes : Obligations.AhciInitCompletes := by
  intro r s c k ghc cap pi hpc hon hfree hr hw hcap hpi hghc hk hq
  exact exec_done (i := .ahciInit r) rfl rfl hpc
    (ahciInitStep_at (s := s.accepted 0x72#8 r) hon rfl hfree hr hw hcap hpi hghc hk hq)

/-! ## PORT.INIT and PORT.RESET (R304 to R307) -/

theorem portStops_with {s : State} {c : AhciCtx} {cmd stopped : Word} {k : Nat} (x : Regs)
    (h : PortStops s c cmd stopped k) : PortStops { s with x := x } c cmd stopped k :=
  ⟨h.shows, h.course, h.running, h.clear, h.budget⟩

/-- PORT.INIT runs the steps of its port once AHCI.INIT has run and no command of the port is outstanding. -/
theorem portInitBody_eq {s : State} {c : AhciCtx} (hctx : s.ahciCtx = .ok c) (hready : c.hba.ready = true)
    (hfree : s.inUse (.port c.p) = false) : portInitBody s = portInitStep c s := by
  rw [portInitBody, hctx, needOk_ok, bind_go, need_of _ _ (by rw [hready, hfree]; rfl), bind_go]

theorem portResetBody_eq {s : State} {c : AhciCtx} (hctx : s.ahciCtx = .ok c) :
    portResetBody s = portInitStep c s := by
  rw [portResetBody, hctx, needOk_ok, bind_go]

/-- Settles O56: both operations by the steps of their port. -/
theorem portInitCompletes : Obligations.PortInitCompletes := by
  intro r s c cmd stopped k hpc hport harena hw hct hstops
  have hctx (op : Byte) : (s.accepted op r).ahciCtx = .ok c := ahciCtx_of hport rfl
  have hsteps (op : Byte) : portInitStep c (s.accepted op r) = .go () (portReady c cmd stopped k (s.accepted op r)) :=
    portInitStep_run hw rfl rfl hport harena hct (portStops_with _ hstops)
  refine ⟨fun hready hfree => ?init, ?reset⟩
  case init =>
    exact exec_done (i := .portInit r) rfl rfl hpc ((portInitBody_eq (hctx 0x73#8) hready hfree).trans (hsteps 0x73#8))
  case reset =>
    exact exec_done (i := .portReset r) rfl rfl hpc ((portResetBody_eq (hctx 0x74#8)).trans (hsteps 0x74#8))

end Sys2Proof.Proofs

/-!
SUPPORT. The NVMe side of bring-up, and the waits that fail (47_system_ops.md): the proofs of O57 and O58.
-/

namespace Sys2Proof.Proofs

open Sys2Proof Sys2Proof.Machine Sys2Proof.Laws

/-! ## The parts of NVME.INIT (R308) -/

/-- The four admin registers that NVME.INIT writes once the rings are zero. -/
def adminRegs (c : NvmeCtx) (regs : List (Nat × Quad)) : List (Nat × Quad) :=
  alSet (alSet (alSet (alSet regs (c.reg 0x24) ((aqaOf c.qp).setWidth 64)) (c.reg 0x28) c.qp.sqBase)
    (c.reg 0x30) c.qp.cqBase) (c.reg 0x14) ((ccOf c.nv).setWidth 64)

/-- From the end of the second wait on: every command of the controller is forgotten. -/
def nvmeInitEnd (c : NvmeCtx) (s : State) : Flow Unit := .go () (settle (forget (s.qpOf c.qp.ctrl) s))

/-- From the end of the first wait up to the second one. -/
def nvmeInitRings (c : NvmeCtx) (s : State) : Flow Unit :=
  (zeroRings (s.qpsOf c.qp.ctrl) s).bind fun _ s =>
  (mmioWrite .w32 (c.reg 0x24) (aqaValue c.qp) s).bind fun _ s =>
  (mmioWrite .w64 (c.reg 0x28) c.qp.sqBase s).bind fun _ s =>
  (mmioWrite .w64 (c.reg 0x30) c.qp.cqBase s).bind fun _ s =>
  (mmioWrite .w32 (c.reg 0x14) (ccValue c.nv) (publish none s)).bind fun _ s =>
  (waitFor (c.reg 0x1C) ctrlReady .controllerNotReady s.cfg.resetBudget s).bind fun _ s => nvmeInitEnd c s

/-- The value of `AQA` fits its register. -/
theorem aqaValue_eq {q : Qp} (h : q.qSize ≤ 4096) : aqaValue q = (aqaOf q).setWidth 64 := by
  have hsmall : (q.qSize - 1) * 65536 + (q.qSize - 1) < 4294967296 := by omega
  rw [aqaValue, aqaOf, BitVec.setWidth_ofNat_of_le_of_lt (by decide) hsmall]

theorem ccValue_eq (n : Nvme) : ccValue n = (ccOf n).setWidth 64 := by
  have hmps : ∀ m : BitVec 4, (0x00460001#64 ||| (m.setWidth 64 <<< 7)) =
      (0x00460001#32 ||| (m.setWidth 32 <<< 7)).setWidth 64 := by decide
  exact hmps n.mps

/-- A 64-bit write to a register that keeps what is written, while the devices' next step, if any, does nothing. -/
theorem mmioWrite_quad_still {a : Nat} {v : Quad} {s : State} (hq : ∀ act ∈ s.script.take 1, act = {})
    (hfit : a + 8 ≤ addrSpace) (hk : s.regKind a = .stored) :
    mmioWrite .w64 a v s = .go ()
      { s with script := s.script.drop 1, regs := alSet s.regs a v, log := .wr .w64 a v :: s.log } := by
  rw [mmioWrite_of hfit, tick_still hq, afterWrite_stored (by exact hk)]
  rfl

/-- Devices that take no step leave nothing of their steps to be taken. -/
theorem script_drop {s : State} {n : Nat} (hq : Quiet s) : s.script.drop n = s.script := by
  rw [hq, List.drop_nil]

section Nvme

variable {s : State} {c : NvmeCtx}

theorem ctrlReg_fits (hw : NvmeWindow s c) {off : Nat} (ho : off + 8 ≤ 0x1000) :
    c.reg off + 8 ≤ addrSpace ∧ c.reg off + 4 ≤ addrSpace := by
  have := hw.1
  unfold NvmeCtx.reg
  omega

theorem ctrlReg_ne {off off' : Nat} (h : off ≠ off') : c.reg off ≠ c.reg off' := by
  unfold NvmeCtx.reg; omega

/-- The record of the controller with the stride that `CAP` gives. -/
abbrev strided (c : NvmeCtx) (cap : Quad) : Nvme := { c.nv with dstrd := cap.extractLsb' 32 4 }

/-- The registers that NVME.INIT writes keep what is written, also once the stride has been set (log 3). -/
theorem regKind_init {t : State} {cap : Quad} (hw : NvmeWindow s c) (hr : rising s.nvme = true)
    (hg : alGet s.nvme c.qp.ctrl = some c.nv) (hh : t.hba = s.hba)
    (ht : t.nvme = alSet s.nvme c.qp.ctrl (strided c cap)) {off : Nat} (ho : off ∈ [0x14, 0x24, 0x28, 0x30]) :
    t.regKind (c.reg off) = .stored := by
  simp only [List.mem_cons, List.not_mem_nil, or_false] at ho
  have hkind {off : Nat} (hoff : off < 0x1000) : t.regKind (c.reg off) = nvmeRegKind off :=
    regKind_ctrl (w := strided c cap) hw hr hg rfl hh ht hoff
  rcases ho with rfl | rfl | rfl | rfl <;> exact (hkind (by decide)).trans rfl

/-- The premises of NVME.INIT. -/
theorem nvmeInitPremises_of (h2 : 2 ≤ c.qp.qSize) (hmax : c.qp.qSize ≤ 4096)
    (haligned : ∀ e ∈ s.qpsOf c.qp.ctrl, e.2.aligned c.nv.pageBytes = true) (harena : s.arenaOk = true) :
    nvmeInitPremises c s = .go () s := by
  rw [nvmeInitPremises, need_of _ _ (by rw [decide_eq_true h2, decide_eq_true hmax]; rfl), bind_go,
    need_of _ _ (List.all_eq_true.mpr haligned), bind_go, need_of _ _ harena]

/-- NVME.INIT up to its first wait, while the devices' first three steps, if any, do nothing. -/
theorem nvmeInitStep_disable {cap : Quad} {cc : Word} (hctx : s.nvmeCtxOf true = .ok c)
    (hpremises : nvmeInitPremises c s = .go () s) (hg : alGet s.nvme c.qp.ctrl = some c.nv)
    (hr : rising s.nvme = true) (hw : NvmeWindow s c) (hq : ∀ act ∈ s.script.take 3, act = {})
    (hcap : alGet s.regs (c.reg 0x00) = some cap) (hcc : Reads32 s (c.reg 0x14) cc) :
    nvmeInitStep s =
      (waitFor (c.reg 0x1C) (fun v => !ctrlReady v) .controllerNotReady s.cfg.resetBudget
        { s with
          nvme := alSet s.nvme c.qp.ctrl (strided c cap)
          script := s.script.drop 3
          regs := alSet s.regs (c.reg 0x14) ((cc &&& 0xFFFFFFFE#32).setWidth 64)
          log := wr32 (c.reg 0x14) (cc &&& 0xFFFFFFFE#32) :: rd32 (c.reg 0x14) cc :: .rd .w64 (c.reg 0x00) cap ::
            s.log }).bind
      fun _ s => nvmeInitRings c s := by
  have hreadCap : mmioRead .w64 (c.reg 0x00) s = .go cap
      { s with script := s.script.drop 1, log := .rd .w64 (c.reg 0x00) cap :: s.log } := by
    have hv : alGet ({ s with script := s.script.drop 1 } : State).regs (c.reg 0x00) = some cap := hcap
    rw [mmioRead_of (ctrlReg_fits hw (by decide)).1, tick_still (still_one hq), busValue_known .w64 hv,
      afterRead_known .w64 hv]
    rfl
  have hreadCc (t : State) (ht : ∀ act ∈ t.script.take 1, act = {}) (hv : Reads32 t (c.reg 0x14) cc) :
      mmioRead .w32 (c.reg 0x14) t = .go (cc.setWidth 64)
        { t with script := t.script.drop 1, log := rd32 (c.reg 0x14) cc :: t.log } := by
    have hv' : alGet ({ t with script := t.script.drop 1 } : State).regs (c.reg 0x14) = some (cc.setWidth 64) := hv
    rw [mmioRead_of (ctrlReg_fits hw (by decide)).2, tick_still ht, busValue_known .w32 hv',
      afterRead_known .w32 hv', trunc_word]
    rfl
  rw [nvmeInitStep, hctx, needOk_ok, bind_go, hpremises, bind_go, bind_of hreadCap,
    bind_of (hreadCc _ (by exact still_one (still_drop hq)) (by exact hcc)),
    and_word cc 0xFFFFFFFE#64 0xFFFFFFFE#32 rfl]
  refine (bind_of (mmioWrite_word_still ?_ (ctrlReg_fits hw (by decide)).2 ?_)).trans ?_
  · exact still_drop (still_drop hq)
  · exact regKind_init (cap := cap) (off := 0x14) hw hr hg (by rfl) (by rfl) (by decide)
  · simp only [setStride, List.drop_drop]
    rfl

/-- The rings and the admin registers, while the devices' steps, if any, do nothing. -/
theorem nvmeInitRings_still {t : State} {cap : Quad} (hw : NvmeWindow s c) (hr : rising s.nvme = true)
    (hg : alGet s.nvme c.qp.ctrl = some c.nv) (hh : t.hba = s.hba)
    (hn : t.nvme = alSet s.nvme c.qp.ctrl (strided c cap)) (hmax : c.qp.qSize ≤ 4096)
    (hfits : ∀ e ∈ t.qpsOf c.qp.ctrl, e.2.sqBase.toNat + 64 * e.2.qSize ≤ t.cfg.memEnd ∧
      e.2.cqBase.toNat + 16 * e.2.qSize ≤ t.cfg.memEnd)
    (hq : ∀ act ∈ t.script.take (2 * (t.qpsOf c.qp.ctrl).length + 4), act = {}) :
    nvmeInitRings c t =
      (waitFor (c.reg 0x1C) ctrlReady .controllerNotReady t.cfg.resetBudget
        { t with
          qp := freshRings t.cfg (t.qpsOf c.qp.ctrl) t.qp
          script := t.script.drop (2 * (t.qpsOf c.qp.ctrl).length + 4)
          regs := adminRegs c t.regs
          mem := zeroed (ringRanges (t.qpsOf c.qp.ctrl)) t.mem
          pend := t.pend.filter fun q => q.byHost
          log := wr32 (c.reg 0x14) (ccOf c.nv) :: .publish :: .wr .w64 (c.reg 0x30) c.qp.cqBase ::
            .wr .w64 (c.reg 0x28) c.qp.sqBase :: wr32 (c.reg 0x24) (aqaOf c.qp) ::
            ((storesOf (ringRanges (t.qpsOf c.qp.ctrl))).reverse ++ t.log) }).bind
      fun _ s => nvmeInitEnd c s := by
  have hkind {u : State} {off : Nat} (h1 : u.hba = t.hba) (h2 : u.nvme = t.nvme) (ho : off ∈ [0x14, 0x24, 0x28, 0x30]) :
      u.regKind (c.reg off) = .stored := regKind_init hw hr hg (h1.trans hh) (h2.trans hn) ho
  have hzero : ∀ act ∈ t.script.take (2 * (t.qpsOf c.qp.ctrl).length), act = {} := fun a ha =>
    hq a (List.take_subset_take_left _ (by omega) ha)
  have hlater (j : Nat) (hj : j < 4) :
      ∀ act ∈ (t.script.drop (2 * (t.qpsOf c.qp.ctrl).length + j)).take 1, act = {} := fun a ha => by
    rw [List.take_drop] at ha
    exact hq a (List.take_subset_take_left _ (by omega) (List.mem_of_mem_drop ha))
  rw [nvmeInitRings, bind_of (zeroRings_still _ t hzero hfits), aqaValue_eq hmax, ccValue_eq]
  refine (bind_of (mmioWrite_word_still ?_ (ctrlReg_fits hw (by decide)).2 ?_)).trans ?_
  · exact hlater 0 (by decide)
  · exact hkind (off := 0x24) rfl rfl (by decide)
  refine (bind_of (mmioWrite_quad_still ?_ (ctrlReg_fits hw (by decide)).1 ?_)).trans ?_
  · rw [List.drop_drop]; exact hlater 1 (by decide)
  · exact hkind (off := 0x28) rfl rfl (by decide)
  refine (bind_of (mmioWrite_quad_still ?_ (ctrlReg_fits hw (by decide)).1 ?_)).trans ?_
  · rw [List.drop_drop, List.drop_drop]; exact hlater 2 (by decide)
  · exact hkind (off := 0x30) rfl rfl (by decide)
  refine (bind_of (mmioWrite_word_still ?_ (ctrlReg_fits hw (by decide)).2 ?_)).trans ?_
  · show ∀ act ∈ (List.drop 1 (List.drop 1 (List.drop 1 (t.script.drop _)))).take 1, act = {}
    rw [List.drop_drop, List.drop_drop, List.drop_drop]; exact hlater 3 (by decide)
  · exact hkind (off := 0x14) rfl rfl (by decide)
  · have hpend (l : List PendStore) : l.flatMap (PendStore.left none) = l.filter fun q => q.byHost :=
      publish_none_pend { t with pend := l }
    simp only [adminRegs, afterZeros, publish, List.drop_drop, hpend, unordered_zeros]

/-- The admin registers are apart from `CSTS`. -/
theorem adminRegs_status (regs : List (Nat × Quad)) :
    alGet (adminRegs c regs) (c.reg 0x1C) = alGet regs (c.reg 0x1C) := by
  rw [adminRegs, alGet_alSet_other _ _ _ (ctrlReg_ne (by decide)), alGet_alSet_other _ _ _ (ctrlReg_ne (by decide)),
    alGet_alSet_other _ _ _ (ctrlReg_ne (by decide)), alGet_alSet_other _ _ _ (ctrlReg_ne (by decide))]

theorem alSet_adminRegs_status (regs : List (Nat × Quad)) (v : Quad) :
    alSet (adminRegs c regs) (c.reg 0x1C) v = adminRegs c (alSet regs (c.reg 0x1C) v) := by
  have hne {off : Nat} (ho : off ≠ 0x1C) (l : List (Nat × Quad)) (u w : Quad) :
      alSet (alSet l (c.reg off) u) (c.reg 0x1C) w = alSet (alSet l (c.reg 0x1C) w) (c.reg off) u :=
    alSet_comm l u w (ctrlReg_ne ho)
  rw [adminRegs, hne (by decide), hne (by decide), hne (by decide), hne (by decide), adminRegs]

/-- The rings of a controller end within system memory. -/
theorem qpsOf_fits (hr : rising s.qp = true) (ha : s.arenaOk = true) {n : Nat} :
    ∀ e ∈ s.qpsOf n, e.2.sqBase.toNat + 64 * e.2.qSize ≤ s.cfg.memEnd ∧
      e.2.cqBase.toNat + 16 * e.2.qSize ≤ s.cfg.memEnd := by
  intro e he
  have hg := alGet_of_mem hr (List.mem_of_mem_filter he)
  exact ⟨sq_fits hg ha, cq_fits hg ha⟩

/-- The reset state of the queue pairs changes none of their controllers. -/
theorem qpOf_freshRings {t : State} {n m : Nat} (hr : rising s.qp = true)
    (ht : t.qp = freshRings s.cfg (s.qpsOf n) s.qp) : t.qpOf m = s.qpOf m := by
  have hctrl (q : Nat) : (alGet t.qp q).map Qp.ctrl = (alGet s.qp q).map Qp.ctrl := by
    rw [ht]
    refine freshRings_ctrl s.cfg (s.qpsOf n) s.qp (fun e he => ?_) q
    rw [alGet_of_mem hr (List.mem_of_mem_filter he), Option.map_some]
  have hany (l : List (Nat × Qp)) (q : Nat) :
      (alGet l q).any (fun r => r.ctrl == m) = ((alGet l q).map Qp.ctrl).any (· == m) := by
    cases alGet l q <;> rfl
  funext ch
  cases ch with
  | port p => rfl
  | qp q => simp only [State.qpOf, hany, hctrl]

end Nvme

/-- The accesses of NVME.INIT up to the write that enables the controller, newest first. -/
theorem nvmeInitTrace_newest (c : NvmeCtx) (qs : List (Nat × Qp)) (cap : Quad) (cc : Word) (d : Disabling)
    (l : List BusEvent) :
    (nvmeInitTrace c qs cap cc d).reverse ++ l =
      wr32 (c.reg 0x14) (ccOf c.nv) :: .publish :: .wr .w64 (c.reg 0x30) c.qp.cqBase ::
        .wr .w64 (c.reg 0x28) c.qp.sqBase :: wr32 (c.reg 0x24) (aqaOf c.qp) ::
        ((storesOf (ringRanges qs)).reverse ++ rd32 (c.reg 0x1C) d.off ::
          (repeated d.looks [rd32 (c.reg 0x1C) d.csts] ++ wr32 (c.reg 0x14) (cc &&& 0xFFFFFFFE#32) ::
            rd32 (c.reg 0x14) cc :: .rd .w64 (c.reg 0x00) cap :: l)) := by
  simp [nvmeInitTrace, repeated_reverse]

/-- What NVME.INIT asks of its request and its controller before the first access. -/
structure InitAsks (s : State) (dev : Byte) (c : NvmeCtx) : Prop where
  queue : OnQueue s dev true c
  rising : rising s.nvme = true
  window : NvmeWindow s c
  atLeast : 2 ≤ c.qp.qSize
  atMost : c.qp.qSize ≤ 4096
  aligned : ∀ e ∈ s.qpsOf c.qp.ctrl, e.2.aligned c.nv.pageBytes = true
  arena : s.arenaOk = true

section Init

variable {s : State} {dev : Byte} {c : NvmeCtx} {cap : Quad} {cc : Word}

theorem ctrlRecord (h : InitAsks s dev c) : alGet s.nvme c.qp.ctrl = some c.nv := by
  obtain ⟨-, -, -, -, hg⟩ := h.queue
  exact hg

/-- NVME.INIT, once its premises hold, up to its first wait. -/
theorem nvmeInitStep_asks (h : InitAsks s dev c) (hx : s.x.dev = dev) (hq : ∀ act ∈ s.script.take 3, act = {})
    (hcap : alGet s.regs (c.reg 0x00) = some cap) (hcc : Reads32 s (c.reg 0x14) cc) :
    nvmeInitStep s =
      (waitFor (c.reg 0x1C) (fun v => !ctrlReady v) .controllerNotReady s.cfg.resetBudget
        { s with
          nvme := alSet s.nvme c.qp.ctrl (strided c cap)
          script := s.script.drop 3
          regs := alSet s.regs (c.reg 0x14) ((cc &&& 0xFFFFFFFE#32).setWidth 64)
          log := wr32 (c.reg 0x14) (cc &&& 0xFFFFFFFE#32) :: rd32 (c.reg 0x14) cc :: .rd .w64 (c.reg 0x00) cap ::
            s.log }).bind
      fun _ s => nvmeInitRings c s :=
  nvmeInitStep_disable (nvmeCtxOf_of h.queue hx) (nvmeInitPremises_of h.atLeast h.atMost h.aligned h.arena)
    (ctrlRecord h) h.rising h.window hq hcap hcc

/-- NVME.INIT of a controller that is disabled after some looks, and ready after `k` looks once it is enabled. -/
theorem nvmeInitStep_at {d : Disabling} {act : DevAct} {k : Nat} {cstsEnd : Word} (h : InitAsks s dev c)
    (hx : s.x.dev = dev) (hqp : Machine.rising s.qp = true) (hcap : alGet s.regs (c.reg 0x00) = some cap)
    (hcc : Reads32 s (c.reg 0x14) cc) (hd : Disables s c d act) (hk : k < s.cfg.resetBudget.toNat)
    (hend : cstsEnd.getLsbD 0 = true)
    (hq : s.script = List.replicate (3 + d.looks) ({} : DevAct) ++ act ::
      (List.replicate (4 + 2 * (s.qpsOf c.qp.ctrl).length + k) ({} : DevAct) ++
        [{ regs := [(c.reg 0x1C, some (cstsEnd.setWidth 64))] }])) :
    nvmeInitStep s = .go () (nvmeInitDone c cap cc d k cstsEnd s) := by
  have hfit := (ctrlReg_fits h.window (off := 0x1C) (by decide)).2
  have hsplit : s.script = List.replicate 3 ({} : DevAct) ++ (List.replicate d.looks ({} : DevAct) ++ act ::
      (List.replicate (4 + 2 * (s.qpsOf c.qp.ctrl).length + k) ({} : DevAct) ++
        [{ regs := [(c.reg 0x1C, some (cstsEnd.setWidth 64))] }])) := by
    rw [hq, ← List.replicate_append_replicate, List.append_assoc]
  have hstill : ∀ act ∈ s.script.take 3, act = {} := by
    rw [hsplit, List.take_left' (by simp)]
    exact fun _ ha => List.eq_of_mem_replicate ha
  have hlast : List.replicate (4 + 2 * (s.qpsOf c.qp.ctrl).length + k) ({} : DevAct) ++
        [{ regs := [(c.reg 0x1C, some (cstsEnd.setWidth 64))] }] =
      List.replicate (2 * (s.qpsOf c.qp.ctrl).length + 4) ({} : DevAct) ++
        (List.replicate k ({} : DevAct) ++ [{ regs := [(c.reg 0x1C, some (cstsEnd.setWidth 64))] }]) := by
    rw [← List.append_assoc, List.replicate_append_replicate, Nat.add_comm 4]
  rw [nvmeInitStep_asks h hx hstill hcap hcc]
  obtain ⟨regs, hwait, hoff, hset⟩ := waitDisabled_run hfit hd (s := { s with
      nvme := alSet s.nvme c.qp.ctrl (strided c cap)
      script := s.script.drop 3
      regs := alSet s.regs (c.reg 0x14) ((cc &&& 0xFFFFFFFE#32).setWidth 64)
      log := wr32 (c.reg 0x14) (cc &&& 0xFFFFFFFE#32) :: rd32 (c.reg 0x14) cc :: .rd .w64 (c.reg 0x00) cap :: s.log })
    ((alGet_alSet_other _ _ _ (ctrlReg_ne (by decide))).trans hd.shows) rfl
    (by show s.script.drop 3 = _; rw [hsplit, List.drop_left' (by simp)])
  rw [bind_of hwait, nvmeInitRings_still (cap := cap) h.window h.rising (ctrlRecord h) (by rfl) (by rfl) h.atMost
    (by exact qpsOf_fits hqp h.arena) ?still]
  case still =>
    show ∀ act ∈ List.take (2 * (s.qpsOf c.qp.ctrl).length + 4) _, act = ({} : DevAct)
    rw [hlast, List.take_left' (by simp)]
    exact fun _ ha => List.eq_of_mem_replicate ha
  rw [bind_of (waitFor_at (k := k) (v0 := d.off) (v := cstsEnd) (rest := []) hfit (by rw [ctrlReady_word]; exact hend)
    (by exact hk) ?script fun _ => ⟨?shows, ?notReady⟩)]
  case script =>
    show List.drop (2 * (s.qpsOf c.qp.ctrl).length + 4) _ = _
    rw [hlast, List.drop_left' (by simp)]
  case shows => exact (adminRegs_status _).trans hoff
  case notReady => rw [ctrlReady_word]; exact hd.clear
  rw [nvmeInitEnd, qpOf_freshRings (s := s) hqp (by rfl)]
  simp only [settle, forget, nvmeInitDone, nvmeEnabled, nvmeInitTrace_newest]
  rw [alSet_adminRegs_status, hset, ← alSet_adminRegs_status]
  rfl

/-- NVME.INIT of a controller that stays ready while it is disabled. -/
theorem nvmeInitStep_staysReady {csts : Word} (h : InitAsks s dev c) (hx : s.x.dev = dev) (hq : Quiet s)
    (hcap : alGet s.regs (c.reg 0x00) = some cap) (hcc : Reads32 s (c.reg 0x14) cc)
    (hcsts : Reads32 s (c.reg 0x1C) csts) (hready : csts.getLsbD 0 = true) :
    nvmeInitStep s = .stop (raised .controllerNotReady .idle
      { s with
        x := { s.x with iter := s.cfg.resetBudget }
        nvme := alSet s.nvme c.qp.ctrl (strided c cap)
        regs := alSet s.regs (c.reg 0x14) ((cc &&& 0xFFFFFFFE#32).setWidth 64)
        log := repeated s.cfg.resetBudget.toNat [rd32 (c.reg 0x1C) csts] ++
          wr32 (c.reg 0x14) (cc &&& 0xFFFFFFFE#32) :: rd32 (c.reg 0x14) cc :: .rd .w64 (c.reg 0x00) cap :: s.log }) := by
  have hfit := (ctrlReg_fits h.window (off := 0x1C) (by decide)).2
  have hstatus : alGet (alSet s.regs (c.reg 0x14) ((cc &&& 0xFFFFFFFE#32).setWidth 64)) (c.reg 0x1C)
      = some (csts.setWidth 64) := (alGet_alSet_other _ _ _ (ctrlReg_ne (by decide))).trans hcsts
  rw [nvmeInitStep_asks h hx (by rw [hq]; exact fun _ ha => nomatch ha) hcap hcc, script_drop hq,
    waitFor_out hfit (by exact hq) (by exact hstatus)
      (by rw [ctrlReady_word, hready]; rfl), bind_stop]

/-- NVME.INIT of a controller that is disabled at once and never becomes ready. -/
theorem nvmeInitStep_unready {csts : Word} (h : InitAsks s dev c) (hx : s.x.dev = dev) (hq : Quiet s)
    (hqp : Machine.rising s.qp = true) (hbudget : s.cfg.resetBudget ≠ 0#32)
    (hcap : alGet s.regs (c.reg 0x00) = some cap) (hcc : Reads32 s (c.reg 0x14) cc)
    (hcsts : Reads32 s (c.reg 0x1C) csts) (hready : csts.getLsbD 0 = false) :
    nvmeInitStep s = .stop (nvmeInitUnready c cap cc csts s) := by
  have hfit := (ctrlReg_fits h.window (off := 0x1C) (by decide)).2
  have hstatus : alGet (alSet s.regs (c.reg 0x14) ((cc &&& 0xFFFFFFFE#32).setWidth 64)) (c.reg 0x1C)
      = some (csts.setWidth 64) := (alGet_alSet_other _ _ _ (ctrlReg_ne (by decide))).trans hcsts
  rw [nvmeInitStep_asks h hx (by rw [hq]; exact fun _ ha => nomatch ha) hcap hcc, script_drop hq,
    bind_of (waitFor_first hfit (by exact hq) (by exact hstatus)
      (by rw [ctrlReady_word, hready]; rfl) hbudget),
    nvmeInitRings_still (cap := cap) h.window h.rising (ctrlRecord h) (by rfl) (by rfl) h.atMost
      (by exact qpsOf_fits hqp h.arena) (by show ∀ act ∈ List.take _ s.script, _; rw [hq]; exact fun _ ha => nomatch ha)]
  rw [script_drop (by exact hq), waitFor_out (v := csts) hfit (by exact hq) ?shows (by rw [ctrlReady_word]; exact hready),
    bind_stop]
  case shows => exact (adminRegs_status _).trans hstatus
  simp only [nvmeInitUnready, nvmeEnabled, nvmeInitTrace_newest]
  rfl

end Init

/-- Settles O57: the parts of NVME.INIT one after the other. -/
theorem nvmeInitCompletes : Obligations.NvmeInitCompletes := by
  intro r s c cap cc d act k cstsEnd hpc hqueue hr hqp hw h2 hmax haligned harena hcap hcc hd hk hend hq
  exact exec_done (i := .nvmeInit r) rfl rfl hpc (nvmeInitStep_at (s := s.accepted 0x75#8 r) (dev := r.dev)
    ⟨hqueue, hr, hw, h2, hmax, haligned, harena⟩ rfl hqp hcap hcc ⟨hd.shows, hd.course, hd.ready, hd.clear, hd.budget⟩
    hk hend hq)

/-! ## The waits that fail -/

/-- AHCI.INIT of an HBA whose reset bit stays set. -/
theorem ahciInitStep_out {s : State} {dev : Byte} {c : AhciCtx} (hon : OnHba s dev c) (hx : s.x.dev = dev)
    (hq : Quiet s) (hfree : s.inflight = none) (hr : rising s.hba = true) (hw : HbaWindow s c) :
    ahciInitStep s = .stop (raised .controllerNotReady .idle
      { s with
        x := { s.x with iter := s.cfg.resetBudget }
        hba := alSet s.hba c.port.hba { c.hba with ready := false }
        regs := alSet s.regs (c.hbaReg 0x04) 0x80000001#64
        log := repeated s.cfg.resetBudget.toNat [rd32 (c.hbaReg 0x04) 0x80000001#32] ++
          wr32 (c.hbaReg 0x04) 0x80000001#32 :: wr32 (c.hbaReg 0x04) 0x80000000#32 :: s.log }) := by
  rw [ahciInitStep_reset (hbaCtx_of hon hx) (hbaRecord hon) hfree hr hw (by rw [hq]; exact fun _ ha => nomatch ha),
    script_drop hq, waitFor_out (v := 0x80000001#32) (hbaReg_fits hw (by decide)) (by exact hq)
      (by exact alGet_alSet_same _ _ _) rfl, bind_stop]

/-- The steps of PORT.INIT on a port that does not stop: no base register is written. -/
theorem portInitStep_out {s : State} {c : AhciCtx} {cmd : Word} (hq : Quiet s) (harena : PortArena s c)
    (hw : HbaWindow s c) (hct : c.hba.nSlots.toNat ≤ c.port.ct.length) (hcmd : Reads32 s (c.portReg 0x18) cmd)
    (hruns : cmd &&& 0xC000#32 ≠ 0#32) :
    portInitStep c s = .stop (raised .portHung .idle
      { s with
        x := { s.x with iter := s.cfg.resetBudget }
        regs := alSet s.regs (c.portReg 0x18) ((cmd &&& 0xFFFFFFEE#32).setWidth 64)
        log := repeated s.cfg.resetBudget.toNat [rd32 (c.portReg 0x18) (cmd &&& 0xFFFFFFEE#32)] ++
          wr32 (c.portReg 0x18) (cmd &&& 0xFFFFFFEE#32) :: wr32 (c.portReg 0x18) (cmd &&& 0xFFFFFFFE#32) ::
          rd32 (c.portReg 0x18) cmd :: s.log }) := by
  have hrunning : enginesStopped ((cmd &&& 0xFFFFFFEE#32).setWidth 64) = false := by
    rw [enginesStopped, word_setWidth, BitVec.and_assoc, show 0xFFFFFFEE#32 &&& 0x0000C000#32 = 0xC000#32 from rfl]
    exact beq_false_of_ne hruns
  rw [portInitStep, ahciPremises_of harena, bind_go, need_of _ _ (decide_eq_true hct), bind_go,
    portStop_quiet hw rfl rfl hq hcmd,
    waitFor_out (portWindow_fits hw (by decide)) (by exact hq) (by exact alGet_alSet_same _ _ _) hrunning, bind_stop]

/-- Settles O58: one wait of each bring-up operation, and both of NVME.INIT. -/
theorem bringUpFailures : Obligations.BringUpFailures := by
  refine ⟨fun r s c hpc hq hon hfree hr hw => ?ahci,
    fun r s c cmd hpc hq hport harena hw hct hcmd hruns => ⟨fun hready hfree => ?portInit, ?portReset⟩,
    fun r s c cap cc csts hpc hq hqueue hr hw h2 hmax haligned harena hcap hcc hcsts hready => ?staysReady,
    fun r s c cap cc csts hpc hq hqueue hr hqp hw h2 hmax haligned harena hbudget hcap hcc hcsts hready => ?unready⟩
  case ahci =>
    exact exec_failed (i := .ahciInit r) rfl rfl hpc
      (ahciInitStep_out (s := s.accepted 0x72#8 r) hon rfl hq hfree hr hw)
  case portInit =>
    have hctx : (s.accepted 0x73#8 r).ahciCtx = .ok c := ahciCtx_of hport rfl
    exact exec_failed (i := .portInit r) rfl rfl hpc ((portInitBody_eq hctx hready hfree).trans
      (portInitStep_out (s := s.accepted 0x73#8 r) hq harena hw hct hcmd hruns))
  case portReset =>
    have hctx : (s.accepted 0x74#8 r).ahciCtx = .ok c := ahciCtx_of hport rfl
    exact exec_failed (i := .portReset r) rfl rfl hpc ((portResetBody_eq hctx).trans
      (portInitStep_out (s := s.accepted 0x74#8 r) hq harena hw hct hcmd hruns))
  case staysReady =>
    exact exec_failed (i := .nvmeInit r) rfl rfl hpc (nvmeInitStep_staysReady (s := s.accepted 0x75#8 r) (dev := r.dev)
      ⟨hqueue, hr, hw, h2, hmax, haligned, harena⟩ rfl hq hcap hcc hcsts hready)
  case unready =>
    exact exec_failed (i := .nvmeInit r) rfl rfl hpc (nvmeInitStep_unready (s := s.accepted 0x75#8 r) (dev := r.dev)
      ⟨hqueue, hr, hw, h2, hmax, haligned, harena⟩ rfl hq hqp hbudget hcap hcc hcsts hready)

end Sys2Proof.Proofs
